-- ==== Sys2Proof/Word.lean ====
section
/-! DEFINITION. The widths the manual counts in: bytes of the link and of the window, and 32-bit words. -/

namespace Sys2Proof

/-- One byte of a frame, of an order box or of a burst. -/
abbrev Byte := BitVec 8

/-- One 32-bit word: a register, a result word, a source key. -/
abbrev Word := BitVec 32

end Sys2Proof
end

