-- ==== Sys2Proof/Syntax.lean ====
section
/-! DEFINITION. The commands of the part: one constructor for each row of spec/opcode_table.json, with what the
sender of the step supplies as operands. -/

namespace Sys2Proof

/-- The two 32-bit words of WINDOW_BASE (R176). -/
inductive WordHalf where
  | low
  | high
  deriving DecidableEq, Repr

/-- The three requesters of the Bus Master Unit (R157). -/
inductive Requester where
  | scanner
  | exporter
  | loader
  deriving DecidableEq, Repr

/-- Why a box read is not used (R148): the second reading of the post differs from the first, or the Bus Master
Unit reports the read in progress as faulted. -/
inductive TornCause where
  | differs
  | faulted
  deriving DecidableEq, Repr

/-- What the check bits of one ECC word say at a read (R166). -/
inductive Ecc where
  | clean
  | single
  | uncorrectable
  deriving DecidableEq, Repr

/-- One ECC word of local DRAM, in the store it belongs to (R166). -/
inductive DramWord where
  | raw (channel : Fin 2048) (slot : Fin 65536)
  | pilot (page : Fin 256) (place : Fin 1024)
  | acc (bin : Fin 8) (position : Fin 2048) (lag : Fin 16384)
  deriving DecidableEq, Repr

/-- A bit error that has arisen in a word of local DRAM (log 3). -/
structure Upset where
  word : DramWord
  kind : Ecc
  deriving DecidableEq, Repr

/-- The commands, in the order of spec/opcode_table.json. `upsets` are the errors that have arisen in local DRAM
since the last command that carried such a list; the commands that may read local DRAM carry one (log 3). -/
inductive Instr where
  /-- POWER_ON_RESET (R12). -/
  | powerOnReset
  /-- FULL_RESET (R12): a CONTROL write with RESET 2; `value` is the word written. -/
  | fullReset (value : Word)
  /-- WORK_RESET (R13): a CONTROL write with RESET 1. -/
  | workReset (value : Word)
  /-- SCAN_EN_INT_EN_WRITE (R175): a CONTROL write that resets nothing. -/
  | scanEnIntEnWrite (value : Word)
  /-- NUDGE (R145): a write to NUDGE, of any value. -/
  | nudge (value : Word)
  /-- WINDOW_BASE_WRITE (R176): a write to one of the two words. -/
  | windowBaseWrite (half : WordHalf) (value : Word)
  /-- WINDOW_SIZE_WRITE (R176). -/
  | windowSizeWrite (value : Word) (upsets : List Upset)
  /-- EVENT_PENDING_WRITE (R172). -/
  | eventPendingWrite (value : Word)
  /-- EVENT_MASK_WRITE (R173). -/
  | eventMaskWrite (value : Word)
  /-- REGISTER_WRITE_IGNORED (R174): a write of `width` bits at a register offset, which has no effect. -/
  | registerWriteIgnored (offset width value : Nat)
  /-- SCRUB_COMPLETE (R2). -/
  | scrubComplete
  /-- SCAN_TIMER_EXPIRY (R145). -/
  | scanTimerExpiry
  /-- FRAME_ARRIVAL (R16): the bytes of one whole frame at a port. -/
  | frameArrival (port : Fin 4) (bytes : List Byte) (upsets : List Upset)
  /-- CARRIER_LOSS (R27). -/
  | carrierLoss (port : Fin 4) (upsets : List Upset)
  /-- CARRIER_PRESENT (R27). -/
  | carrierPresent (port : Fin 4)
  /-- PILOT_SAMPLE_READ (R88): the pass in flight reads its next pilot sample. -/
  | pilotSampleRead (upsets : List Upset)
  /-- RAW_SAMPLE_READ (R42): the pass in flight reads its next raw sample. -/
  | rawSampleRead (upsets : List Upset)
  /-- COMPUTE_END (R97). -/
  | computeEnd
  /-- TRACE_APPLY (R112): the Stack Unit applies the next trace of the block. -/
  | traceApply (upsets : List Upset)
  /-- BURST_HANDED_OVER (R159): the burst on the issue port has been handed to the link. -/
  | burstHandedOver
  /-- READ_COMPLETION_TIMEOUT (R160): 10 ms have passed over the requester's read burst; `received` is the part
  of its data that has arrived. -/
  | readCompletionTimeout (requester : Requester) (received : List Byte)
  /-- HOST_POST_READ_DONE (R147): the first reading of the box's host post. -/
  | hostPostReadDone (post : Byte)
  /-- BODY_READ_DONE (R148): bytes 1..127 of the host half. -/
  | bodyReadDone (body : List Byte)
  /-- TORN_READ (R148). -/
  | tornRead (cause : TornCause)
  /-- BASELINE_POST_RECHECK_DONE (R152): the second baseline reading of the post. -/
  | baselinePostRecheckDone (post : Byte)
  /-- BAD_KIND (R149); here and in the ten rows below `post` is the second reading of the box's post, and the
  order's fields are in the body that the scanner holds. -/
  | badKind (post : Byte)
  /-- CONFIGURE (R5). -/
  | configure (post : Byte)
  /-- END_RECORDING (R9). -/
  | endRecording (post : Byte)
  /-- LOAD_PILOT (R55). -/
  | loadPilot (post : Byte)
  /-- DROP_PILOT (R62). -/
  | dropPilot (post : Byte)
  /-- SWEEP (R67). -/
  | sweep (post : Byte) (upsets : List Upset)
  /-- CANCEL (R82). -/
  | cancel (post : Byte) (upsets : List Upset)
  /-- FLEET_ORDER (R81). -/
  | fleetOrder (post : Byte) (upsets : List Upset)
  /-- OPEN_BIN (R110). -/
  | openBin (post : Byte)
  /-- CLOSE_BIN (R126). -/
  | closeBin (post : Byte) (upsets : List Upset)
  /-- DISCARD_BIN (R122). -/
  | discardBin (post : Byte)
  /-- ANSWER_FIRST_WRITE_DONE (R151). -/
  | answerFirstWriteDone
  /-- ANSWER_SECOND_WRITE_DONE (R151). -/
  | answerSecondWriteDone
  /-- ANSWER_WRITE_FAULT (R151). -/
  | answerWriteFault
  /-- STATUS_PAGE_WRITE_DONE (R154). -/
  | statusPageWriteDone
  /-- STATUS_PAGE_WRITE_FAULT (R154). -/
  | statusPageWriteFault
  /-- EXPORT_BURST_DONE (R129). -/
  | exportBurstDone (upsets : List Upset)
  /-- EXPORT_BURST_FAULT (R134). -/
  | exportBurstFault (upsets : List Upset)
  /-- PILOT_BURST_DONE (R57): the whole data of the burst. -/
  | pilotBurstDone (data : List Byte)
  /-- PILOT_BURST_FAULT (R57): the part of the data that arrived before the error. -/
  | pilotBurstFault (received : List Byte)
  deriving DecidableEq, Repr

end Sys2Proof
end

