-- ==== Sys2Proof/Decode.lean ====
section
/-! DEFINITION. The command that a word spells by the bits of spec/opcode_table.json. The table gives bits to none of
its 45 rows (its "fields" are empty and it has no "fixed"), so no word spells a command (log 19). -/

namespace Sys2Proof

/-- The command spelled by a word of `nbits` bits: none, since no row of the table has bits. -/
def decodeTableWord (_nbits _w : Nat) : Option Instr := none

end Sys2Proof
end

