-- ==== Sys2Proof/Config.lean ====
section
/-! DEFINITION. What the manual leaves open: free values, constants with no body. -/

namespace Sys2Proof

/-- The load serial that a LOADING position shows (bytes 8..11 of its summary, 13.4). R51 calls the serial
"the serial given to the load that installed the entry", and a LOADING position has had no such load: the
manual states no value. One fresh value for each draw; `State.freeDraws` counts the draws (log 12). -/
opaque Config.loadingSerial : Nat → Word

end Sys2Proof
end

