-- ==== Sys2Proof/Machine/State.lean ====
section
/-! DEFINITION. The state of the part as plain data, block by block (00, "Block diagram"), the reasons a step could
stop, and the state right after a power-on reset. -/

namespace Sys2Proof.Machine

/-! ## Device and Register Port -/

/-- The device state (R1). -/
inductive DeviceState where
  | init
  | idle
  | recording
  deriving DecidableEq, Repr

/-- The recording configuration (R6); the scan period it sets is `Board.period`. -/
structure Session where
  interval : Nat
  epoch    : Nat
  counts   : Vector Nat 4
  deriving DecidableEq, Repr

/-- CONTROL, WINDOW_BASE and WINDOW_SIZE (R175, R176). -/
structure Registers where
  scanEn   : Bool
  intEn    : Bool
  baseLow  : Word
  baseHigh : Word
  size     : Word
  deriving DecidableEq, Repr

/-- The Event Unit (R170 to R173). `messageEnabled` is the PCIe endpoint's input and `linkUp` the state of the PCIe link,
which no command changes; the two message counts are the model's own record of the messages sent (log 11). -/
structure EventUnit where
  pending        : BitVec 5
  mask           : BitVec 5
  messageEnabled : Bool
  linkUp         : Bool
  messagesSent   : Nat
  messagesLost   : Nat
  deriving DecidableEq, Repr

/-! ## Spread Link Ports -/

/-- The port states (02, 2.2). -/
inductive PortState where
  | down
  | syncing
  | live
  | degraded
  | cut
  deriving DecidableEq, Repr

/-- The nine cumulative counts of a port (R31). -/
structure PortCounts where
  crc       : Nat
  format    : Nat
  sequence  : Nat
  time      : Nat
  gap       : Nat
  late      : Nat
  cutErrors : Nat
  cutSignal : Nat
  cutStall  : Nat
  deriving DecidableEq, Repr

/-- The record of one port (02, opening table). -/
structure Port where
  state    : PortState
  carrier  : Bool
  errors   : Nat
  recovery : Nat
  syncRun  : Nat
  syncTag  : Option Nat
  frontier : Option Int
  counts   : PortCounts
  deriving DecidableEq, Repr

/-! ## Sample Store -/

/-- W, the settled index, the pin and the scan map (03). O is `W - 65,535` (R37). The scan map lists the set marks
by `port * 65536 + slot`. -/
structure SampleStore where
  newest  : Option Int
  settled : Option Int
  marks   : List (Nat × Bool)
  pin     : Option Nat
  deriving DecidableEq, Repr

/-! ## Pilot Library -/

/-- The states of a pilot entry (R51). -/
inductive PilotState where
  | loading
  | ready
  | damaged
  deriving DecidableEq, Repr

/-- One entry of the library (R51). -/
structure PilotEntry where
  id       : Nat
  state    : PilotState
  length   : Nat
  shift    : Nat
  interval : Nat
  pages    : List (Fin 256)
  useCount : Nat
  serial   : Word
  deriving DecidableEq, Repr

/-- The load in flight (R56): the order's fields, its box and post, the reserved pages and position, and the
progress of the copy with its CRC register (R57, R58). -/
structure LoadSlot where
  id          : Nat
  length      : Nat
  shift       : Nat
  interval    : Nat
  expectedCrc : Word
  box         : Fin 64
  post        : Byte
  pages       : List (Fin 256)
  position    : Option (Fin 16)
  imageOffset : Nat
  received    : Nat
  crc         : Word
  deriving DecidableEq, Repr

/-- The sixteen positions, the load slot and the load serial counter (R51, R53, R54). -/
structure Library where
  entries : Vector (Option PilotEntry) 16
  load    : Option LoadSlot
  serial  : Word
  deriving DecidableEq, Repr

/-! ## Sweep Scheduler -/

/-- The states of a job (R69). -/
inductive JobState where
  | waiting
  | ready
  | active
  deriving DecidableEq, Repr

/-- One job-table entry that holds a job (R69). -/
structure Job where
  box           : Fin 64
  post          : Byte
  fleet         : Fin 8
  pilot         : Fin 16
  bin           : Fin 8
  t0            : Nat
  needFirst     : Nat
  needLast      : Nat
  blocksTotal   : Nat
  nextBlock     : Nat
  state         : JobState
  cancelPending : Bool
  blocksDone    : Nat
  accepted      : Nat
  noise         : Nat
  gapped        : Nat
  clipped       : Nat
  surplus       : Nat
  totalMissing  : Nat
  deriving DecidableEq, Repr

/-- The arbitration mode (R72). -/
inductive FleetMode where
  | rotate
  | fixed
  deriving DecidableEq, Repr

/-- The Scheduler's state (05, opening table). -/
structure Scheduler where
  jobs     : Vector (Option Job) 32
  queues   : Vector (List (Fin 32)) 8
  priority : List (Fin 8)
  mode     : FleetMode
  hold     : BitVec 8
  deriving DecidableEq, Repr

/-! ## Correlation Engine -/

/-- What the Scheduler hands the Engine at a pass start (R75). -/
structure PassRecord where
  job          : Fin 32
  pilot        : Fin 16
  pages        : List (Fin 256)
  length       : Nat
  shift        : Nat
  bin          : Fin 8
  block        : Nat
  firstChannel : Nat
  lastChannel  : Nat
  lagFirst     : Nat
  lagLast      : Nat
  lags         : Nat
  t0           : Nat
  needFirst    : Nat
  needLast     : Nat
  deriving DecidableEq, Repr

/-- A correlated trace as it is handed to the Stack Unit (R97). -/
structure Trace where
  channel     : Nat
  values      : List Int
  measure     : Nat
  missing     : Nat
  saturations : Nat
  deriving DecidableEq, Repr

/-- The Engine (R86): no pass; COMPUTE with the pilot buffer, the finished readings of the block's earlier channels
and the readings of the channel being read (`none` is a missing sample); or STACK with the traces still to be
handed over. -/
inductive Engine where
  | noPass
  | compute (record : PassRecord) (pilot : List Int) (finished : List (List (Option Int)))
      (reading : List (Option Int))
  | stack (record : PassRecord) (traces : List Trace)
  deriving DecidableEq, Repr

/-! ## Stack Unit -/

/-- The on-chip fields of a channel record (R103). -/
structure ChannelRecord where
  fold         : Nat
  noise        : Nat
  gapped       : Nat
  clipped      : Nat
  surplus      : Nat
  consecutive  : Nat
  noisy        : Bool
  poisoned     : Bool
  referenceSum : Nat
  missTotal    : Nat
  deriving DecidableEq, Repr

/-- The states of a bin that is not FREE (R101). -/
inductive BinPhase where
  | opened
  | draining
  | exporting
  | held
  deriving DecidableEq, Repr

/-- The record of a bin that is not FREE (R102). -/
structure BinRecord where
  phase            : BinPhase
  key              : Word
  mask             : Word
  box              : Fin 64
  post             : Byte
  firstChannel     : Nat
  channelCount     : Nat
  lagFirst         : Nat
  lagLast          : Nat
  targetFold       : Nat
  ratio8           : Nat
  hyst8            : Nat
  ceiling          : Nat
  tripCount        : Nat
  missLimit        : Nat
  fillCode         : Word
  exportOffset     : Nat
  pendingJobs      : Nat
  channelsAtTarget : Nat
  channels         : List ChannelRecord
  deriving DecidableEq, Repr

/-- The last export result of a bin number (R138). -/
inductive ExportResult where
  | none
  | done
  | writeFault
  deriving DecidableEq, Repr

/-- One bin: FREE is a bin without a record (R102); the export result and the held-fault offset belong to the bin
number and outlive the record (R138). -/
structure Bin where
  record          : Option BinRecord
  lastExport      : ExportResult
  heldFaultOffset : Nat
  deriving DecidableEq, Repr

/-- The export writer at work on the bin at the head of the queue (R129): the next channel to form, the bytes of
the extent whose bursts are completed, the formed bytes not yet in a burst, and the counts of R133. -/
structure Writer where
  bin         : Fin 8
  nextChannel : Nat
  written     : Nat
  formed      : List Byte
  emptyCount  : Nat
  poisonCount : Nat
  noisyCount  : Nat
  deriving DecidableEq, Repr

/-- The Stack Unit (R101, R128). -/
structure StackUnit where
  bins        : Vector Bin 8
  exportQueue : List (Fin 8)
  writer      : Option Writer
  deriving DecidableEq, Repr

/-! ## Order Board Scanner -/

/-- The ten order kinds (13.2). -/
inductive OrderKind where
  | configure
  | endRecording
  | loadPilot
  | dropPilot
  | sweep
  | cancel
  | fleetOrder
  | openBin
  | closeBin
  | discardBin
  deriving DecidableEq, Repr

/-- The outcomes of an order (R144). -/
inductive OrderOutcome where
  | taken
  | done
  | refused
  | cancelled
  | overrun
  | faulted
  | abandoned
  | stale
  deriving DecidableEq, Repr

/-- The reasons (13.3). -/
inductive Reason where
  | none
  | badKind
  | wrongState
  | badValue
  | badExtent
  | busy
  | wrongInterval
  | keyOverlap
  | pilotInUse
  | noRoom
  | noPilot
  | pilotDamaged
  | noBin
  | binClosing
  | tooOld
  | noBinFree
  | binState
  | binBusy
  | notCancellable
  | busFault
  | crcMismatch
  | spanLost
  | pinBroken
  | workReset
  deriving DecidableEq, Repr

/-- An answer (R144): the result words from word 0 on; every word after the list reads 0. -/
structure Answer where
  outcome : OrderOutcome
  reason  : Reason
  words   : List Word
  deriving DecidableEq, Repr

/-- One entry of the box table (R142). The current order is held as the kind code read from the box. -/
structure BoxEntry where
  answeredPost : Byte
  current      : Option Byte
  answer       : Option Answer
  dirty        : Bool
  baseline     : Bool
  deriving DecidableEq, Repr

/-- The two rounds of the answer stage (R151). -/
inductive AnswerRound where
  | first
  | second
  deriving DecidableEq, Repr

/-- What the scanner waits for (R146 to R154). `answerFirst` holds the answer as it stood when the write was issued,
once it has been issued. -/
inductive ScanPhase where
  | idle
  | hostPost (box : Fin 64)
  | body (box : Fin 64) (post : Byte)
  | secondPost (box : Fin 64) (post : Byte) (body : List Byte)
  | baselineRecheck (box : Fin 64) (post : Byte)
  | answerFirst (round : AnswerRound) (box : Fin 64) (sent : Option Answer)
  | answerSecond (round : AnswerRound) (box : Fin 64) (sent : Option Answer)
  | statusPage
  deriving DecidableEq, Repr

/-- The scanner (R142, R145 to R151): the box table, the rotation start, the scan in progress, the follow-up request
and the scan timer. -/
structure Board where
  boxes      : Vector BoxEntry 64
  rotation   : Fin 64
  phase      : ScanPhase
  examined   : Nat
  taken      : Nat
  lastTaken  : Option (Fin 64)
  firstRound : List (Fin 64)
  faulted    : List (Fin 64)
  followUp   : Bool
  period     : Nat
  interval   : Nat
  deriving DecidableEq, Repr

/-! ## Bus Master Unit -/

/-- The direction of a burst (R157). -/
inductive Direction where
  | read
  | write
  deriving DecidableEq, Repr

/-- A burst request (R157). -/
structure Burst where
  direction : Direction
  offset    : Nat
  length    : Nat
  data      : List Byte
  deriving DecidableEq, Repr

/-- A request slot (R157); an ISSUED burst carries the host address formed at its issue (R158). -/
inductive Slot where
  | empty
  | waiting (burst : Burst)
  | issued (burst : Burst) (hostAddress : BitVec 64)
  deriving DecidableEq, Repr

/-- The Bus Master Unit (R157, R159, R161). -/
structure BusMaster where
  scanner        : Slot
  exporter       : Slot
  loader         : Slot
  portBusy       : Bool
  scannerFaults  : Nat
  exporterFaults : Nat
  loaderFaults   : Nat
  deriving DecidableEq, Repr

/-! ## Local DRAM and the device counts -/

/-- The three stores of local DRAM and the state of their check bits (R166), each as the list of the words that do
not read zero and of the words that are not clean. A raw word is at `channel * 65536 + slot`, a pilot sample at
`page * 1024 + place`, an accumulator at `(bin * 2048 + position) * 16384 + lag`. -/
structure Dram where
  raw         : List (Nat × BitVec 32)
  rawErrors   : List (Nat × Ecc)
  pilot       : List (Nat × BitVec 16)
  pilotErrors : List (Nat × Ecc)
  acc         : List (Nat × BitVec 64)
  accErrors   : List (Nat × Ecc)
  deriving DecidableEq, Repr

/-- The device counts of the status page that belong to no one block (R155). -/
structure Counts where
  scan            : Word
  eccCorrected    : Nat
  pilotDamage     : Nat
  poison          : Nat
  discardedWrites : Nat
  deriving DecidableEq, Repr

/-! ## The whole part -/

/-- The state of the part, and the queue of the commands that wait (first in, first out). -/
structure State where
  device     : DeviceState
  session    : Option Session
  resetEpoch : BitVec 8
  regs       : Registers
  events     : EventUnit
  ports      : Vector Port 4
  store      : SampleStore
  library    : Library
  sched      : Scheduler
  engine     : Engine
  stack      : StackUnit
  board      : Board
  bus        : BusMaster
  dram       : Dram
  counts     : Counts
  freeDraws  : Nat
  pending    : List Instr
  deriving DecidableEq, Repr

/-- What stops the part with a fault: nothing. Every fault the manual describes (R161, R167) is an effect on the
state, after which the part goes on, so this type has no constructor. -/
inductive Fault where
  deriving DecidableEq, Repr

/-- Why a command has no meaning. -/
inductive Refusal where
  /-- The command's arm of `exec` has no meaning yet. Raised by no arm of this model; safe. -/
  | notModelled (mnemonic : String)
  deriving DecidableEq, Repr

/-! ## Reset values -/

/-- All nine cumulative counts at 0 (R31). -/
def PortCounts.zero : PortCounts := ⟨0, 0, 0, 0, 0, 0, 0, 0, 0⟩

/-- A port after a power-on reset (R33). -/
def Port.reset : Port :=
  { state := .down, carrier := false, errors := 0, recovery := 0, syncRun := 0, syncTag := none,
    frontier := none, counts := .zero }

/-- The store while the device is not RECORDING (R49). -/
def SampleStore.reset : SampleStore := { newest := none, settled := none, marks := [], pin := none }

/-- The empty library (R66). -/
def Library.reset : Library := { entries := Vector.replicate 16 none, load := none, serial := 0 }

/-- The Scheduler after every reset (R72, R85). -/
def Scheduler.reset : Scheduler :=
  { jobs := Vector.replicate 32 none, queues := Vector.replicate 8 [], priority := List.finRange 8,
    mode := .rotate, hold := 0 }

/-- A FREE bin that nothing has been exported from (R138). -/
def Bin.reset : Bin := { record := none, lastExport := .none, heldFaultOffset := 0 }

/-- The Stack Unit after every reset (R124, R139). -/
def StackUnit.reset : StackUnit := { bins := Vector.replicate 8 .reset, exportQueue := [], writer := none }

/-- A box entry after a power-on or full reset (R142). -/
def BoxEntry.reset : BoxEntry :=
  { answeredPost := 0, current := none, answer := none, dirty := false, baseline := true }

/-- The scanner after a power-on or full reset (R12, R142). -/
def Board.reset : Board :=
  { boxes := Vector.replicate 64 .reset, rotation := 0, phase := .idle, examined := 0, taken := 0,
    lastTaken := none, firstRound := [], faulted := [], followUp := false, period := 1000, interval := 1000 }

/-- The Bus Master Unit with no traffic and no fault counted (R157, R161). -/
def BusMaster.reset : BusMaster :=
  { scanner := .empty, exporter := .empty, loader := .empty, portBusy := false,
    scannerFaults := 0, exporterFaults := 0, loaderFaults := 0 }

/-- Every word zero with valid check bits, as the scrub leaves local DRAM (R2, R168). -/
def Dram.scrubbed : Dram :=
  { raw := [], rawErrors := [], pilot := [], pilotErrors := [], acc := [], accErrors := [] }

/-- The part right after a power-on reset (R12). -/
def State.reset : State :=
  { device := .init
    session := none
    resetEpoch := 0
    regs := { scanEn := false, intEn := false, baseLow := 0, baseHigh := 0, size := 0 }
    events :=
      { pending := 0, mask := 0x1F, messageEnabled := false, linkUp := true, messagesSent := 0, messagesLost := 0 }
    ports := Vector.replicate 4 .reset
    store := .reset
    library := .reset
    sched := .reset
    engine := .noPass
    stack := .reset
    board := .reset
    bus := .reset
    dram := .scrubbed
    counts := { scan := 0, eccCorrected := 0, pilotDamage := 0, poison := 0, discardedWrites := 0 }
    freeDraws := 0
    pending := [] }

end Sys2Proof.Machine
end

