-- ==== Sys2Proof/Machine/Operands.lean ====
section
/-! DEFINITION. How values are read from and laid out in bytes and words: the little-endian fields of chapter 13,
the link frame, the host half of a box, and the codes of chapter 13. -/

namespace Sys2Proof.Machine

/-! ## Little-endian fields (00, "Conventions") -/

/-- The number that a little-endian byte sequence stands for. -/
def leNat : List Byte → Nat
  | [] => 0
  | b :: rest => b.toNat + 256 * leNat rest

/-- The `n` low bytes of a number, least significant first. -/
def leBytes : Nat → Nat → List Byte
  | 0, _ => []
  | n + 1, v => BitVec.ofNat 8 v :: leBytes n (v / 256)

/-- The bytes of a word, least significant first. -/
def wordBytes (w : Word) : List Byte := leBytes 4 w.toNat

/-- The two's complement of a signed value in `bits` bits, as a number (R4). -/
def twos (bits : Nat) (x : Int) : Nat := (BitVec.ofInt bits x).toNat

/-- The 40-bit form of an index (R4): two's complement, and −1 for an index with no value. -/
def index40 (x : Option Int) : Nat := twos 40 (x.getD (-1))

/-- The eight bytes of an index field: the 40-bit form, and bytes 5..7 zero (13.4, R178). -/
def indexBytes (x : Option Int) : List Byte := leBytes 8 (index40 x)

/-- `n` bytes of zero: reserved bytes as the part writes them (R178). -/
def zeroBytes (n : Nat) : List Byte := List.replicate n 0

/-! ## The link frame (13.1, R15, R16) -/

/-- One byte into the CRC-16 register: exclusive OR into the upper eight bits, then eight left shifts (R15). -/
def crc16Byte (register : BitVec 16) (byte : Byte) : BitVec 16 :=
  (List.range 8).foldl
    (fun r _ => if r.getLsbD 15 then (r <<< 1) ^^^ 0x1021#16 else r <<< 1)
    (register ^^^ (byte.setWidth 16 <<< 8))

/-- The CRC-16 of a frame: from 0xFFFF, not reflected, no final exclusive OR (R15). -/
def crc16 (bytes : List Byte) : BitVec 16 := bytes.foldl crc16Byte 0xFFFF#16

/-- The sync value of every frame (13.1). -/
def syncValue : Nat := 0x7E3C

/-- The CRC field is the last two bytes of the frame (log 31). -/
def frameCrcField (bytes : List Byte) : BitVec 16 := BitVec.ofNat 16 (leNat (bytes.drop (bytes.length - 2)))

/-- The bytes the CRC covers: from the port tag to the last sample byte (R15). -/
def frameCovered (bytes : List Byte) : List Byte := (bytes.take (bytes.length - 2)).drop 2

/-- The CRC test of R15. A frame under 12 bytes fails it. -/
def crcPasses (bytes : List Byte) : Bool :=
  decide (12 ≤ bytes.length) && crc16 (frameCovered bytes) == frameCrcField bytes

/-- The time tag, bytes 3..7 (13.1). -/
def frameTag (bytes : List Byte) : Nat := leNat ((bytes.drop 3).take 5)

/-- The channel count field, bytes 8..9 (13.1). -/
def frameCount (bytes : List Byte) : Nat := leNat ((bytes.drop 8).take 2)

/-- The FORMAT test of R16 at port `port` with `configured` channels. -/
def formatPasses (port configured : Nat) (bytes : List Byte) : Bool :=
  leNat (bytes.take 2) == syncValue && leNat ((bytes.drop 2).take 1) == port &&
    frameCount bytes == configured && bytes.length - 12 == 3 * frameCount bytes

/-- A 24-bit sample sign-extended to its 32-bit ring word (R34). -/
def sampleWord (b0 b1 b2 : Byte) : BitVec 32 := (BitVec.ofNat 24 (leNat [b0, b1, b2])).signExtend 32

/-- Bytes cut into 24-bit samples, in channel position order (R14). -/
def samplesOf : List Byte → List (BitVec 32)
  | b0 :: b1 :: b2 :: rest => sampleWord b0 b1 b2 :: samplesOf rest
  | _ => []

/-- The samples of a frame, bytes 10 to the CRC (13.1). -/
def frameSamples (bytes : List Byte) : List (BitVec 32) := samplesOf ((bytes.take (bytes.length - 2)).drop 10)

/-! ## The pilot image (13.5, R58) -/

/-- One byte into the CRC-32 register: exclusive OR into the low eight bits, then eight right shifts (R58). -/
def crc32Byte (register : Word) (byte : Byte) : Word :=
  (List.range 8).foldl
    (fun r _ => if r.getLsbD 0 then (r >>> 1) ^^^ 0xEDB88320#32 else r >>> 1)
    (register ^^^ byte.setWidth 32)

/-- The CRC-32 register after some bytes. -/
def crc32Run (register : Word) (bytes : List Byte) : Word := bytes.foldl crc32Byte register

/-- The register at the start of an image. -/
def crc32Start : Word := 0xFFFFFFFF#32

/-- The computed CRC from the register after the last byte. -/
def crc32Final (register : Word) : Word := register ^^^ 0xFFFFFFFF#32

/-- Image bytes cut into 16-bit samples, low byte first. -/
def pilotSamplesOf : List Byte → List (BitVec 16)
  | b0 :: b1 :: rest => BitVec.ofNat 16 (leNat [b0, b1]) :: pilotSamplesOf rest
  | _ => []

/-! ## The host half of a box (13.2) -/

/-- Byte `k` of the host half, from the body, which holds bytes 1..127. -/
def bodyField (body : List Byte) (k bytes : Nat) : Nat := leNat ((body.drop (k - 1)).take bytes)

/-- A 32-bit field of the body. -/
def bodyWord (body : List Byte) (k : Nat) : Word := BitVec.ofNat 32 (bodyField body k 4)

/-- The kind code, byte 1. -/
def bodyKindCode (body : List Byte) : Byte := BitVec.ofNat 8 (bodyField body 1 1)

/-- The code of an order kind (13.2). -/
def OrderKind.code : OrderKind → Byte
  | .configure => 0x01
  | .endRecording => 0x02
  | .loadPilot => 0x03
  | .dropPilot => 0x04
  | .sweep => 0x05
  | .cancel => 0x06
  | .fleetOrder => 0x07
  | .openBin => 0x08
  | .closeBin => 0x09
  | .discardBin => 0x0A

/-- The kind that a code names, and none for a code of no kind (13.2). -/
def kindOfCode (code : Byte) : Option OrderKind :=
  match code.toNat with
  | 1 => some .configure
  | 2 => some .endRecording
  | 3 => some .loadPilot
  | 4 => some .dropPilot
  | 5 => some .sweep
  | 6 => some .cancel
  | 7 => some .fleetOrder
  | 8 => some .openBin
  | 9 => some .closeBin
  | 10 => some .discardBin
  | _ => none

/-- The kind of the order in a body. -/
def bodyKind (body : List Byte) : Option OrderKind := kindOfCode (bodyKindCode body)

/-! ## The codes the part writes (13.3, 13.4) -/

/-- The outcome codes (13.3). -/
def OrderOutcome.code : OrderOutcome → Nat
  | .taken => 1
  | .done => 2
  | .refused => 3
  | .cancelled => 4
  | .overrun => 5
  | .faulted => 6
  | .abandoned => 7
  | .stale => 8

/-- The reason codes (13.3). -/
def Reason.code : Reason → Nat
  | .none => 0
  | .badKind => 1
  | .wrongState => 2
  | .badValue => 3
  | .badExtent => 4
  | .busy => 5
  | .wrongInterval => 6
  | .keyOverlap => 7
  | .pilotInUse => 8
  | .noRoom => 9
  | .noPilot => 10
  | .pilotDamaged => 11
  | .noBin => 12
  | .binClosing => 13
  | .tooOld => 14
  | .noBinFree => 15
  | .binState => 16
  | .binBusy => 17
  | .notCancellable => 18
  | .busFault => 19
  | .crcMismatch => 20
  | .spanLost => 21
  | .pinBroken => 22
  | .workReset => 23

/-- The device state codes (13.4). -/
def DeviceState.code : DeviceState → Nat
  | .init => 0
  | .idle => 1
  | .recording => 2

/-- The port state codes (13.4). -/
def PortState.code : PortState → Nat
  | .down => 0
  | .syncing => 1
  | .live => 2
  | .degraded => 3
  | .cut => 4

/-- The pilot state codes (13.4); an empty position reads 0. -/
def PilotState.code : PilotState → Nat
  | .loading => 1
  | .ready => 2
  | .damaged => 3

/-- The mode codes (13.2, 13.4). -/
def FleetMode.code : FleetMode → Nat
  | .rotate => 0
  | .fixed => 1

/-- The bin state codes (13.4); FREE reads 0. -/
def BinPhase.code : BinPhase → Nat
  | .opened => 1
  | .draining => 2
  | .exporting => 3
  | .held => 4

/-- The export result codes (13.4). -/
def ExportResult.code : ExportResult → Nat
  | .none => 0
  | .done => 1
  | .writeFault => 2

/-! ## Answers -/

/-- A result word from a number. -/
def resultWord (n : Nat) : Word := BitVec.ofNat 32 n

/-- Bytes 132..255 of a part half: outcome, reason, two reserved bytes and thirty result words, those the answer
does not name reading 0 (13.3, R144, R178). -/
def outcomeBytes (a : Option Answer) : List Byte :=
  match a with
  | some a =>
    leBytes 1 a.outcome.code ++ leBytes 1 a.reason.code ++ zeroBytes 2 ++
      ((List.range 30).map fun i => wordBytes (a.words.getD i 0)).flatten
  | none => zeroBytes 124

/-- Bytes 128..131 of a part half: the answered post and three reserved bytes (13.3). -/
def postBytes (post : Byte) : List Byte := post :: zeroBytes 3

/-- A TAKEN answer. -/
def takenAnswer (words : List Word) : Answer := { outcome := .taken, reason := .none, words := words }

/-- A DONE answer. -/
def doneAnswer (words : List Word) : Answer := { outcome := .done, reason := .none, words := words }

/-- A REFUSED answer; its result words read 0 (R144). -/
def refusedAnswer (reason : Reason) : Answer := { outcome := .refused, reason := reason, words := [] }

/-- Every outcome but TAKEN is final (R144). -/
def OrderOutcome.isFinal : OrderOutcome → Bool
  | .taken => false
  | _ => true

/-- The answer, if there is one, is final (R143). -/
def finalOrNone (a : Option Answer) : Bool :=
  match a with
  | some a => a.outcome.isFinal
  | none => true

/-- There is an answer and it is final (R152). -/
def holdsFinal (a : Option Answer) : Bool :=
  match a with
  | some a => a.outcome.isFinal
  | none => false

/-! ## Exported samples (13.5) -/

/-- A signed 32-bit sample. -/
def sampleBytes (x : Int) : List Byte := leBytes 4 (twos 32 x)

end Sys2Proof.Machine
end

