-- ==== Sys2Proof/Machine/Flags.lean ====
section
/-! DEFINITION. Everything the part computes as a flag or a condition: the event causes and their messages (R170 to
R173), the window's validity (R140), WARN, SCAN_BUSY, the baseline flag, mover busy, and when a scan can run. -/

namespace Sys2Proof.Machine

/-! ## Event causes and interrupt messages -/

/-- The five event causes (11.1). -/
inductive Cause where
  | box
  | bin
  | link
  | channel
  | fault
  deriving DecidableEq, Repr

/-- The bit of a cause in EVENT_PENDING and EVENT_MASK (13.6). -/
def Cause.bit : Cause → BitVec 5
  | .box => 0x01
  | .bin => 0x02
  | .link => 0x04
  | .channel => 0x08
  | .fault => 0x10

/-- The signalled set: the pending causes that are not masked (11.2). -/
def signalled (e : EventUnit) : BitVec 5 := e.pending &&& ~~~e.mask

/-- A message sent now reaches the host: the link is up and "message enabled" is true (R171). -/
def EventUnit.delivers (e : EventUnit) : Bool := e.linkUp && e.messageEnabled

/-- One interrupt message. While the link is down, or "message enabled" is false, it is lost (R171). -/
def sendMessage (e : EventUnit) : EventUnit :=
  { e with
    messagesSent := e.messagesSent + 1
    messagesLost := if e.delivers then e.messagesLost else e.messagesLost + 1 }

/-- One message if the condition holds. -/
def sendIf (condition : Bool) (e : EventUnit) : EventUnit := if condition then sendMessage e else e

/-- Raising a cause puts it in the pending set, and sends one message if that makes the signalled set go from empty
to non-empty while INT_EN is 1 (R170, R171). -/
def raiseCause (intEn : Bool) (c : Cause) (e : EventUnit) : EventUnit :=
  sendIf (intEn && signalled e == 0 && signalled { e with pending := e.pending ||| c.bit } != 0)
    { e with pending := e.pending ||| c.bit }

/-- The part with a cause raised. -/
def State.raise (c : Cause) (s : State) : State := { s with events := raiseCause s.regs.intEn c s.events }

/-- A write to EVENT_PENDING: written ones clear, and one message is sent if the signalled set is still non-empty
while INT_EN is 1 (R172). -/
def clearCauses (intEn : Bool) (value : Word) (e : EventUnit) : EventUnit :=
  sendIf (intEn && signalled { e with pending := e.pending &&& ~~~value.setWidth 5 } != 0)
    { e with pending := e.pending &&& ~~~value.setWidth 5 }

/-- A write to EVENT_MASK: one message is sent if the signalled set goes from empty to non-empty while INT_EN is 1
(R173). -/
def replaceMask (intEn : Bool) (value : Word) (e : EventUnit) : EventUnit :=
  sendIf (intEn && signalled e == 0 && signalled { e with mask := value.setWidth 5 } != 0)
    { e with mask := value.setWidth 5 }

/-! ## The exchange window -/

/-- WINDOW_BASE as one 64-bit address (R176). -/
def Registers.base (r : Registers) : Nat := r.baseHigh.toNat * 4294967296 + r.baseLow.toNat

/-- The window is valid when n lies in 20..32 and the base is a multiple of 2^n (R140). -/
def windowValid (r : Registers) : Bool :=
  if 20 ≤ r.size.toNat ∧ r.size.toNat ≤ 32 then decide (r.base % 2 ^ r.size.toNat = 0) else false

/-- The bytes of the window, and 0 for an n outside 20..32. -/
def windowBytes (r : Registers) : Nat :=
  if 20 ≤ r.size.toNat ∧ r.size.toNat ≤ 32 then 2 ^ r.size.toNat else 0

/-- An extent lies within the buffer area (R141). -/
def inBuffer (r : Registers) (start length : Nat) : Bool :=
  decide (start % 64 = 0) && decide (20480 ≤ start) && decide (start + length ≤ windowBytes r)

/-! ## Flags the host reads -/

/-- A board scan is in progress (R146). -/
def State.scanBusy (s : State) : Bool := s.board.phase != .idle

/-- A load or an export is in flight (R164). -/
def State.moverBusy (s : State) : Bool := s.library.load.isSome || s.stack.writer.isSome

/-- The baseline flag is set exactly while some entry's baseline mark is set (R142). -/
def Board.baselineFlag (b : Board) : Bool := b.boxes.toList.any (·.baseline)

/-- WARN: the error count is 96 or more (R24). -/
def Port.warn (p : Port) : Bool := decide (96 ≤ p.errors)

/-- The port takes part in the settled index: LIVE or DEGRADED (R39). -/
def Port.counted (p : Port) : Bool := p.state == .live || p.state == .degraded

/-- A board scan can run (R145). -/
def State.canScan (s : State) : Bool := s.device != .init && s.regs.scanEn && windowValid s.regs

/-- A write to the window registers is taken (R176). -/
def State.windowWritable (s : State) : Bool := !s.regs.scanEn && !s.scanBusy && !s.moverBusy

/-- No pass is in flight. -/
def Engine.isFree : Engine → Bool
  | .noPass => true
  | _ => false

/-- The job-table entry of the pass in flight (R75). -/
def Engine.activeJob : Engine → Option (Fin 32)
  | .noPass => none
  | .compute r _ _ _ => some r.job
  | .stack r _ => some r.job

end Sys2Proof.Machine
end

