-- ==== Sys2Proof/Machine/Ops.lean ====
section
/-! DEFINITION. The shared operations: word memories in canonical form, counters, the updates of one record of a
table, the words of local DRAM with their check bits, and the answers in the box table. -/

namespace Sys2Proof.Machine

/-! ## Word memories

A memory is a list of (word number, value) pairs, word numbers strictly rising, no value equal to what an unlisted
word reads as. -/

/-- Reading a word; an unlisted word reads `d`. -/
def cellRead {α : Type} (d : α) : List (Nat × α) → Nat → α
  | [], _ => d
  | (k, v) :: rest, a => if k = a then v else cellRead d rest a

/-- Writing a word, keeping the canonical form: a word that comes to read `d` leaves the list. -/
def cellWrite {α : Type} [DecidableEq α] (d : α) (a : Nat) (v : α) : List (Nat × α) → List (Nat × α)
  | [] => if v = d then [] else [(a, v)]
  | (k, w) :: rest =>
    if a < k then
      if v = d then (k, w) :: rest else (a, v) :: (k, w) :: rest
    else if a = k then
      if v = d then rest else (a, v) :: rest
    else (k, w) :: cellWrite d a v rest

/-- Every word whose number passes the test comes to read as an unlisted word. -/
def cellsClear {α : Type} (p : Nat → Bool) (m : List (Nat × α)) : List (Nat × α) := m.filter fun c => !p c.1

/-- The canonical form. -/
abbrev CellsWf {α : Type} (d : α) (m : List (Nat × α)) : Prop :=
  (m.map Prod.fst).Pairwise (· < ·) ∧ ∀ c ∈ m, c.2 ≠ d

/-! ## Counters -/

/-- The greatest value of a 32-bit count. -/
def max32 : Nat := 4294967295

/-- Adding to a 32-bit count that stops at its greatest value. -/
def satAdd32 (n k : Nat) : Nat := min (n + k) max32

/-- One more on a 32-bit count that stops at its greatest value. -/
def satInc32 (n : Nat) : Nat := satAdd32 n 1

/-- One more on a 16-bit count that stops at 65,535 (R103). -/
def satInc16 (n : Nat) : Nat := min (n + 1) 65535

/-! ## Tables -/

/-- A function applied to every entry of a table. -/
def mapTable {α β : Type} {n : Nat} (f : α → β) (v : Vector α n) : Vector β n := Vector.ofFn fun i => f v[i]

/-- Position `n`, modulo 64, as a box number (R147). -/
def boxOf (n : Nat) : Fin 64 := Fin.ofNat 64 n

/-- The part with one port record replaced. -/
def State.setPort (p : Fin 4) (x : Port) (s : State) : State := { s with ports := s.ports.set p x }

/-- The part with one library position replaced. -/
def State.setEntry (i : Fin 16) (x : Option PilotEntry) (s : State) : State :=
  { s with library := { s.library with entries := s.library.entries.set i x } }

/-- The part with one job-table entry replaced. -/
def State.setJob (j : Fin 32) (x : Option Job) (s : State) : State :=
  { s with sched := { s.sched with jobs := s.sched.jobs.set j x } }

/-- The part with one bin replaced. -/
def State.setBin (b : Fin 8) (x : Bin) (s : State) : State :=
  { s with stack := { s.stack with bins := s.stack.bins.set b x } }

/-- The part with the record of one bin replaced. -/
def State.setBinRecord (b : Fin 8) (r : Option BinRecord) (s : State) : State :=
  s.setBin b { s.stack.bins[b] with record := r }

/-- The part with one box entry replaced. -/
def State.setBox (b : Fin 64) (x : BoxEntry) (s : State) : State :=
  { s with board := { s.board with boxes := s.board.boxes.set b x } }

/-- The part with the scanner waiting for something else. -/
def State.setPhase (p : ScanPhase) (s : State) : State := { s with board := { s.board with phase := p } }

/-- An owner writes the answer field of a box, which marks the entry dirty (R142). -/
def State.setAnswer (b : Fin 64) (a : Answer) (s : State) : State :=
  s.setBox b { s.board.boxes[b] with answer := some a, dirty := true }

/-! ## Local DRAM (R166) -/

/-- The word number of a raw sample (R34). -/
def rawAddress (channel slot : Nat) : Nat := channel * 65536 + slot

/-- The word number of a pilot sample (R51). -/
def pilotAddress (page place : Nat) : Nat := page * 1024 + place

/-- The word number of an accumulator (R103). -/
def accAddress (bin position lag : Nat) : Nat := (bin * 2048 + position) * 16384 + lag

/-- The greater of two states of the check bits. -/
def joinEcc : Ecc → Ecc → Ecc
  | .clean, e => e
  | .single, .uncorrectable => .uncorrectable
  | .single, _ => .single
  | .uncorrectable, _ => .uncorrectable

/-- A bit error arises in one word and stays there until the word is written (R166, log 3). -/
def upsetWord (d : Dram) (u : Upset) : Dram :=
  match u.word with
  | .raw channel slot =>
    let a := rawAddress channel.val slot.val
    { d with rawErrors := cellWrite .clean a (joinEcc (cellRead .clean d.rawErrors a) u.kind) d.rawErrors }
  | .pilot page place =>
    let a := pilotAddress page.val place.val
    { d with pilotErrors := cellWrite .clean a (joinEcc (cellRead .clean d.pilotErrors a) u.kind) d.pilotErrors }
  | .acc bin position lag =>
    let a := accAddress bin.val position.val lag.val
    { d with accErrors := cellWrite .clean a (joinEcc (cellRead .clean d.accErrors a) u.kind) d.accErrors }

/-- The errors that have arisen in local DRAM are in their words. -/
def State.applyUpsets (upsets : List Upset) (s : State) : State := { s with dram := upsets.foldl upsetWord s.dram }

/-- Writing a raw sample, with fresh check bits. -/
def writeRaw (a : Nat) (v : BitVec 32) (d : Dram) : Dram :=
  { d with raw := cellWrite 0 a v d.raw, rawErrors := cellWrite .clean a .clean d.rawErrors }

/-- Writing a pilot sample, with fresh check bits. -/
def writePilot (a : Nat) (v : BitVec 16) (d : Dram) : Dram :=
  { d with pilot := cellWrite 0 a v d.pilot, pilotErrors := cellWrite .clean a .clean d.pilotErrors }

/-- Writing an accumulator, with fresh check bits. -/
def writeAcc (a : Nat) (v : BitVec 64) (d : Dram) : Dram :=
  { d with acc := cellWrite 0 a v d.acc, accErrors := cellWrite .clean a .clean d.accErrors }

/-- Consecutive accumulators written from `a` on. -/
def writeAccs : Nat → List (BitVec 64) → Dram → Dram
  | _, [], d => d
  | a, v :: rest, d => writeAccs (a + 1) rest (writeAcc a v d)

/-- `k` more on the ECC corrected count (R166). -/
def State.countCorrected (k : Nat) (s : State) : State :=
  { s with counts := { s.counts with eccCorrected := satAdd32 s.counts.eccCorrected k } }

/-- One more on the poison count (R120, R130). -/
def State.countPoison (s : State) : State :=
  { s with counts := { s.counts with poison := satInc32 s.counts.poison } }

/-- What a read of one ECC word gives: the stored value, corrected where one bit is in error and counted then, or
nothing where the error cannot be corrected (R166). -/
def eccRead {α : Type} (ecc : Ecc) (v : α) (s : State) : State × Option α :=
  match ecc with
  | .clean => (s, some v)
  | .single => (s.countCorrected 1, some v)
  | .uncorrectable => (s, none)

/-- Reading a raw sample word. -/
def readRaw (a : Nat) (s : State) : State × Option (BitVec 32) :=
  eccRead (cellRead .clean s.dram.rawErrors a) (cellRead 0 s.dram.raw a) s

/-- Reading a pilot sample word. -/
def readPilot (a : Nat) (s : State) : State × Option (BitVec 16) :=
  eccRead (cellRead .clean s.dram.pilotErrors a) (cellRead 0 s.dram.pilot a) s

/-- How many of `n` consecutive accumulators from `a` on hold a single-bit error. -/
def singleErrors (errors : List (Nat × Ecc)) (a n : Nat) : Nat :=
  ((List.range n).filter fun j => cellRead Ecc.clean errors (a + j) == .single).length

/-- One of `n` consecutive accumulators from `a` on holds an error that cannot be corrected. -/
def anyUncorrectable (errors : List (Nat × Ecc)) (a n : Nat) : Bool :=
  (List.range n).any fun j => cellRead Ecc.clean errors (a + j) == .uncorrectable

/-- Reading `n` consecutive accumulators in ascending lag order: every one of them is read, each single-bit error is
counted, and the values are of use only if every read returns one (R117, R121, R130). -/
def readAccs (a n : Nat) (s : State) : State × Option (List Int) :=
  (s.countCorrected (singleErrors s.dram.accErrors a n),
    if anyUncorrectable s.dram.accErrors a n then none
    else some ((List.range n).map fun j => (cellRead 0 s.dram.acc (a + j)).toInt))

end Sys2Proof.Machine
end

