-- ==== Sys2Proof/Machine/Bus.lean ====
section
/-! DEFINITION. The Bus Master Unit: request slots, the issue arbiter, burst cutting and fault counting (R157 to
R161). -/

namespace Sys2Proof.Machine

/-- The slot of a requester. -/
def BusMaster.slot (b : BusMaster) : Requester → Slot
  | .scanner => b.scanner
  | .exporter => b.exporter
  | .loader => b.loader

/-- The unit with a requester's slot replaced. -/
def BusMaster.withSlot (r : Requester) (x : Slot) (b : BusMaster) : BusMaster :=
  match r with
  | .scanner => { b with scanner := x }
  | .exporter => { b with exporter := x }
  | .loader => { b with loader := x }

/-- The part with a requester's slot replaced. -/
def State.setSlot (r : Requester) (x : Slot) (s : State) : State := { s with bus := s.bus.withSlot r x }

/-- A requester posts a burst request (R157). -/
def State.post (r : Requester) (b : Burst) (s : State) : State := s.setSlot r (.waiting b)

/-- A read burst request. -/
def readBurst (offset length : Nat) : Burst :=
  { direction := .read, offset := offset, length := length, data := [] }

/-- A write burst request with its data. -/
def writeBurst (offset : Nat) (data : List Byte) : Burst :=
  { direction := .write, offset := offset, length := data.length, data := data }

/-- How many bytes the burst at `offset` of an extent ending at `stop` moves: to the next 4,096-byte boundary or to
the end of the extent, whichever comes first (R158). -/
def burstLength (offset stop : Nat) : Nat := min (4096 - offset % 4096) (stop - offset)

/-- The burst that a slot is on the link with. -/
def Slot.issuedBurst : Slot → Option Burst
  | .issued b _ => some b
  | _ => none

/-- The slot holds a request that has not been issued. -/
def Slot.isWaiting : Slot → Bool
  | .waiting _ => true
  | _ => false

/-- The host address of a burst: WINDOW_BASE plus its window offset, formed at the issue (R158). -/
def hostAddress (r : Registers) (b : Burst) : BitVec 64 := BitVec.ofNat 64 (r.base + b.offset)

/-- What an issue adds for a burst of the scanner: the first write of an answer carries the answer as it stands when
the write is issued (R151, log 9). -/
def refreshAnswer (b : Burst) (s : State) : Burst × State :=
  match s.board.phase with
  | .answerFirst round box _ =>
    let a := s.board.boxes[box].answer
    ({ b with data := outcomeBytes a }, s.setPhase (.answerFirst round box a))
  | _ => (b, s)

/-- The issue port starts on a burst: the slot becomes ISSUED and the port is busy (R159). -/
def issueBurst (r : Requester) (b : Burst) (s : State) : State :=
  { s with bus := { s.bus.withSlot r (.issued b (hostAddress s.regs b)) with portBusy := true } }

/-- The issue arbiter: when the port is free it serves the highest-priority WAITING slot, in the fixed order scanner,
export writer, pilot loader (R159). -/
def serveIssuePort (s : State) : State :=
  if s.bus.portBusy then s
  else
    match s.bus.scanner, s.bus.exporter, s.bus.loader with
    | .waiting b, _, _ => issueBurst .scanner (refreshAnswer b s).1 (refreshAnswer b s).2
    | _, .waiting b, _ => issueBurst .exporter b s
    | _, _, .waiting b => issueBurst .loader b s
    | _, _, _ => s

/-- One more on the bus fault count of a requester, and FAULT is raised (R161). -/
def State.busFault (r : Requester) (s : State) : State :=
  State.raise .fault
    { s with
      bus :=
        match r with
        | .scanner => { s.bus with scannerFaults := satInc32 s.bus.scannerFaults }
        | .exporter => { s.bus with exporterFaults := satInc32 s.bus.exporterFaults }
        | .loader => { s.bus with loaderFaults := satInc32 s.bus.loaderFaults } }

end Sys2Proof.Machine
end

