-- ==== Sys2Proof/Machine/Export.lean ====
section
/-! DEFINITION. Closing a bin's life: the export queue, forming and normalizing records, the writer's bursts, and the
ends of an export (R127 to R139). -/

namespace Sys2Proof.Machine

/-! ## Bin geometry -/

/-- L, the lags of a bin's window (R102). -/
def BinRecord.lags (r : BinRecord) : Nat := r.lagLast - r.lagFirst + 1

/-- The bytes of one trace record (8.3). -/
def recordLength (lags : Nat) : Nat := 32 + 4 * lags

/-- The bytes of an export extent (R109, R141). -/
def extentLength (channels lags : Nat) : Nat := channels * recordLength lags

/-- The window offset after the last byte of the bin's export. -/
def BinRecord.exportStop (r : BinRecord) : Nat := r.exportOffset + extentLength r.channelCount r.lags

/-- A channel record with every field 0 or clear (R103). -/
def ChannelRecord.zero : ChannelRecord := ⟨0, 0, 0, 0, 0, 0, false, false, 0, 0⟩

/-- The record of the channel at position `i` of a bin. -/
def BinRecord.channel (r : BinRecord) (i : Nat) : ChannelRecord := r.channels.getD i .zero

/-- The bin record with one channel record replaced. -/
def BinRecord.withChannel (r : BinRecord) (i : Nat) (c : ChannelRecord) : BinRecord :=
  { r with channels := r.channels.set i c }

/-! ## Forming a record -/

/-- An accumulator divided by the fold, rounded to the nearest integer, ties away from zero (R131). -/
def normalize (fold : Nat) (acc : Int) : Int :=
  if 0 ≤ acc then (((2 * acc.natAbs + fold) / (2 * fold) : Nat) : Int)
  else -(((2 * acc.natAbs + fold) / (2 * fold) : Nat) : Int)

/-- The final reference of a trace header: floor(RS / f), and 0 when f is 0 (R132). -/
def finalReference (c : ChannelRecord) : Nat := if c.fold = 0 then 0 else c.referenceSum / c.fold

/-- EMPTY: the fold is 0 and the channel is not POISONED (R132). -/
def ChannelRecord.isEmpty (c : ChannelRecord) : Bool := c.fold == 0 && !c.poisoned

/-- The flags byte of a trace header (13.5). -/
def headerFlags (c : ChannelRecord) : Nat :=
  (if c.isEmpty then 1 else 0) + (if c.noisy then 2 else 0) + (if c.poisoned then 4 else 0)

/-- The 32 bytes of a trace header (13.5, R132). -/
def headerBytes (channel : Nat) (c : ChannelRecord) : List Byte :=
  leBytes 2 channel ++ leBytes 1 c.fold ++ leBytes 1 (headerFlags c) ++
    leBytes 2 c.noise ++ leBytes 2 c.gapped ++ leBytes 2 c.clipped ++ leBytes 2 c.surplus ++
    leBytes 4 c.missTotal ++ leBytes 4 (finalReference c) ++ zeroBytes 12

/-- A bin's record after one of its channels is found poisoned while below or at its target (R105, R120, R130). -/
def BinRecord.poison (r : BinRecord) (i : Nat) : BinRecord :=
  let c := r.channel i
  let r := r.withChannel i { c with poisoned := true }
  if c.fold < r.targetFold then { r with channelsAtTarget := r.channelsAtTarget + 1 } else r

/-- Forming the record of the channel at position `i` of bin `b`: the part after the reads and any poisoning, and
the samples (R130, R131). -/
def formSamples (b : Fin 8) (r : BinRecord) (i : Nat) (s : State) : State × List Byte :=
  let c := r.channel i
  let fill := (List.replicate r.lags (wordBytes r.fillCode)).flatten
  if c.poisoned || c.fold == 0 then (s, fill)
  else
    match readAccs (accAddress b.val i 0) r.lags s with
    | (s, some values) => (s, (values.map fun a => sampleBytes (normalize c.fold a)).flatten)
    | (s, none) => ((s.setBinRecord b (some (r.poison i))).countPoison, fill)

/-- One more if the condition holds. -/
def incIf (condition : Bool) (n : Nat) : Nat := if condition then n + 1 else n

/-- The channel record at position `i` of bin `b` as the part now holds it. -/
def channelNow (b : Fin 8) (i : Nat) (s : State) : ChannelRecord :=
  match s.stack.bins[b].record with
  | some r => r.channel i
  | none => .zero

/-- The writer forms the whole record of its next channel (R129, R130, R132). -/
def formNext (r : BinRecord) (w : Writer) (s : State) : State × Writer :=
  let (s, samples) := formSamples w.bin r w.nextChannel s
  let c := channelNow w.bin w.nextChannel s
  (s,
    { w with
      nextChannel := w.nextChannel + 1
      formed := w.formed ++ headerBytes (r.firstChannel + w.nextChannel) c ++ samples
      emptyCount := incIf c.isEmpty w.emptyCount
      poisonCount := incIf c.poisoned w.poisonCount
      noisyCount := incIf c.noisy w.noisyCount })

/-- The writer forms records until it holds `need` bytes or has formed the last channel. The first argument bounds
the records formed. DESIGN CHOICE: R129 and R130 leave open how far ahead of its bursts the writer forms records (log
33). -/
def formUntil : Nat → Nat → Writer → State → State × Writer
  | 0, _, w, s => (s, w)
  | fuel + 1, need, w, s =>
    match s.stack.bins[w.bin].record with
    | none => (s, w)
    | some r =>
      if need ≤ w.formed.length ∨ r.channelCount ≤ w.nextChannel then (s, w)
      else formUntil fuel need (formNext r w s).2 (formNext r w s).1

/-- The writer forms what its next burst needs and posts it (R129, R158). DESIGN CHOICE: it forms the records that the
burst needs bytes of, and no further one; the spec says only that a record is formed whole before a byte of it is
written (log 33). -/
def postExportBurst (w : Writer) (s : State) : State :=
  match s.stack.bins[w.bin].record with
  | none => s
  | some r =>
    let offset := r.exportOffset + w.written
    let length := burstLength offset r.exportStop
    let (s, w) := formUntil r.channelCount length w s
    let s := { s with stack := { s.stack with writer := some { w with formed := w.formed.drop length } } }
    s.post .exporter (writeBurst offset (w.formed.take length))

/-! ## The export queue -/

/-- The writer at the start of a bin's export (R128). -/
def Writer.start (b : Fin 8) : Writer :=
  { bin := b, nextChannel := 0, written := 0, formed := [], emptyCount := 0, poisonCount := 0, noisyCount := 0 }

/-- A bin leaves the head of the queue and becomes HELD with WRITE_FAULT and its held-fault offset; BIN is raised
(R134, R135). -/
def holdHead (b : Fin 8) (r : BinRecord) (offset : Nat) (rest : List (Fin 8)) (s : State) : State :=
  let s := s.setBin b { record := some { r with phase := .held }, lastExport := .writeFault, heldFaultOffset := offset }
  { s with stack := { s.stack with exportQueue := rest, writer := none } }.raise .bin

/-- The bin at the head of the queue begins its export, once the window is valid and its extent fits; a bin whose
extent does not fit is HELD and the next one comes to the head (R128, R135). The first argument bounds the bins
looked at. -/
def beginExport : Nat → State → State
  | 0, s => s
  | fuel + 1, s =>
    match s.stack.exportQueue with
    | [] => s
    | b :: rest =>
      if !windowValid s.regs then s
      else
        match s.stack.bins[b].record with
        | none => s
        | some r =>
          if inBuffer s.regs r.exportOffset (extentLength r.channelCount r.lags) then
            postExportBurst (Writer.start b) s
          else beginExport fuel (holdHead b r r.exportOffset rest s)

/-- A bin enters EXPORTING at the back of the queue, and begins at once if the queue was empty (R127, R128). -/
def enterExporting (b : Fin 8) (r : BinRecord) (s : State) : State :=
  let wasEmpty := s.stack.exportQueue.isEmpty
  let s := s.setBinRecord b (some { r with phase := .exporting })
  let s := { s with stack := { s.stack with exportQueue := s.stack.exportQueue ++ [b] } }
  if wasEmpty then beginExport s.stack.exportQueue.length s else s

/-- A DRAINING bin with a pending count of 0 enters EXPORTING (R127). -/
def drainTest (b : Fin 8) (s : State) : State :=
  match s.stack.bins[b].record with
  | some r => if r.phase = .draining ∧ r.pendingJobs = 0 then enterExporting b r s else s
  | none => s

/-- An exported bin becomes FREE and leaves the queue, its OPEN_BIN is answered DONE, and BIN is raised (R133). -/
def freeExported (w : Writer) (r : BinRecord) (s : State) : State :=
  let s := s.setBin w.bin { record := none, lastExport := .done, heldFaultOffset := 0 }
  let s := { s with stack := { s.stack with exportQueue := s.stack.exportQueue.drop 1, writer := none } }
  let s := s.setAnswer r.box
    (doneAnswer
      [resultWord w.bin.val, resultWord r.channelCount, resultWord w.emptyCount, resultWord w.poisonCount,
        resultWord w.noisyCount])
  s.raise .bin

/-- The export succeeds, and the next bin begins (R133). -/
def exportSucceeds (w : Writer) (r : BinRecord) (s : State) : State :=
  beginExport (freeExported w r s).stack.exportQueue.length (freeExported w r s)

/-- An export burst is reported completed: the export goes on with its next burst or succeeds (R129, R133). -/
def exportBurstCompleted (b : Burst) (s : State) : State :=
  match s.stack.writer with
  | none => s.setSlot .exporter .empty
  | some w =>
    let s := s.setSlot .exporter .empty
    let w := { w with written := w.written + b.length }
    match s.stack.bins[w.bin].record with
    | none => s
    | some r =>
      if r.exportStop ≤ r.exportOffset + w.written then exportSucceeds w r s
      else postExportBurst w s

/-- An export burst is reported faulted: counted, FAULT raised, the bin HELD at the offset of the burst, and the next
bin begins (R134, R161). -/
def exportBurstFailed (b : Burst) (s : State) : State :=
  match s.stack.writer with
  | none => (s.setSlot .exporter .empty).busFault .exporter
  | some w =>
    let s := (s.setSlot .exporter .empty).busFault .exporter
    match s.stack.bins[w.bin].record with
    | none => s
    | some r =>
      let s := holdHead w.bin r b.offset (s.stack.exportQueue.drop 1) s
      beginExport s.stack.exportQueue.length s

end Sys2Proof.Machine
end

