-- ==== Sys2Proof/Machine/Library.lean ====
section
/-! DEFINITION. The Pilot Library: lookups, pages, the copy of a load and its completion (R51 to R66). -/

namespace Sys2Proof.Machine

/-- The position of the READY or DAMAGED entry that carries an id; a LOADING entry is not found (R51). -/
def Library.lookup (l : Library) (id : Nat) : Option (Fin 16) :=
  (List.finRange 16).find? fun i =>
    match l.entries[i] with
    | some e => e.id == id && e.state != .loading
    | none => false

/-- The use count of the entry at a position; 0 at an empty one. -/
def Library.useCount (l : Library) (i : Fin 16) : Nat :=
  match l.entries[i] with
  | some e => e.useCount
  | none => 0

/-- The pages in some page list (R52). -/
def Library.owned (l : Library) : List (Fin 256) :=
  (l.entries.toList.map fun e => match e with | some e => e.pages | none => []).flatten ++
    (match l.load with | some slot => slot.pages | none => [])

/-- The free pages, in ascending page number (R52). -/
def Library.freePages (l : Library) : List (Fin 256) :=
  let owned := l.owned
  (List.finRange 256).filter fun p => !owned.contains p

/-- The lowest-numbered empty position (R56, R60). -/
def Library.lowestEmpty (l : Library) : Option (Fin 16) :=
  (List.finRange 16).find? fun i => l.entries[i].isNone

/-- The pages of a pilot of `length` samples: ceil(P/1,024). -/
def pagesNeeded (length : Nat) : Nat := (length + 1023) / 1024

/-- The word of sample `n` of a pilot held in `pages` (R57, R64). -/
def pilotWordAt (pages : List (Fin 256)) (n : Nat) : Nat :=
  pilotAddress (pages.getD (n / 1024) 0).val (n % 1024)

/-- The samples from number `n` on written into their pages, with fresh check bits (R57). -/
def writePilotSamples (pages : List (Fin 256)) : Nat → List (BitVec 16) → Dram → Dram
  | _, [], d => d
  | n, v :: rest, d => writePilotSamples pages (n + 1) rest (writePilot (pilotWordAt pages n) v d)

/-- The data of a burst of the copy: its samples go into the pages of the load slot, and its bytes enter the CRC
(R57, R58). -/
def acceptImage (slot : LoadSlot) (data : List Byte) (s : State) : State :=
  { s with
    dram := writePilotSamples slot.pages (slot.received / 2) (pilotSamplesOf data) s.dram
    library :=
      { s.library with
        load := some { slot with received := slot.received + data.length, crc := crc32Run slot.crc data } } }

/-- The loader posts the next burst of the image (R57, R158). -/
def postLoaderBurst (slot : LoadSlot) (s : State) : State :=
  s.post .loader
    (readBurst (slot.imageOffset + slot.received)
      (burstLength (slot.imageOffset + slot.received) (slot.imageOffset + 2 * slot.length)))

/-- The load slot becomes empty, which frees its pages, and a LOADING position is emptied (R59). -/
def clearLoad (slot : LoadSlot) (s : State) : State :=
  let s := { s with library := { s.library with load := none } }
  match slot.position with
  | some i => s.setEntry i none
  | none => s

/-- Where the new entry goes: the old entry's position, else the position reserved at the take, else the
lowest-numbered empty position (R60). -/
def installPosition (slot : LoadSlot) (l : Library) : Option (Fin 16) :=
  match l.lookup slot.id with
  | some i => some i
  | none =>
    match slot.position with
    | some i => some i
    | none => l.lowestEmpty

/-- The entry that a load installs (R60). -/
def loadedEntry (slot : LoadSlot) (serial : Word) : PilotEntry :=
  { id := slot.id, state := .ready, length := slot.length, shift := slot.shift, interval := slot.interval,
    pages := slot.pages, useCount := 0, serial := serial }

/-- A load ends DONE: the serial counter rises and the new entry is installed (R53, R60). -/
def installLoad (slot : LoadSlot) (s : State) : State :=
  match installPosition slot s.library with
  | none => s
  | some i =>
    let serial := s.library.serial + 1
    let s := clearLoad slot s
    let s := { s with library := { s.library with serial := serial } }
    (s.setEntry i (some (loadedEntry slot serial))).setAnswer slot.box
      (doneAnswer [serial, resultWord i.val, resultWord slot.pages.length])

/-- An entry with the load's id is present and in use (R59 step 3). -/
def loadTargetInUse (slot : LoadSlot) (l : Library) : Bool :=
  match l.lookup slot.id with
  | some i => decide (0 < l.useCount i)
  | none => false

/-- An interval code differs from the configured one; nothing differs while there is none (R3). -/
def wrongInterval (interval : Nat) (session : Option Session) : Bool :=
  match session with
  | some c => c.interval != interval
  | none => false

/-- The load completes (R59). `fault` is the window offset of a failed burst. -/
def completeLoad (slot : LoadSlot) (fault : Option Nat) (s : State) : State :=
  match fault with
  | some offset =>
    (clearLoad slot s).setAnswer slot.box
      { outcome := .faulted, reason := .busFault, words := [resultWord offset] }
  | none =>
    if crc32Final slot.crc != slot.expectedCrc then
      (clearLoad slot s).setAnswer slot.box
        { outcome := .faulted, reason := .crcMismatch, words := [crc32Final slot.crc] }
    else if loadTargetInUse slot s.library then
      (clearLoad slot s).setAnswer slot.box (refusedAnswer .pilotInUse)
    else if wrongInterval slot.interval s.session then
      (clearLoad slot s).setAnswer slot.box (refusedAnswer .wrongInterval)
    else installLoad slot s

/-- The loader's burst is reported faulted: counted, FAULT raised, the data that had arrived is in its pages, and the
load completes at once with the offset of the failed burst (R57, R59, R160, R161; log 16). -/
def failLoaderBurst (b : Burst) (received : List Byte) (s : State) : State :=
  match s.library.load with
  | none => (s.setSlot .loader .empty).busFault .loader
  | some slot =>
    let s := (s.setSlot .loader .empty).busFault .loader
    let s := acceptImage slot (received.take b.length) s
    completeLoad slot (some b.offset) s

end Sys2Proof.Machine
end

