-- ==== Sys2Proof/Machine/Scheduler.lean ====
section
/-! DEFINITION. The Sweep Scheduler: readiness, the arbiter, pass starts, pass ends and job ends (R68 to R80). -/

namespace Sys2Proof.Machine

/-- O, the oldest index held in the ring: W − 65,535 (R37). -/
def SampleStore.oldest (st : SampleStore) : Option Int := st.newest.map fun w => w - 65535

/-- An index lies below O; nothing does while O has no value. -/
def belowOldest (st : SampleStore) (i : Int) : Bool :=
  match st.oldest with
  | some o => decide (i < o)
  | none => false

/-! ## Readiness -/

/-- The job after a settled-index notice: a WAITING job whose need_last is settled becomes READY (R71). -/
def noticeJob (settled : Int) (j : Option Job) : Option Job :=
  match j with
  | some j => if j.state = .waiting ∧ (j.needLast : Int) ≤ settled then some { j with state := .ready } else some j
  | none => none

/-- The settled-index notice (R41, R71). -/
def noticeSettled (settled : Int) (s : State) : State :=
  { s with sched := { s.sched with jobs := mapTable (noticeJob settled) s.sched.jobs } }

/-! ## The ends of jobs -/

/-- The result words of a job's final answer (R79, 13.3). -/
def jobWords (j : Job) : List Word :=
  [resultWord j.blocksDone, resultWord j.accepted, resultWord j.noise, resultWord j.gapped, resultWord j.clipped,
    resultWord j.surplus, resultWord j.totalMissing]

/-- An entry with its use count lowered by 1 (R63). -/
def releaseUse (e : Option PilotEntry) : Option PilotEntry := e.map fun e => { e with useCount := e.useCount - 1 }

/-- A bin with its pending count lowered by 1 (R104). -/
def releasePending (b : Bin) : Bin := { b with record := b.record.map fun r => { r with pendingJobs := r.pendingJobs - 1 } }

/-- The parts of a job end before its bin is looked at: the queue, the entry, the use count, the pending count and
the answer (R79). -/
def dropJob (i : Fin 32) (j : Job) (outcome : OrderOutcome) (reason : Reason) (s : State) : State :=
  let s :=
    { s with
      sched :=
        { s.sched with
          queues := s.sched.queues.set j.fleet (s.sched.queues[j.fleet].filter (· != i))
          jobs := s.sched.jobs.set i none } }
  let s := s.setEntry j.pilot (releaseUse s.library.entries[j.pilot])
  let s := s.setBin j.bin (releasePending s.stack.bins[j.bin])
  s.setAnswer j.box { outcome := outcome, reason := reason, words := jobWords j }

/-- A job ends (R79); its bin's export starts if the bin is DRAINING and this was its last job (R127). -/
def endJob (i : Fin 32) (outcome : OrderOutcome) (reason : Reason) (s : State) : State :=
  match s.sched.jobs[i] with
  | some j => drainTest j.bin (dropJob i j outcome reason s)
  | none => s

/-! ## The arbiter -/

/-- A fleet is held (R72). -/
def Scheduler.isHeld (sc : Scheduler) (f : Fin 8) : Bool := sc.hold.getLsbD f.val

/-- The READY job at a table entry. -/
def Scheduler.readyJob (sc : Scheduler) (i : Fin 32) : Option Job :=
  match sc.jobs[i] with
  | some j => if j.state = .ready then some j else none
  | none => none

/-- Of the READY jobs of a take-order queue, the one with the smallest t0, and of equal ones the one that stands
earlier (R73 step 3). `best` is the choice so far. -/
def bestOf (sc : Scheduler) : List (Fin 32) → Option (Fin 32 × Nat) → Option (Fin 32 × Nat)
  | [], best => best
  | i :: rest, best =>
    match sc.readyJob i, best with
    | some j, some (_, t) => if j.t0 < t then bestOf sc rest (some (i, j.t0)) else bestOf sc rest best
    | some j, none => bestOf sc rest (some (i, j.t0))
    | none, _ => bestOf sc rest best

/-- The arbiter's choice among some fleets, top first (R73). -/
def chooseFrom (sc : Scheduler) : List (Fin 8) → Option (Fin 32)
  | [] => none
  | f :: rest =>
    if sc.isHeld f then chooseFrom sc rest
    else
      match bestOf sc sc.queues[f] none with
      | some (i, _) => some i
      | none => chooseFrom sc rest

/-- The arbiter's choice (R73). -/
def chooseJob (sc : Scheduler) : Option (Fin 32) := chooseFrom sc sc.priority

/-- The first channel of block `k` of a bin (R87). -/
def blockFirst (r : BinRecord) (k : Nat) : Nat := r.firstChannel + 32 * k

/-- The last channel of block `k` of a bin (R87). -/
def blockLast (r : BinRecord) (k : Nat) : Nat :=
  min (r.firstChannel + 32 * k + 31) (r.firstChannel + r.channelCount - 1)

/-- The pass record of a job (R75). -/
def passRecord (i : Fin 32) (j : Job) (e : PilotEntry) (r : BinRecord) : PassRecord :=
  { job := i, pilot := j.pilot, pages := e.pages, length := e.length, shift := e.shift, bin := j.bin,
    block := j.nextBlock, firstChannel := blockFirst r j.nextBlock, lastChannel := blockLast r j.nextBlock,
    lagFirst := r.lagFirst, lagLast := r.lagLast, lags := r.lags, t0 := j.t0,
    needFirst := j.needFirst, needLast := j.needLast }

/-- A pass starts: the pin is set at need_first, the job becomes ACTIVE and the Engine enters COMPUTE with an empty
working state (R45, R74, R86). -/
def startPass (i : Fin 32) (j : Job) (e : PilotEntry) (r : BinRecord) (s : State) : State :=
  let s := s.setJob i (some { j with state := .active })
  { s with
    store := { s.store with pin := some j.needFirst }
    engine := .compute (passRecord i j e r) [] [] [] }

/-- The arbiter acts: it chooses a READY job, ends it at a failed pass-start check and chooses again, or starts its
pass (R73, R74). The first argument bounds the choices. -/
def arbitrateLoop : Nat → State → State
  | 0, s => s
  | fuel + 1, s =>
    match chooseJob s.sched with
    | none => s
    | some i =>
      match s.sched.jobs[i] with
      | none => s
      | some j =>
        match s.library.entries[j.pilot], s.stack.bins[j.bin].record with
        | some e, some r =>
          if e.state = .damaged then arbitrateLoop fuel (endJob i .faulted .pilotDamaged s)
          else if belowOldest s.store j.needFirst then arbitrateLoop fuel (endJob i .overrun .spanLost s)
          else startPass i j e r s
        | _, _ => s

/-- The arbiter acts whenever no pass is in flight (R73); at most 32 jobs can end in a row before a pass starts. -/
def arbitrate (s : State) : State := if s.engine.isFree then arbitrateLoop 33 s else s

/-! ## The ends of passes -/

/-- A fleet moved to the bottom of the priority list (R76). -/
def moveToBottom (f : Fin 8) (list : List (Fin 8)) : List (Fin 8) := list.filter (· != f) ++ [f]

/-- The three ways a pass ends (5.4). -/
inductive PassEnd where
  | completed
  | pinBroken
  | pilotDamaged
  deriving DecidableEq, Repr

/-- The list turns in ROTATE mode (R76). -/
def turnList (f : Fin 8) (s : State) : State :=
  match s.sched.mode with
  | .rotate => { s with sched := { s.sched with priority := moveToBottom f s.sched.priority } }
  | .fixed => s

/-- The job of a completed pass after its block is counted (R76, R77). -/
def countBlock (j : Job) : Job := { j with blocksDone := j.blocksDone + 1, nextBlock := j.nextBlock + 1 }

/-- The Scheduler settles the job of a pass that has ended (R76, R77). -/
def settleJob (i : Fin 32) (j : Job) (kind : PassEnd) (s : State) : State :=
  match kind with
  | .completed =>
    let s := s.setJob i (some (countBlock j))
    if j.cancelPending then endJob i .cancelled .none s
    else if j.nextBlock + 1 < j.blocksTotal then s.setJob i (some { countBlock j with state := .ready })
    else endJob i .done .none s
  | .pinBroken => if j.cancelPending then endJob i .cancelled .none s else endJob i .overrun .pinBroken s
  | .pilotDamaged => if j.cancelPending then endJob i .cancelled .none s else endJob i .faulted .pilotDamaged s

/-- A pass ends: the Engine returns to NO_PASS, the list turns and the job is settled (R76, R95, R96, R98). The
arbiter is not part of it: it acts on what the event leaves (log 8). -/
def endPass (kind : PassEnd) (s : State) : State :=
  match s.engine.activeJob with
  | none => s
  | some i =>
    let s := { s with engine := .noPass }
    match s.sched.jobs[i] with
    | none => s
    | some j => settleJob i j kind (turnList j.fleet s)

end Sys2Proof.Machine
end

