-- ==== Sys2Proof/Machine/Store.lean ====
section
/-! DEFINITION. The Sample Store: the scan map, writes of good frames, advances of W, the settled index and the reads
of a pass (R34 to R50), with the cuts of ports that an advance makes (R25, R26). -/

namespace Sys2Proof.Machine

/-- The configured channel count of a port; 0 outside RECORDING (R14). -/
def configured (s : State) (p : Fin 4) : Nat :=
  match s.session with
  | some c => c.counts[p]
  | none => 0

/-- The slot of an index (03, opening). -/
def slotOf (i : Int) : Nat := (i % 65536).toNat

/-- The place of a presence mark in the scan map (R35). -/
def markAddress (port slot : Nat) : Nat := port * 65536 + slot

/-- The slot is that of some index in `first..last` (R37, R40). -/
def slotInRange (first last : Int) (slot : Nat) : Bool := decide (((slot : Int) - first) % 65536 ≤ last - first)

/-- Every mark, of every port, at each slot of `first..last` is cleared (R37, R40). -/
def clearMarks (first last : Int) (st : SampleStore) : SampleStore :=
  { st with marks := cellsClear (fun k => slotInRange first last (k % 65536)) st.marks }

/-- A port's mark at a slot is set (R35). -/
def setMark (p : Fin 4) (slot : Nat) (st : SampleStore) : SampleStore :=
  { st with marks := cellWrite false (markAddress p.val slot) true st.marks }

/-- The samples of a frame written into one slot, from a channel on, each with fresh check bits (R34, R36). -/
def writeSamples (slot : Nat) : Nat → List (BitVec 32) → Dram → Dram
  | _, [], d => d
  | channel, v :: rest, d => writeSamples slot (channel + 1) rest (writeRaw (rawAddress channel slot) v d)

/-- A good frame is written at its index: the samples of the port's existing channels and the port's mark (R36). -/
def writeFrame (p : Fin 4) (tag : Nat) (samples : List (BitVec 32)) (s : State) : State :=
  { s with
    dram := writeSamples (slotOf tag) (p.val * 512) (samples.take (configured s p)) s.dram
    store := setMark p (slotOf tag) s.store }

/-! ## Cuts -/

/-- The three causes of a cut (2.3). -/
inductive CutCause where
  | errors
  | signal
  | stall
  deriving DecidableEq, Repr

/-- The counts after a cut (R31). -/
def PortCounts.addCut (c : PortCounts) : CutCause → PortCounts
  | .errors => { c with cutErrors := satInc32 c.cutErrors }
  | .signal => { c with cutSignal := satInc32 c.cutSignal }
  | .stall => { c with cutStall := satInc32 c.cutStall }

/-- The record of a port that is cut; its frontier is frozen (R25). -/
def Port.afterCut (cause : CutCause) (x : Port) : Port :=
  { x with
    state := .cut, errors := 0, recovery := 0, syncRun := 0, syncTag := none
    counts := x.counts.addCut cause }

/-- A port is cut, which raises LINK (R25, R30). -/
def cutPort (p : Fin 4) (cause : CutCause) (s : State) : State :=
  (s.setPort p (s.ports[p].afterCut cause)).raise .link

/-- How far a port may lie below W: 8,192 when LIVE, 1,024 when DEGRADED (R26). -/
def stallLimit : PortState → Option Int
  | .live => some 8192
  | .degraded => some 1024
  | _ => none

/-- The port fails the stall test against W (R26). -/
def stalled (w : Int) (x : Port) : Bool :=
  match stallLimit x.state, x.frontier with
  | some limit, some f => decide (f < w - limit)
  | _, _ => false

/-- The stall test of one port against W as it stands (R26). -/
def stallTest (p : Fin 4) (s : State) : State :=
  match s.store.newest with
  | some w => if stalled w s.ports[p] then cutPort p .stall s else s
  | none => s

/-- The stall test of every port (R37 step 6). -/
def stallTests (s : State) : State := (List.finRange 4).foldl (fun s p => stallTest p s) s

/-! ## Writing and advancing -/

/-- A port's frontier moves to a tag (R17). -/
def setFrontier (p : Fin 4) (tag : Nat) (s : State) : State :=
  s.setPort p { s.ports[p] with frontier := some (tag : Int) }

/-- The pin is tested against O after an advance; a broken pin is released and the pass abandoned (R47, R96). -/
def pinTest (s : State) : State :=
  match s.store.pin with
  | some p0 =>
    if belowOldest s.store p0 then endPass .pinBroken { s with store := { s.store with pin := none } } else s
  | none => s

/-- A good frame handed to the store: at or below W it is written (R36); beyond W the steps 1 to 6 of R37 are made.
Step 7, the settled index, is made at the end of the arrival (R39). A mark that the port set at an index in an earlier
live period is not cleared when a later frame of it skips the index: DESIGN CHOICE (log 35). -/
def storeFrame (p : Fin 4) (tag : Nat) (samples : List (BitVec 32)) (s : State) : State :=
  match s.store.newest with
  | none => s
  | some w =>
    if (tag : Int) ≤ w then setFrontier p tag (writeFrame p tag samples s)
    else
      let s := { s with store := { clearMarks (w + 1) tag s.store with newest := some (tag : Int) } }
      let s := writeFrame p tag samples s
      let s := setFrontier p tag s
      stallTests (pinTest s)

/-! ## The settled index -/

/-- The lesser of two frontiers. -/
def minIndex : Option Int → Option Int → Option Int
  | none, b => b
  | a, none => a
  | some a, some b => some (min a b)

/-- The minimum of the frontiers of the ports in LIVE or DEGRADED, if there is one (R39). -/
def minFrontier (ports : Vector Port 4) : Option Int :=
  (List.finRange 4).foldl (fun m p => if ports[p].counted then minIndex m ports[p].frontier else m) none

/-- The settled index is recomputed, with one notice if it takes a new value (R39, R41). -/
def recomputeSettled (s : State) : State :=
  match minFrontier s.ports with
  | none => s
  | some m =>
    if s.store.settled = some m then s
    else noticeSettled m { s with store := { s.store with settled := some m } }

/-! ## Reads of a pass -/

/-- A read of a channel at an index stops before local DRAM: the position does not exist, the index lies outside
O..W, or the port's mark is clear (R42 steps 1 to 3). -/
def readStops (channel : Nat) (i : Nat) (s : State) : Bool :=
  match s.store.newest with
  | none => true
  | some w =>
    if h : channel / 512 < 4 then
      decide (configured s ⟨channel / 512, h⟩ ≤ channel % 512) ||
        decide ((i : Int) < w - 65535) || decide (w < (i : Int)) ||
        !cellRead false s.store.marks (markAddress (channel / 512) (slotOf i))
    else true

/-- A read of a channel at an index: its value, or missing (R42 to R44). -/
def readSample (channel : Nat) (i : Nat) (s : State) : State × Option Int :=
  if readStops channel i s then (s, none)
  else
    match readRaw (rawAddress channel (slotOf i)) s with
    | (s, some v) => (s, some v.toInt)
    | (s, none) => (s, none)

end Sys2Proof.Machine
end

