-- ==== Sys2Proof/Machine/LinkPorts.lean ====
section
/-! DEFINITION. The family of the Spread Link Ports: FRAME_ARRIVAL, CARRIER_LOSS, CARRIER_PRESENT (R14 to R33). -/

namespace Sys2Proof.Machine

/-! ## Frames -/

/-- The classes of a bad frame (R16). -/
inductive BadClass where
  | crc
  | format
  | sequence
  | time
  deriving DecidableEq, Repr

/-- One more on the cumulative count of a class (R31). -/
def PortCounts.addBad (c : PortCounts) : BadClass → PortCounts
  | .crc => { c with crc := satInc32 c.crc }
  | .format => { c with format := satInc32 c.format }
  | .sequence => { c with sequence := satInc32 c.sequence }
  | .time => { c with time := satInc32 c.time }

/-- The CRC and FORMAT tests, which every state but DOWN makes (R16 steps 1 and 2). -/
def lineClass (configured : Nat) (p : Fin 4) (bytes : List Byte) : Option BadClass :=
  if !crcPasses bytes then some .crc
  else if !formatPasses p.val configured bytes then some .format
  else none

/-- A tag lies more than 16,384 beyond the settled index (R16 step 4). -/
def beyondReach (settled : Option Int) (tag : Nat) : Bool :=
  match settled with
  | some t => decide (t + 16384 < (tag : Int))
  | none => false

/-- A tag is at or below an index (R16 step 3, R20). -/
def atOrBelow (index : Option Int) (tag : Nat) : Bool :=
  match index with
  | some f => decide ((tag : Int) ≤ f)
  | none => false

/-- A tag is exactly one more than an index (R22). -/
def isNext (index : Option Int) (tag : Nat) : Bool :=
  match index with
  | some f => decide ((tag : Int) = f + 1)
  | none => false

/-! ## What an arrival leaves -/

/-- What follows a change of the ports that take part in the settled index: the settled index is recomputed, the arbiter
acts, and the issue arbiter serves what was posted (R39, R41, R73, R159; logs 7, 8). -/
def settleEvent (s : State) : State := serveIssuePort (arbitrate (recomputeSettled s))

/-! ## LIVE and DEGRADED -/

/-- A LIVE port whose count is 128 or more is DEGRADED: LINK is raised and the stall test is made at once with the
DEGRADED limit (R23, R26). -/
def degradeTest (p : Fin 4) (s : State) : State :=
  if s.ports[p].state = .live ∧ 128 ≤ s.ports[p].errors then
    stallTest p ((s.setPort p { s.ports[p] with state := .degraded }).raise .link)
  else s

/-- A bad frame at a LIVE or DEGRADED port (R23, R25). -/
def badFrame (p : Fin 4) (c : BadClass) (s : State) : State :=
  let x := s.ports[p]
  let x := { x with counts := x.counts.addBad c }
  if 256 ≤ x.errors + 8 then cutPort p .errors (s.setPort p x)
  else degradeTest p (s.setPort p { x with errors := x.errors + 8 })

/-- A GAP frame at a LIVE or DEGRADED port (R17, R23). The indices it skips are left as they are: one that the port
marked before a cut, above the frontier it has since rejoined at, keeps its mark. DESIGN CHOICE (log 35). -/
def gapFrame (p : Fin 4) (tag : Nat) (samples : List (BitVec 32)) (s : State) : State :=
  let x := s.ports[p]
  let s := s.setPort p { x with counts := { x.counts with gap := satInc32 x.counts.gap } }
  if 256 ≤ x.errors + 8 then cutPort p .errors s
  else
    let s := storeFrame p tag samples s
    degradeTest p (s.setPort p { s.ports[p] with errors := x.errors + 8 })

/-- A DEGRADED port whose count is at most 127 returns to LIVE (R22, R24). -/
def recoverTest (p : Fin 4) (s : State) : State :=
  if s.ports[p].state = .degraded ∧ s.ports[p].errors ≤ 127 then
    (s.setPort p { s.ports[p] with state := .live }).raise .link
  else s

/-- A good frame in sequence at a LIVE or DEGRADED port (R22). -/
def goodFrame (p : Fin 4) (tag : Nat) (samples : List (BitVec 32)) (s : State) : State :=
  let s := storeFrame p tag samples s
  recoverTest p (s.setPort p { s.ports[p] with errors := s.ports[p].errors - 1 })

/-- An arrival at a LIVE or DEGRADED port (R16, R22, R23). -/
def liveArrival (p : Fin 4) (bytes : List Byte) (s : State) : State :=
  let x := s.ports[p]
  let tag := frameTag bytes
  match lineClass (configured s p) p bytes with
  | some c => badFrame p c s
  | none =>
    if atOrBelow x.frontier tag then badFrame p .sequence s
    else if beyondReach s.store.settled tag then badFrame p .time s
    else if isNext x.frontier tag then goodFrame p tag (frameSamples bytes) s
    else gapFrame p tag (frameSamples bytes) s

/-! ## SYNCING -/

/-- A bad frame at a SYNCING port sets the run to 0 and leaves the sync tag (R19, R20). -/
def breakRun (p : Fin 4) (c : BadClass) (s : State) : State :=
  let x := s.ports[p]
  s.setPort p { x with syncRun := 0, counts := x.counts.addBad c }

/-- A good frame while the run is below 16 (R19). -/
def buildRun (p : Fin 4) (tag : Nat) (s : State) : State :=
  let x := s.ports[p]
  let run := if x.syncTag.map (· + 1) = some tag then x.syncRun + 1 else 1
  s.setPort p { x with syncRun := run, syncTag := some tag }

/-- A late frame at a waiting port (R20). -/
def lateFrame (p : Fin 4) (tag : Nat) (s : State) : State :=
  let x := s.ports[p]
  s.setPort p { x with syncTag := some tag, counts := { x.counts with late := satInc32 x.counts.late } }

/-- Some other port is LIVE or DEGRADED (R20, R21). -/
def otherCounted (p : Fin 4) (s : State) : Bool :=
  (List.finRange 4).any fun q => q != p && s.ports[q].counted

/-- The marks of the indices skipped by a join with no other port live are cleared, as far as the ring holds them
(R40). -/
def clearSkipped (settled : Option Int) (tag : Nat) (s : State) : State :=
  match settled, s.store.oldest with
  | some t, some o => { s with store := clearMarks (max (t + 1) o) ((tag : Int) - 1) s.store }
  | _, _ => s

/-- A SYNCING port joins: it becomes LIVE, LINK is raised, and its frame is written (R20, R21, R40). Beside another port
LIVE or DEGRADED the indices between its old frontier and the tag are left as they are: one that the port marked in an
earlier live period keeps its mark. DESIGN CHOICE (log 35). -/
def joinPort (p : Fin 4) (tag : Nat) (samples : List (BitVec 32)) (s : State) : State :=
  let alone := !otherCounted p s
  let settled := s.store.settled
  let s := s.setPort p { s.ports[p] with state := .live, errors := 0, syncRun := 0, syncTag := none }
  let s := storeFrame p tag samples (s.raise .link)
  if alone then clearSkipped settled tag s else s

/-- An arrival at a SYNCING port (R19 to R21). -/
def syncArrival (p : Fin 4) (bytes : List Byte) (s : State) : State :=
  let tag := frameTag bytes
  match lineClass (configured s p) p bytes with
  | some c => breakRun p c s
  | none =>
    if s.ports[p].syncRun < 16 then buildRun p tag s
    else if atOrBelow s.store.settled tag then lateFrame p tag s
    else if otherCounted p s && beyondReach s.store.settled tag then breakRun p .time s
    else settleEvent (joinPort p tag (frameSamples bytes) s)

/-! ## CUT -/

/-- An arrival at a CUT port (R28, R29). -/
def cutArrival (p : Fin 4) (bytes : List Byte) (s : State) : State :=
  let x := s.ports[p]
  match lineClass (configured s p) p bytes with
  | some c => s.setPort p { x with counts := x.counts.addBad c }
  | none =>
    if 128 ≤ x.recovery + 1 then
      (s.setPort p { x with state := .syncing, recovery := 0, syncRun := 0, syncTag := none }).raise .link
    else s.setPort p { x with recovery := x.recovery + 1 }

/-! ## The commands -/

/-- An arrival by the port's state (R14, R16); the settled index is recomputed after an arrival that can move a
frontier, join a port or cut one (R39). -/
def arrival (p : Fin 4) (bytes : List Byte) (s : State) : State :=
  match s.ports[p].state with
  | .down => s
  | .syncing => syncArrival p bytes s
  | .live => settleEvent (liveArrival p bytes s)
  | .degraded => settleEvent (liveArrival p bytes s)
  | .cut => cutArrival p bytes s

/-- FRAME_ARRIVAL (R14 to R30, R34 to R41, R47, R96). A DOWN port ignores the arrival (R14). -/
def execFrameArrival (p : Fin 4) (bytes : List Byte) (upsets : List Upset) (s : State) :
    Host.Outcome State Fault Refusal :=
  .next (arrival p bytes (s.applyUpsets upsets))

/-- A report of carrier loss at a port (R27). -/
def loseCarrier (p : Fin 4) (s : State) : State :=
  let x := s.ports[p]
  let s := s.setPort p { x with carrier := false }
  match x.state with
  | .down => s
  | .cut => s.setPort p { x with carrier := false, recovery := 0 }
  | .syncing => cutPort p .signal s
  | .live => cutPort p .signal s
  | .degraded => cutPort p .signal s

/-- CARRIER_LOSS (R27, R39). -/
def execCarrierLoss (p : Fin 4) (upsets : List Upset) (s : State) : Host.Outcome State Fault Refusal :=
  let s := s.applyUpsets upsets
  if s.ports[p].counted then .next (settleEvent (loseCarrier p s)) else .next (loseCarrier p s)

/-- CARRIER_PRESENT changes only the port's carrier field (R27; log 14). -/
def execCarrierPresent (p : Fin 4) (s : State) : Host.Outcome State Fault Refusal :=
  .next (s.setPort p { s.ports[p] with carrier := true })

end Sys2Proof.Machine
end

