-- ==== Sys2Proof/Machine/StatusPage.lean ====
section
/-! DEFINITION. The status page: its 4,096 bytes as they stand at one instant (R154, R155, 13.4, R178). -/

namespace Sys2Proof.Machine

/-- One byte from a flag. -/
def flagByte (b : Bool) : List Byte := leBytes 1 (if b then 1 else 0)

/-- Bytes 0..127 (13.4): the device, store, jobs, fleets, pilot store and counts groups. -/
def pageHeader (s : State) : List Byte :=
  leBytes 1 s.device.code ++ leBytes 1 s.resetEpoch.toNat ++ flagByte s.board.baselineFlag ++ zeroBytes 1 ++
    wordBytes s.counts.scan ++
    indexBytes s.store.newest ++ indexBytes s.store.settled ++ indexBytes s.store.oldest ++
    leBytes 1 ((s.sched.jobs.toList.filter (·.isSome)).length) ++
    leBytes 1 (match s.engine.activeJob with | some j => j.val | none => 0xFF) ++
    leBytes 1 s.sched.mode.code ++ leBytes 1 s.sched.hold.toNat ++
    ((s.sched.priority.map fun f => leBytes 1 f.val).flatten) ++
    leBytes 2 s.library.freePages.length ++
    flagByte s.library.load.isSome ++
    leBytes 1 (match s.library.load with | some slot => slot.id | none => 0) ++
    leBytes 4 s.counts.eccCorrected ++ leBytes 4 s.counts.pilotDamage ++ leBytes 4 s.counts.poison ++
    leBytes 4 s.counts.discardedWrites ++
    leBytes 4 s.bus.scannerFaults ++ leBytes 4 s.bus.exporterFaults ++ leBytes 4 s.bus.loaderFaults ++
    zeroBytes 52

/-- One port record, 64 bytes (13.4, R32). -/
def portBytes (x : Port) : List Byte :=
  leBytes 1 x.state.code ++ flagByte x.carrier ++ leBytes 1 x.errors ++ flagByte x.warn ++
    leBytes 1 x.recovery ++ leBytes 1 x.syncRun ++ zeroBytes 2 ++ indexBytes x.frontier ++
    leBytes 4 x.counts.crc ++ leBytes 4 x.counts.format ++ leBytes 4 x.counts.sequence ++
    leBytes 4 x.counts.time ++ leBytes 4 x.counts.gap ++ leBytes 4 x.counts.late ++
    leBytes 4 x.counts.cutErrors ++ leBytes 4 x.counts.cutSignal ++ leBytes 4 x.counts.cutStall ++
    zeroBytes 12

/-- One pilot summary, 16 bytes; an empty position holds 0 in every field (13.4, R51, R178). -/
def pilotBytes (e : Option PilotEntry) : List Byte :=
  match e with
  | some e =>
    leBytes 1 e.id ++ leBytes 1 e.state.code ++ zeroBytes 2 ++ leBytes 2 e.length ++ leBytes 1 e.useCount ++
      zeroBytes 1 ++ wordBytes e.serial ++ zeroBytes 4
  | none => zeroBytes 16

/-- One bin summary, 32 bytes; a FREE bin holds 0 in every field but the last export result and the held-fault
offset (13.4, R123, R138, R178). -/
def binBytes (b : Bin) : List Byte :=
  (match b.record with
    | some r =>
      leBytes 1 r.phase.code ++ leBytes 1 b.lastExport.code ++ leBytes 1 r.pendingJobs ++ zeroBytes 1 ++
        wordBytes r.key ++ wordBytes r.mask ++ leBytes 2 r.channelsAtTarget ++ leBytes 2 r.channelCount
    | none => zeroBytes 1 ++ leBytes 1 b.lastExport.code ++ zeroBytes 14) ++
    leBytes 4 b.heldFaultOffset ++ zeroBytes 12

/-- The status page, 4,096 bytes (13.4). -/
def statusPage (s : State) : List Byte :=
  pageHeader s ++ (s.ports.toList.map portBytes).flatten ++ (s.library.entries.toList.map pilotBytes).flatten ++
    (s.stack.bins.toList.map binBytes).flatten ++ zeroBytes 3200

end Sys2Proof.Machine
end

