-- ==== Sys2Proof/Machine/Board.lean ====
section
/-! DEFINITION. The Order Board Scanner: how a board scan goes from box to box and from stage to stage (R143 to R154).
The commands that report its reads and writes are in Machine/Scans.lean, the takes in Machine/Orders.lean. -/

namespace Sys2Proof.Machine

/-! ## Places in the window (R140, 13.2, 13.3) -/

/-- The window offset of the host half of a box. -/
def hostHalf (b : Fin 64) : Nat := 4096 + 256 * b.val

/-- The window offset of the part half of a box. -/
def partHalf (b : Fin 64) : Nat := 4096 + 256 * b.val + 128

/-! ## Reading -/

/-- The scanner waits for something and has posted a burst for it. -/
def scannerPosts (p : ScanPhase) (b : Burst) (s : State) : State := (s.setPhase p).post .scanner b

/-- The first reading of a box's host post (R147). -/
def readHostPost (b : Fin 64) (s : State) : State := scannerPosts (.hostPost b) (readBurst (hostHalf b) 1) s

/-- The body read, bytes 1..127 of the host half (R148; log 21). -/
def readBody (b : Fin 64) (post : Byte) (s : State) : State :=
  scannerPosts (.body b post) (readBurst (hostHalf b + 1) 127) s

/-- The second reading of the host post (R148). -/
def rereadPost (b : Fin 64) (post : Byte) (body : List Byte) (s : State) : State :=
  scannerPosts (.secondPost b post body) (readBurst (hostHalf b) 1) s

/-- The second baseline reading of the host post (R152). -/
def recheckPost (b : Fin 64) (post : Byte) (s : State) : State :=
  scannerPosts (.baselineRecheck b post) (readBurst (hostHalf b) 1) s

/-! ## The status stage and the answer stage -/

/-- The status stage: the scan count rises, the page is assembled as one snapshot, and its write is posted (R154). -/
def beginStatusStage (s : State) : State :=
  let s := { s with counts := { s.counts with scan := s.counts.scan + 1 } }
  scannerPosts .statusPage (writeBurst 0 (statusPage s)) s

/-- The first write of an answer: bytes 132..255 (R151, R178). What it carries is settled at its issue (log 9). -/
def writeOutcome (round : AnswerRound) (b : Fin 64) (s : State) : State :=
  scannerPosts (.answerFirst round b none)
    (writeBurst (partHalf b + 4) (outcomeBytes s.board.boxes[b].answer)) s

/-- The second write of an answer: bytes 128..131, with the answered post (R151, R178). -/
def writePost (round : AnswerRound) (b : Fin 64) (sent : Option Answer) (s : State) : State :=
  scannerPosts (.answerSecond round b sent) (writeBurst (partHalf b) (postBytes s.board.boxes[b].answeredPost)) s

/-- The dirty entries, in ascending box order. -/
def dirtyBoxes (b : Board) : List (Fin 64) := (List.finRange 64).filter fun i => b.boxes[i].dirty

/-- The boxes still dirty of a list that the second round may take: those whose write has not been faulted in this
answer stage (R151). -/
def secondRoundBoxes (b : Board) (start : Nat) : List (Fin 64) :=
  (dirtyBoxes b).filter fun i => decide (start ≤ i.val) && !b.faulted.contains i

/-- The second round goes on from box `start`, and the status stage follows its last box (R151, R154). -/
def goSecondRound (start : Nat) (s : State) : State :=
  match secondRoundBoxes s.board start with
  | b :: _ => writeOutcome .second b s
  | [] => beginStatusStage s

/-- The first round goes on with the boxes left to it, and the second round follows (R151). -/
def goFirstRound (s : State) : State :=
  match s.board.firstRound.filter fun i => s.board.boxes[i].dirty with
  | b :: rest => writeOutcome .first b { s with board := { s.board with firstRound := rest } }
  | [] => goSecondRound 0 { s with board := { s.board with firstRound := [] } }

/-- The answer stage goes on after box `b` of a round. -/
def nextAnswer (round : AnswerRound) (b : Fin 64) (s : State) : State :=
  match round with
  | .first => goFirstRound s
  | .second => goSecondRound (b.val + 1) s

/-! ## The read stage -/

/-- The read stage ends: the rotation start moves past the last box in which an order was taken, and the answer stage
begins (R150, R151). -/
def endReadStage (s : State) : State :=
  let rotation :=
    match s.board.lastTaken with
    | some b => boxOf (b.val + 1)
    | none => s.board.rotation
  goFirstRound { s with board := { s.board with rotation := rotation, faulted := [] } }

/-- The read stage goes on to the next box of the rotation, or ends after examining the last (R147, R150). -/
def nextBox (s : State) : State :=
  let n := s.board.examined + 1
  let s := { s with board := { s.board with examined := n } }
  if 64 ≤ n then endReadStage s else readHostPost (boxOf (s.board.rotation.val + n)) s

/-- An order has been answered at its take: it counts toward the eight, and the eighth ends the read stage (R150). -/
def countTake (b : Fin 64) (s : State) : State :=
  let n := s.board.taken + 1
  let s := { s with board := { s.board with taken := n, lastTaken := some b } }
  if 8 ≤ n then endReadStage s else nextBox s

/-- A board scan begins its read stage at the rotation start (R146, R147). The first round of its answer stage will
take the entries that are dirty now (R151). -/
def startScan (s : State) : State :=
  readHostPost s.board.rotation
    { s with
      board :=
        { s.board with
          examined := 0, taken := 0, lastTaken := none, firstRound := dirtyBoxes s.board, faulted := [] } }

/-- A board scan is requested: dropped when no scan can run, recorded as the one follow-up when a scan is in
progress, else started (R145). -/
def requestScan (s : State) : State :=
  if !s.canScan then s
  else if s.scanBusy then { s with board := { s.board with followUp := true } }
  else startScan s

/-- The scan ends; a recorded follow-up is a request made at this moment (R145, R146). -/
def endScan (s : State) : State :=
  let again := s.board.followUp
  let s := { s with board := { s.board with phase := .idle, followUp := false } }
  if again then requestScan s else s

/-! ## New orders and the baseline -/

/-- A box holds a new order under a post (R143). -/
def holdsNewOrder (e : BoxEntry) (post : Byte) : Bool :=
  post != 0 && post != e.answeredPost && finalOrNone e.answer && !e.dirty

/-- The baseline treatment of a box waits: its current order is TAKEN or its answer is dirty (R152). -/
def baselineWaits (e : BoxEntry) : Bool := !finalOrNone e.answer || e.dirty

/-- The entry after a baseline treatment whose two readings gave `post` (R152). -/
def adoptPost (post : Byte) (e : BoxEntry) : BoxEntry :=
  if post = e.answeredPost ∧ holdsFinal e.answer then { e with baseline := false }
  else if post ≠ 0 then
    { answeredPost := post, current := none,
      answer := some { outcome := .stale, reason := .none, words := [] }, dirty := true, baseline := false }
  else { answeredPost := 0, current := none, answer := none, dirty := e.dirty, baseline := false }

end Sys2Proof.Machine
end

