-- ==== Sys2Proof/Machine/Orders.lean ====
section
/-! DEFINITION. The family of the orders: the take of R148 to R150 and what each owner does with an order of its kind
(CONFIGURE to DISCARD_BIN, and BAD_KIND). An owner answers the order, with the part as the take leaves it, or leaves
it untaken (`none`). -/

namespace Sys2Proof.Machine

/-! ## The take (R148 to R150) -/

/-- What an owner makes of an order: the part and the answer, or nothing when the order is left untaken. -/
abbrev Verdict := Option (State × Answer)

/-- A refusal leaves the owner's state as it was (R149). -/
def refuse (r : Reason) (s : State) : Verdict := some (s, refusedAnswer r)

/-- The box entry of an order that has been answered: its post, its kind and its answer, dirty (R149). -/
def recordTake (b : Fin 64) (post code : Byte) (a : Answer) (s : State) : State :=
  s.setBox b { s.board.boxes[b] with answeredPost := post, current := some code, answer := some a, dirty := true }

/-- The second reading of the post ends the box read (R148). If it differs from the first, the box is skipped. If it
equals the first, the order goes to its owner, and what the owner answers is recorded; `after` is what the take
brings about beyond the owner's state. A body of another kind than `kind` is not this row's step (log 1). -/
def takeOrder (kind : Option OrderKind) (owner : Fin 64 → Byte → List Byte → State → Verdict)
    (after : State → State) (post : Byte) (s : State) : State :=
  match s.board.phase with
  | .secondPost b first body =>
    if !(s.bus.scanner.issuedBurst).isSome then s
    else if post ≠ first then serveIssuePort (nextBox (s.setSlot .scanner .empty))
    else if bodyKind body ≠ kind then s
    else
      match owner b post body (s.setSlot .scanner .empty) with
      | none => serveIssuePort (nextBox (s.setSlot .scanner .empty))
      | some (s, a) => serveIssuePort (countTake b (after (recordTake b post (bodyKindCode body) a s)))
  | _ => s

/-- BAD_KIND (R149). -/
def execBadKind (post : Byte) (s : State) : Host.Outcome State Fault Refusal :=
  .next (takeOrder none (fun _ _ _ s => refuse .badKind s) id post s)

/-! ## CONFIGURE (R5 to R8, R48) -/

/-- A port at the take of a CONFIGURE: one with channels goes to SYNCING (R7, R18). -/
def configurePort (epoch count : Nat) (x : Port) : Port :=
  if count = 0 then x
  else
    { x with
      state := .syncing, syncRun := 0, syncTag := none, errors := 0, recovery := 0
      frontier := some ((epoch : Int) - 1) }

/-- A library position at the take of a CONFIGURE: a READY entry of another interval is dropped (R7). -/
def configureEntry (interval : Nat) (e : Option PilotEntry) : Option PilotEntry :=
  match e with
  | some e => if e.state = .ready ∧ e.interval ≠ interval then none else some e
  | none => none

/-- The scan period after its clamp (R5). -/
def clampPeriod (p : Nat) : Nat := min 50000 (max 100 p)

/-- The channel counts of a CONFIGURE after their clamp (R5, 13.2). -/
def configureCounts (body : List Byte) : Vector Nat 4 :=
  Vector.ofFn fun p : Fin 4 => min 512 (bodyField body (16 + 2 * p.val) 2)

/-- A CONFIGURE is taken (R6, R7, R48). -/
def startSession (interval epoch period : Nat) (counts : Vector Nat 4) (s : State) : State :=
  let s :=
    { s with
      device := .recording
      session := some { interval := interval, epoch := epoch, counts := counts }
      ports := Vector.ofFn fun p : Fin 4 => configurePort epoch counts[p] s.ports[p]
      store :=
        { newest := some ((epoch : Int) - 1), settled := some ((epoch : Int) - 1), marks := [], pin := none }
      library := { s.library with entries := mapTable (configureEntry interval) s.library.entries }
      board := { s.board with period := period } }
  if counts.toList.all (· == 0) then s else s.raise .link

/-- The checks and the take of a CONFIGURE (R5). -/
def ownConfigure (_b : Fin 64) (_post : Byte) (body : List Byte) (s : State) : Verdict :=
  let interval := bodyField body 4 1
  let epoch := bodyField body 8 5
  let counts := configureCounts body
  let period := clampPeriod (bodyField body 24 4)
  if s.device ≠ .idle then refuse .wrongState s
  else if 3 < interval then refuse .badValue s
  else if 2 ^ 39 < epoch then refuse .badValue s
  else
    some
      (startSession interval epoch period counts s,
        doneAnswer (counts.toList.map resultWord ++ [resultWord period]))

/-- CONFIGURE. -/
def execConfigure (post : Byte) (s : State) : Host.Outcome State Fault Refusal :=
  .next (takeOrder (some .configure) ownConfigure id post s)

/-! ## END_RECORDING (R9, R10) -/

/-- A port at the end of a session (R10, R18). -/
def closePort (x : Port) : Port :=
  { x with state := .down, errors := 0, recovery := 0, syncRun := 0, syncTag := none, frontier := none }

/-- The session ends (R8, R10). -/
def endSession (s : State) : State :=
  let changed := s.ports.toList.any fun x => x.state != .down
  let s :=
    { s with
      device := .idle
      session := none
      ports := mapTable closePort s.ports
      store := .reset
      board := { s.board with period := 1000 } }
  if changed then s.raise .link else s

/-- The two result words of an index: low and high word of its 40-bit form (13.3). -/
def indexWords (x : Option Int) : List Word :=
  [resultWord (index40 x % 4294967296), resultWord (index40 x / 4294967296)]

/-- No bin holds a record. -/
def StackUnit.allFree (st : StackUnit) : Bool := st.bins.toList.all fun b => b.record.isNone

/-- The job table holds no job. -/
def Scheduler.noJobs (sc : Scheduler) : Bool := sc.jobs.toList.all (·.isNone)

/-- The checks and the take of an END_RECORDING (R9, R10). -/
def ownEndRecording (_b : Fin 64) (_post : Byte) (_body : List Byte) (s : State) : Verdict :=
  if s.device ≠ .recording then refuse .wrongState s
  else if !(s.stack.allFree && s.sched.noJobs) then refuse .busy s
  else some (endSession s, doneAnswer (indexWords s.store.newest ++ indexWords s.store.settled))

/-- END_RECORDING. -/
def execEndRecording (post : Byte) (s : State) : Host.Outcome State Fault Refusal :=
  .next (takeOrder (some .endRecording) ownEndRecording id post s)

/-! ## LOAD_PILOT (R54 to R56) -/

/-- The load slot at a take (R56). -/
def loadSlotOf (b : Fin 64) (post : Byte) (body : List Byte) (s : State) : LoadSlot :=
  let length := bodyField body 8 4
  { id := bodyField body 4 1, length := length, shift := bodyField body 6 1, interval := bodyField body 5 1
    expectedCrc := bodyWord body 16, box := b, post := post
    pages := s.library.freePages.take (pagesNeeded length)
    position :=
      match s.library.lookup (bodyField body 4 1) with
      | some _ => none
      | none => s.library.lowestEmpty
    imageOffset := bodyField body 12 4, received := 0, crc := crc32Start }

/-- The LOADING entry of a reserved position (R56); its serial is a free value (log 12). -/
def loadingEntry (slot : LoadSlot) (draw : Nat) : PilotEntry :=
  { id := slot.id, state := .loading, length := slot.length, shift := slot.shift, interval := slot.interval,
    pages := [], useCount := 0, serial := Config.loadingSerial draw }

/-- A load is taken: the slot is filled, a new id reserves its position, and the copy is started (R56). -/
def startLoad (slot : LoadSlot) (s : State) : State :=
  let s := { s with library := { s.library with load := some slot } }
  match slot.position with
  | some i => postLoaderBurst slot { s.setEntry i (some (loadingEntry slot s.freeDraws)) with freeDraws := s.freeDraws + 1 }
  | none => postLoaderBurst slot s

/-- The checks and the take of a LOAD_PILOT; while a load is in flight it is left untaken (R54 to R56). -/
def ownLoadPilot (b : Fin 64) (post : Byte) (body : List Byte) (s : State) : Verdict :=
  let slot := loadSlotOf b post body s
  let found := s.library.lookup slot.id
  if s.library.load.isSome then none
  else if slot.id = 0 ∨ slot.length < 64 ∨ 32768 < slot.length ∨ 47 < slot.shift ∨ 3 < slot.interval then
    refuse .badValue s
  else if wrongInterval slot.interval s.session then refuse .wrongInterval s
  else if !inBuffer s.regs slot.imageOffset (2 * slot.length) then refuse .badExtent s
  else if loadTargetInUse slot s.library then refuse .pilotInUse s
  else if s.library.freePages.length < pagesNeeded slot.length ∨
      (found.isNone ∧ s.library.lowestEmpty.isNone) then refuse .noRoom s
  else some (startLoad slot s, takenAnswer [])

/-- LOAD_PILOT. -/
def execLoadPilot (post : Byte) (s : State) : Host.Outcome State Fault Refusal :=
  .next (takeOrder (some .loadPilot) ownLoadPilot id post s)

/-! ## DROP_PILOT (R62) -/

/-- How many pages a library position owns. -/
def pagesAt (l : Library) (i : Fin 16) : Nat :=
  match l.entries[i] with
  | some e => e.pages.length
  | none => 0

/-- The checks and the take of a DROP_PILOT (R62). -/
def ownDropPilot (_b : Fin 64) (_post : Byte) (body : List Byte) (s : State) : Verdict :=
  match s.library.lookup (bodyField body 4 1) with
  | none => refuse .noPilot s
  | some i =>
    if 0 < s.library.useCount i then refuse .pilotInUse s
    else
      let t := s.setEntry i none
      some (t, doneAnswer [resultWord (pagesAt s.library i), resultWord t.library.freePages.length])

/-- DROP_PILOT. -/
def execDropPilot (post : Byte) (s : State) : Host.Outcome State Fault Refusal :=
  .next (takeOrder (some .dropPilot) ownDropPilot id post s)

/-! ## SWEEP (R67 to R71) -/

/-- A key agrees with a bin's key at every position where the mask has a 0 (R106). -/
def keyInSet (key mask candidate : Word) : Bool := (key ^^^ candidate) &&& ~~~mask == 0

/-- The non-FREE bin whose key set contains a source key (R67 check 4, R106). -/
def StackUnit.binOfKey (st : StackUnit) (key : Word) : Option (Fin 8) :=
  (List.finRange 8).find? fun b =>
    match st.bins[b].record with
    | some r => keyInSet r.key r.mask key
    | none => false

/-- The lowest-numbered free entry of the job table (R68). -/
def Scheduler.freeEntry (sc : Scheduler) : Option (Fin 32) := (List.finRange 32).find? fun i => sc.jobs[i].isNone

/-- The job that a SWEEP becomes, READY at once if its span is settled (R68, R69, R71). -/
def newJob (b : Fin 64) (post : Byte) (fleet : Fin 8) (pilot : Fin 16) (e : PilotEntry) (bin : Fin 8) (r : BinRecord)
    (t0 : Nat) (settled : Option Int) : Job :=
  let needLast := t0 + r.lagLast + e.length - 1
  let ready :=
    match settled with
    | some x => decide ((needLast : Int) ≤ x)
    | none => false
  { box := b, post := post, fleet := fleet, pilot := pilot, bin := bin, t0 := t0
    needFirst := t0 + r.lagFirst, needLast := needLast
    blocksTotal := (r.channelCount + 31) / 32, nextBlock := 0
    state := if ready then .ready else .waiting
    cancelPending := false, blocksDone := 0, accepted := 0, noise := 0, gapped := 0, clipped := 0, surplus := 0
    totalMissing := 0 }

/-- A SWEEP is taken: the job is entered, the use and pending counts rise, and the job joins its fleet's queue
(R68). -/
def enterJob (i : Fin 32) (j : Job) (e : PilotEntry) (r : BinRecord) (s : State) : State :=
  let s :=
    { s with
      sched :=
        { s.sched with
          jobs := s.sched.jobs.set i (some j)
          queues := s.sched.queues.set j.fleet (s.sched.queues[j.fleet] ++ [i]) } }
  let s := s.setEntry j.pilot (some { e with useCount := e.useCount + 1 })
  s.setBinRecord j.bin (some { r with pendingJobs := r.pendingJobs + 1 })

/-- Checks 6 and 7 and the take of a SWEEP whose pilot and bin have been found (R67, R68). -/
def sweepInto (b : Fin 64) (post : Byte) (fleet : Fin 8) (pilot : Fin 16) (e : PilotEntry) (bin : Fin 8)
    (r : BinRecord) (t0 : Nat) (s : State) : Verdict :=
  if belowOldest s.store ((t0 : Int) + r.lagFirst) then refuse .tooOld s
  else
    match s.sched.freeEntry with
    | none => none
    | some i =>
      some
        (enterJob i (newJob b post fleet pilot e bin r t0 s.store.settled) e r s,
          takenAnswer [resultWord i.val, resultWord bin.val])

/-- The checks and the take of a SWEEP (R67). -/
def ownSweep (b : Fin 64) (post : Byte) (body : List Byte) (s : State) : Verdict :=
  let fleet := bodyField body 4 1
  if s.device ≠ .recording then refuse .wrongState s
  else if h : fleet < 8 then
    match s.library.lookup (bodyField body 5 1) with
    | none => refuse .noPilot s
    | some p =>
      match s.library.entries[p] with
      | none => refuse .noPilot s
      | some e =>
        if e.state = .damaged then refuse .pilotDamaged s
        else
          match s.stack.binOfKey (bodyWord body 16) with
          | none => refuse .noBin s
          | some bin =>
            match s.stack.bins[bin].record with
            | none => refuse .noBin s
            | some r =>
              if r.phase ≠ .opened then refuse .binClosing s
              else sweepInto b post ⟨fleet, h⟩ p e bin r (bodyField body 8 5) s
  else refuse .badValue s

/-- SWEEP: the arbiter may act within the take (R73). -/
def execSweep (post : Byte) (upsets : List Upset) (s : State) : Host.Outcome State Fault Refusal :=
  .next (takeOrder (some .sweep) ownSweep arbitrate post (s.applyUpsets upsets))

/-! ## CANCEL (R82, R83) -/

/-- The result codes of a CANCEL (13.3). -/
inductive CancelResult where
  | tooLate
  | cancelledNow
  | cancelPending
  deriving DecidableEq, Repr

/-- Their numbers (13.3). -/
def CancelResult.code : CancelResult → Nat
  | .tooLate => 1
  | .cancelledNow => 2
  | .cancelPending => 3

/-- The DONE answer of a CANCEL. -/
def cancelAnswer (r : CancelResult) : Answer := doneAnswer [resultWord r.code]

/-- The box entry that a CANCEL judges: a CANCEL naming its own box is judged with itself as the current order, not
yet final (R82). -/
def cancelTarget (own target : Fin 64) (post : Byte) (s : State) : BoxEntry :=
  if target = own then
    { s.board.boxes[own] with
      answeredPost := post, current := some OrderKind.cancel.code, answer := some (takenAnswer []) }
  else s.board.boxes[target]

/-- The job of the SWEEP posted in a box. -/
def Scheduler.jobOfBox (sc : Scheduler) (b : Fin 64) : Option (Fin 32) :=
  (List.finRange 32).find? fun i =>
    match sc.jobs[i] with
    | some j => j.box == b
    | none => false

/-- Cases 3 and 4 of R82: the SWEEP's job is ended at once, or marked cancel-pending while ACTIVE. -/
def cancelJob (target : Fin 64) (s : State) : State × Answer :=
  match s.sched.jobOfBox target with
  | none => (s, cancelAnswer .tooLate)
  | some i =>
    match s.sched.jobs[i] with
    | none => (s, cancelAnswer .tooLate)
    | some j =>
      if j.state = .active then (s.setJob i (some { j with cancelPending := true }), cancelAnswer .cancelPending)
      else (endJob i .cancelled .none s, cancelAnswer .cancelledNow)

/-- The checks and the take of a CANCEL (R82). -/
def ownCancel (b : Fin 64) (post : Byte) (body : List Byte) (s : State) : Verdict :=
  let target := bodyField body 4 1
  if 63 < target then refuse .badValue s
  else
    let e := cancelTarget b (boxOf target) post s
    if e.answeredPost.toNat ≠ bodyField body 5 1 ∨ finalOrNone e.answer then some (s, cancelAnswer .tooLate)
    else if e.current ≠ some OrderKind.sweep.code then refuse .notCancellable s
    else some (cancelJob (boxOf target) s)

/-- CANCEL. -/
def execCancel (post : Byte) (upsets : List Upset) (s : State) : Host.Outcome State Fault Refusal :=
  .next (takeOrder (some .cancel) ownCancel id post (s.applyUpsets upsets))

/-! ## FLEET_ORDER (R81) -/

/-- The mode that a code names (13.2). -/
def modeOfCode (n : Nat) : Option FleetMode :=
  match n with
  | 0 => some .rotate
  | 1 => some .fixed
  | _ => none

/-- The list with fleet b at the bottom and the fleet after it at the top (R81). -/
def listWithBottom (b : Nat) : List (Fin 8) := (List.range 8).map fun i => Fin.ofNat 8 (b + 1 + i)

/-- Four bits per place, top in bits 0..3 (13.3). -/
def packList : List (Fin 8) → Nat
  | [] => 0
  | f :: rest => f.val + 16 * packList rest

/-- The checks and the take of a FLEET_ORDER (R81, R177). -/
def ownFleetOrder (_b : Fin 64) (_post : Byte) (body : List Byte) (s : State) : Verdict :=
  let setBottom := bodyField body 5 1 % 2 = 1
  let bottom := bodyField body 6 1
  match modeOfCode (bodyField body 4 1) with
  | none => refuse .badValue s
  | some mode =>
    if setBottom ∧ 7 < bottom then refuse .badValue s
    else
      let list := if setBottom then listWithBottom bottom else s.sched.priority
      let hold := BitVec.ofNat 8 (bodyField body 7 1)
      some
        ({ s with sched := { s.sched with priority := list, mode := mode, hold := hold } },
          doneAnswer [resultWord (packList list), resultWord mode.code, resultWord hold.toNat])

/-- FLEET_ORDER: the arbiter may act within the take (R73, R81). -/
def execFleetOrder (post : Byte) (upsets : List Upset) (s : State) : Host.Outcome State Fault Refusal :=
  .next (takeOrder (some .fleetOrder) ownFleetOrder arbitrate post (s.applyUpsets upsets))

/-! ## OPEN_BIN (R107 to R110) -/

/-- Two key sets overlap: the keys agree wherever both masks have a 0 (R107). -/
def keysOverlap (k1 m1 k2 m2 : Word) : Bool := (k1 ^^^ k2) &&& ~~~m1 &&& ~~~m2 == 0

/-- Some non-FREE bin's key set overlaps a key set (R107, R109). -/
def StackUnit.overlaps (st : StackUnit) (key mask : Word) : Bool :=
  st.bins.toList.any fun b =>
    match b.record with
    | some r => keysOverlap key mask r.key r.mask
    | none => false

/-- The lowest-numbered FREE bin (R110). -/
def StackUnit.lowestFree (st : StackUnit) : Option (Fin 8) :=
  (List.finRange 8).find? fun b => st.bins[b].record.isNone

/-- The channels that a range as given leaves of 0..2,047 (R108 clamp 1). -/
def clampChannels (first count : Nat) : Nat := if 2047 < first then 0 else min count (2048 - first)

/-- A value brought into a range. -/
def clampTo (low high n : Nat) : Nat := min high (max low n)

/-- The record that an OPEN_BIN gives its bin, after the clamps of R108. -/
def openedRecord (b : Fin 64) (post : Byte) (body : List Byte) : BinRecord :=
  let channelCount := clampChannels (bodyField body 12 2) (bodyField body 14 2)
  let lagFirst := min 16383 (bodyField body 16 2)
  let ratio8 := max 8 (bodyField body 22 1)
  { phase := .opened, key := bodyWord body 4, mask := bodyWord body 8, box := b, post := post
    firstChannel := bodyField body 12 2, channelCount := channelCount
    lagFirst := lagFirst, lagLast := max lagFirst (min 16383 (bodyField body 18 2))
    targetFold := clampTo 1 64 (bodyField body 20 1), ratio8 := ratio8, hyst8 := min (ratio8 - 8) (bodyField body 23 1)
    ceiling := bodyField body 24 4, tripCount := clampTo 1 8 (bodyField body 21 1)
    missLimit := bodyField body 28 2, fillCode := bodyWord body 32, exportOffset := bodyField body 36 4
    pendingJobs := 0, channelsAtTarget := 0, channels := List.replicate channelCount .zero }

/-- A word number lies among the accumulators of a bin's channels and lags (R103). -/
def accOfBin (b : Fin 8) (channels lags k : Nat) : Bool :=
  decide (k / (2048 * 16384) = b.val) && decide (k / 16384 % 2048 < channels) && decide (k % 16384 < lags)

/-- Every accumulator of a bin's channels and lags is written with zero and fresh check bits (R103, R110). -/
def zeroAccumulators (b : Fin 8) (channels lags : Nat) (d : Dram) : Dram :=
  { d with acc := cellsClear (accOfBin b channels lags) d.acc, accErrors := cellsClear (accOfBin b channels lags) d.accErrors }

/-- The answer to a taken OPEN_BIN (R110, 13.3). -/
def openedAnswer (bin : Fin 8) (r : BinRecord) : Answer :=
  takenAnswer
    [resultWord bin.val, resultWord r.firstChannel, resultWord r.channelCount, resultWord r.lagFirst,
      resultWord r.lagLast, resultWord r.targetFold, resultWord r.tripCount, resultWord r.ratio8, resultWord r.hyst8]

/-- A bin is opened (R110, R138). -/
def openBinAt (bin : Fin 8) (r : BinRecord) (s : State) : State :=
  let s := s.setBin bin { record := some r, lastExport := .none, heldFaultOffset := 0 }
  { s with dram := zeroAccumulators bin r.channelCount r.lags s.dram }

/-- The clamps, checks and take of an OPEN_BIN (R108 to R110). -/
def ownOpenBin (b : Fin 64) (post : Byte) (body : List Byte) (s : State) : Verdict :=
  let r := openedRecord b post body
  if s.device ≠ .recording then refuse .wrongState s
  else if r.channelCount = 0 then refuse .badValue s
  else if !inBuffer s.regs r.exportOffset (extentLength r.channelCount r.lags) then refuse .badExtent s
  else if s.stack.overlaps r.key r.mask then refuse .keyOverlap s
  else
    match s.stack.lowestFree with
    | none => refuse .noBinFree s
    | some bin => some (openBinAt bin r s, openedAnswer bin r)

/-- OPEN_BIN. -/
def execOpenBin (post : Byte) (s : State) : Host.Outcome State Fault Refusal :=
  .next (takeOrder (some .openBin) ownOpenBin id post s)

/-! ## CLOSE_BIN (R125 to R127, R136) -/

/-- A CLOSE_BIN moves its bin (R126). -/
def closeBinAt (bin : Fin 8) (r : BinRecord) (s : State) : State :=
  match r.phase with
  | .opened => drainTest bin (s.setBinRecord bin (some { r with phase := .draining }))
  | .draining => s.setBinRecord bin (some r)
  | .held => enterExporting bin r s
  | .exporting => s

/-- Checks 3 and 4 and the take of a CLOSE_BIN of a bin number in range (R125, R126). -/
def closeNamed (bin : Fin 8) (offset : Nat) (s : State) : Verdict :=
  match s.stack.bins[bin].record with
  | none => refuse .binState s
  | some r =>
    if r.phase = .exporting then refuse .binState s
    else if offset ≠ 0 ∧ !inBuffer s.regs offset (extentLength r.channelCount r.lags) then refuse .badExtent s
    else
      let moved := if offset = 0 then r else { r with exportOffset := offset }
      some
        (closeBinAt bin moved s,
          doneAnswer [resultWord bin.val, resultWord r.phase.code, resultWord moved.exportOffset])

/-- The checks and the take of a CLOSE_BIN (R125). -/
def ownCloseBin (_b : Fin 64) (_post : Byte) (body : List Byte) (s : State) : Verdict :=
  let n := bodyField body 4 1
  if s.device ≠ .recording then refuse .wrongState s
  else if h : n < 8 then closeNamed ⟨n, h⟩ (bodyField body 8 4) s
  else refuse .badValue s

/-- CLOSE_BIN. -/
def execCloseBin (post : Byte) (upsets : List Upset) (s : State) : Host.Outcome State Fault Refusal :=
  .next (takeOrder (some .closeBin) ownCloseBin id post (s.applyUpsets upsets))

/-! ## DISCARD_BIN (R122) -/

/-- A bin is given up: it becomes FREE and its OPEN_BIN is answered CANCELLED (R122). -/
def freeBin (bin : Fin 8) (r : BinRecord) (s : State) : State :=
  (s.setBinRecord bin none).setAnswer r.box
    { outcome := .cancelled, reason := .none, words := [resultWord bin.val, resultWord r.channelsAtTarget] }

/-- What the named bin makes of a DISCARD_BIN (R122). -/
def discardNamed (bin : Fin 8) (s : State) : Verdict :=
  match s.stack.bins[bin].record with
  | none => refuse .binState s
  | some r =>
    match r.phase with
    | .opened =>
      if 0 < r.pendingJobs then refuse .binBusy s
      else some (freeBin bin r s, doneAnswer [resultWord bin.val, resultWord r.phase.code])
    | .draining => refuse .binBusy s
    | .exporting => refuse .binState s
    | .held => some (freeBin bin r s, doneAnswer [resultWord bin.val, resultWord r.phase.code])

/-- The checks and the take of a DISCARD_BIN (R122). -/
def ownDiscardBin (_b : Fin 64) (_post : Byte) (body : List Byte) (s : State) : Verdict :=
  let n := bodyField body 4 1
  if s.device ≠ .recording then refuse .wrongState s
  else if h : n < 8 then discardNamed ⟨n, h⟩ s
  else refuse .badValue s

/-- DISCARD_BIN. -/
def execDiscardBin (post : Byte) (s : State) : Host.Outcome State Fault Refusal :=
  .next (takeOrder (some .discardBin) ownDiscardBin id post s)

end Sys2Proof.Machine
end

