-- ==== Sys2Proof/Machine/Passes.lean ====
section
/-! DEFINITION. The family of the Correlation Engine and the Stack Unit's edit: PILOT_SAMPLE_READ, RAW_SAMPLE_READ,
COMPUTE_END, TRACE_APPLY (R86 to R100, R112 to R121). -/

namespace Sys2Proof.Machine

/-! ## The read-and-compute stage -/

/-- How many channels the block of a pass holds (R87). -/
def PassRecord.channelCount (r : PassRecord) : Nat := r.lastChannel + 1 - r.firstChannel

/-- How many indices the span of a pass holds: L + P − 1 (R89). -/
def PassRecord.span (r : PassRecord) : Nat := r.needLast + 1 - r.needFirst

/-- An uncorrectable error in a pilot page: the entry becomes DAMAGED and the pilot damage count rises (R65). -/
def damagePilot (i : Fin 16) (s : State) : State :=
  let s := s.setEntry i (s.library.entries[i].map fun e => { e with state := .damaged })
  { s with counts := { s.counts with pilotDamage := satInc32 s.counts.pilotDamage } }

/-- The pass is abandoned for the damage: the pin is released and the pass end is reported (R46, R65, R95). -/
def abandonDamaged (r : PassRecord) (s : State) : State :=
  let s := damagePilot r.pilot s
  endPass .pilotDamaged { s with store := { s.store with pin := none } }

/-- The pass reads its next pilot sample (R64, R88). -/
def readPilotSample (r : PassRecord) (pilot : List Int) (finished : List (List (Option Int)))
    (reading : List (Option Int)) (s : State) : State :=
  match readPilot (pilotWordAt r.pages pilot.length) s with
  | (s, some v) => { s with engine := .compute r (pilot ++ [v.toInt]) finished reading }
  | (s, none) => serveIssuePort (arbitrate (abandonDamaged r s))

/-- PILOT_SAMPLE_READ (R64, R65, R88, R95). Without a pilot sample left to read there is no such step (log 1). -/
def execPilotSampleRead (upsets : List Upset) (s : State) : Host.Outcome State Fault Refusal :=
  let s := s.applyUpsets upsets
  match s.engine with
  | .compute r pilot finished reading =>
    if pilot.length < r.length then .next (readPilotSample r pilot finished reading s) else .next s
  | _ => .next s

/-- The Engine after one more reading: a channel whose span is read whole is finished (R89). -/
def addReading (r : PassRecord) (pilot : List Int) (finished : List (List (Option Int)))
    (reading : List (Option Int)) (x : Option Int) : Engine :=
  if r.span ≤ reading.length + 1 then .compute r pilot (finished ++ [reading ++ [x]]) []
  else .compute r pilot finished (reading ++ [x])

/-- The pass reads its next raw sample (R42, R89). -/
def readRawSample (r : PassRecord) (pilot : List Int) (finished : List (List (Option Int)))
    (reading : List (Option Int)) (s : State) : State :=
  let read := readSample (r.firstChannel + finished.length) (r.needFirst + reading.length) s
  { read.1 with engine := addReading r pilot finished reading read.2 }

/-- RAW_SAMPLE_READ (R42 to R44, R89): after the whole pilot, channel after channel, index after index. -/
def execRawSampleRead (upsets : List Upset) (s : State) : Host.Outcome State Fault Refusal :=
  let s := s.applyUpsets upsets
  match s.engine with
  | .compute r pilot finished reading =>
    if r.length ≤ pilot.length ∧ finished.length < r.channelCount then
      .next (readRawSample r pilot finished reading s)
    else .next s
  | _ => .next s

/-! ## The arithmetic of a trace -/

/-- A(k) for the lag at position `j` of the window (R90): a missing sample contributes 0. -/
def correlationSum (pilot : List Int) (samples : List Int) (j : Nat) : Int :=
  (List.zipWith (· * ·) pilot (samples.drop j)).sum

/-- The sum scaled by S, halfway cases toward plus infinity (R91). -/
def scaleSum (shift : Nat) (a : Int) : Int :=
  if shift = 0 then a else (a + 2 ^ (shift - 1)) / 2 ^ shift

/-- The 32-bit signed clamp (R92). -/
def clamp32 (v : Int) : Int :=
  if 2147483647 < v then 2147483647 else if v < -2147483648 then -2147483648 else v

/-- A scaled value outside the 32-bit signed range (R92). -/
def outside32 (v : Int) : Bool := decide (2147483647 < v) || decide (v < -2147483648)

/-- The scaled values of a channel over the lag window (R90, R91). -/
def scaledValues (r : PassRecord) (pilot : List Int) (reading : List (Option Int)) : List Int :=
  (List.range r.lags).map fun j => scaleSum r.shift (correlationSum pilot (reading.map (·.getD 0)) j)

/-- M, the mean absolute value of the result values, truncated (R94). -/
def measureOf (values : List Int) (lags : Nat) : Nat := (values.map Int.natAbs).sum / lags

/-- The trace of a channel from its readings (R90 to R94). -/
def traceOf (r : PassRecord) (pilot : List Int) (channel : Nat) (reading : List (Option Int)) : Trace :=
  let v := scaledValues r pilot reading
  let y := v.map clamp32
  { channel := channel, values := y, measure := measureOf y r.lags,
    missing := (reading.filter (·.isNone)).length, saturations := (v.filter outside32).length }

/-- The traces of the block, in ascending channel order (R87, R97). -/
def blockTraces (r : PassRecord) (pilot : List Int) (finished : List (List (Option Int))) : List Trace :=
  (List.range r.channelCount).map fun c => traceOf r pilot (r.firstChannel + c) (finished.getD c [])

/-- COMPUTE_END (R94, R97): with every reading made, the Engine enters STACK and the pin is released (R46). -/
def execComputeEnd (s : State) : Host.Outcome State Fault Refusal :=
  match s.engine with
  | .compute r pilot finished _ =>
    if r.length ≤ pilot.length ∧ r.channelCount ≤ finished.length then
      .next
        { s with
          engine := .stack r (blockTraces r pilot finished)
          store := { s.store with pin := none } }
    else .next s
  | _ => .next s

/-! ## The edit -/

/-- What becomes of a trace (R112). -/
inductive EditOutcome where
  | surplus
  | clipped
  | gapped
  | noise
  | accept
  deriving DecidableEq, Repr

/-- The ratio in use: ratio8 − hyst8 on a NOISY channel, else ratio8 (R115). -/
def ratioInUse (r : BinRecord) (c : ChannelRecord) : Nat := if c.noisy then r.ratio8 - r.hyst8 else r.ratio8

/-- The reference test: 8 × M is at most u8 × floor(RS / f) (R115). -/
def withinReference (r : BinRecord) (c : ChannelRecord) (t : Trace) : Bool :=
  decide (8 * t.measure ≤ ratioInUse r c * (c.referenceSum / c.fold))

/-- The first test that decides (R112 to R115). -/
def editTrace (r : BinRecord) (c : ChannelRecord) (t : Trace) : EditOutcome :=
  if c.fold = r.targetFold ∨ c.poisoned then .surplus
  else if 0 < t.saturations then .clipped
  else if r.missLimit < t.missing then .gapped
  else if r.ceiling ≠ 0 ∧ r.ceiling < t.measure then .noise
  else if c.fold = 0 then .accept
  else if withinReference r c t then .accept
  else .noise

/-- One more on the channel's count of an outcome (R112); an accepted trace has no such count. -/
def countChannel (o : EditOutcome) (c : ChannelRecord) : ChannelRecord :=
  match o with
  | .surplus => { c with surplus := satInc16 c.surplus }
  | .clipped => { c with clipped := satInc16 c.clipped }
  | .gapped => { c with gapped := satInc16 c.gapped }
  | .noise => { c with noise := satInc16 c.noise }
  | .accept => c

/-- One more on the job's counter of an outcome (R80). -/
def countJob (o : EditOutcome) (j : Job) : Job :=
  match o with
  | .surplus => { j with surplus := j.surplus + 1 }
  | .clipped => { j with clipped := j.clipped + 1 }
  | .gapped => { j with gapped := j.gapped + 1 }
  | .noise => { j with noise := j.noise + 1 }
  | .accept => { j with accepted := j.accepted + 1 }

/-- The job of the pass counts a trace's outcome and its missing samples (R80). -/
def countInJob (i : Fin 32) (o : EditOutcome) (t : Trace) (s : State) : State :=
  match s.sched.jobs[i] with
  | some j => s.setJob i (some (countJob o { j with totalMissing := j.totalMissing + t.missing }))
  | none => s

/-- The channel after a NOISE trace (R116). -/
def noiseChannel (r : BinRecord) (c : ChannelRecord) : ChannelRecord :=
  let q := if c.consecutive < r.tripCount then c.consecutive + 1 else r.tripCount
  { c with consecutive := q, noisy := c.noisy || decide (r.tripCount ≤ q) }

/-- The channel after an accepted trace (R117). -/
def acceptChannel (t : Trace) (c : ChannelRecord) : ChannelRecord :=
  { c with fold := c.fold + 1, referenceSum := c.referenceSum + t.measure, consecutive := 0, noisy := false }

/-- Auto-drain: an OPEN bin whose channels-at-target count is nc becomes DRAINING (R118), and its export begins if no
job names it (R127). -/
def autoDrain (b : Fin 8) (s : State) : State :=
  match s.stack.bins[b].record with
  | some r =>
    if r.phase = .opened ∧ r.channelsAtTarget = r.channelCount then
      drainTest b (s.setBinRecord b (some { r with phase := .draining }))
    else s
  | none => s

/-- A trace that the edit admits: the channel's accumulators are read and, if every read returns a value, each takes
the trace's value at its lag (R117, R118); if one cannot be read the channel is poisoned and the trace is SURPLUS
(R120, R121). `r` already holds the channel with its miss total raised. -/
def acceptTrace (i : Fin 32) (b : Fin 8) (r : BinRecord) (position : Nat) (t : Trace) (s : State) : State :=
  let c := r.channel position
  match readAccs (accAddress b.val position 0) r.lags s with
  | (s, some values) =>
    let s :=
      { s with
        dram :=
          writeAccs (accAddress b.val position 0)
            ((List.zipWith (· + ·) values t.values).map fun x => BitVec.ofInt 64 x) s.dram }
    let r := r.withChannel position (acceptChannel t c)
    let r := if c.fold + 1 = r.targetFold then { r with channelsAtTarget := r.channelsAtTarget + 1 } else r
    autoDrain b (countInJob i .accept t (s.setBinRecord b (some r)))
  | (s, none) =>
    let r := (r.withChannel position (countChannel .surplus c)).poison position
    autoDrain b (countInJob i .surplus t ((s.setBinRecord b (some r)).countPoison))

/-- The Stack Unit applies one trace (R112 to R121). -/
def applyTrace (i : Fin 32) (b : Fin 8) (r : BinRecord) (t : Trace) (s : State) : State :=
  let position := t.channel - r.firstChannel
  let c := r.channel position
  let o := editTrace r c t
  let c := { c with missTotal := satAdd32 c.missTotal t.missing }
  match o with
  | .accept => acceptTrace i b (r.withChannel position c) position t s
  | .noise =>
    let c' := noiseChannel r (countChannel .noise c)
    let s := countInJob i .noise t (s.setBinRecord b (some (r.withChannel position c')))
    if c'.noisy && !c.noisy then s.raise .channel else s
  | .surplus => countInJob i .surplus t (s.setBinRecord b (some (r.withChannel position (countChannel .surplus c))))
  | .clipped => countInJob i .clipped t (s.setBinRecord b (some (r.withChannel position (countChannel .clipped c))))
  | .gapped => countInJob i .gapped t (s.setBinRecord b (some (r.withChannel position (countChannel .gapped c))))

/-- After a trace the Engine hands over the next one; after the last the pass is complete, the job is settled and the
arbiter may choose the next pass (R97, R98). -/
def afterTrace (r : PassRecord) (rest : List Trace) (s : State) : State :=
  match rest with
  | [] => arbitrate (endPass .completed s)
  | t :: rest => { s with engine := .stack r (t :: rest) }

/-- TRACE_APPLY (R97, R98, R112 to R121). -/
def execTraceApply (upsets : List Upset) (s : State) : Host.Outcome State Fault Refusal :=
  let s := s.applyUpsets upsets
  match s.engine with
  | .stack p (t :: rest) =>
    match s.stack.bins[p.bin].record with
    | some r => .next (serveIssuePort (afterTrace p rest (applyTrace p.job p.bin r t s)))
    | none => .next (serveIssuePort (afterTrace p rest s))
  | _ => .next s

end Sys2Proof.Machine
end

