-- ==== Sys2Proof/Machine/Registers.lean ====
section
/-! DEFINITION. The family of the other register accesses: the window registers, the event registers and the writes
without effect, and what register reads return (R172 to R176, 13.6). -/

namespace Sys2Proof.Machine

/-! ## Reads (R174, 13.6) -/

/-- IDENT: family 0x4F, revision 1, log2 of 2,048 channels, 8 bins, 64 boxes (13.6). -/
def identValue : Word := 0x4008B14F#32

/-- CONTROL: SCAN_EN and INT_EN as they stand; RESET reads 0 (R175). -/
def controlValue (s : State) : Word :=
  BitVec.ofNat 32 ((if s.regs.scanEn then 1 else 0) + (if s.regs.intEn then 2 else 0))

/-- STATE (R174, 13.6). -/
def stateValue (s : State) : Word :=
  BitVec.ofNat 32
    (s.device.code + (if s.scanBusy then 4 else 0) + (if windowValid s.regs then 8 else 0) +
      (if s.moverBusy then 16 else 0) + 256 * s.resetEpoch.toNat)

/-- What a read of `width` bits at a register offset returns: 0 for another width than 32 and for an offset with no
register (R174). Reads have no row and no effect. -/
def readRegister (offset width : Nat) (s : State) : Word :=
  if width ≠ 32 then 0
  else
    match offset with
    | 0x00 => identValue
    | 0x04 => controlValue s
    | 0x08 => stateValue s
    | 0x0C => 0
    | 0x10 => s.regs.baseLow
    | 0x14 => s.regs.baseHigh
    | 0x18 => s.regs.size
    | 0x1C => s.events.pending.setWidth 32
    | 0x20 => s.events.mask.setWidth 32
    | _ => 0

/-! ## The window registers (R153, R176) -/

/-- Every box entry's baseline mark is set (R153). -/
def markAllBoxes (s : State) : State :=
  { s with board := { s.board with boxes := mapTable (fun e => { e with baseline := true }) s.board.boxes } }

/-- A change of the window sets every baseline mark in IDLE or RECORDING, and none in INIT (R153, R176). -/
def windowChanged (changed : Bool) (s : State) : State :=
  if changed ∧ s.device ≠ .init then markAllBoxes s else s

/-- A write that is discarded is counted (R176). -/
def discardWrite (s : State) : State :=
  { s with counts := { s.counts with discardedWrites := satInc32 s.counts.discardedWrites } }

/-- One word of WINDOW_BASE. -/
def Registers.baseWord (r : Registers) : WordHalf → Word
  | .low => r.baseLow
  | .high => r.baseHigh

/-- WINDOW_BASE with one word replaced. -/
def Registers.withBaseWord (r : Registers) (h : WordHalf) (v : Word) : Registers :=
  match h with
  | .low => { r with baseLow := v }
  | .high => { r with baseHigh := v }

/-- WINDOW_BASE_WRITE (R176). -/
def execWindowBaseWrite (h : WordHalf) (v : Word) (s : State) : Host.Outcome State Fault Refusal :=
  if s.windowWritable then
    .next (windowChanged (v != s.regs.baseWord h) { s with regs := s.regs.withBaseWord h v })
  else .next (discardWrite s)

/-- WINDOW_SIZE_WRITE: a taken write after which the window is valid lets a waiting export begin, whether or not it
changes the word (R128, R176). -/
def execWindowSizeWrite (v : Word) (upsets : List Upset) (s : State) : Host.Outcome State Fault Refusal :=
  let s := s.applyUpsets upsets
  if s.windowWritable then
    let s := windowChanged (v != s.regs.size) { s with regs := { s.regs with size := v } }
    .next (serveIssuePort (beginExport s.stack.exportQueue.length s))
  else .next (discardWrite s)

/-! ## The event registers and the writes without effect -/

/-- EVENT_PENDING_WRITE (R172). -/
def execEventPendingWrite (v : Word) (s : State) : Host.Outcome State Fault Refusal :=
  .next { s with events := clearCauses s.regs.intEn v s.events }

/-- EVENT_MASK_WRITE (R173). -/
def execEventMaskWrite (v : Word) (s : State) : Host.Outcome State Fault Refusal :=
  .next { s with events := replaceMask s.regs.intEn v s.events }

/-- REGISTER_WRITE_IGNORED: no effect, and not counted (R174). -/
def execRegisterWriteIgnored (_offset _width _value : Nat) (s : State) : Host.Outcome State Fault Refusal := .next s

end Sys2Proof.Machine
end

