-- ==== Sys2Proof/Machine/Resets.lean ====
section
/-! DEFINITION. The family of the resets, CONTROL and the scrub: POWER_ON_RESET, FULL_RESET, WORK_RESET,
SCAN_EN_INT_EN_WRITE, SCRUB_COMPLETE (R2, R8, R11 to R13, R33, R66, R165, R171, R175). -/

namespace Sys2Proof.Machine

/-! ## CONTROL (13.6) -/

/-- Bit 0, SCAN_EN. -/
def controlScanEn (v : Word) : Bool := v.getLsbD 0

/-- Bit 1, INT_EN. -/
def controlIntEn (v : Word) : Bool := v.getLsbD 1

/-- Bits 2..3, RESET. -/
def controlReset (v : Word) : Nat := (v.extractLsb' 2 2).toNat

/-- SCAN_EN and INT_EN take the written values: a message is sent if INT_EN moves from 0 to 1 while the signalled set
is non-empty (R171), and SCAN_EN 0 drops a follow-up request (R145, R175). -/
def setEnables (v : Word) (s : State) : State :=
  { s with
    regs := { s.regs with scanEn := controlScanEn v, intEn := controlIntEn v }
    events := sendIf (!s.regs.intEn && controlIntEn v && signalled s.events != 0) s.events
    board := { s.board with followUp := s.board.followUp && controlScanEn v } }

/-! ## The resets -/

/-- A port after a full or work reset: the carrier field is kept (R33). -/
def Port.afterReset (x : Port) : Port := { Port.reset with carrier := x.carrier }

/-- The Bus Master Unit at a full or work reset: every slot is emptied, and a burst being handed to the link is handed
over whole (R165; log 20). -/
def BusMaster.emptied (b : BusMaster) : BusMaster := { b with scanner := .empty, exporter := .empty, loader := .empty }

/-- POWER_ON_RESET's state (R12, R33). What is not of the part is kept: the queue, the endpoint's input, the
state of the link, and the model's own counts (log 28). -/
def powerOn (s : State) : State :=
  { State.reset with
    events :=
      { State.reset.events with
        messageEnabled := s.events.messageEnabled
        linkUp := s.events.linkUp
        messagesSent := s.events.messagesSent
        messagesLost := s.events.messagesLost }
    freeDraws := s.freeDraws
    pending := s.pending }

/-- A full reset (R11, R12): the starting state, but for WINDOW_BASE, WINDOW_SIZE and the carrier fields, which are
kept, and the reset epoch, which rises. Local DRAM is what the scrub will rewrite (R2). -/
def fullReset (s : State) : State :=
  { powerOn s with
    resetEpoch := s.resetEpoch + 1
    regs := { State.reset.regs with baseLow := s.regs.baseLow, baseHigh := s.regs.baseHigh, size := s.regs.size }
    ports := mapTable Port.afterReset s.ports
    bus := { BusMaster.reset with portBusy := s.bus.portBusy }
    dram := s.dram }

/-- A library position after a work reset: READY and DAMAGED entries are kept with use count 0, and a LOADING position
becomes empty (R13, R66). -/
def entryAfterWorkReset (e : Option PilotEntry) : Option PilotEntry :=
  match e with
  | some e => if e.state = .loading then none else some { e with useCount := 0 }
  | none => none

/-- The ABANDONED answer of a work reset (R13, R144). -/
def abandonedAnswer : Answer := { outcome := .abandoned, reason := .workReset, words := [] }

/-- A box entry after a work reset: an order that is not final is ABANDONED and dirty, and every entry that is not
dirty then receives a baseline mark (R13, R153). -/
def boxAfterWorkReset (e : BoxEntry) : BoxEntry :=
  let e := if finalOrNone e.answer then e else { e with answer := some abandonedAnswer, dirty := true }
  { e with baseline := e.baseline || !e.dirty }

/-- The scanner after a work reset (R11, R13). -/
def boardAfterWorkReset (b : Board) : Board := { Board.reset with boxes := mapTable boxAfterWorkReset b.boxes }

/-- A work reset, without what the CONTROL write makes of SCAN_EN and INT_EN (R11, R13). A load in flight stops where it
stands (R66), and of the burst that it cuts off no data is in the pages, which are free: DESIGN CHOICE (log 36). -/
def workReset (s : State) : State :=
  { s with
    device := .idle
    session := none
    resetEpoch := s.resetEpoch + 1
    ports := mapTable Port.afterReset s.ports
    store := .reset
    library := { s.library with entries := mapTable entryAfterWorkReset s.library.entries, load := none }
    sched := .reset
    engine := .noPass
    stack := .reset
    board := boardAfterWorkReset s.board
    bus := s.bus.emptied }

/-- A write to CONTROL, acted on by its RESET field and the device state (R11). -/
def controlWrite (v : Word) (s : State) : State :=
  if controlReset v = 2 then fullReset s
  else if controlReset v = 1 ∧ s.device ≠ .init then setEnables v (workReset s)
  else setEnables v s

/-! ## The commands -/

/-- POWER_ON_RESET (R12). -/
def execPowerOnReset (s : State) : Host.Outcome State Fault Refusal := .next (powerOn s)

/-- FULL_RESET: a CONTROL write with RESET 2 (R11, R12). -/
def execFullReset (v : Word) (s : State) : Host.Outcome State Fault Refusal := .next (controlWrite v s)

/-- WORK_RESET: a CONTROL write with RESET 1, in IDLE or RECORDING (R11, R13). -/
def execWorkReset (v : Word) (s : State) : Host.Outcome State Fault Refusal := .next (controlWrite v s)

/-- SCAN_EN_INT_EN_WRITE: a CONTROL write with RESET 0 or 3, or 1 in INIT (R11, R175). -/
def execScanEnIntEnWrite (v : Word) (s : State) : Host.Outcome State Fault Refusal := .next (controlWrite v s)

/-- SCRUB_COMPLETE: every word of local DRAM reads zero with valid check bits, and the device moves from INIT to IDLE,
raising nothing (R2, R168). No scrub runs outside INIT (log 1). -/
def execScrubComplete (s : State) : Host.Outcome State Fault Refusal :=
  if s.device = .init then .next { s with device := .idle, dram := .scrubbed } else .next s

end Sys2Proof.Machine
end

