-- ==== Sys2Proof/Machine/Scans.lean ====
section
/-! DEFINITION. The family of the board scan: SCAN_TIMER_EXPIRY, NUDGE, the completions and faults of the scanner's
reads and writes (R145 to R154, R160 to R163). A report with no burst of its kind on the link is not a step of the
part and leaves it as it is (log 1, log 15). -/

namespace Sys2Proof.Machine

/-- The scanner's burst is on the link. -/
def State.scannerIssued (s : State) : Bool := (s.bus.scanner.issuedBurst).isSome

/-- The report of the scanner's burst empties its slot (R160). -/
def State.scannerReported (s : State) : State := s.setSlot .scanner .empty

/-! ## Starting scans -/

/-- SCAN_TIMER_EXPIRY: the next interval starts with the period in force, and a scan is requested (R145, R6, R8). -/
def execScanTimerExpiry (s : State) : Host.Outcome State Fault Refusal :=
  .next (serveIssuePort (requestScan { s with board := { s.board with interval := s.board.period } }))

/-- NUDGE: any write requests a scan (R145, R174). -/
def execNudge (_value : Word) (s : State) : Host.Outcome State Fault Refusal :=
  .next (serveIssuePort (requestScan s))

/-! ## The read stage -/

/-- What the first reading of a box's post decides (R147, R152). -/
def judgePost (b : Fin 64) (post : Byte) (s : State) : State :=
  if s.board.boxes[b].baseline then
    if baselineWaits s.board.boxes[b] then nextBox s else recheckPost b post s
  else if holdsNewOrder s.board.boxes[b] post then readBody b post s
  else nextBox s

/-- HOST_POST_READ_DONE (R143, R147, R152). -/
def execHostPostReadDone (post : Byte) (s : State) : Host.Outcome State Fault Refusal :=
  match s.board.phase with
  | .hostPost b =>
    if s.scannerIssued then .next (serveIssuePort (judgePost b post s.scannerReported)) else .next s
  | _ => .next s

/-- BODY_READ_DONE: the host post is read a second time (R148). A completed body read has all of its 127 bytes
(R160). -/
def execBodyReadDone (body : List Byte) (s : State) : Host.Outcome State Fault Refusal :=
  match s.board.phase with
  | .body b post =>
    if s.scannerIssued ∧ body.length = 127 then .next (serveIssuePort (rereadPost b post body s.scannerReported))
    else .next s
  | _ => .next s

/-- A read of the read stage is reported faulted: counted, FAULT raised, the box skipped (R148, R152, R161, R162). -/
def failScannerRead (s : State) : State := serveIssuePort (nextBox (s.scannerReported.busFault .scanner))

/-- The scanner waits for a read. -/
def ScanPhase.reads : ScanPhase → Bool
  | .hostPost _ => true
  | .body _ _ => true
  | .secondPost _ _ _ => true
  | .baselineRecheck _ _ => true
  | _ => false

/-- The scanner waits for a second reading of a post. -/
def ScanPhase.rereads : ScanPhase → Bool
  | .secondPost _ _ _ => true
  | .baselineRecheck _ _ => true
  | _ => false

/-- TORN_READ: a second reading that differs, or a faulted read, skips the box (R148, R152, R162). -/
def execTornRead (cause : TornCause) (s : State) : Host.Outcome State Fault Refusal :=
  match cause with
  | .differs =>
    if s.board.phase.rereads ∧ s.scannerIssued then .next (serveIssuePort (nextBox s.scannerReported)) else .next s
  | .faulted => if s.board.phase.reads ∧ s.scannerIssued then .next (failScannerRead s) else .next s

/-- BASELINE_POST_RECHECK_DONE: two equal readings give the box its baseline treatment; a second reading that differs
leaves the mark set (R152). -/
def execBaselinePostRecheckDone (post : Byte) (s : State) : Host.Outcome State Fault Refusal :=
  match s.board.phase with
  | .baselineRecheck b first =>
    if s.scannerIssued then
      if post = first then
        .next (serveIssuePort (nextBox (s.scannerReported.setBox b (adoptPost post s.board.boxes[b]))))
      else .next (serveIssuePort (nextBox s.scannerReported))
    else .next s
  | _ => .next s

/-! ## The answer stage -/

/-- ANSWER_FIRST_WRITE_DONE: the write of the answered post is posted (R151). -/
def execAnswerFirstWriteDone (s : State) : Host.Outcome State Fault Refusal :=
  match s.board.phase with
  | .answerFirst round b sent =>
    if s.scannerIssued then .next (serveIssuePort (writePost round b sent s.scannerReported)) else .next s
  | _ => .next s

/-- An answer has been written whole: the dirty mark is cleared unless the answer has changed since, and a final
answer raises BOX (R151). -/
def answerWritten (b : Fin 64) (sent : Option Answer) (s : State) : State :=
  let e := s.board.boxes[b]
  let s := if e.answer = sent then s.setBox b { e with dirty := false } else s
  if holdsFinal sent then s.raise .box else s

/-- ANSWER_SECOND_WRITE_DONE (R151, R154). -/
def execAnswerSecondWriteDone (s : State) : Host.Outcome State Fault Refusal :=
  match s.board.phase with
  | .answerSecond round b sent =>
    if s.scannerIssued then .next (serveIssuePort (nextAnswer round b (answerWritten b sent s.scannerReported)))
    else .next s
  | _ => .next s

/-- A faulted answer write: counted, FAULT raised, the entry stays dirty and is set aside for this answer stage, and
the scanner goes on to the next entry (R151, R161 to R163). -/
def failAnswerWrite (round : AnswerRound) (b : Fin 64) (s : State) : State :=
  let s := s.scannerReported.busFault .scanner
  serveIssuePort (nextAnswer round b { s with board := { s.board with faulted := b :: s.board.faulted } })

/-- ANSWER_WRITE_FAULT: either of the two writes (R151, R162). -/
def execAnswerWriteFault (s : State) : Host.Outcome State Fault Refusal :=
  match s.board.phase with
  | .answerFirst round b _ => if s.scannerIssued then .next (failAnswerWrite round b s) else .next s
  | .answerSecond round b _ => if s.scannerIssued then .next (failAnswerWrite round b s) else .next s
  | _ => .next s

/-! ## The status stage -/

/-- STATUS_PAGE_WRITE_DONE: the scan ends (R146, R154). -/
def execStatusPageWriteDone (s : State) : Host.Outcome State Fault Refusal :=
  if s.board.phase = .statusPage ∧ s.scannerIssued then .next (serveIssuePort (endScan s.scannerReported))
  else .next s

/-- STATUS_PAGE_WRITE_FAULT: counted, FAULT raised, and the scan ends without writing the page again (R154, R162). -/
def execStatusPageWriteFault (s : State) : Host.Outcome State Fault Refusal :=
  if s.board.phase = .statusPage ∧ s.scannerIssued then
    .next (serveIssuePort (endScan (s.scannerReported.busFault .scanner)))
  else .next s

end Sys2Proof.Machine
end

