-- ==== Sys2Proof/Machine/Traffic.lean ====
section
/-! DEFINITION. The family of the Bus Master Unit's other reports: BURST_HANDED_OVER, READ_COMPLETION_TIMEOUT, and the
export writer's and pilot loader's completions and faults (R57, R129, R133, R134, R159 to R161). -/

namespace Sys2Proof.Machine

/-- BURST_HANDED_OVER: the port is free and the issue arbiter serves the next WAITING slot (R159). With no burst being
handed over there is no such step (log 1). R159 places a burst's report after its hand-over and says nothing of one
that comes before: DESIGN CHOICE (log 34), the model takes such a report at once and empties the slot, and the port
stays busy until this command comes. -/
def execBurstHandedOver (s : State) : Host.Outcome State Fault Refusal :=
  if s.bus.portBusy then .next (serveIssuePort { s with bus := { s.bus with portBusy := false } }) else .next s

/-- EXPORT_BURST_DONE (R129, R133). -/
def execExportBurstDone (upsets : List Upset) (s : State) : Host.Outcome State Fault Refusal :=
  let s := s.applyUpsets upsets
  match s.bus.exporter.issuedBurst with
  | some b => .next (serveIssuePort (exportBurstCompleted b s))
  | none => .next s

/-- EXPORT_BURST_FAULT (R134, R161). -/
def execExportBurstFault (upsets : List Upset) (s : State) : Host.Outcome State Fault Refusal :=
  let s := s.applyUpsets upsets
  match s.bus.exporter.issuedBurst with
  | some b => .next (serveIssuePort (exportBurstFailed b s))
  | none => .next s

/-- The data of a completed burst is taken in, and the copy goes on or the load completes (R57, R59). -/
def loaderBurstCompleted (slot : LoadSlot) (data : List Byte) (s : State) : State :=
  let s := acceptImage slot data (s.setSlot .loader .empty)
  match s.library.load with
  | some slot => if 2 * slot.length ≤ slot.received then completeLoad slot none s else postLoaderBurst slot s
  | none => s

/-- PILOT_BURST_DONE: a completed burst has all of its data (R57, R160). -/
def execPilotBurstDone (data : List Byte) (s : State) : Host.Outcome State Fault Refusal :=
  match s.bus.loader.issuedBurst, s.library.load with
  | some b, some slot =>
    if data.length = b.length then .next (serveIssuePort (loaderBurstCompleted slot data s)) else .next s
  | _, _ => .next s

/-- PILOT_BURST_FAULT: the copy ends and the load completes at once FAULTED (R57, R59, R161). -/
def execPilotBurstFault (received : List Byte) (s : State) : Host.Outcome State Fault Refusal :=
  match s.bus.loader.issuedBurst with
  | some b => .next (serveIssuePort (failLoaderBurst b received s))
  | none => .next s

/-- The whole of the data of a slot's burst has not arrived (R160). -/
def Slot.lacks (received : List Byte) (x : Slot) : Bool :=
  match x.issuedBurst with
  | some b => decide (received.length < b.length)
  | none => false

/-- READ_COMPLETION_TIMEOUT: a read burst of which the whole has not arrived 10 ms after its issue is reported faulted,
with the effects of any fault of that read (R160, R161). A burst whose data is all there has no timeout, and the export
writer issues no read (logs 1, 25). -/
def execReadCompletionTimeout (requester : Requester) (received : List Byte) (s : State) :
    Host.Outcome State Fault Refusal :=
  match requester with
  | .scanner => if s.board.phase.reads ∧ s.bus.scanner.lacks received then .next (failScannerRead s) else .next s
  | .exporter => .next s
  | .loader =>
    match s.bus.loader.issuedBurst with
    | some b =>
      if received.length < b.length then .next (serveIssuePort (failLoaderBurst b received s)) else .next s
    | none => .next s

end Sys2Proof.Machine
end

