-- ==== Sys2Proof/Machine/Dispatch.lean ====
section
/-! DEFINITION. One arm for each command: the meaning that spec/95 names for its row. -/

namespace Sys2Proof.Machine

/-- The effect of a command on everything but the queue. -/
def exec (i : Instr) (s : State) : Host.Outcome State Fault Refusal :=
  match i with
  | .powerOnReset => Sys2Proof.Machine.execPowerOnReset s
  | .fullReset value => Sys2Proof.Machine.execFullReset value s
  | .workReset value => Sys2Proof.Machine.execWorkReset value s
  | .scanEnIntEnWrite value => Sys2Proof.Machine.execScanEnIntEnWrite value s
  | .nudge value => Sys2Proof.Machine.execNudge value s
  | .windowBaseWrite half value => Sys2Proof.Machine.execWindowBaseWrite half value s
  | .windowSizeWrite value upsets => Sys2Proof.Machine.execWindowSizeWrite value upsets s
  | .eventPendingWrite value => Sys2Proof.Machine.execEventPendingWrite value s
  | .eventMaskWrite value => Sys2Proof.Machine.execEventMaskWrite value s
  | .registerWriteIgnored offset width value => Sys2Proof.Machine.execRegisterWriteIgnored offset width value s
  | .scrubComplete => Sys2Proof.Machine.execScrubComplete s
  | .scanTimerExpiry => Sys2Proof.Machine.execScanTimerExpiry s
  | .frameArrival port bytes upsets => Sys2Proof.Machine.execFrameArrival port bytes upsets s
  | .carrierLoss port upsets => Sys2Proof.Machine.execCarrierLoss port upsets s
  | .carrierPresent port => Sys2Proof.Machine.execCarrierPresent port s
  | .pilotSampleRead upsets => Sys2Proof.Machine.execPilotSampleRead upsets s
  | .rawSampleRead upsets => Sys2Proof.Machine.execRawSampleRead upsets s
  | .computeEnd => Sys2Proof.Machine.execComputeEnd s
  | .traceApply upsets => Sys2Proof.Machine.execTraceApply upsets s
  | .burstHandedOver => Sys2Proof.Machine.execBurstHandedOver s
  | .readCompletionTimeout requester received => Sys2Proof.Machine.execReadCompletionTimeout requester received s
  | .hostPostReadDone post => Sys2Proof.Machine.execHostPostReadDone post s
  | .bodyReadDone body => Sys2Proof.Machine.execBodyReadDone body s
  | .tornRead cause => Sys2Proof.Machine.execTornRead cause s
  | .baselinePostRecheckDone post => Sys2Proof.Machine.execBaselinePostRecheckDone post s
  | .badKind post => Sys2Proof.Machine.execBadKind post s
  | .configure post => Sys2Proof.Machine.execConfigure post s
  | .endRecording post => Sys2Proof.Machine.execEndRecording post s
  | .loadPilot post => Sys2Proof.Machine.execLoadPilot post s
  | .dropPilot post => Sys2Proof.Machine.execDropPilot post s
  | .sweep post upsets => Sys2Proof.Machine.execSweep post upsets s
  | .cancel post upsets => Sys2Proof.Machine.execCancel post upsets s
  | .fleetOrder post upsets => Sys2Proof.Machine.execFleetOrder post upsets s
  | .openBin post => Sys2Proof.Machine.execOpenBin post s
  | .closeBin post upsets => Sys2Proof.Machine.execCloseBin post upsets s
  | .discardBin post => Sys2Proof.Machine.execDiscardBin post s
  | .answerFirstWriteDone => Sys2Proof.Machine.execAnswerFirstWriteDone s
  | .answerSecondWriteDone => Sys2Proof.Machine.execAnswerSecondWriteDone s
  | .answerWriteFault => Sys2Proof.Machine.execAnswerWriteFault s
  | .statusPageWriteDone => Sys2Proof.Machine.execStatusPageWriteDone s
  | .statusPageWriteFault => Sys2Proof.Machine.execStatusPageWriteFault s
  | .exportBurstDone upsets => Sys2Proof.Machine.execExportBurstDone upsets s
  | .exportBurstFault upsets => Sys2Proof.Machine.execExportBurstFault upsets s
  | .pilotBurstDone data => Sys2Proof.Machine.execPilotBurstDone data s
  | .pilotBurstFault received => Sys2Proof.Machine.execPilotBurstFault received s

end Sys2Proof.Machine
end

