-- ==== Sys2Proof/Safety.lean ====
section
/-! DEFINITION. What a safe part is, in the terms the statements use: the properties that every step keeps, and the
relations between a state and the next that the statements name. -/

namespace Sys2Proof.Machine

/-! ## Properties that every step keeps -/

/-- Local DRAM, its check bits and the scan map are in their canonical forms (log 5). -/
def MemoryCanonical (s : State) : Prop :=
  CellsWf 0 s.dram.raw ∧ CellsWf Ecc.clean s.dram.rawErrors ∧ CellsWf 0 s.dram.pilot ∧
    CellsWf Ecc.clean s.dram.pilotErrors ∧ CellsWf 0 s.dram.acc ∧ CellsWf Ecc.clean s.dram.accErrors ∧
    CellsWf false s.store.marks

/-- The priority list holds the eight fleet numbers, each once (R72). -/
def PriorityLawful (s : State) : Prop := s.sched.priority.Perm (List.finRange 8)

/-- A port's counts lie in their ranges, and each is 0 in the states that do not use it (R18, R19, R24, R28). -/
structure PortLawful (x : Port) : Prop where
  errors_le : x.errors ≤ 255
  recovery_le : x.recovery ≤ 127
  syncRun_le : x.syncRun ≤ 16
  live_below : x.state = .live → x.errors < 128
  degraded_from : x.state = .degraded → 128 ≤ x.errors
  errors_unused : x.counted = false → x.errors = 0
  recovery_unused : x.state ≠ .cut → x.recovery = 0
  sync_unused : x.state ≠ .syncing → x.syncRun = 0 ∧ x.syncTag = none
  down_frontier : x.state = .down → x.frontier = none

/-- Every port is lawful. -/
def PortsLawful (s : State) : Prop := ∀ p : Fin 4, PortLawful s.ports[p]

/-- The issue port is not free while a request waits (R159). -/
def PortServed (s : State) : Prop :=
  s.bus.portBusy = true ∨
    (s.bus.scanner.isWaiting = false ∧ s.bus.exporter.isWaiting = false ∧ s.bus.loader.isWaiting = false)

/-- No two bins that are not FREE have overlapping key sets (R107). -/
def BinsDisjoint (s : State) : Prop :=
  ∀ (b c : Fin 8) (r q : BinRecord), b ≠ c → s.stack.bins[b].record = some r → s.stack.bins[c].record = some q →
    keysOverlap r.key r.mask q.key q.mask = false

/-- The export queue holds the bins in EXPORTING, each once, and the writer works on its head (R128). -/
structure QueueLawful (st : StackUnit) : Prop where
  nodup : st.exportQueue.Nodup
  exporting : ∀ b : Fin 8, b ∈ st.exportQueue ↔ ∃ r, st.bins[b].record = some r ∧ r.phase = .exporting
  head : ∀ w, st.writer = some w → st.exportQueue.head? = some w.bin

/-- While the writer works on a bin its burst stands in the exporter's slot, and the bytes of the completed bursts, of
that burst and of what is formed beyond it are those of the records formed so far (R129). -/
def WriterLawful (s : State) : Prop :=
  ∀ (w : Writer) (r : BinRecord), s.stack.writer = some w → s.stack.bins[w.bin].record = some r →
    ∃ burst : Burst, (s.bus.exporter = .waiting burst ∨ ∃ host, s.bus.exporter = .issued burst host) ∧
      w.nextChannel ≤ r.channelCount ∧
      w.written + burst.length + w.formed.length = w.nextChannel * (32 + 4 * r.lags)

/-- The boxes left to the first round of the answer stage stand in ascending order, beyond the box whose answer that
round is writing (R151). -/
structure AnswersLawful (s : State) : Prop where
  ascending : s.board.firstRound.Pairwise (· < ·)
  first : ∀ b sent, s.board.phase = .answerFirst .first b sent → ∀ k ∈ s.board.firstRound, b < k
  second : ∀ b sent, s.board.phase = .answerSecond .first b sent → ∀ k ∈ s.board.firstRound, b < k

/-- An entry of the job table is ACTIVE exactly while a pass is in flight for it, and the pin is held exactly while
the Engine is in COMPUTE (R69, R45, 06). -/
structure PassLawful (s : State) : Prop where
  active : ∀ i : Fin 32, s.engine.activeJob = some i ↔ ∃ j, s.sched.jobs[i] = some j ∧ j.state = .active
  pin : s.store.pin.isSome = true ↔ ∃ r pilot finished reading, s.engine = .compute r pilot finished reading

/-- A recording configuration exists exactly in RECORDING; outside it every port is DOWN, the store is empty, the job
table is empty and every bin is FREE (R3, R18, R48, R49, R85, R101). -/
structure SessionLawful (s : State) : Prop where
  recording : s.device = .recording ↔ s.session.isSome = true
  ports : s.device ≠ .recording → ∀ p : Fin 4, s.ports[p].state = .down
  store : s.device ≠ .recording → s.store = .reset
  jobs : s.device ≠ .recording → ∀ i : Fin 32, s.sched.jobs[i] = none
  bins : s.device ≠ .recording → ∀ b : Fin 8, s.stack.bins[b].record = none

/-- The three together. -/
structure WorkLawful (s : State) : Prop where
  session : SessionLawful s
  pass : PassLawful s
  queue : QueueLawful s.stack

/-- How far below W a port in a state may lie without being cut (R26); W − 8,192 for one that is not DEGRADED. -/
def stallDepth (x : Port) : Int := if x.state = .degraded then 1024 else 8192

/-- While RECORDING: the settled index is at most W and not 8,192 below it, every LIVE or DEGRADED port's frontier
lies between the two and within its stall limit of W, and the settled index is the least of those frontiers while
there is one (R26, R38, R39). -/
def StoreLawful (s : State) : Prop :=
  s.device = .recording →
    ∃ w x : Int, s.store.newest = some w ∧ s.store.settled = some x ∧ x ≤ w ∧ w - 8192 ≤ x ∧
      (∀ p : Fin 4, s.ports[p].counted = true →
        ∃ f : Int, s.ports[p].frontier = some f ∧ x ≤ f ∧ f ≤ w ∧ w - stallDepth s.ports[p] ≤ f) ∧
      ((∃ p : Fin 4, s.ports[p].counted = true) →
        ∃ p : Fin 4, s.ports[p].counted = true ∧ s.ports[p].frontier = some x)

/-! ## Relations between a state and the next -/

/-- Nothing but the scanner, the slots of the Bus Master Unit and the counts of the status page differs. -/
structure OnlyScanner (s t : State) : Prop where
  device : t.device = s.device
  session : t.session = s.session
  resetEpoch : t.resetEpoch = s.resetEpoch
  regs : t.regs = s.regs
  events : t.events = s.events
  ports : t.ports = s.ports
  store : t.store = s.store
  library : t.library = s.library
  sched : t.sched = s.sched
  engine : t.engine = s.engine
  stack : t.stack = s.stack
  dram : t.dram = s.dram
  freeDraws : t.freeDraws = s.freeDraws
  pending : t.pending = s.pending
  eccCorrected : t.counts.eccCorrected = s.counts.eccCorrected
  pilotDamage : t.counts.pilotDamage = s.counts.pilotDamage
  poison : t.counts.poison = s.counts.poison
  discardedWrites : t.counts.discardedWrites = s.counts.discardedWrites
  exporter : t.bus.exporter = s.bus.exporter
  loader : t.bus.loader = s.bus.loader
  scannerFaults : t.bus.scannerFaults = s.bus.scannerFaults
  exporterFaults : t.bus.exporterFaults = s.bus.exporterFaults
  loaderFaults : t.bus.loaderFaults = s.bus.loaderFaults
  period : t.board.period = s.board.period
  interval : t.board.interval = s.board.interval

/-! ## The status page (13.4) -/

/-- The `n` bytes of a record from offset `o` on hold the number `v`, the least significant byte first. -/
def FieldShows (r : List Byte) (o n v : Nat) : Prop := leNat ((r.drop o).take n) = v % 256 ^ n

/-- The eight bytes from offset `o` on hold an index, no value as −1, in the 40-bit form (R4, R32). -/
def IndexShows (r : List Byte) (o : Nat) (x : Option Int) : Prop :=
  FieldShows r o 8 (x.getD (-1) % 2 ^ 40).toNat

/-- A port record (R32). -/
structure PortShows (r : List Byte) (x : Port) : Prop where
  state : FieldShows r 0 1 (match x.state with | .down => 0 | .syncing => 1 | .live => 2 | .degraded => 3 | .cut => 4)
  carrier : FieldShows r 1 1 (if x.carrier = true then 1 else 0)
  errors : FieldShows r 2 1 x.errors
  warn : FieldShows r 3 1 (if 96 ≤ x.errors then 1 else 0)
  recovery : FieldShows r 4 1 x.recovery
  syncRun : FieldShows r 5 1 x.syncRun
  frontier : IndexShows r 8 x.frontier
  crc : FieldShows r 16 4 x.counts.crc
  format : FieldShows r 20 4 x.counts.format
  sequence : FieldShows r 24 4 x.counts.sequence
  time : FieldShows r 28 4 x.counts.time
  gap : FieldShows r 32 4 x.counts.gap
  late : FieldShows r 36 4 x.counts.late
  cutErrors : FieldShows r 40 4 x.counts.cutErrors
  cutSignal : FieldShows r 44 4 x.counts.cutSignal
  cutStall : FieldShows r 48 4 x.counts.cutStall
  reserved : ∀ k, k = 6 ∨ k = 7 ∨ 52 ≤ k ∧ k < 64 → r[k]? = some 0

/-- A pilot summary; an empty position shows 0 in every field (R51, R178). -/
structure PilotShows (r : List Byte) (e : Option PilotEntry) : Prop where
  entry : ∀ x, e = some x →
    FieldShows r 0 1 x.id ∧ FieldShows r 1 1 (match x.state with | .loading => 1 | .ready => 2 | .damaged => 3) ∧
      FieldShows r 4 2 x.length ∧ FieldShows r 6 1 x.useCount ∧ FieldShows r 8 4 x.serial.toNat
  empty : e = none → ∀ k < 16, r[k]? = some 0
  reserved : ∀ k, k = 2 ∨ k = 3 ∨ k = 7 ∨ 12 ≤ k ∧ k < 16 → r[k]? = some 0

/-- A bin summary; a FREE bin shows 0 in every field but its last export result and held-fault offset (R123, R138,
R178). -/
structure BinShows (r : List Byte) (b : Bin) : Prop where
  bin : ∀ x, b.record = some x →
    FieldShows r 0 1 (match x.phase with | .opened => 1 | .draining => 2 | .exporting => 3 | .held => 4) ∧
      FieldShows r 2 1 x.pendingJobs ∧ FieldShows r 4 4 x.key.toNat ∧ FieldShows r 8 4 x.mask.toNat ∧
      FieldShows r 12 2 x.channelsAtTarget ∧ FieldShows r 14 2 x.channelCount
  free : b.record = none → ∀ k < 16, k ≠ 1 → r[k]? = some 0
  lastExport : FieldShows r 1 1 (match b.lastExport with | .none => 0 | .done => 1 | .writeFault => 2)
  heldFault : FieldShows r 16 4 b.heldFaultOffset
  reserved : ∀ k, k = 3 ∨ 20 ≤ k ∧ k < 32 → r[k]? = some 0

/-- The status page shows the part: each field at its byte offset, and 0 in every reserved byte (R155, R178). -/
structure PageShows (page : List Byte) (s : State) : Prop where
  device : FieldShows page 0 1 (match s.device with | .init => 0 | .idle => 1 | .recording => 2)
  resetEpoch : FieldShows page 1 1 s.resetEpoch.toNat
  baseline : FieldShows page 2 1 (if ∃ b : Fin 64, s.board.boxes[b].baseline = true then 1 else 0)
  scan : FieldShows page 4 4 s.counts.scan.toNat
  newest : IndexShows page 8 s.store.newest
  settled : IndexShows page 16 s.store.settled
  oldest : IndexShows page 24 (s.store.newest.map (· - 65535))
  jobs : FieldShows page 32 1 ((List.finRange 32).filter fun i => s.sched.jobs[i].isSome).length
  active : FieldShows page 33 1 (match s.engine.activeJob with | some i => i.val | none => 0xFF)
  mode : FieldShows page 34 1 (match s.sched.mode with | .rotate => 0 | .fixed => 1)
  hold : FieldShows page 35 1 s.sched.hold.toNat
  priority : ∀ k < 8, FieldShows page (36 + k) 1 (s.sched.priority.getD k 0).val
  freePages : FieldShows page 44 2 s.library.freePages.length
  load : FieldShows page 46 1 (if s.library.load.isSome = true then 1 else 0)
  loadId : FieldShows page 47 1 (match s.library.load with | some slot => slot.id | none => 0)
  eccCorrected : FieldShows page 48 4 s.counts.eccCorrected
  pilotDamage : FieldShows page 52 4 s.counts.pilotDamage
  poison : FieldShows page 56 4 s.counts.poison
  discardedWrites : FieldShows page 60 4 s.counts.discardedWrites
  scannerFaults : FieldShows page 64 4 s.bus.scannerFaults
  exporterFaults : FieldShows page 68 4 s.bus.exporterFaults
  loaderFaults : FieldShows page 72 4 s.bus.loaderFaults
  ports : ∀ p : Fin 4, PortShows ((page.drop (128 + 64 * p.val)).take 64) s.ports[p]
  pilots : ∀ i : Fin 16, PilotShows ((page.drop (384 + 16 * i.val)).take 16) s.library.entries[i]
  bins : ∀ b : Fin 8, BinShows ((page.drop (640 + 32 * b.val)).take 32) s.stack.bins[b]
  reserved : ∀ k, k = 3 ∨ 76 ≤ k ∧ k < 128 ∨ 896 ≤ k ∧ k < 4096 → page[k]? = some 0

/-! ## The answer stage -/

/-- The first write of box `x`'s answer begins: bytes 132 to 255 of the box. It waits while the port is busy, and else
it is issued with the answer as it stands (R151, R159). -/
structure AnswerWriteBegins (round : AnswerRound) (x : Fin 64) (u t : State) : Prop where
  counts : t.counts = u.counts
  board : t.board = { u.board with phase := t.board.phase, firstRound := t.board.firstRound }
  waits : u.bus.portBusy = true →
    t.board.phase = .answerFirst round x none ∧
    t.bus =
      { u.bus with
        scanner := .waiting
          { direction := .write, offset := 4096 + 256 * x.val + 132, length := 124
            data := outcomeBytes u.board.boxes[x].answer } }
  issued : u.bus.portBusy = false →
    t.board.phase = .answerFirst round x u.board.boxes[x].answer ∧
    t.bus =
      { u.bus with
        portBusy := true
        scanner := .issued
          { direction := .write, offset := 4096 + 256 * x.val + 132, length := 124
            data := outcomeBytes u.board.boxes[x].answer }
          (BitVec.ofNat 64 (u.regs.base + (4096 + 256 * x.val + 132))) }

/-- The part as the status page shows it: the scan count has risen by 1, wrapping (R154). -/
def countedScan (u : State) : State := { u with counts := { u.counts with scan := u.counts.scan + 1 } }

/-- The page of a status stage that begins in `u` has 4,096 bytes and shows the part (R155, 13.4). -/
def PageWhole (u : State) : Prop :=
  PriorityLawful u →
    (statusPage (countedScan u)).length = 4096 ∧ PageShows (statusPage (countedScan u)) (countedScan u)

/-- The status stage begins: the scan count rises, and the page as it then stands is written to window offset 0
(R154). -/
structure StatusBegins (u t : State) : Prop where
  counts : t.counts = { u.counts with scan := u.counts.scan + 1 }
  board : t.board = { u.board with phase := .statusPage, firstRound := t.board.firstRound }
  whole : PageWhole u
  waits : u.bus.portBusy = true →
    t.bus =
      { u.bus with
        scanner := .waiting
          { direction := .write, offset := 0, length := (statusPage (countedScan u)).length
            data := statusPage (countedScan u) } }
  issued : u.bus.portBusy = false →
    t.bus =
      { u.bus with
        portBusy := true
        scanner := .issued
          { direction := .write, offset := 0, length := (statusPage (countedScan u)).length
            data := statusPage (countedScan u) }
          (BitVec.ofNat 64 u.regs.base) }

/-- Box `y` is left to the first round of the answer stage (R151). -/
def leftToFirst (round : AnswerRound) (u : State) (y : Fin 64) : Prop :=
  round = .first ∧ y ∈ u.board.firstRound ∧ u.board.boxes[y].dirty = true

/-- Box `y` is left to the second round, after box `b` of `round`: its answer is dirty and no write of it has been
faulted in this answer stage (R151). -/
def leftToSecond (round : AnswerRound) (b : Fin 64) (u : State) (y : Fin 64) : Prop :=
  u.board.boxes[y].dirty = true ∧ y ∉ u.board.faulted ∧ (round = .second → b < y)

/-- The answer stage goes on after box `b` of `round`: with the lowest box left to the first round, then with the lowest
left to the second, then with the status stage (R151, R154). -/
structure AnswerStageGoesOn (round : AnswerRound) (b : Fin 64) (u t : State) : Prop where
  first : ∀ x : Fin 64, leftToFirst round u x → (∀ y : Fin 64, leftToFirst round u y → x ≤ y) →
    AnswerWriteBegins .first x u t ∧
      ∀ y : Fin 64, y ∈ t.board.firstRound ↔ leftToFirst round u y ∧ y ≠ x
  second : ∀ x : Fin 64, (∀ y : Fin 64, ¬leftToFirst round u y) → leftToSecond round b u x →
    (∀ y : Fin 64, leftToSecond round b u y → x ≤ y) → AnswerWriteBegins .second x u t
  status : (∀ y : Fin 64, ¬leftToFirst round u y) → (∀ y : Fin 64, ¬leftToSecond round b u y) → StatusBegins u t

/-- The read stage has ended with the part as in `u`: the answer stage begins with the first write of the lowest box of
its first round that is still dirty, else with the lowest of the second round, else with the status stage (R150, R151,
R154). -/
def AnswerStageBegins (u t : State) : Prop :=
  AnswerStageGoesOn .first 0
    { u with
      board :=
        { u.board with
          examined := t.board.examined, taken := t.board.taken, lastTaken := t.board.lastTaken
          rotation := t.board.rotation, faulted := [] } } t

/-! ## Boxes -/

/-- The scanner waits for the second reading of box `b`'s post, its burst is on the link, the first reading was `post`
and the body is an order of kind `kind` (none: a code of no kind) (R148). -/
structure OrderReached (kind : Option OrderKind) (b : Fin 64) (post : Byte) (body : List Byte) (s : State) : Prop where
  phase : s.board.phase = .secondPost b post body
  issued : s.scannerIssued = true
  kind : bodyKind body = kind

/-- The first reading of box `b`'s host post begins: a read of one byte, which waits while the port is busy and else is
issued (R147, R159). -/
structure PostReadBegins (b : Fin 64) (u t : State) : Prop where
  phase : t.board.phase = .hostPost b
  waits : u.bus.portBusy = true → t.bus =
    { u.bus with scanner := .waiting { direction := .read, offset := 4096 + 256 * b.val, length := 1, data := [] } }
  issued : u.bus.portBusy = false → t.bus =
    { u.bus with
      portBusy := true
      scanner := .issued { direction := .read, offset := 4096 + 256 * b.val, length := 1, data := [] }
        (BitVec.ofNat 64 (u.regs.base + (4096 + 256 * b.val))) }

/-- The scanner has passed the box under examination in `s`, with the part otherwise as in `u`: the next box's post is
read, or the read stage has ended, no read is in progress and the answer stage begins (R147, R150, R151). The boxes
left to the first round are in ascending order in every state that AnswersLawful holds of. -/
structure BoxPassed (ended : Prop) (s u t : State) : Prop where
  goesOn : ¬ended →
    PostReadBegins (boxOf (s.board.rotation.val + (s.board.examined + 1))) u t ∧
      t.board.examined = s.board.examined + 1 ∧ t.board.firstRound = u.board.firstRound ∧
      t.board.faulted = u.board.faulted
  ends : ended →
    t.board.phase.reads = false ∧ t.scanBusy = true ∧
      (u.board.firstRound.Pairwise (· < ·) → AnswerStageBegins u t)

/-- The box is skipped: beyond the scanner's own position nothing changes (R148). -/
structure BoxSkipped (s t : State) : Prop where
  only : OnlyScanner s t
  boxes : t.board.boxes = s.board.boxes
  followUp : t.board.followUp = s.board.followUp
  taken : t.board.taken = s.board.taken
  lastTaken : t.board.lastTaken = s.board.lastTaken
  passed : BoxPassed (64 ≤ s.board.examined + 1) s s t
  rotation : t.board.rotation =
    if 64 ≤ s.board.examined + 1 then
      match s.board.lastTaken with
      | some b => boxOf (b.val + 1)
      | none => s.board.rotation
    else s.board.rotation

/-- The order of box `b` has been counted: beyond the scanner the part is as in `u`, one more order has been taken in
the scan that `s` was in, and the rotation starts after `b` if the read stage has ended (R149, R150). -/
structure OrderCounted (b : Fin 64) (s u t : State) : Prop where
  only : OnlyScanner u t
  boxes : t.board.boxes = u.board.boxes
  followUp : t.board.followUp = s.board.followUp
  taken : t.board.taken = s.board.taken + 1
  lastTaken : t.board.lastTaken = some b
  passed : BoxPassed (8 ≤ s.board.taken + 1 ∨ 64 ≤ s.board.examined + 1) s u t
  rotation : t.board.rotation =
    if 8 ≤ s.board.taken + 1 ∨ 64 ≤ s.board.examined + 1 then boxOf (b.val + 1) else s.board.rotation

/-- The part with the order of box `b` answered `a`: the entry takes the post, the kind code and the answer, and is dirty
(R149). -/
def answeredBox (b : Fin 64) (post : Byte) (body : List Byte) (a : Answer) (u : State) : State :=
  { u with
    board :=
      { u.board with
        boxes :=
          u.board.boxes.set b
            { answeredPost := post, current := some (bodyKindCode body), answer := some a, dirty := true,
              baseline := u.board.boxes[b].baseline } } }

/-- The order of box `b` is answered `a` and counted; beyond that and the scanner the part is as in `u`. -/
def OrderAnswered (b : Fin 64) (post : Byte) (body : List Byte) (a : Answer) (s u t : State) : Prop :=
  OrderCounted b s (answeredBox b post body a u) t

/-- The order of box `b` is refused, which leaves the part as in `u` (R149). -/
def OrderRefused (b : Fin 64) (post : Byte) (body : List Byte) (reason : Reason) (s u t : State) : Prop :=
  OrderAnswered b post body { outcome := .refused, reason := reason, words := [] } s u t

/-! ## Work and frames -/

/-- What the end of an arrival or of a pass leaves alone: only ports, store, jobs, queues, priority list, Engine, bins,
answers, the exporter's requests, local DRAM and the counts of what was read differ. -/
structure OnlyWork (s t : State) : Prop where
  device : t.device = s.device
  session : t.session = s.session
  resetEpoch : t.resetEpoch = s.resetEpoch
  regs : t.regs = s.regs
  mask : t.events.mask = s.events.mask
  load : t.library.load = s.library.load
  serial : t.library.serial = s.library.serial
  mode : t.sched.mode = s.sched.mode
  hold : t.sched.hold = s.sched.hold
  rotation : t.board.rotation = s.board.rotation
  examined : t.board.examined = s.board.examined
  taken : t.board.taken = s.board.taken
  followUp : t.board.followUp = s.board.followUp
  period : t.board.period = s.board.period
  interval : t.board.interval = s.board.interval
  scannerFaults : t.bus.scannerFaults = s.bus.scannerFaults
  exporterFaults : t.bus.exporterFaults = s.bus.exporterFaults
  loaderFaults : t.bus.loaderFaults = s.bus.loaderFaults
  scan : t.counts.scan = s.counts.scan
  discardedWrites : t.counts.discardedWrites = s.counts.discardedWrites
  freeDraws : t.freeDraws = s.freeDraws
  pending : t.pending = s.pending

/-- The class of a frame at a LIVE or DEGRADED port: the first of the four tests of R16 that it fails. -/
def frameClass (s : State) (p : Fin 4) (bytes : List Byte) : Option BadClass :=
  match lineClass (configured s p) p bytes with
  | some c => some c
  | none =>
    if atOrBelow s.ports[p].frontier (frameTag bytes) then some .sequence
    else if beyondReach s.store.settled (frameTag bytes) then some .time
    else none

/-- The port after an advance of W to `w`: cut if it fails the stall test (R26, R37 step 6). -/
def afterStall (w : Int) (x : Port) : Port := if stalled w x then x.afterCut .stall else x

/-- The other ports after a good frame with tag `tag` was stored while W was `w` (R36, R37). -/
def otherAfter (w : Int) (tag : Nat) (x : Port) : Port := if (tag : Int) ≤ w then x else afterStall tag x

/-- The Scheduler's WAITING jobs after a notice of the settled index `x`: those whose span it settles are READY, or the
arbiter has since made one ACTIVE or ended it, which it does only if no pass is in flight, and the others are as they
were. The job of the pass in flight, ACTIVE wherever PassLawful holds, is another's concern (R41, R71, R73). -/
structure JobsNoticed (x : Int) (s t : State) : Prop where
  none_left : ∀ (i : Fin 32) (j : Job), t.sched.jobs[i] = some j → j.state = .waiting → x < j.needLast
  settled : ∀ (i : Fin 32) (j : Job), s.sched.jobs[i] = some j → j.state = .waiting → (j.needLast : Int) ≤ x →
    s.engine.activeJob ≠ some i →
    t.sched.jobs[i] = some { j with state := .ready } ∨
      (s.engine.activeJob = none ∨ t.engine.activeJob ≠ s.engine.activeJob) ∧
        (t.sched.jobs[i] = some { j with state := .active } ∧ t.engine.activeJob = some i ∨ t.sched.jobs[i] = none)
  waiting : ∀ (i : Fin 32) (j : Job), s.sched.jobs[i] = some j → j.state = .waiting → x < j.needLast →
    s.engine.activeJob ≠ some i → t.sched.jobs[i] = some j

/-- The settled index has been recomputed: with a port LIVE or DEGRADED it is the least frontier of those ports, and
the Scheduler has been told of a new value alone; else it keeps its last value (R39, R41). -/
structure SettledFollows (s t : State) : Prop where
  kept : (∀ q : Fin 4, t.ports[q].counted = false) → t.store.settled = s.store.settled
  least : (∃ q : Fin 4, t.ports[q].counted = true) → ∃ x : Int, t.store.settled = some x ∧
    (∃ q : Fin 4, t.ports[q].counted = true ∧ t.ports[q].frontier = some x) ∧
    (∀ (q : Fin 4) (g : Int), t.ports[q].counted = true → t.ports[q].frontier = some g → x ≤ g) ∧
    (s.store.settled ≠ some x → JobsNoticed x s t)
  untold : t.store.settled = s.store.settled → ∀ (i : Fin 32) (j : Job), s.sched.jobs[i] = some j →
    j.state = .waiting → s.engine.activeJob ≠ some i → t.sched.jobs[i] = some j

/-- A good frame's samples stand in the raw ring: the port's configured channels hold them in the tag's slot under clean
check bits, and every other word of local DRAM is as it was (R34, R36). -/
structure SamplesStored (p : Fin 4) (bytes : List Byte) (s t : State) : Prop where
  others : t.dram = { s.dram with raw := t.dram.raw, rawErrors := t.dram.rawErrors }
  words : ∀ channel slot : Nat, slot < 65536 →
    cellRead 0 t.dram.raw (rawAddress channel slot) =
      if slot = slotOf (frameTag bytes) ∧ p.val * 512 ≤ channel ∧ channel < p.val * 512 + configured s p then
        (frameSamples bytes).getD (channel - p.val * 512) 0
      else cellRead 0 s.dram.raw (rawAddress channel slot)
  checks : ∀ channel slot : Nat, slot < 65536 →
    cellRead .clean t.dram.rawErrors (rawAddress channel slot) =
      if slot = slotOf (frameTag bytes) ∧ p.val * 512 ≤ channel ∧ channel < p.val * 512 + configured s p then .clean
      else cellRead .clean s.dram.rawErrors (rawAddress channel slot)

/-- The whole samples of `data` stand in the pages of a load from where the copy had come, under clean check bits, and
every other word of local DRAM is as it was (R57, R160; log 16). -/
structure ImageStored (slot : LoadSlot) (data : List Byte) (s t : State) : Prop where
  others : t.dram = { s.dram with pilot := t.dram.pilot, pilotErrors := t.dram.pilotErrors }
  words : ∀ n, slot.received / 2 ≤ n → n < slot.received / 2 + data.length / 2 →
    cellRead 0 t.dram.pilot (pilotWordAt slot.pages n) =
        BitVec.ofNat 16 (leNat ((data.drop (2 * (n - slot.received / 2))).take 2)) ∧
      cellRead .clean t.dram.pilotErrors (pilotWordAt slot.pages n) = .clean
  rest : ∀ a, (∀ n, slot.received / 2 ≤ n → n < slot.received / 2 + data.length / 2 → a ≠ pilotWordAt slot.pages n) →
    cellRead 0 t.dram.pilot a = cellRead 0 s.dram.pilot a ∧
      cellRead .clean t.dram.pilotErrors a = cellRead .clean s.dram.pilotErrors a

/-- `n` interrupt messages go between two states of the Event Unit; while the link is down, or "message enabled" is
false, they are lost (R171). -/
structure MessagesGo (n : Nat) (e f : EventUnit) : Prop where
  sent : f.messagesSent = e.messagesSent + n
  lost : f.messagesLost = e.messagesLost + if e.linkUp = true ∧ e.messageEnabled = true then 0 else n

/-- Causes may have been raised, with INT_EN as given: the mask and the endpoint's input are kept, and so is every
pending cause; one message goes if INT_EN is 1 and the signalled set has gone from empty to non-empty, and else none
(R170, R171). -/
structure EventsGrow (intEn : Bool) (e f : EventUnit) : Prop where
  mask : f.mask = e.mask
  enabled : f.messageEnabled = e.messageEnabled
  link : f.linkUp = e.linkUp
  pending : f.pending &&& e.pending = e.pending
  messages : MessagesGo (if intEn = true ∧ signalled e = 0 ∧ signalled f ≠ 0 then 1 else 0) e f

/-- A cause is pending. -/
def isPending (c : Cause) (s : State) : Prop := s.events.pending &&& c.bit = c.bit

/-- LINK is pending if it was, or if some port's state has changed, and only then (R30). -/
def LinkTells (s t : State) : Prop :=
  isPending .link t ↔ isPending .link s ∨ ∃ q : Fin 4, t.ports[q].state ≠ s.ports[q].state

/-- The causes that a command may raise: FAULT with a faulted burst (R161), LINK with a change of a port's state (R30),
CHANNEL with a NOISY flag (R116), BOX with a final answer written (R151), BIN with the end of an export or with an extent
that does not fit (R133, R134, R135), which also the end of a bin's last job can bring about (R127). -/
def mayRaise : Instr → List Cause
  | .powerOnReset => []
  | .fullReset _ => []
  | .workReset _ => []
  | .scanEnIntEnWrite _ => []
  | .nudge _ => []
  | .windowBaseWrite _ _ => []
  | .windowSizeWrite _ _ => [.bin]
  | .eventPendingWrite _ => []
  | .eventMaskWrite _ => []
  | .registerWriteIgnored _ _ _ => []
  | .scrubComplete => []
  | .scanTimerExpiry => []
  | .frameArrival _ _ _ => [.link, .bin]
  | .carrierLoss _ _ => [.link, .bin]
  | .carrierPresent _ => []
  | .pilotSampleRead _ => [.bin]
  | .rawSampleRead _ => []
  | .computeEnd => []
  | .traceApply _ => [.channel, .bin]
  | .burstHandedOver => []
  | .readCompletionTimeout _ _ => [.fault]
  | .hostPostReadDone _ => []
  | .bodyReadDone _ => []
  | .tornRead _ => [.fault]
  | .baselinePostRecheckDone _ => []
  | .badKind _ => []
  | .configure _ => [.link]
  | .endRecording _ => [.link]
  | .loadPilot _ => []
  | .dropPilot _ => []
  | .sweep _ _ => [.bin]
  | .cancel _ _ => [.bin]
  | .fleetOrder _ _ => [.bin]
  | .openBin _ => []
  | .closeBin _ _ => [.bin]
  | .discardBin _ => []
  | .answerFirstWriteDone => []
  | .answerSecondWriteDone => [.box]
  | .answerWriteFault => [.fault]
  | .statusPageWriteDone => []
  | .statusPageWriteFault => [.fault]
  | .exportBurstDone _ => [.bin]
  | .exportBurstFault _ => [.fault, .bin]
  | .pilotBurstDone _ => []
  | .pilotBurstFault _ => [.fault]

/-! ## Exports -/

/-- Forming the record of the channel at position `i` reads its accumulators: it is not POISONED and has a fold
(R130). -/
def exportReads (r : BinRecord) (i : Nat) : Bool := !(r.channel i).poisoned && (r.channel i).fold != 0

/-- Forming that record poisons the channel: an accumulator that it reads cannot be corrected (R130). -/
def exportSpoils (d : Dram) (b : Fin 8) (r : BinRecord) (i : Nat) : Bool :=
  exportReads r i &&
    (List.range r.lags).any fun j => cellRead Ecc.clean d.accErrors (accAddress b.val i j) == .uncorrectable

/-- That record carries the POISONED flag (R130, R132). -/
def exportPoisoned (d : Dram) (b : Fin 8) (r : BinRecord) (i : Nat) : Bool :=
  (r.channel i).poisoned || exportSpoils d b r i

/-- That record carries the EMPTY flag (R132). -/
def exportEmpty (d : Dram) (b : Fin 8) (r : BinRecord) (i : Nat) : Bool :=
  (r.channel i).fold == 0 && !exportPoisoned d b r i

/-- The sample of one lag: the accumulator divided by the fold and rounded, halves away from zero (R131). -/
def exportedSample (f : Nat) (a : Int) : Int :=
  if 0 ≤ a then (((2 * a.natAbs + f) / (2 * f) : Nat) : Int) else -(((2 * a.natAbs + f) / (2 * f) : Nat) : Int)

/-- The trace record of the channel at position `i` of bin `b`: a header of 32 bytes, then a sample for each lag, the
fill code where the channel is POISONED or has no fold (R130, R131, R132, 13.5). -/
def exportedRecord (d : Dram) (b : Fin 8) (r : BinRecord) (i : Nat) : List Byte :=
  let c := r.channel i
  leBytes 2 (r.firstChannel + i) ++ leBytes 1 c.fold ++
    leBytes 1 ((if exportEmpty d b r i = true then 1 else 0) + (if c.noisy = true then 2 else 0) +
      (if exportPoisoned d b r i = true then 4 else 0)) ++
    leBytes 2 c.noise ++ leBytes 2 c.gapped ++ leBytes 2 c.clipped ++ leBytes 2 c.surplus ++
    leBytes 4 c.missTotal ++ leBytes 4 (if c.fold = 0 then 0 else c.referenceSum / c.fold) ++ List.replicate 12 0 ++
    ((List.range r.lags).map fun j =>
      if exportPoisoned d b r i = true ∨ c.fold = 0 then leBytes 4 r.fillCode.toNat
      else leBytes 4 (twos 32 (exportedSample c.fold (cellRead 0 d.acc (accAddress b.val i j)).toInt))).flatten

/-- How many of that channel's accumulators hold a single-bit error (R130). -/
def exportSingles (d : Dram) (b : Fin 8) (r : BinRecord) (i : Nat) : Nat :=
  ((List.range r.lags).filter fun j => cellRead Ecc.clean d.accErrors (accAddress b.val i j) == .single).length

/-- The channels whose records the writer forms for its next burst of `need` bytes: the first ones not yet formed, no
more of them than the burst needs (log 33). -/
def channelsFormed (w : Writer) (r : BinRecord) (need : Nat) : List Nat :=
  List.range' w.nextChannel
    (min (r.channelCount - w.nextChannel)
      ((need - w.formed.length + (32 + 4 * r.lags) - 1) / (32 + 4 * r.lags)))

/-- A bin's record after those records are formed: the channels found uncorrectable are POISONED, and those of them
below target are counted at target (R130). -/
def BinRecord.afterForming (d : Dram) (b : Fin 8) (formed : List Nat) (r : BinRecord) : BinRecord :=
  let spoilt := formed.filter (exportSpoils d b r)
  { r with
    channels := r.channels.mapIdx fun i c => if i ∈ spoilt then { c with poisoned := true } else c
    channelsAtTarget :=
      r.channelsAtTarget + (spoilt.filter fun i => decide ((r.channel i).fold < r.targetFold)).length }

/-- The counts after those records are formed: each single-bit error read is corrected and counted, each channel found
uncorrectable is a poisoning (R130, R166). -/
def Counts.afterForming (d : Dram) (b : Fin 8) (r : BinRecord) (formed : List Nat) (n : Counts) : Counts :=
  let read := formed.filter (exportReads r)
  let spoilt := formed.filter (exportSpoils d b r)
  { n with
    eccCorrected :=
      if read = [] then n.eccCorrected
      else min (n.eccCorrected + (read.map (exportSingles d b r)).sum) 4294967295
    poison := if spoilt = [] then n.poison else min (n.poison + spoilt.length) 4294967295 }

/-- The part after the writer `w` of a bin with record `r` has formed the records its next burst needs and posted the
burst: the bytes of the extent from where the last burst ended to the next 4,096-byte boundary or to the end of the
extent (R129 to R132, R158). -/
def withExportBurst (w : Writer) (r : BinRecord) (s : State) : State :=
  let offset := r.exportOffset + w.written
  let need := burstLength offset (r.exportOffset + r.channelCount * (32 + 4 * r.lags))
  let formed := channelsFormed w r need
  let bytes := w.formed ++ (formed.map (exportedRecord s.dram w.bin r)).flatten
  { s with
    counts := s.counts.afterForming s.dram w.bin r formed
    stack :=
      { s.stack with
        bins :=
          s.stack.bins.set w.bin
            { s.stack.bins[w.bin] with record := some (r.afterForming s.dram w.bin formed) }
        writer := some
          { w with
            nextChannel := w.nextChannel + formed.length
            formed := bytes.drop need
            emptyCount := w.emptyCount + (formed.filter (exportEmpty s.dram w.bin r)).length
            poisonCount := w.poisonCount + (formed.filter (exportPoisoned s.dram w.bin r)).length
            noisyCount := w.noisyCount + (formed.filter fun i => (r.channel i).noisy).length } }
    bus :=
      { s.bus with
        exporter := .waiting
          { direction := .write, offset := offset, length := (bytes.take need).length, data := bytes.take need } } }

/-- The issue port takes up the export writer's request if the port is free (R158, R159). -/
def exporterServed (u : State) : State :=
  match u.bus.portBusy, u.bus.exporter with
  | false, .waiting b =>
    { u with
      bus := { u.bus with
        portBusy := true, exporter := .issued b (BitVec.ofNat 64 (u.regs.base + b.offset)) } }
  | _, _ => u

/-- Bin `b`, whose export has an extent that does not fit, leaves the head of the queue HELD with WRITE_FAULT and its
export offset as its held-fault offset; the events are `e` (R135). -/
def heldAtStart (b : Fin 8) (r : BinRecord) (rest : List (Fin 8)) (e : EventUnit) (s : State) : State :=
  { s with
    events := e
    stack :=
      { exportQueue := rest, writer := none
        bins :=
          s.stack.bins.set b
            { record := some { r with phase := .held }, lastExport := .writeFault
              heldFaultOffset := r.exportOffset } } }

/-- The export queue may begin: nothing comes of it while the queue is empty or the window invalid; the export of the
head begins if its extent fits; else the head becomes HELD with BIN raised and the next bin comes to the head (R128,
R135). -/
inductive ExportQueueBegins : State → State → Prop where
  | empty (s : State) : s.stack.exportQueue = [] → ExportQueueBegins s s
  | waits (s : State) : windowValid s.regs = false → ExportQueueBegins s s
  | begins (s : State) (b : Fin 8) (rest : List (Fin 8)) (r : BinRecord) :
      s.stack.exportQueue = b :: rest → windowValid s.regs = true → s.stack.bins[b].record = some r →
      inBuffer s.regs r.exportOffset (r.channelCount * (32 + 4 * r.lags)) = true →
      ExportQueueBegins s (withExportBurst
        { bin := b, nextChannel := 0, written := 0, formed := [], emptyCount := 0, poisonCount := 0, noisyCount := 0 }
        r s)
  | misfit (s t : State) (b : Fin 8) (rest : List (Fin 8)) (r : BinRecord) (e : EventUnit) :
      s.stack.exportQueue = b :: rest → windowValid s.regs = true → s.stack.bins[b].record = some r →
      inBuffer s.regs r.exportOffset (r.channelCount * (32 + 4 * r.lags)) = false →
      EventsGrow s.regs.intEn s.events e → e.pending = s.events.pending ||| Cause.bin.bit →
      ExportQueueBegins (heldAtStart b r rest e s) t → ExportQueueBegins s t

/-! ## The end of a pass -/

/-- The part after a pass of job `j`, at entry `i`, is completed: the Engine is free, in ROTATE mode the fleet goes to
the bottom of the list, and the job, one block further, ends CANCELLED if it is cancel-pending, is READY for its next
block, or ends DONE after its last (R76, R77, R98). -/
def passCompleted (i : Fin 32) (j : Job) (s : State) : State :=
  let list :=
    if s.sched.mode = .rotate then s.sched.priority.filter (· != j.fleet) ++ [j.fleet] else s.sched.priority
  let further := { j with blocksDone := j.blocksDone + 1, nextBlock := j.nextBlock + 1 }
  let after := fun k : Job =>
    { s with
      engine := .noPass
      sched := { s.sched with priority := list, jobs := s.sched.jobs.set i (some k) } }
  if j.cancelPending = true then endJob i .cancelled .none (after further)
  else if j.nextBlock + 1 < j.blocksTotal then after { further with state := .ready }
  else endJob i .done .none (after further)

/-- What follows a trace, whose effects on everything but the Engine are in `x`, where `k` is the job of the pass: the
Engine holds the traces left, or after the last the pass is completed, the arbiter acts, and an export that the job's
end has begun is served (R73, R97, R98). -/
def traceFollowed (p : PassRecord) (rest : List Trace) (k : Job) (x : State) : State :=
  match rest with
  | [] => exporterServed (arbitrate (passCompleted p.job k x))
  | t :: rest => { x with engine := .stack p (t :: rest) }

end Sys2Proof.Machine
end

