-- ==== Sys2Proof/WellFormed.lean ====
section
/-! DEFINITION. Which commands a sender can send: the checks on a command's operands that its row makes. A command
that fails one of them spells another row, or none. -/

namespace Sys2Proof

/-- The RESET field of a CONTROL word, bits 2..3 (13.6). -/
def resetField (value : Word) : Nat := (value.extractLsb' 2 2).toNat

/-- The offsets of the registers that a 32-bit write can affect (R174, 13.6): CONTROL, NUDGE, the two words of
WINDOW_BASE, WINDOW_SIZE, EVENT_PENDING and EVENT_MASK. -/
def writableOffsets : List Nat := [0x04, 0x0C, 0x10, 0x14, 0x18, 0x1C, 0x20]

/-- The errors listed are errors (R166). -/
def upsetsWellFormed (upsets : List Upset) : Bool := upsets.all fun u => u.kind != .clean

/-- The errors in local DRAM that a command carries. -/
def Instr.upsets : Instr → List Upset
  | .powerOnReset => []
  | .fullReset _ => []
  | .workReset _ => []
  | .scanEnIntEnWrite _ => []
  | .nudge _ => []
  | .windowBaseWrite _ _ => []
  | .windowSizeWrite _ us => us
  | .eventPendingWrite _ => []
  | .eventMaskWrite _ => []
  | .registerWriteIgnored _ _ _ => []
  | .scrubComplete => []
  | .scanTimerExpiry => []
  | .frameArrival _ _ us => us
  | .carrierLoss _ us => us
  | .carrierPresent _ => []
  | .pilotSampleRead us => us
  | .rawSampleRead us => us
  | .computeEnd => []
  | .traceApply us => us
  | .burstHandedOver => []
  | .readCompletionTimeout _ _ => []
  | .hostPostReadDone _ => []
  | .bodyReadDone _ => []
  | .tornRead _ => []
  | .baselinePostRecheckDone _ => []
  | .badKind _ => []
  | .configure _ => []
  | .endRecording _ => []
  | .loadPilot _ => []
  | .dropPilot _ => []
  | .sweep _ us => us
  | .cancel _ us => us
  | .fleetOrder _ us => us
  | .openBin _ => []
  | .closeBin _ us => us
  | .discardBin _ => []
  | .answerFirstWriteDone => []
  | .answerSecondWriteDone => []
  | .answerWriteFault => []
  | .statusPageWriteDone => []
  | .statusPageWriteFault => []
  | .exportBurstDone us => us
  | .exportBurstFault us => us
  | .pilotBurstDone _ => []
  | .pilotBurstFault _ => []

/-- A command's operands are those of its row. -/
def Instr.wellFormed : Instr → Bool
  | .powerOnReset => true
  | .fullReset v => resetField v == 2
  | .workReset v => resetField v == 1
  | .scanEnIntEnWrite v => resetField v != 2
  | .nudge _ => true
  | .windowBaseWrite _ _ => true
  | .windowSizeWrite _ us => upsetsWellFormed us
  | .eventPendingWrite _ => true
  | .eventMaskWrite _ => true
  | .registerWriteIgnored offset width _ => width != 32 || !writableOffsets.contains offset
  | .scrubComplete => true
  | .scanTimerExpiry => true
  | .frameArrival _ _ us => upsetsWellFormed us
  | .carrierLoss _ us => upsetsWellFormed us
  | .carrierPresent _ => true
  | .pilotSampleRead us => upsetsWellFormed us
  | .rawSampleRead us => upsetsWellFormed us
  | .computeEnd => true
  | .traceApply us => upsetsWellFormed us
  | .burstHandedOver => true
  | .readCompletionTimeout r received => r != .exporter && decide (received.length < 4096)
  | .hostPostReadDone _ => true
  | .bodyReadDone body => body.length == 127
  | .tornRead _ => true
  | .baselinePostRecheckDone _ => true
  | .badKind post => post != 0
  | .configure post => post != 0
  | .endRecording post => post != 0
  | .loadPilot post => post != 0
  | .dropPilot post => post != 0
  | .sweep post us => post != 0 && upsetsWellFormed us
  | .cancel post us => post != 0 && upsetsWellFormed us
  | .fleetOrder post us => post != 0 && upsetsWellFormed us
  | .openBin post => post != 0
  | .closeBin post us => post != 0 && upsetsWellFormed us
  | .discardBin post => post != 0
  | .answerFirstWriteDone => true
  | .answerSecondWriteDone => true
  | .answerWriteFault => true
  | .statusPageWriteDone => true
  | .statusPageWriteFault => true
  | .exportBurstDone us => upsetsWellFormed us
  | .exportBurstFault us => upsetsWellFormed us
  | .pilotBurstDone data => decide (1 ≤ data.length) && decide (data.length ≤ 4096)
  | .pilotBurstFault received => decide (received.length ≤ 4096)

end Sys2Proof
end

