-- ==== Sys2Proof/Certificates/Slice0/Obligations.lean ====
section
/-! DEFINITION. The statements about the part, for the provers. Where a docstring names a log entry, what the statement
says on that entry's point is the model's choice or inference, marked there, and no rule of the spec. -/

open Sys2Proof Sys2Proof.Machine

/-! ## Steps and the register interface -/

/-- A step runs the command at the front of the queue on the part with the queue's rest, and an empty queue idles (the
model's choice, log 2). -/
def Obligations.StepRunsFrontCommand : Prop :=
  (∀ (c : Instr) (rest : List Instr) (s : State),
    s.pending = c :: rest → step s = exec c { s with pending := rest }) ∧
  ∀ s : State, s.pending = [] → step s = .next s

/-- Every command completes in every state, and neither the queue, nor the endpoint's input, nor the state of the
link is among its effects (logs 1, 11). -/
def Obligations.EveryCommandCompletes : Prop :=
  ∀ (c : Instr) (s : State), ∃ t, exec c s = .next t ∧ t.pending = s.pending ∧
    t.events.messageEnabled = s.events.messageEnabled ∧ t.events.linkUp = s.events.linkUp

/-- The device state moves only as the table of chapter 1 says (R1, R2, R5, R9, R11). -/
def Obligations.DeviceStateMoves : Prop :=
  ∀ (c : Instr) (s t : State), exec c s = .next t → t.device ≠ s.device →
    (t.device = .init ∧ (c = .powerOnReset ∨ ∃ v, resetField v = 2 ∧
      (c = .fullReset v ∨ c = .workReset v ∨ c = .scanEnIntEnWrite v))) ∨
    (s.device = .init ∧ t.device = .idle ∧ c = .scrubComplete) ∨
    (s.device = .recording ∧ t.device = .idle ∧ ∃ v, resetField v = 1 ∧
      (c = .fullReset v ∨ c = .workReset v ∨ c = .scanEnIntEnWrite v)) ∨
    (s.device = .idle ∧ t.device = .recording ∧ ∃ post, c = .configure post) ∨
    (s.device = .recording ∧ t.device = .idle ∧ ∃ post, c = .endRecording post)

/-- A pending cause stays pending and the mask stays as it is, but at a write to the two registers and at a power-on
or full reset. A command that is neither such a write, nor a write to CONTROL, nor a power-on reset sends one message
if INT_EN is 1 and the signalled set goes from empty to non-empty, and else none. No command raises a cause that 11.1
does not have it raise: what `mayRaise` lists (R30, R116, R133, R134, R135, R151, R161, R170, R171, R172, R173; logs
8, 11). -/
def Obligations.PendingCausesStay : Prop :=
  ∀ (c : Instr) (s t : State), exec c s = .next t → c ≠ .powerOnReset →
    (∀ v, resetField v = 2 → c ≠ .fullReset v ∧ c ≠ .workReset v ∧ c ≠ .scanEnIntEnWrite v) →
    ((∀ v, c ≠ .eventMaskWrite v) → t.events.mask = s.events.mask) ∧
    ((∀ v, c ≠ .eventPendingWrite v) → ∀ cause, isPending cause s → isPending cause t) ∧
    (∀ cause, isPending cause t → isPending cause s ∨ cause ∈ mayRaise c) ∧
    ((∀ v, c ≠ .eventPendingWrite v ∧ c ≠ .eventMaskWrite v ∧
        c ≠ .fullReset v ∧ c ≠ .workReset v ∧ c ≠ .scanEnIntEnWrite v) →
      MessagesGo (if s.regs.intEn = true ∧ signalled s.events = 0 ∧ signalled t.events ≠ 0 then 1 else 0)
        s.events t.events)

/-- POWER_ON_RESET puts the whole part in its starting state; the queue is kept (R12, R33, R142, log 28). -/
def Obligations.PowerOnStartsOver : Prop :=
  ∀ s : State, ∃ t, exec .powerOnReset s = .next t ∧
    t.device = .init ∧ t.session = none ∧ t.resetEpoch = 0 ∧
    t.regs = { scanEn := false, intEn := false, baseLow := 0, baseHigh := 0, size := 0 } ∧
    t.events.pending = 0 ∧ t.events.mask = 0x1F ∧
    (∀ p : Fin 4, t.ports[p] =
      { state := .down, carrier := false, errors := 0, recovery := 0, syncRun := 0, syncTag := none,
        frontier := none, counts := ⟨0, 0, 0, 0, 0, 0, 0, 0, 0⟩ }) ∧
    t.store = { newest := none, settled := none, marks := [], pin := none } ∧
    (∀ i : Fin 16, t.library.entries[i] = none) ∧ t.library.load = none ∧ t.library.serial = 0 ∧
    (∀ i : Fin 32, t.sched.jobs[i] = none) ∧ (∀ f : Fin 8, t.sched.queues[f] = []) ∧
    t.sched.priority = [0, 1, 2, 3, 4, 5, 6, 7] ∧ t.sched.mode = .rotate ∧ t.sched.hold = 0 ∧ t.engine = .noPass ∧
    (∀ b : Fin 8, t.stack.bins[b] = { record := none, lastExport := .none, heldFaultOffset := 0 }) ∧
    t.stack.exportQueue = [] ∧ t.stack.writer = none ∧
    (∀ b : Fin 64, t.board.boxes[b] =
      { answeredPost := 0, current := none, answer := none, dirty := false, baseline := true }) ∧
    t.board.rotation = 0 ∧ t.board.phase = .idle ∧ t.board.followUp = false ∧
    t.board.period = 1000 ∧ t.board.interval = 1000 ∧
    t.bus =
      { scanner := .empty, exporter := .empty, loader := .empty, portBusy := false,
        scannerFaults := 0, exporterFaults := 0, loaderFaults := 0 } ∧
    t.counts = { scan := 0, eccCorrected := 0, pilotDamage := 0, poison := 0, discardedWrites := 0 } ∧
    t.pending = s.pending

/-- A full reset leaves what a power-on leaves, but that WINDOW_BASE, WINDOW_SIZE and the carrier fields are kept and the
reset epoch rises by 1 modulo 256; local DRAM waits for the scrub, and a burst being handed over is handed over whole
(R11, R12, R33, R165, logs 4 and 20). -/
def Obligations.FullResetKeepsTheWindow : Prop :=
  ∀ (v : Word) (s : State), resetField v = 2 → ∃ t u, exec (.fullReset v) s = .next t ∧
    exec .powerOnReset s = .next u ∧
    t = { u with
      resetEpoch := s.resetEpoch + 1
      regs := { u.regs with baseLow := s.regs.baseLow, baseHigh := s.regs.baseHigh, size := s.regs.size }
      ports := t.ports
      bus := { u.bus with portBusy := s.bus.portBusy }
      dram := s.dram } ∧
    ∀ p : Fin 4, t.ports[p] = { u.ports[p] with carrier := s.ports[p].carrier }

/-- A work reset in IDLE or RECORDING: what it clears, what it keeps, what becomes of each pilot entry and of each box
entry. It sends one message if it moves INT_EN from 0 to 1 while the signalled set is non-empty (R11, R13, R33, R66,
R153, R171; logs 20, 36). -/
def Obligations.WorkResetKeepsPilotsAndBoxes : Prop :=
  ∀ (v : Word) (s : State), resetField v = 1 → s.device ≠ .init → ∃ t, exec (.workReset v) s = .next t ∧
    t.device = .idle ∧ t.session = none ∧ t.resetEpoch = s.resetEpoch + 1 ∧
    t.regs = { s.regs with scanEn := v.getLsbD 0, intEn := v.getLsbD 1 } ∧
    t.events.pending = s.events.pending ∧ t.events.mask = s.events.mask ∧
    MessagesGo (if s.regs.intEn = false ∧ v.getLsbD 1 = true ∧ signalled s.events ≠ 0 then 1 else 0)
      s.events t.events ∧
    (∀ p : Fin 4, t.ports[p] =
      { state := .down, carrier := s.ports[p].carrier, errors := 0, recovery := 0, syncRun := 0, syncTag := none,
        frontier := none, counts := ⟨0, 0, 0, 0, 0, 0, 0, 0, 0⟩ }) ∧
    t.store = { newest := none, settled := none, marks := [], pin := none } ∧
    (∀ i : Fin 16, t.library.entries[i] =
      match s.library.entries[i] with
      | some e => if e.state = .loading then none else some { e with useCount := 0 }
      | none => none) ∧
    t.library.load = none ∧ t.library.serial = s.library.serial ∧
    (∀ i : Fin 32, t.sched.jobs[i] = none) ∧ (∀ f : Fin 8, t.sched.queues[f] = []) ∧
    t.sched.priority = [0, 1, 2, 3, 4, 5, 6, 7] ∧ t.sched.mode = .rotate ∧ t.sched.hold = 0 ∧ t.engine = .noPass ∧
    (∀ b : Fin 8, t.stack.bins[b] = { record := none, lastExport := .none, heldFaultOffset := 0 }) ∧
    t.stack.exportQueue = [] ∧ t.stack.writer = none ∧
    (∀ b : Fin 64, t.board.boxes[b] =
      if finalOrNone s.board.boxes[b].answer = true then
        { s.board.boxes[b] with baseline := s.board.boxes[b].baseline || !s.board.boxes[b].dirty }
      else
        { s.board.boxes[b] with
          answer := some { outcome := .abandoned, reason := .workReset, words := [] }, dirty := true }) ∧
    t.board.rotation = 0 ∧ t.board.phase = .idle ∧ t.board.followUp = false ∧
    t.board.period = 1000 ∧ t.board.interval = 1000 ∧
    t.bus = { s.bus with scanner := .empty, exporter := .empty, loader := .empty } ∧
    t.dram = s.dram ∧ t.counts = s.counts ∧ t.freeDraws = s.freeDraws ∧ t.pending = s.pending

/-- A CONTROL write that resets nothing (RESET 0 or 3, or 1 in INIT) changes SCAN_EN and INT_EN, drops a follow-up
request if SCAN_EN becomes 0, and sends one message if INT_EN rises while the signalled set is non-empty (R11, R171,
R175). -/
def Obligations.ControlWriteWithoutReset : Prop :=
  ∀ (v : Word) (s : State), resetField v ≠ 2 → (resetField v = 1 → s.device = .init) →
    ∀ c ∈ [Instr.scanEnIntEnWrite v, .workReset v], ∃ t, exec c s = .next t ∧
      t = { s with
        regs := { s.regs with scanEn := v.getLsbD 0, intEn := v.getLsbD 1 }
        board := { s.board with followUp := s.board.followUp && v.getLsbD 0 }
        events := t.events } ∧
      t.events.pending = s.events.pending ∧ t.events.mask = s.events.mask ∧
      MessagesGo (if s.regs.intEn = false ∧ v.getLsbD 1 = true ∧ signalled s.events ≠ 0 then 1 else 0)
        s.events t.events

/-- The completion of the scrub moves the device to IDLE with every word of local DRAM reading zero under clean check
bits, and changes nothing else (R2, R168); outside INIT no scrub runs (log 1). -/
def Obligations.ScrubLeavesZeros : Prop :=
  ∀ s : State, ∃ t, exec .scrubComplete s = .next t ∧
    (s.device ≠ .init → t = s) ∧
    (s.device = .init → t = { s with device := .idle, dram := t.dram } ∧
      ∀ a : Nat, cellRead 0 t.dram.raw a = 0 ∧ cellRead 0 t.dram.pilot a = 0 ∧ cellRead 0 t.dram.acc a = 0 ∧
        cellRead .clean t.dram.rawErrors a = .clean ∧ cellRead .clean t.dram.pilotErrors a = .clean ∧
        cellRead .clean t.dram.accErrors a = .clean)

/-- A write to the window registers is taken only while SCAN_EN is 0, no scan is in progress and no load or export is
in flight, and sets the baseline marks outside INIT if it changes the word; otherwise it is discarded and counted. A
taken WINDOW_SIZE write after which the window is valid lets the export at the head of the queue begin, or leaves that
bin HELD if its extent does not fit, and the next bin comes to the head (R128, R135, R153, R176; logs 3, 7, 33). -/
def Obligations.WindowWrites : Prop :=
  (∀ (h : WordHalf) (v : Word) (s : State),
    s.regs.scanEn = false → s.board.phase = .idle → s.library.load = none → s.stack.writer = none →
    ∃ t, exec (.windowBaseWrite h v) s = .next t ∧
      t = { s with
        regs := match h with
          | .low => { s.regs with baseLow := v }
          | .high => { s.regs with baseHigh := v }
        board := { s.board with boxes := t.board.boxes } } ∧
      ∀ b : Fin 64, t.board.boxes[b] =
        if s.device ≠ .init ∧ v ≠ (match h with | .low => s.regs.baseLow | .high => s.regs.baseHigh) then
          { s.board.boxes[b] with baseline := true }
        else s.board.boxes[b]) ∧
  (∀ (v : Word) (us : List Upset) (s : State), PortServed s →
    s.regs.scanEn = false → s.board.phase = .idle → s.library.load = none → s.stack.writer = none →
    (s.stack.exportQueue = [] ∨ windowValid { s.regs with size := v } = false) →
    ∃ t, exec (.windowSizeWrite v us) s = .next t ∧
      t = { s.applyUpsets us with
        regs := { s.regs with size := v }
        board := { s.board with boxes := t.board.boxes } } ∧
      ∀ b : Fin 64, t.board.boxes[b] =
        if s.device ≠ .init ∧ v ≠ s.regs.size then { s.board.boxes[b] with baseline := true }
        else s.board.boxes[b]) ∧
  (∀ (v : Word) (us : List Upset) (s : State) (b : Fin 8) (rest : List (Fin 8)) (r : BinRecord),
    s.regs.scanEn = false → s.board.phase = .idle → s.library.load = none → s.stack.writer = none →
    s.stack.exportQueue = b :: rest → s.stack.bins[b].record = some r →
    windowValid { s.regs with size := v } = true →
    inBuffer { s.regs with size := v } r.exportOffset (extentLength r.channelCount r.lags) = true →
    ∃ t w, exec (.windowSizeWrite v us) s = .next t ∧ t.stack.writer = some w ∧ w.bin = b ∧ w.written = 0 ∧
      t.bus.exporter ≠ .empty ∧ t.stack.exportQueue = b :: rest ∧ t.regs = { s.regs with size := v }) ∧
  (∀ (v : Word) (us : List Upset) (s : State), PortServed s → QueueLawful s.stack →
    s.regs.scanEn = false → s.board.phase = .idle → s.library.load = none → s.stack.writer = none →
    ∃ (boxes : Vector BoxEntry 64) (u : State), exec (.windowSizeWrite v us) s = .next (exporterServed u) ∧
      ExportQueueBegins
        { s.applyUpsets us with
          regs := { s.regs with size := v }
          board := { s.board with boxes := boxes } } u ∧
      ∀ b : Fin 64, boxes[b] =
        if s.device ≠ .init ∧ v ≠ s.regs.size then { s.board.boxes[b] with baseline := true }
        else s.board.boxes[b]) ∧
  (∀ (v : Word) (us : List Upset) (s : State) (b : Fin 8) (rest : List (Fin 8)) (r : BinRecord),
    s.regs.scanEn = false → s.board.phase = .idle → s.library.load = none → s.stack.writer = none →
    s.stack.exportQueue = b :: rest → b ∉ rest → s.stack.bins[b].record = some r →
    windowValid { s.regs with size := v } = true →
    inBuffer { s.regs with size := v } r.exportOffset (r.channelCount * (32 + 4 * r.lags)) = false →
    ∃ t, exec (.windowSizeWrite v us) s = .next t ∧
      t.stack.bins[b] =
        { record := some { r with phase := .held }, lastExport := .writeFault, heldFaultOffset := r.exportOffset } ∧
      b ∉ t.stack.exportQueue ∧ t.events.pending = s.events.pending ||| Cause.bin.bit ∧
      t.bus.exporterFaults = s.bus.exporterFaults) ∧
  ∀ (h : WordHalf) (v : Word) (us : List Upset) (s : State),
    (s.regs.scanEn = true ∨ s.board.phase ≠ .idle ∨ s.library.load ≠ none ∨ s.stack.writer ≠ none) →
    exec (.windowBaseWrite h v) s =
      .next { s with counts := { s.counts with discardedWrites := min (s.counts.discardedWrites + 1) 4294967295 } } ∧
    exec (.windowSizeWrite v us) s =
      .next { s.applyUpsets us with
        counts := { s.counts with discardedWrites := min (s.counts.discardedWrites + 1) 4294967295 } }

/-- EVENT_PENDING: a written 1 removes its cause, a written 0 leaves it, and one message is sent if INT_EN is 1 and a
cause that is not masked is still pending; nothing else changes (R172). A message sent while the link is down or
"message enabled" is false is lost. -/
def Obligations.EventPendingWriteClears : Prop :=
  ∀ (v : Word) (s : State), ∃ t, exec (.eventPendingWrite v) s = .next t ∧ t = { s with events := t.events } ∧
    (∀ i < 5, t.events.pending.getLsbD i = (s.events.pending.getLsbD i && !v.getLsbD i)) ∧
    t.events.mask = s.events.mask ∧ t.events.messageEnabled = s.events.messageEnabled ∧
    t.events.linkUp = s.events.linkUp ∧ (∃ n, MessagesGo n s.events t.events) ∧
    ((s.regs.intEn = true ∧
        ∃ i < 5, s.events.pending.getLsbD i = true ∧ v.getLsbD i = false ∧ s.events.mask.getLsbD i = false) →
      t.events.messagesSent = s.events.messagesSent + 1) ∧
    (¬(s.regs.intEn = true ∧
        ∃ i < 5, s.events.pending.getLsbD i = true ∧ v.getLsbD i = false ∧ s.events.mask.getLsbD i = false) →
      t.events.messagesSent = s.events.messagesSent)

/-- EVENT_MASK: the mask takes the written value, the pending set stays, and one message is sent if INT_EN is 1 and
the signalled set goes from empty to non-empty; a read returns the mask in force, every cause is masked after a
power-on or full reset, and a work reset keeps the mask (R173). A message sent while the link is down or "message
enabled" is false is lost. -/
def Obligations.EventMaskWriteReplaces : Prop :=
  (∀ (v : Word) (s : State), ∃ t, exec (.eventMaskWrite v) s = .next t ∧ t = { s with events := t.events } ∧
    (∀ i < 5, t.events.mask.getLsbD i = v.getLsbD i) ∧
    t.events.pending = s.events.pending ∧ t.events.messageEnabled = s.events.messageEnabled ∧
    t.events.linkUp = s.events.linkUp ∧ (∃ n, MessagesGo n s.events t.events) ∧
    ((s.regs.intEn = true ∧ (∀ i < 5, s.events.pending.getLsbD i = true → s.events.mask.getLsbD i = true) ∧
        ∃ i < 5, s.events.pending.getLsbD i = true ∧ v.getLsbD i = false) →
      t.events.messagesSent = s.events.messagesSent + 1) ∧
    (¬(s.regs.intEn = true ∧ (∀ i < 5, s.events.pending.getLsbD i = true → s.events.mask.getLsbD i = true) ∧
        ∃ i < 5, s.events.pending.getLsbD i = true ∧ v.getLsbD i = false) →
      t.events.messagesSent = s.events.messagesSent)) ∧
  (∀ s : State, readRegister 0x20 32 s = s.events.mask.setWidth 32) ∧
  (∀ s : State, ∃ t, exec .powerOnReset s = .next t ∧ t.events.mask = 0x1F) ∧
  (∀ (v : Word) (s : State), resetField v = 2 → ∃ t, exec (.fullReset v) s = .next t ∧ t.events.mask = 0x1F) ∧
  ∀ (v : Word) (s : State), resetField v = 1 → ∃ t, exec (.workReset v) s = .next t ∧ t.events.mask = s.events.mask

/-- A write that no register takes has no effect; IDENT, STATE and CONTROL read as 13.6 lays them out, WINDOW_BASE and
WINDOW_SIZE read the words in force, EVENT_PENDING reads the pending causes, and NUDGE, an offset with no register and
an access of another width than 32 bits read 0 (R172, R174, R175, R176). -/
def Obligations.RegisterAccesses : Prop :=
  (∀ (offset width value : Nat) (s : State), exec (.registerWriteIgnored offset width value) s = .next s) ∧
  ∀ s : State,
    readRegister 0x00 32 s = 0x4008B14F ∧ readRegister 0x0C 32 s = 0 ∧
    (∀ offset width, width ≠ 32 → readRegister offset width s = 0) ∧
    (∀ offset, 0x20 < offset ∨ offset % 4 ≠ 0 → readRegister offset 32 s = 0) ∧
    readRegister 0x10 32 s = s.regs.baseLow ∧ readRegister 0x14 32 s = s.regs.baseHigh ∧
    readRegister 0x18 32 s = s.regs.size ∧
    (∀ i < 5, (readRegister 0x1C 32 s).getLsbD i = s.events.pending.getLsbD i) ∧
    (∀ i, 5 ≤ i → (readRegister 0x1C 32 s).getLsbD i = false) ∧
    (readRegister 0x04 32 s).getLsbD 0 = s.regs.scanEn ∧ (readRegister 0x04 32 s).getLsbD 1 = s.regs.intEn ∧
    (∀ i, 2 ≤ i → (readRegister 0x04 32 s).getLsbD i = false) ∧
    ((readRegister 0x08 32 s).extractLsb' 0 2).toNat =
      (match s.device with | .init => 0 | .idle => 1 | .recording => 2) ∧
    (readRegister 0x08 32 s).getLsbD 2 = decide (s.board.phase ≠ .idle) ∧
    (readRegister 0x08 32 s).getLsbD 3 = windowValid s.regs ∧
    (readRegister 0x08 32 s).getLsbD 4 = (s.library.load.isSome || s.stack.writer.isSome) ∧
    (readRegister 0x08 32 s).extractLsb' 5 3 = 0 ∧
    (readRegister 0x08 32 s).extractLsb' 8 8 = s.resetEpoch ∧ (readRegister 0x08 32 s).extractLsb' 16 16 = 0

/-! ## Board scan requests -/

/-- A NUDGE and an expiry of the scan timer each request a board scan: nothing comes of it while no scan can run, it
is recorded as the one follow-up while a scan is in progress, and else the scan begins at the rotation start with a
read of one byte of that box's host post. The timer's next interval has the period in force (R6, R145, R146, R147,
R151; logs 7, 21). -/
def Obligations.ScanRequests : Prop :=
  ∀ (c : Instr) (s u : State), PortServed s →
    ((∃ v, c = .nudge v) ∧ u = s ∨
      c = .scanTimerExpiry ∧ u = { s with board := { s.board with interval := s.board.period } }) →
    ∃ t, exec c s = .next t ∧
      ((s.device = .init ∨ s.regs.scanEn = false ∨ windowValid s.regs = false) → t = u) ∧
      (s.device ≠ .init → s.regs.scanEn = true → windowValid s.regs = true → s.board.phase ≠ .idle →
        t = { u with board := { u.board with followUp := true } }) ∧
      (s.device ≠ .init → s.regs.scanEn = true → windowValid s.regs = true → s.board.phase = .idle →
        OnlyScanner u t ∧
        t.board =
          { u.board with
            phase := .hostPost s.board.rotation, examined := 0, taken := 0, lastTaken := none, faulted := []
            firstRound := (List.finRange 64).filter fun b => s.board.boxes[b].dirty } ∧
        t.counts = s.counts ∧
        t.bus.scanner =
          let burst := { direction := .read, offset := 4096 + 256 * s.board.rotation.val, length := 1, data := [] }
          if s.bus.portBusy = true then .waiting burst
          else .issued burst (BitVec.ofNat 64 (s.regs.base + (4096 + 256 * s.board.rotation.val))))

/-! ## Link ports and the sample store -/

/-- A DOWN port ignores a frame; a CUT port counts a bad frame and adds a good one to its recovery count, and the
128th brings it to SYNCING with LINK raised; a frame that changes no state raises nothing. In neither state is anything
written (R14, R28, R29, R30, R31; logs 3, 31). -/
def Obligations.FramesOutsideTheSession : Prop :=
  ∀ (p : Fin 4) (bytes : List Byte) (us : List Upset) (s : State),
    (s.ports[p].state = .down → exec (.frameArrival p bytes us) s = .next (s.applyUpsets us)) ∧
    (s.ports[p].state = .cut → ∃ t, exec (.frameArrival p bytes us) s = .next t ∧
      t = { s.applyUpsets us with ports := s.ports.set p t.ports[p], events := t.events } ∧
      EventsGrow s.regs.intEn s.events t.events ∧
      match lineClass (configured s p) p bytes with
      | some c => t.ports[p] = { s.ports[p] with counts := s.ports[p].counts.addBad c } ∧ t.events = s.events
      | none =>
        if s.ports[p].recovery + 1 < 128 then
          t.ports[p] = { s.ports[p] with recovery := s.ports[p].recovery + 1 } ∧ t.events = s.events
        else
          t.ports[p] = { s.ports[p] with state := .syncing, recovery := 0, syncRun := 0, syncTag := none } ∧
            isPending .link t)

/-- A SYNCING port builds its run: a bad frame sets the run to 0 and leaves the sync tag, a good frame while the run
is below 16 adds 1 to it if its tag follows the sync tag and else sets it to 1. With the run at 16, a tag at or below
the settled index is late, and one more than 16,384 beyond it, while another port is LIVE or DEGRADED, is of class
TIME and sets the run to 0. Nothing is written and nothing but the port's record changes (R19, R20, R31; logs 3, 31).
-/
def Obligations.SyncRunBuilds : Prop :=
  ∀ (p : Fin 4) (bytes : List Byte) (us : List Upset) (s : State), s.ports[p].state = .syncing →
    (∀ c, lineClass (configured s p) p bytes = some c →
      exec (.frameArrival p bytes us) s = .next ((s.applyUpsets us).setPort p
        { s.ports[p] with syncRun := 0, counts := s.ports[p].counts.addBad c })) ∧
    (lineClass (configured s p) p bytes = none → s.ports[p].syncRun < 16 →
      exec (.frameArrival p bytes us) s = .next ((s.applyUpsets us).setPort p
        { s.ports[p] with
          syncTag := some (frameTag bytes)
          syncRun :=
            if s.ports[p].syncTag.isSome = true ∧ frameTag bytes = s.ports[p].syncTag.getD 0 + 1 then
              s.ports[p].syncRun + 1
            else 1 })) ∧
    (∀ x : Int, lineClass (configured s p) p bytes = none → 16 ≤ s.ports[p].syncRun → s.store.settled = some x →
      (frameTag bytes : Int) ≤ x →
      exec (.frameArrival p bytes us) s = .next ((s.applyUpsets us).setPort p
        { s.ports[p] with
          syncTag := some (frameTag bytes)
          counts := { s.ports[p].counts with late := min (s.ports[p].counts.late + 1) 4294967295 } })) ∧
    (∀ x : Int, lineClass (configured s p) p bytes = none → 16 ≤ s.ports[p].syncRun → s.store.settled = some x →
      x + 16384 < frameTag bytes → (∃ q : Fin 4, q ≠ p ∧ s.ports[q].counted = true) →
      exec (.frameArrival p bytes us) s = .next ((s.applyUpsets us).setPort p
        { s.ports[p] with
          syncRun := 0
          counts := { s.ports[p].counts with time := min (s.ports[p].counts.time + 1) 4294967295 } }))

/-- A waiting SYNCING port joins on a good frame beyond the settled index, and no more than 16,384 beyond it while
another port is LIVE or DEGRADED: it becomes LIVE with its frontier at the tag, LINK is raised, W covers the tag, and
ports too far below the new W are cut. The frame's samples and mark are written; the marks of the indices that W has
passed, and of those that the settled index skips while no other port is LIVE or DEGRADED, are cleared. The settled
index is the least frontier, and the Scheduler acts on a new value (R20, R21, R26, R30, R34, R36, R37, R39, R40, R41,
R71; logs 3, 5, 8, 31, 35). -/
def Obligations.WaitingPortJoins : Prop :=
  ∀ (p : Fin 4) (bytes : List Byte) (us : List Upset) (s : State) (x w : Int),
    s.ports[p].state = .syncing → 16 ≤ s.ports[p].syncRun → lineClass (configured s p) p bytes = none →
    s.store.newest = some w → s.store.settled = some x → x < frameTag bytes →
    ((∃ q : Fin 4, q ≠ p ∧ s.ports[q].counted = true) → (frameTag bytes : Int) ≤ x + 16384) →
    ∃ t, exec (.frameArrival p bytes us) s = .next t ∧ OnlyWork s t ∧
      t.ports[p] =
        { s.ports[p] with
          state := .live, errors := 0, syncRun := 0, syncTag := none, frontier := some (frameTag bytes : Int) } ∧
      (∀ q : Fin 4, q ≠ p → t.ports[q] = otherAfter w (frameTag bytes) s.ports[q]) ∧
      isPending .link t ∧ EventsGrow s.regs.intEn s.events t.events ∧
      t.store.newest = some (max w (frameTag bytes)) ∧
      cellRead false t.store.marks (markAddress p.val (slotOf (frameTag bytes))) = true ∧
      ((∀ q : Fin 4, q ≠ p → s.ports[q].counted = false) → t.store.settled = some (frameTag bytes : Int) ∧
        ∀ (q : Fin 4) (i : Int), x < i → i < frameTag bytes → max w (frameTag bytes) - 65535 ≤ i →
          cellRead false t.store.marks (markAddress q.val (slotOf i)) = false) ∧
      SettledFollows s t ∧
      (MemoryCanonical s → SamplesStored p bytes (s.applyUpsets us) t ∧
        (w - 65535 ≤ frameTag bytes →
          ∀ (q : Fin 4) (i : Int), max w (frameTag bytes) - 65536 < i → i ≤ max w (frameTag bytes) →
            cellRead false t.store.marks (markAddress q.val (slotOf i)) =
              if q = p ∧ i = frameTag bytes then true
              else if w < i then false
              else if (∀ q : Fin 4, q ≠ p → s.ports[q].counted = false) ∧ x < i ∧ i < frameTag bytes then false
              else cellRead false s.store.marks (markAddress q.val (slotOf i))))

/-- A bad frame at a LIVE or DEGRADED port: its class is counted and the error count rises by 8; at 256 the port is
cut for ERRORS; a LIVE port whose count reaches 128 becomes DEGRADED, and is cut for STALL at once if its frontier is
below W − 1,024. Nothing is written and no other port changes, and LINK is raised if and only if the port's state
changes (R16, R23, R25, R26, R30, R31; logs 26, 31). -/
def Obligations.BadFrameRaisesErrors : Prop :=
  ∀ (p : Fin 4) (bytes : List Byte) (us : List Upset) (s : State) (c : BadClass) (w f : Int),
    s.ports[p].counted = true → frameClass s p bytes = some c → s.store.newest = some w →
    s.ports[p].frontier = some f →
    ∃ t, exec (.frameArrival p bytes us) s = .next t ∧ OnlyWork s t ∧
      t.ports[p] =
        (let x := { s.ports[p] with counts := s.ports[p].counts.addBad c }
        if 256 ≤ x.errors + 8 then x.afterCut .errors
        else if x.state = .live ∧ 128 ≤ x.errors + 8 then
          if f < w - 1024 then x.afterCut .stall else { x with state := .degraded, errors := x.errors + 8 }
        else { x with errors := x.errors + 8 }) ∧
      (∀ q : Fin 4, q ≠ p → t.ports[q] = s.ports[q]) ∧
      LinkTells s t ∧ EventsGrow s.regs.intEn s.events t.events ∧
      t.store.newest = s.store.newest ∧ t.store.marks = s.store.marks ∧ t.dram = (s.applyUpsets us).dram

/-- A good frame at a LIVE or DEGRADED port moves its frontier to the tag. In sequence it lowers the error count by 1,
and a DEGRADED port whose count is then 127 or less returns to LIVE. A GAP frame is counted and raises the error count
by 8: at 256 the port is cut and the frame discarded; a LIVE port whose count reaches 128 becomes DEGRADED, and is cut
at once if its tag is below W − 1,024. The other ports are cut if the frame's advance of W leaves them too far behind.
LINK is raised if and only if some port's state changes (R16, R17, R22, R23, R25, R26, R30, R31; logs 26, 31). -/
def Obligations.GoodFrameMovesFrontier : Prop :=
  ∀ (p : Fin 4) (bytes : List Byte) (us : List Upset) (s : State) (w f : Int),
    s.ports[p].counted = true → frameClass s p bytes = none → s.store.newest = some w → s.ports[p].frontier = some f →
    ∃ t, exec (.frameArrival p bytes us) s = .next t ∧ OnlyWork s t ∧ EventsGrow s.regs.intEn s.events t.events ∧
      LinkTells s t ∧
      ((frameTag bytes : Int) = f + 1 →
        t.ports[p] =
          { s.ports[p] with
            frontier := some (frameTag bytes : Int), errors := s.ports[p].errors - 1
            state := if s.ports[p].state = .degraded ∧ s.ports[p].errors - 1 ≤ 127 then .live else s.ports[p].state } ∧
        ∀ q : Fin 4, q ≠ p → t.ports[q] = otherAfter w (frameTag bytes) s.ports[q]) ∧
      (f + 1 < frameTag bytes →
        let x :=
          { s.ports[p] with
            counts := { s.ports[p].counts with gap := min (s.ports[p].counts.gap + 1) 4294967295 } }
        (256 ≤ x.errors + 8 → t.ports[p] = x.afterCut .errors ∧ (∀ q : Fin 4, q ≠ p → t.ports[q] = s.ports[q]) ∧
          t.store.newest = s.store.newest ∧ t.store.marks = s.store.marks ∧ t.dram = (s.applyUpsets us).dram) ∧
        (x.errors + 8 < 256 →
          t.ports[p] =
            (if x.state = .live ∧ 128 ≤ x.errors + 8 then
              if (frameTag bytes : Int) < max w (frameTag bytes) - 1024 then
                { x with frontier := some (frameTag bytes : Int) }.afterCut .stall
              else
                { x with frontier := some (frameTag bytes : Int), state := .degraded, errors := x.errors + 8 }
            else { x with frontier := some (frameTag bytes : Int), errors := x.errors + 8 }) ∧
          ∀ q : Fin 4, q ≠ p → t.ports[q] = otherAfter w (frameTag bytes) s.ports[q]))

/-- What a good frame at a LIVE or DEGRADED port leaves in the Sample Store: W covers its tag; the port's samples
stand in the tag's slot under clean check bits and every other word of local DRAM is as it was; the port's mark is set
there, the marks of the indices that W has passed are clear at every port, and every other mark of an index in the
ring is as it was (R17, R34, R36, R37; logs 3, 5, 31, 35). The premise on the tag is R38's: no port writes below O;
MemoryCanonical is kept by every step. -/
def Obligations.GoodFrameIsStored : Prop :=
  ∀ (p : Fin 4) (bytes : List Byte) (us : List Upset) (s : State) (w f : Int),
    s.ports[p].counted = true → frameClass s p bytes = none → s.store.newest = some w → s.ports[p].frontier = some f →
    ((frameTag bytes : Int) = f + 1 ∨ s.ports[p].errors + 8 < 256) → w - 65535 ≤ frameTag bytes → MemoryCanonical s →
    ∃ t, exec (.frameArrival p bytes us) s = .next t ∧
      t.store.newest = some (max w (frameTag bytes)) ∧
      SamplesStored p bytes (s.applyUpsets us) t ∧
      (∀ (q : Fin 4) (i : Int), max w (frameTag bytes) - 65536 < i → i ≤ max w (frameTag bytes) →
        cellRead false t.store.marks (markAddress q.val (slotOf i)) =
          if q = p ∧ i = frameTag bytes then true
          else if w < i then false
          else cellRead false s.store.marks (markAddress q.val (slotOf i)))

/-- After a frame at a LIVE or DEGRADED port the settled index is the least frontier of the ports then LIVE or
DEGRADED, and its last value while there is none; the Scheduler's WAITING jobs that a new value settles have become
READY, or the arbiter has made one ACTIVE or ended it, and the others are as they were (R39, R41, R71; logs 8, 26). -/
def Obligations.SettledIndexIsLeastFrontier : Prop :=
  ∀ (p : Fin 4) (bytes : List Byte) (us : List Upset) (s : State), s.ports[p].counted = true →
    s.store.newest ≠ none → (∀ q : Fin 4, s.ports[q].counted = true → s.ports[q].frontier ≠ none) →
    ∃ t, exec (.frameArrival p bytes us) s = .next t ∧ SettledFollows s t

/-- A report of presence changes only the carrier field. A report of loss clears it; it cuts a SYNCING, LIVE or
DEGRADED port for SIGNAL, with LINK raised; a CUT port's recovery count becomes 0; a DOWN port only records it. After
the loss of a LIVE or DEGRADED port the settled index is the least frontier of the ports that are left, and the
Scheduler acts on a new value; any other loss moves neither (R25, R27, R30, R39, R41, R71; logs 3, 8, 14). -/
def Obligations.CarrierReports : Prop :=
  (∀ (p : Fin 4) (s : State),
    exec (.carrierPresent p) s = .next (s.setPort p { s.ports[p] with carrier := true })) ∧
  ∀ (p : Fin 4) (us : List Upset) (s : State), ∃ t, exec (.carrierLoss p us) s = .next t ∧
    (∀ q : Fin 4, q ≠ p → t.ports[q] = s.ports[q]) ∧ EventsGrow s.regs.intEn s.events t.events ∧ OnlyWork s t ∧
    (s.ports[p].counted = false →
      t = { s.applyUpsets us with ports := t.ports, events := t.events }) ∧
    t.store.newest = s.store.newest ∧ t.store.marks = s.store.marks ∧ t.dram = (s.applyUpsets us).dram ∧
    (s.ports[p].counted = true → (∀ q : Fin 4, s.ports[q].counted = true → s.ports[q].frontier ≠ none) →
      SettledFollows s t) ∧
    match s.ports[p].state with
    | .down => t.ports[p] = { s.ports[p] with carrier := false } ∧ t.events = s.events
    | .cut => t.ports[p] = { s.ports[p] with carrier := false, recovery := 0 } ∧ t.events = s.events
    | _ =>
      isPending .link t ∧
      t.ports[p] =
        { s.ports[p] with
          state := .cut, carrier := false, errors := 0, recovery := 0, syncRun := 0, syncTag := none
          counts :=
            { s.ports[p].counts with cutSignal := min (s.ports[p].counts.cutSignal + 1) 4294967295 } }

/-! ## Correlation passes -/

/-- The pass reads its next pilot sample. A word that is clean or holds a single-bit error gives its value, the latter
counted as corrected. A word that cannot be corrected damages the entry: the entry is DAMAGED, the pilot damage count
rises, the pass ends and the pin is released, and the job leaves the table answered FAULTED with PILOT_DAMAGED, or
CANCELLED if it was cancel-pending; the arbiter may then start another pass (R46, R64, R65, R77, R79, R88, R95, R166;
logs 3, 8, 29). -/
def Obligations.PilotSampleIsRead : Prop :=
  ∀ (us : List Upset) (s : State) (r : PassRecord) (pilot : List Int) (finished : List (List (Option Int)))
    (reading : List (Option Int)), s.engine = .compute r pilot finished reading → pilot.length < r.length →
    let word := pilotAddress (r.pages.getD (pilot.length / 1024) 0).val (pilot.length % 1024)
    let ecc := cellRead .clean (s.applyUpsets us).dram.pilotErrors word
    (ecc ≠ .uncorrectable → exec (.pilotSampleRead us) s = .next { s.applyUpsets us with
      engine := .compute r (pilot ++ [(cellRead 0 s.dram.pilot word).toInt]) finished reading
      counts := if ecc = .single then { s.counts with eccCorrected := min (s.counts.eccCorrected + 1) 4294967295 }
        else s.counts }) ∧
    (∀ (e : PilotEntry) (j : Job), ecc = .uncorrectable → s.library.entries[r.pilot] = some e →
      s.sched.jobs[r.job] = some j →
      (∀ (i : Fin 32) (k : Job), i ≠ r.job → s.sched.jobs[i] = some k → k.box ≠ j.box) →
      ∃ t, exec (.pilotSampleRead us) s = .next t ∧ OnlyWork s t ∧ EventsGrow s.regs.intEn s.events t.events ∧
        t.ports = s.ports ∧ t.dram = (s.applyUpsets us).dram ∧
        (∃ e', t.library.entries[r.pilot] = some e' ∧ e'.state = .damaged ∧ e'.pages = e.pages ∧ e'.id = e.id) ∧
        t.counts.pilotDamage = min (s.counts.pilotDamage + 1) 4294967295 ∧
        t.sched.jobs[r.job] = none ∧ r.job ∉ t.sched.queues[j.fleet] ∧
        t.sched.priority =
          (if s.sched.mode = .rotate then s.sched.priority.filter (· != j.fleet) ++ [j.fleet] else s.sched.priority) ∧
        (t.store.pin = none ↔ t.engine = .noPass) ∧
        t.board.boxes[j.box] = { s.board.boxes[j.box] with
          dirty := true
          answer := some {
            outcome := if j.cancelPending = true then .cancelled else .faulted
            reason := if j.cancelPending = true then .none else .pilotDamaged
            words := [resultWord j.blocksDone, resultWord j.accepted, resultWord j.noise, resultWord j.gapped,
              resultWord j.clipped, resultWord j.surplus, resultWord j.totalMissing] } })

/-- The pass reads its next raw sample: missing if the channel position is not configured, the index lies outside
O..W, the mark is clear or the word cannot be corrected, else the value of the word, a single-bit error counted as
corrected. A channel whose span has been read whole is finished (R14, R38, R42, R43, R44, R89, R166; log 3). -/
def Obligations.RawSampleIsRead : Prop :=
  ∀ (us : List Upset) (s : State) (r : PassRecord) (pilot : List Int) (finished : List (List (Option Int)))
    (reading : List (Option Int)) (p : Fin 4) (w : Int), s.engine = .compute r pilot finished reading →
    r.length ≤ pilot.length → finished.length < r.lastChannel + 1 - r.firstChannel →
    (r.firstChannel + finished.length) / 512 = p.val → s.store.newest = some w →
    let channel := r.firstChannel + finished.length
    let index := r.needFirst + reading.length
    let word := rawAddress channel (index % 65536)
    let ecc := cellRead .clean (s.applyUpsets us).dram.rawErrors word
    let held : Prop := channel % 512 < configured s p ∧ w - 65535 ≤ (index : Int) ∧ (index : Int) ≤ w ∧
      cellRead false s.store.marks (markAddress p.val (index % 65536)) = true
    ∃ t x, exec (.rawSampleRead us) s = .next t ∧
      t = { s.applyUpsets us with engine := t.engine, counts := t.counts } ∧
      (held → ecc ≠ .uncorrectable → x = some (cellRead 0 s.dram.raw word).toInt) ∧
      (¬held ∨ ecc = .uncorrectable → x = none) ∧
      (held ∧ ecc = .single →
        t.counts = { s.counts with eccCorrected := min (s.counts.eccCorrected + 1) 4294967295 }) ∧
      (¬held ∨ ecc ≠ .single → t.counts = s.counts) ∧
      (reading.length + 1 < r.needLast + 1 - r.needFirst → t.engine = .compute r pilot finished (reading ++ [x])) ∧
      (r.needLast + 1 - r.needFirst ≤ reading.length + 1 →
        t.engine = .compute r pilot (finished ++ [reading ++ [x]]) [])

/-- The end of the read-and-compute stage: the pin is released and the Engine holds one trace for each channel of the
block, in ascending order. A value is the correlation sum of the pilot with the channel's samples, a missing one
counting 0, scaled by S and clamped to 32 bits; the trace carries the truncated mean magnitude of its values, its
missing samples and the number of values that were clamped (R46, R87, R90, R91, R92, R93, R94, R97; log 10). -/
def Obligations.ComputeEndFormsTraces : Prop :=
  ∀ (s : State) (r : PassRecord) (pilot : List Int) (finished : List (List (Option Int)))
    (reading : List (Option Int)), s.engine = .compute r pilot finished reading → r.length ≤ pilot.length →
    r.lastChannel + 1 - r.firstChannel ≤ finished.length →
    ∃ traces, exec .computeEnd s = .next { s with
        engine := .stack r traces, store := { s.store with pin := none } } ∧
      traces.length = r.lastChannel + 1 - r.firstChannel ∧
      ∀ (c : Nat) (t : Trace), traces[c]? = some t →
        let samples := (finished.getD c []).map (·.getD 0)
        let scaled := fun j => scaleSum r.shift
          (∑ n ∈ Finset.range pilot.length, pilot.getD n 0 * samples.getD (j + n) 0)
        t.channel = r.firstChannel + c ∧ t.values.length = r.lags ∧
        (∀ j < r.lags, t.values.getD j 0 = max (-2147483648) (min 2147483647 (scaled j))) ∧
        t.measure = (∑ j ∈ Finset.range r.lags, (t.values.getD j 0).natAbs) / r.lags ∧
        t.missing = (finished.getD c []).count none ∧
        t.saturations =
          ((Finset.range r.lags).filter fun j => scaled j < -2147483648 ∨ 2147483647 < scaled j).card

/-- The scaling rounds to the nearest integer, a halfway case toward plus infinity, and a shift of 0 leaves the sum as it
is (R91). The normalization rounds the quotient to the nearest integer, a halfway case away from zero, and a fold of 1
leaves the accumulator as it is (R131). -/
def Obligations.RoundingRules : Prop :=
  ((∀ a : Int, scaleSum 0 a = a) ∧
    ∀ (k : Nat) (a : Int),
      -(2 ^ (k + 1)) < 2 * (scaleSum (k + 1) a * 2 ^ (k + 1) - a) ∧
        2 * (scaleSum (k + 1) a * 2 ^ (k + 1) - a) ≤ 2 ^ (k + 1)) ∧
  (∀ acc : Int, normalize 1 acc = acc) ∧
  ∀ (fold : Nat) (acc : Int), 0 < fold →
    2 * ((normalize fold acc).natAbs * fold : Int) ≤ 2 * acc.natAbs + fold ∧
      2 * (acc.natAbs : Int) < 2 * ((normalize fold acc).natAbs * fold : Int) + fold ∧
      (0 ≤ acc → 0 ≤ normalize fold acc) ∧ (acc ≤ 0 → normalize fold acc ≤ 0)

/-! ## The edit -/

/-- A trace that the edit drops: SURPLUS for a channel at its target fold or POISONED, else
CLIPPED for a saturated value, else GAPPED for more missing samples than the limit, else NOISE above the ceiling or
above the ratio in use times the reference. Its count in the channel and in the job rises, the miss totals rise, a
NOISE trace raises the consecutive count and may set NOISY, which raises CHANNEL, and no accumulator changes. The
Engine goes on with the traces left; after the last of the block the pass is completed, the job goes on READY or ends,
and the arbiter acts (R73, R76, R77, R80, R98, R112, R113, R114, R115, R116; logs 3, 7, 8, 33). -/
def Obligations.DroppedTraceIsCounted : Prop :=
  ∀ (us : List Upset) (s : State) (p : PassRecord) (t : Trace) (rest : List Trace) (r : BinRecord) (j : Job),
    PortServed s → s.engine = .stack p (t :: rest) → s.stack.bins[p.bin].record = some r →
    s.sched.jobs[p.job] = some j →
    let c := r.channel (t.channel - r.firstChannel)
    let ratio := if c.noisy = true then r.ratio8 - r.hyst8 else r.ratio8
    let c' := { c with missTotal := min (c.missTotal + t.missing) 4294967295 }
    let j' := { j with totalMissing := j.totalMissing + t.missing }
    let ends := fun (d : ChannelRecord) (k : Job) (e : EventUnit) =>
      exec (.traceApply us) s = .next (traceFollowed p rest k { s.applyUpsets us with
        stack := { s.stack with
          bins := s.stack.bins.set p.bin { s.stack.bins[p.bin] with
            record := some { r with channels := r.channels.set (t.channel - r.firstChannel) d } } }
        sched := { s.sched with jobs := s.sched.jobs.set p.job (some k) }
        events := e })
    (c.fold = r.targetFold ∨ c.poisoned = true →
      ends { c' with surplus := min (c.surplus + 1) 65535 } { j' with surplus := j.surplus + 1 } s.events) ∧
    (¬(c.fold = r.targetFold ∨ c.poisoned = true) → 0 < t.saturations →
      ends { c' with clipped := min (c.clipped + 1) 65535 } { j' with clipped := j.clipped + 1 } s.events) ∧
    (¬(c.fold = r.targetFold ∨ c.poisoned = true) → t.saturations = 0 → r.missLimit < t.missing →
      ends { c' with gapped := min (c.gapped + 1) 65535 } { j' with gapped := j.gapped + 1 } s.events) ∧
    (¬(c.fold = r.targetFold ∨ c.poisoned = true) → t.saturations = 0 → t.missing ≤ r.missLimit →
      (r.ceiling ≠ 0 ∧ r.ceiling < t.measure) ∨
        (c.fold ≠ 0 ∧ ratio * (c.referenceSum / c.fold) < 8 * t.measure) →
      let q := if c.consecutive < r.tripCount then c.consecutive + 1 else r.tripCount
      ∃ e, ends
          { c' with
            noise := min (c.noise + 1) 65535, consecutive := q, noisy := c.noisy || decide (r.tripCount ≤ q) }
          { j' with noise := j.noise + 1 } e ∧
        EventsGrow s.regs.intEn s.events e ∧ (c.noisy = true ∨ q < r.tripCount → e = s.events) ∧
        (c.noisy = false → r.tripCount ≤ q → e.pending = s.events.pending ||| Cause.channel.bit))

/-- A trace for which none of the drop conditions holds is admitted. If every accumulator of its channel can be read, each
takes the trace's value at its lag, single-bit errors are counted as corrected, the fold and the reference sum rise
and the channel is no longer NOISY; the channel that reaches its target is counted, and an OPEN bin whose channels are
all at target becomes DRAINING while jobs name it. If one cannot be read, the channel is POISONED, the trace is
SURPLUS, the poison count rises and no accumulator changes. The Engine goes on with the traces left; after the last of
the block the pass is completed, the job goes on READY or ends, and the arbiter acts (R76, R77, R80, R98, R105, R112,
R115, R117, R118, R120, R121, R166; logs 3, 5, 7, 8, 33). -/
def Obligations.AdmittedTraceIsStacked : Prop :=
  ∀ (us : List Upset) (s : State) (p : PassRecord) (t : Trace) (rest : List Trace) (r : BinRecord) (j : Job),
    PortServed s → MemoryCanonical s → s.engine = .stack p (t :: rest) → s.stack.bins[p.bin].record = some r →
    s.sched.jobs[p.job] = some j → 0 < r.pendingJobs → t.values.length = r.lags →
    let n := t.channel - r.firstChannel
    let c := r.channel n
    let ratio := if c.noisy = true then r.ratio8 - r.hyst8 else r.ratio8
    ¬(c.fold = r.targetFold ∨ c.poisoned = true) → t.saturations = 0 → t.missing ≤ r.missLimit →
    (r.ceiling = 0 ∨ t.measure ≤ r.ceiling) →
    (c.fold = 0 ∨ 8 * t.measure ≤ ratio * (c.referenceSum / c.fold)) →
    let c' := { c with missTotal := min (c.missTotal + t.missing) 4294967295 }
    let j' := { j with totalMissing := j.totalMissing + t.missing }
    let ecc := fun i => cellRead .clean (s.applyUpsets us).dram.accErrors (accAddress p.bin.val n i)
    let target := if c.fold + 1 = r.targetFold then r.channelsAtTarget + 1 else r.channelsAtTarget
    let target' := if c.fold < r.targetFold then r.channelsAtTarget + 1 else r.channelsAtTarget
    let corrected := min (s.counts.eccCorrected + ((List.range r.lags).filter fun i => ecc i = .single).length)
      4294967295
    ∃ (u : State) (k : Job), exec (.traceApply us) s = .next (traceFollowed p rest k u) ∧
      u = { s.applyUpsets us with stack := u.stack, sched := u.sched, dram := u.dram, counts := u.counts } ∧
      u.sched = { s.sched with jobs := s.sched.jobs.set p.job (some k) } ∧
      u.stack = { s.stack with
        bins := s.stack.bins.set p.bin { s.stack.bins[p.bin] with record := u.stack.bins[p.bin].record } } ∧
      ((∀ i < r.lags, ecc i ≠ .uncorrectable) →
        u.stack.bins[p.bin].record = some { r with
          phase := if r.phase = .opened ∧ target = r.channelCount then .draining else r.phase
          channelsAtTarget := target
          channels := r.channels.set n { c' with
            fold := c.fold + 1, referenceSum := c.referenceSum + t.measure, consecutive := 0, noisy := false } } ∧
        k = { j' with accepted := j.accepted + 1 } ∧
        u.counts = { s.counts with eccCorrected := corrected } ∧
        (∀ i < r.lags, cellRead 0 u.dram.acc (accAddress p.bin.val n i) =
            cellRead 0 s.dram.acc (accAddress p.bin.val n i) + BitVec.ofInt 64 (t.values.getD i 0) ∧
          cellRead .clean u.dram.accErrors (accAddress p.bin.val n i) = .clean) ∧
        (∀ a, (∀ i < r.lags, a ≠ accAddress p.bin.val n i) →
          cellRead 0 u.dram.acc a = cellRead 0 s.dram.acc a ∧
          cellRead .clean u.dram.accErrors a = cellRead .clean (s.applyUpsets us).dram.accErrors a) ∧
        u.dram.raw = s.dram.raw ∧ u.dram.pilot = s.dram.pilot) ∧
      ((∃ i < r.lags, ecc i = .uncorrectable) →
        u.stack.bins[p.bin].record = some { r with
          phase := if r.phase = .opened ∧ target' = r.channelCount then .draining else r.phase
          channelsAtTarget := target'
          channels := r.channels.set n { c' with surplus := min (c.surplus + 1) 65535, poisoned := true } } ∧
        k = { j' with surplus := j.surplus + 1 } ∧
        u.counts = { s.counts with eccCorrected := corrected, poison := min (s.counts.poison + 1) 4294967295 } ∧
        u.dram = (s.applyUpsets us).dram)

/-! ## The Scheduler -/

/-- The arbiter's choice: the first fleet of the priority list that is not held and has a READY job in its queue, and of
its READY jobs the one with the smallest t0, of equal ones the one that stands earlier; nothing is chosen only when no
fleet that is not held has one. It acts while no pass is in flight: a chosen job with a DAMAGED pilot ends FAULTED with
PILOT_DAMAGED, one whose need_first lies below O ends OVERRUN with SPAN_LOST, and in both cases the arbiter acts again;
else the pin is set at need_first, the job is ACTIVE and the Engine holds the pass record of the job's next block
(R45, R72, R73, R74, R75, R87). -/
def Obligations.ArbiterChoosesBySmallestStart : Prop :=
  (∀ sc : Scheduler,
    (∀ i : Fin 32, chooseJob sc = some i →
      ∃ (above : List (Fin 8)) (f : Fin 8) (below : List (Fin 8)) (before after : List (Fin 32)) (j : Job),
        sc.priority = above ++ f :: below ∧ sc.hold.getLsbD f.val = false ∧
        sc.queues[f] = before ++ i :: after ∧ sc.readyJob i = some j ∧
        (∀ g ∈ above, sc.hold.getLsbD g.val = true ∨ ∀ k ∈ sc.queues[g], sc.readyJob k = none) ∧
        (∀ k ∈ before, ∀ x, sc.readyJob k = some x → j.t0 < x.t0) ∧
        ∀ k ∈ after, ∀ x, sc.readyJob k = some x → j.t0 ≤ x.t0) ∧
    (chooseJob sc = none →
      ∀ f ∈ sc.priority, sc.hold.getLsbD f.val = true ∨ ∀ k ∈ sc.queues[f], sc.readyJob k = none)) ∧
  (∀ s : State, s.engine ≠ .noPass ∨ chooseJob s.sched = none → arbitrate s = s) ∧
  ∀ (s : State) (i : Fin 32) (j : Job) (e : PilotEntry) (r : BinRecord), s.engine = .noPass →
    chooseJob s.sched = some i → s.sched.jobs[i] = some j → s.library.entries[j.pilot] = some e →
    s.stack.bins[j.bin].record = some r →
    let lost := ∃ w : Int, s.store.newest = some w ∧ (j.needFirst : Int) < w - 65535
    (e.state = .damaged → arbitrate s = arbitrate (endJob i .faulted .pilotDamaged s)) ∧
    (e.state ≠ .damaged → lost → arbitrate s = arbitrate (endJob i .overrun .spanLost s)) ∧
    (e.state ≠ .damaged → ¬lost → arbitrate s = { s with
      sched := { s.sched with jobs := s.sched.jobs.set i (some { j with state := .active }) }
      store := { s.store with pin := some j.needFirst }
      engine := .compute
        { job := i, pilot := j.pilot, pages := e.pages, length := e.length, shift := e.shift, bin := j.bin
          block := j.nextBlock, firstChannel := r.firstChannel + 32 * j.nextBlock
          lastChannel := min (r.firstChannel + 32 * j.nextBlock + 31) (r.firstChannel + r.channelCount - 1)
          lagFirst := r.lagFirst, lagLast := r.lagLast, lags := r.lagLast - r.lagFirst + 1, t0 := j.t0
          needFirst := j.needFirst, needLast := j.needLast } [] [] [] })

/-- The end of a pass with its job, whatever ends it: the Engine is free and in ROTATE mode the fleet goes to the bottom
of the list. A cancel-pending job ends CANCELLED. Else a completed block is counted and the job goes on READY with its
next block or ends DONE after its last; a broken pin ends it OVERRUN, and a damaged pilot FAULTED. A job that ends leaves
the table and its queue, its pilot's use count and its bin's pending count fall by 1, its SWEEP is answered with the seven
counters, and a DRAINING bin without another job enters EXPORTING at the back of the export queue; at an empty queue its
export begins, waits for a valid window, or leaves it HELD if its extent does not fit
(R63, R76, R77, R79, R83, R95, R96, R98, R104, R127, R128, R135; log 33). -/
def Obligations.PassEndSettlesJob : Prop :=
  (∀ (i : Fin 32) (j : Job) (s : State), s.engine.activeJob = some i → s.sched.jobs[i] = some j →
    let list := if s.sched.mode = .rotate then s.sched.priority.filter (· != j.fleet) ++ [j.fleet] else s.sched.priority
    let u := { s with engine := .noPass, sched := { s.sched with priority := list } }
    let j' := { j with blocksDone := j.blocksDone + 1, nextBlock := j.nextBlock + 1 }
    let counted := { u with sched := { u.sched with jobs := s.sched.jobs.set i (some j') } }
    endPass .completed s =
      (if j.cancelPending = true then endJob i .cancelled .none counted
      else if j.nextBlock + 1 < j.blocksTotal then
        { u with sched := { u.sched with jobs := s.sched.jobs.set i (some { j' with state := .ready }) } }
      else endJob i .done .none counted) ∧
    endPass .pinBroken s =
      (if j.cancelPending = true then endJob i .cancelled .none u else endJob i .overrun .pinBroken u) ∧
    endPass .pilotDamaged s =
      (if j.cancelPending = true then endJob i .cancelled .none u else endJob i .faulted .pilotDamaged u)) ∧
  ∀ (i : Fin 32) (j : Job) (outcome : OrderOutcome) (reason : Reason) (s : State), s.sched.jobs[i] = some j →
    let t := endJob i outcome reason s
    t.sched =
      { s.sched with
        jobs := s.sched.jobs.set i none
        queues := s.sched.queues.set j.fleet (s.sched.queues[j.fleet].filter (· != i)) } ∧
    t.library =
      { s.library with
        entries := s.library.entries.set j.pilot
          (s.library.entries[j.pilot].map fun e => { e with useCount := e.useCount - 1 }) } ∧
    t.board =
      { s.board with
        boxes := s.board.boxes.set j.box
          { s.board.boxes[j.box] with
            dirty := true
            answer := some
              { outcome := outcome, reason := reason
                words := [resultWord j.blocksDone, resultWord j.accepted, resultWord j.noise, resultWord j.gapped,
                  resultWord j.clipped, resultWord j.surplus, resultWord j.totalMissing] } } } ∧
    t.ports = s.ports ∧ t.store = s.store ∧ t.engine = s.engine ∧ t.dram = s.dram ∧ t.regs = s.regs ∧
    t.device = s.device ∧ t.session = s.session ∧ EventsGrow s.regs.intEn s.events t.events ∧
    (∀ r, s.stack.bins[j.bin].record = some r → ¬(r.phase = .draining ∧ r.pendingJobs ≤ 1) →
      t.stack =
        { s.stack with
          bins := s.stack.bins.set j.bin
            { s.stack.bins[j.bin] with record := some { r with pendingJobs := r.pendingJobs - 1 } } } ∧
      t.bus = s.bus ∧ t.events = s.events) ∧
    (∀ r, s.stack.bins[j.bin].record = some r → r.phase = .draining → r.pendingJobs ≤ 1 → s.stack.exportQueue ≠ [] →
      t.stack =
        { s.stack with
          exportQueue := s.stack.exportQueue ++ [j.bin]
          bins := s.stack.bins.set j.bin
            { s.stack.bins[j.bin] with record := some { r with phase := .exporting, pendingJobs := 0 } } } ∧
      t.bus = s.bus ∧ t.events = s.events) ∧
    ∀ r, s.stack.bins[j.bin].record = some r → r.phase = .draining → r.pendingJobs ≤ 1 → s.stack.exportQueue = [] →
      ExportQueueBegins
        { s with
          sched := t.sched, library := t.library, board := t.board
          stack := { s.stack with
            exportQueue := [j.bin]
            bins := s.stack.bins.set j.bin
              { s.stack.bins[j.bin] with record := some { r with phase := .exporting, pendingJobs := 0 } } } } t

/-! ## Bus traffic -/

/-- When the burst on the issue port has been handed over, the port serves the first WAITING slot in the order
scanner, export writer, pilot loader: it becomes ISSUED at WINDOW_BASE plus its offset and the port is busy again;
with none WAITING the port is free. A scanner's first answer write carries the answer as it then stands (R151, R158,
R159; logs 7, 9). -/
def Obligations.IssuePortServesByPriority : Prop :=
  ∀ s : State, s.bus.portBusy = true → ∃ t, exec .burstHandedOver s = .next t ∧
    t = { s with bus := t.bus, board := { s.board with phase := t.board.phase } } ∧
    let at_ := fun b : Burst => BitVec.ofNat 64 (s.regs.base + b.offset)
    (∀ b, s.bus.scanner = .waiting b →
      (∀ round box sent, s.board.phase = .answerFirst round box sent →
        t.bus = { s.bus with
          scanner := .issued { b with data := outcomeBytes s.board.boxes[box].answer } (at_ b) } ∧
        t.board.phase = .answerFirst round box s.board.boxes[box].answer) ∧
      ((∀ round box sent, s.board.phase ≠ .answerFirst round box sent) →
        t.bus = { s.bus with scanner := .issued b (at_ b) } ∧ t.board = s.board)) ∧
    (∀ b, s.bus.scanner.isWaiting = false → s.bus.exporter = .waiting b →
      t.bus = { s.bus with exporter := .issued b (at_ b) } ∧ t.board = s.board) ∧
    (∀ b, s.bus.scanner.isWaiting = false → s.bus.exporter.isWaiting = false → s.bus.loader = .waiting b →
      t.bus = { s.bus with loader := .issued b (at_ b) } ∧ t.board = s.board) ∧
    (s.bus.scanner.isWaiting = false → s.bus.exporter.isWaiting = false → s.bus.loader.isWaiting = false →
      t.bus = { s.bus with portBusy := false } ∧ t.board = s.board)

/-- A burst cut from an extent moves 1 to 4,096 bytes, does not cross a 4,096-byte boundary, and ends at the next boundary
or at the end of the extent. The status page is 4,096 bytes and shows each field at its byte offset, and 0 in every
reserved byte; its free page count is of the pages in no entry's list and not in the load slot's (R32, R50, R52, R84,
R123, R138, R155, R158, R178). -/
def Obligations.BurstsEndAtBoundaries : Prop :=
  (∀ offset stop : Nat, offset < stop →
    1 ≤ burstLength offset stop ∧ burstLength offset stop ≤ 4096 ∧ offset + burstLength offset stop ≤ stop ∧
    (offset + burstLength offset stop - 1) / 4096 = offset / 4096 ∧
    ((offset + burstLength offset stop) % 4096 = 0 ∨ offset + burstLength offset stop = stop)) ∧
  (∀ s : State, s.sched.priority.length = 8 → (statusPage s).length = 4096 ∧ PageShows (statusPage s) s) ∧
  ∀ l : Library, l.freePages.Pairwise (· < ·) ∧ ∀ page : Fin 256, page ∈ l.freePages ↔
    (∀ (i : Fin 16) (e : PilotEntry), l.entries[i] = some e → page ∉ e.pages) ∧
      ∀ slot, l.load = some slot → page ∉ slot.pages

/-- A completed burst of the pilot copy: its samples go into the reserved pages and its bytes into the CRC. Before the
end of the image the next burst is posted. At its end the load slot empties and the load is answered: CRC_MISMATCH,
then PILOT_IN_USE, then WRONG_INTERVAL, and else the entry is installed READY under the next serial number. Every word
outside those the burst carries is as it was, and so is every entry but the installed one and a LOADING position,
which is emptied (R53, R57, R58, R59, R60; logs 5, 7, 34). -/
def Obligations.PilotBurstIsTakenIn : Prop :=
  ∀ (data : List Byte) (s : State) (burst : Burst) (host : BitVec 64) (slot : LoadSlot), PortServed s →
    s.bus.loader = .issued burst host → s.library.load = some slot → data.length = burst.length →
    slot.received % 2 = 0 → slot.received + data.length ≤ 2 * slot.length → slot.length ≤ 1024 * slot.pages.length →
    slot.pages.Nodup → MemoryCanonical s →
    ∃ t, exec (.pilotBurstDone data) s = .next t ∧
      ImageStored slot data s t ∧
      t.counts = s.counts ∧ t.events = s.events ∧
      t.ports = s.ports ∧ t.store = s.store ∧ t.sched = s.sched ∧ t.engine = s.engine ∧ t.stack = s.stack ∧
      t.bus.scanner = s.bus.scanner ∧ t.bus.exporter = s.bus.exporter ∧
      (slot.received + data.length < 2 * slot.length →
        t.library = { s.library with
          load := some { slot with
            received := slot.received + data.length, crc := crc32Run slot.crc data } } ∧
        t.board = s.board ∧
        let offset := slot.imageOffset + slot.received + data.length
        let next := { direction := .read, offset := offset, data := []
                      length := burstLength offset (slot.imageOffset + 2 * slot.length) }
        t.bus.loader = if s.bus.portBusy = true then .waiting next
          else .issued next (BitVec.ofNat 64 (s.regs.base + offset))) ∧
      (slot.received + data.length = 2 * slot.length → t.bus.loader = .empty ∧ t.library.load = none ∧
        let crc := crc32Final (crc32Run slot.crc data)
        let inUse := ∃ i e, s.library.lookup slot.id = some i ∧ s.library.entries[i] = some e ∧ 0 < e.useCount
        let wrong := ∃ c, s.session = some c ∧ c.interval ≠ slot.interval
        let answered := fun a => t.board = { s.board with
          boxes := s.board.boxes.set slot.box { s.board.boxes[slot.box] with answer := some a, dirty := true } }
        let unchanged := ∀ i : Fin 16, t.library.entries[i] =
          if slot.position = some i then none else s.library.entries[i]
        (crc ≠ slot.expectedCrc →
          answered { outcome := .faulted, reason := .crcMismatch, words := [crc] } ∧ unchanged ∧
            t.library.serial = s.library.serial) ∧
        (crc = slot.expectedCrc → inUse →
          answered { outcome := .refused, reason := .pilotInUse, words := [] } ∧ unchanged ∧
            t.library.serial = s.library.serial) ∧
        (crc = slot.expectedCrc → ¬inUse → wrong →
          answered { outcome := .refused, reason := .wrongInterval, words := [] } ∧ unchanged ∧
            t.library.serial = s.library.serial) ∧
        (∀ i, crc = slot.expectedCrc → ¬inUse → ¬wrong →
          (s.library.lookup slot.id = some i ∨ s.library.lookup slot.id = none ∧ (slot.position = some i ∨
            slot.position = none ∧ s.library.lowestEmpty = some i)) →
          t.library.serial = s.library.serial + 1 ∧
          t.library.entries[i] = some {
            id := slot.id, state := .ready, length := slot.length, shift := slot.shift, interval := slot.interval
            pages := slot.pages, useCount := 0, serial := s.library.serial + 1 } ∧
          (∀ k : Fin 16, k ≠ i → t.library.entries[k] =
            if slot.position = some k then none else s.library.entries[k]) ∧
          answered { outcome := .done, reason := .none
                     words := [s.library.serial + 1, resultWord i.val, resultWord slot.pages.length] }))

/-- A faulted burst of the pilot copy, or one of which the whole has not arrived in 10 ms, is counted and raises
FAULT; the load ends at once FAULTED with BUS_FAULT and the window offset of the burst, its slot empties and a LOADING
position is emptied. The whole samples that had arrived stand in their pages, and every other word is as it was. A
burst whose data is all there has no timeout, and no read of the export writer has one, for it reads nothing (R57,
R59, R160, R161; logs 1, 7, 16, 25, 34). -/
def Obligations.PilotFaultEndsLoad : Prop :=
  (∀ (received : List Byte) (s : State) (burst : Burst) (host : BitVec 64) (slot : LoadSlot), PortServed s →
    s.bus.loader = .issued burst host → s.library.load = some slot →
    ∀ c, (c = .pilotBurstFault received ∨
      c = .readCompletionTimeout .loader received ∧ received.length < burst.length) →
    ∃ t, exec c s = .next t ∧
      t = { s with library := t.library, events := t.events, dram := t.dram
                   bus := { s.bus with loader := .empty, loaderFaults := min (s.bus.loaderFaults + 1) 4294967295 }
                   board := { s.board with
                     boxes := s.board.boxes.set slot.box { s.board.boxes[slot.box] with
                       dirty := true
                       answer := some { outcome := .faulted, reason := .busFault
                                        words := [resultWord burst.offset] } } } } ∧
      isPending .fault t ∧ EventsGrow s.regs.intEn s.events t.events ∧
      t.library.load = none ∧ t.library.serial = s.library.serial ∧
      (∀ i : Fin 16, t.library.entries[i] = if slot.position = some i then none else s.library.entries[i]) ∧
      t.dram = { s.dram with pilot := t.dram.pilot, pilotErrors := t.dram.pilotErrors } ∧
      let data := received.take burst.length
      (slot.received % 2 = 0 → slot.received + data.length ≤ 2 * slot.length →
        slot.length ≤ 1024 * slot.pages.length → slot.pages.Nodup → MemoryCanonical s → ImageStored slot data s t)) ∧
  (∀ (received : List Byte) (s : State) (burst : Burst) (host : BitVec 64),
    s.bus.loader = .issued burst host → burst.length ≤ received.length →
    exec (.readCompletionTimeout .loader received) s = .next s) ∧
  ∀ (received : List Byte) (s : State), exec (.readCompletionTimeout .exporter received) s = .next s

/-! ## The board scan -/

/-- The first reading of a box's host post: a box with its baseline mark waits if its order is TAKEN or its answer is
dirty, and is else read again; a box without the mark that holds a new order has its body read, bytes 1 to 127; any
other box is passed over (R143, R147, R148, R150, R151, R152, R154; logs 7, 9, 21, 34). -/
def Obligations.HostPostIsJudged : Prop :=
  ∀ (post : Byte) (s : State) (b : Fin 64), s.board.phase = .hostPost b → s.scannerIssued = true →
    ∃ t, exec (.hostPostReadDone post) s = .next t ∧
      let e := s.board.boxes[b]
      let final := ∀ a, e.answer = some a → a.outcome ≠ .taken
      let awaits := fun (phase : ScanPhase) (offset length : Nat) =>
        OnlyScanner s t ∧ t.board = { s.board with phase := phase } ∧
        let burst := { direction := .read, offset := offset, length := length, data := [] }
        t.bus.scanner = if s.bus.portBusy = true then .waiting burst
          else .issued burst (BitVec.ofNat 64 (s.regs.base + offset))
      (e.baseline = true → final → e.dirty = false → awaits (.baselineRecheck b post) (4096 + 256 * b.val) 1) ∧
      (e.baseline = true → ¬final ∨ e.dirty = true → BoxSkipped s t) ∧
      (e.baseline = false → post ≠ 0 → post ≠ e.answeredPost → final → e.dirty = false →
        awaits (.body b post) (4096 + 256 * b.val + 1) 127) ∧
      (e.baseline = false → post = 0 ∨ post = e.answeredPost ∨ ¬final ∨ e.dirty = true → BoxSkipped s t)

/-- A completed body read is followed by the second reading of the post, and a completed first write of an answer by
the second, which carries the answered post to bytes 128 to 131 of the box (R148, R151; logs 7, 21, 34). -/
def Obligations.ScannerGoesOnInOrder : Prop :=
  (∀ (body : List Byte) (s : State) (b : Fin 64) (post : Byte), s.board.phase = .body b post →
    s.scannerIssued = true → body.length = 127 →
    ∃ t, exec (.bodyReadDone body) s = .next t ∧ OnlyScanner s t ∧
      t.board = { s.board with phase := .secondPost b post body } ∧
      let burst := { direction := .read, offset := 4096 + 256 * b.val, length := 1, data := [] }
      t.bus.scanner = if s.bus.portBusy = true then .waiting burst
        else .issued burst (BitVec.ofNat 64 (s.regs.base + (4096 + 256 * b.val)))) ∧
  ∀ (s : State) (round : AnswerRound) (b : Fin 64) (sent : Option Answer),
    s.board.phase = .answerFirst round b sent → s.scannerIssued = true →
    ∃ t, exec .answerFirstWriteDone s = .next t ∧ OnlyScanner s t ∧
      t.board = { s.board with phase := .answerSecond round b sent } ∧
      let burst := { direction := .write, offset := 4096 + 256 * b.val + 128, length := 4
                     data := [s.board.boxes[b].answeredPost, 0, 0, 0] }
      t.bus.scanner = if s.bus.portBusy = true then .waiting burst
        else .issued burst (BitVec.ofNat 64 (s.regs.base + (4096 + 256 * b.val + 128)))

/-- A read of the read stage that is faulted, or of which the whole has not arrived in 10 ms, is counted, raises FAULT
and skips the box, and a second reading that differs skips it. A read whose data is all there has no timeout (R147,
R148, R150, R151, R152, R154, R160, R161, R162; logs 1, 7, 9, 25, 34). -/
def Obligations.TornReadSkipsBox : Prop :=
  (∀ (received : List Byte) (s : State), s.board.phase.reads = true → s.scannerIssued = true →
    ∀ c, (c = .tornRead .faulted ∨ c = .readCompletionTimeout .scanner received ∧
      ∀ burst host, s.bus.scanner = .issued burst host → received.length < burst.length) →
    ∃ t, exec c s = .next t ∧ isPending .fault t ∧ EventsGrow s.regs.intEn s.events t.events ∧
      BoxSkipped
        { s with
          events := t.events
          bus := { s.bus with scannerFaults := min (s.bus.scannerFaults + 1) 4294967295 } } t) ∧
  (∀ (received : List Byte) (s : State) (burst : Burst) (host : BitVec 64),
    s.bus.scanner = .issued burst host → burst.length ≤ received.length →
    exec (.readCompletionTimeout .scanner received) s = .next s) ∧
  ∀ s : State, s.board.phase.rereads = true → s.scannerIssued = true →
    ∃ t, exec (.tornRead .differs) s = .next t ∧ BoxSkipped s t

/-- The second reading of a baseline treatment: a different post leaves the box as it is, mark and all; an equal one
clears the mark, and leaves an entry with a final answer to that post as it stands, else makes a post other than 0
STALE and dirty, else empties the entry. Nothing is taken (R147, R150, R151, R152, R154; logs 7, 9, 34). -/
def Obligations.BaselineIsAdopted : Prop :=
  ∀ (post first : Byte) (s : State) (b : Fin 64), s.board.phase = .baselineRecheck b first → s.scannerIssued = true →
    s.board.boxes[b].dirty = false →
    ∃ t, exec (.baselinePostRecheckDone post) s = .next t ∧
      let e := s.board.boxes[b]
      let kept := ∃ a, e.answer = some a ∧ a.outcome ≠ .taken ∧ post = e.answeredPost
      (post ≠ first → BoxSkipped s t) ∧
      (post = first → kept →
        BoxSkipped { s with board := { s.board with boxes := s.board.boxes.set b { e with baseline := false } } } t) ∧
      (post = first → ¬kept → post ≠ 0 →
        BoxSkipped { s with board := { s.board with
          boxes := s.board.boxes.set b
            { answeredPost := post, current := none, dirty := true, baseline := false
              answer := some { outcome := .stale, reason := .none, words := [] } } } } t) ∧
      (post = first → ¬kept → post = 0 →
        BoxSkipped { s with board := { s.board with
          boxes := s.board.boxes.set b
            { answeredPost := 0, current := none, answer := none, dirty := false, baseline := false } } } t)

/-- A completed second write of an answer clears the dirty mark unless the answer has changed since the first write
was issued, raises BOX for a final answer, and the scan goes on: with bytes 132 to 255 of the lowest box left to the
first round, else of the lowest left to the second, else with the status page, whose write begins with the scan count
one higher. The bytes are the outcome, the reason, two zeros and thirty result words (R151, R154, R178; logs 7, 9,
34). -/
def Obligations.AnswerIsWritten : Prop :=
  (∀ (s : State) (round : AnswerRound) (b : Fin 64) (sent : Option Answer),
    s.board.phase = .answerSecond round b sent → s.scannerIssued = true →
    ∃ t, exec .answerSecondWriteDone s = .next t ∧ OnlyScanner { s with events := t.events } t ∧
      t.board.boxes = (if s.board.boxes[b].answer = sent then
        s.board.boxes.set b { s.board.boxes[b] with dirty := false } else s.board.boxes) ∧
      t.board.followUp = s.board.followUp ∧ t.board.rotation = s.board.rotation ∧
      EventsGrow s.regs.intEn s.events t.events ∧
      ((∃ a, sent = some a ∧ a.outcome ≠ .taken) → isPending .box t) ∧
      ((∀ a, sent = some a → a.outcome = .taken) → t.events = s.events) ∧
      (t.board.phase = .statusPage ∨ ∃ round' b' sent', t.board.phase = .answerFirst round' b' sent' ∧
        (s.board.boxes[b'].dirty = true) ∧ (round = .second → round' = .second ∧ b.val < b'.val)) ∧
      (AnswersLawful s → AnswerStageGoesOn round b
        { s with events := t.events, board := { s.board with boxes := t.board.boxes } } t)) ∧
  ∀ a : Answer,
    (outcomeBytes (some a)).length = 124 ∧ leNat ((outcomeBytes (some a)).take 1) = a.outcome.code ∧
      leNat (((outcomeBytes (some a)).drop 1).take 1) = a.reason.code ∧
      leNat (((outcomeBytes (some a)).drop 2).take 2) = 0 ∧
      ∀ i < 30, leNat (((outcomeBytes (some a)).drop (4 + 4 * i)).take 4) = (a.words.getD i 0).toNat

/-- Either write of an answer faulted: it is counted and raises FAULT, every entry stays as it was, the box is set
aside for this answer stage, and the scan goes on with the lowest box left to the first round, else the lowest left to
the second, else the status page, whose write begins with the scan count one higher (R151, R154, R161, R162; logs 7,
9, 34). -/
def Obligations.AnswerFaultKeepsDirty : Prop :=
  ∀ (s : State) (round : AnswerRound) (b : Fin 64) (sent : Option Answer),
    (s.board.phase = .answerFirst round b sent ∨ s.board.phase = .answerSecond round b sent) →
    s.scannerIssued = true → b ∉ s.board.firstRound →
    ∃ t, exec .answerWriteFault s = .next t ∧
      OnlyScanner
        { s with
          events := t.events
          bus := { s.bus with scannerFaults := min (s.bus.scannerFaults + 1) 4294967295 } } t ∧
      isPending .fault t ∧ EventsGrow s.regs.intEn s.events t.events ∧
      t.board.boxes = s.board.boxes ∧ t.board.faulted = b :: s.board.faulted ∧
      t.board.followUp = s.board.followUp ∧ t.board.rotation = s.board.rotation ∧
      (t.board.phase = .statusPage ∨ ∃ round' b' sent', t.board.phase = .answerFirst round' b' sent' ∧ b' ≠ b ∧
        s.board.boxes[b'].dirty = true) ∧
      (AnswersLawful s → AnswerStageGoesOn round b
        { s with
          events := t.events
          board := { s.board with faulted := b :: s.board.faulted }
          bus := { s.bus with scannerFaults := min (s.bus.scannerFaults + 1) 4294967295 } } t)

/-- The end of the status page's write ends the scan; a fault of it is counted and raises FAULT. A recorded follow-up
starts one more scan if one can then run (R145, R146, R154, R161, R162; logs 7, 34). -/
def Obligations.StatusPageEndsScan : Prop :=
  ∀ s : State, PortServed s → s.board.phase = .statusPage → s.scannerIssued = true →
    ∀ c ∈ [Instr.statusPageWriteDone, .statusPageWriteFault], ∃ t, exec c s = .next t ∧
      (c = .statusPageWriteDone → t.events = s.events ∧ t.bus.scannerFaults = s.bus.scannerFaults) ∧
      (c = .statusPageWriteFault → isPending .fault t ∧ EventsGrow s.regs.intEn s.events t.events ∧
        t.bus.scannerFaults = min (s.bus.scannerFaults + 1) 4294967295) ∧
      OnlyScanner { s with events := t.events, bus := { s.bus with scannerFaults := t.bus.scannerFaults } } t ∧
      t.counts = s.counts ∧ t.board.boxes = s.board.boxes ∧ t.board.rotation = s.board.rotation ∧
      t.board.followUp = false ∧
      (s.board.followUp = true ∧ s.device ≠ .init ∧ s.regs.scanEn = true ∧ windowValid s.regs = true →
        t.board.phase = .hostPost s.board.rotation ∧ t.board.examined = 0 ∧ t.board.taken = 0) ∧
      (¬(s.board.followUp = true ∧ s.device ≠ .init ∧ s.regs.scanEn = true ∧ windowValid s.regs = true) →
        t.board.phase = .idle ∧ t.bus.scanner = .empty)


/-! ## Orders

Each statement takes the checks of an order in their order; a check's failure answers the order REFUSED and leaves the
part as it was. The box is then passed: the next box's post is read, or the read stage ends and the answer stage begins
(R147, R150, R151, R154). -/

/-- A kind that is none of the ten is refused BAD_KIND. Whatever the row, a second reading of the post that differs
from the first skips the box (R147, R148, R149, R150, R151, R154; logs 3, 7, 9, 18, 22, 34). -/
def Obligations.BadKindIsRefused : Prop :=
  (∀ (b : Fin 64) (post : Byte) (body : List Byte) (s : State), OrderReached none b post body s →
    ∃ t, exec (.badKind post) s = .next t ∧ OrderRefused b post body .badKind s s t) ∧
  ∀ (b : Fin 64) (first post : Byte) (body : List Byte) (us : List Upset) (s : State),
    s.board.phase = .secondPost b first body → s.scannerIssued = true → post ≠ first →
    (∀ c ∈ [Instr.badKind post, .configure post, .endRecording post, .loadPilot post, .dropPilot post, .openBin post,
      .discardBin post], ∃ t, exec c s = .next t ∧ BoxSkipped s t) ∧
    ∀ c ∈ [Instr.sweep post us, .cancel post us, .fleetOrder post us, .closeBin post us],
      ∃ t, exec c s = .next t ∧ BoxSkipped (s.applyUpsets us) t

/-- CONFIGURE: refused outside IDLE, and for an interval code above 3 or an epoch above 2^39. Else a session begins: W
and the settled index are the epoch − 1, each port with channels goes to SYNCING with that frontier, which raises
LINK, READY pilots of another interval are dropped, and the scan period is in force for the next timer interval (R1,
R5, R6, R7, R18, R30, R48, R147, R150, R151, R154; logs 7, 9, 18, 22, 34). -/
def Obligations.ConfigureBeginsSession : Prop :=
  ∀ (b : Fin 64) (post : Byte) (body : List Byte) (s : State), OrderReached (some .configure) b post body s →
    ∃ t, exec (.configure post) s = .next t ∧
      let interval := bodyField body 4 1
      let epoch := bodyField body 8 5
      let count := fun p : Fin 4 => min 512 (bodyField body (16 + 2 * p.val) 2)
      let period := min 50000 (max 100 (bodyField body 24 4))
      (s.device ≠ .idle → OrderRefused b post body .wrongState s s t) ∧
      (s.device = .idle → 3 < interval ∨ 2 ^ 39 < epoch → OrderRefused b post body .badValue s s t) ∧
      (s.device = .idle → interval ≤ 3 → epoch ≤ 2 ^ 39 → ∃ u,
        OrderAnswered b post body
          { outcome := .done, reason := .none
            words := [resultWord (count 0), resultWord (count 1), resultWord (count 2), resultWord (count 3),
              resultWord period] } s u t ∧
        u = { s with
          device := .recording
          session := some { interval := interval, epoch := epoch, counts := Vector.ofFn count }
          ports := u.ports
          store := { newest := some ((epoch : Int) - 1), settled := some ((epoch : Int) - 1), marks := [], pin := none }
          library := { s.library with entries := u.library.entries }
          board := { s.board with period := period }
          events := u.events } ∧
        (∀ p : Fin 4, u.ports[p] =
          if count p = 0 then s.ports[p]
          else { s.ports[p] with
            state := .syncing, syncRun := 0, syncTag := none, errors := 0, recovery := 0
            frontier := some ((epoch : Int) - 1) }) ∧
        (∀ i : Fin 16, u.library.entries[i] =
          match s.library.entries[i] with
          | some e => if e.state = .ready ∧ e.interval ≠ interval then none else some e
          | none => none) ∧
        EventsGrow s.regs.intEn s.events u.events ∧ ((∃ p, count p ≠ 0) → isPending .link u) ∧
        ((∀ p, count p = 0) → u.events = s.events))

/-- END_RECORDING: refused outside RECORDING, and BUSY while a bin is not FREE or a job is in the table. Else the
session ends: every port goes to DOWN with its cumulative counts and carrier kept, which raises LINK, the store loses
its values, the scan period returns to 1,000 µs, and the answer carries the last W and settled index (R1, R8, R9, R10,
R18, R30, R49, R147, R150, R151, R154; logs 7, 9, 18, 22, 34). -/
def Obligations.EndRecordingEndsSession : Prop :=
  ∀ (b : Fin 64) (post : Byte) (body : List Byte) (s : State), OrderReached (some .endRecording) b post body s →
    ∃ t, exec (.endRecording post) s = .next t ∧
      let busy := (∃ n : Fin 8, s.stack.bins[n].record ≠ none) ∨ ∃ i : Fin 32, s.sched.jobs[i] ≠ none
      let low := fun x : Option Int => resultWord ((x.getD (-1) % 2 ^ 40).toNat % 2 ^ 32)
      let high := fun x : Option Int => resultWord ((x.getD (-1) % 2 ^ 40).toNat / 2 ^ 32)
      (s.device ≠ .recording → OrderRefused b post body .wrongState s s t) ∧
      (s.device = .recording → busy → OrderRefused b post body .busy s s t) ∧
      (s.device = .recording → ¬busy → ∃ u,
        OrderAnswered b post body
          { outcome := .done, reason := .none
            words := [low s.store.newest, high s.store.newest, low s.store.settled, high s.store.settled] } s u t ∧
        u = { s with
          device := .idle, session := none, ports := u.ports, events := u.events
          store := { newest := none, settled := none, marks := [], pin := none }
          board := { s.board with period := 1000 } } ∧
        (∀ p : Fin 4, u.ports[p] = { s.ports[p] with
          state := .down, errors := 0, recovery := 0, syncRun := 0, syncTag := none, frontier := none }) ∧
        EventsGrow s.regs.intEn s.events u.events ∧ ((∃ p : Fin 4, s.ports[p].state ≠ .down) → isPending .link u) ∧
        ((∀ p : Fin 4, s.ports[p].state = .down) → u.events = s.events))

/-- LOAD_PILOT: left untaken while a load is in flight; refused for a field out of range, for another interval than
the session's, for an image outside the buffer area, for an id in use, and for want of pages or of a position. Else it
is TAKEN: the pages are reserved, a new id has its position LOADING, and the first burst of the image is posted. The
serial that a LOADING position shows is a free value (R54, R55, R56, R57, R141, R147, R150, R151, R154; logs 7, 9, 12,
18, 22, 32, 34). -/
def Obligations.LoadPilotStartsCopy : Prop :=
  ∀ (b : Fin 64) (post : Byte) (body : List Byte) (s : State), OrderReached (some .loadPilot) b post body s →
    ∃ t, exec (.loadPilot post) s = .next t ∧
      let id := bodyField body 4 1
      let interval := bodyField body 5 1
      let shift := bodyField body 6 1
      let length := bodyField body 8 4
      let image := bodyField body 12 4
      let found := s.library.lookup id
      let wrong := ∃ c, s.session = some c ∧ c.interval ≠ interval
      let inUse := ∃ i e, found = some i ∧ s.library.entries[i] = some e ∧ 0 < e.useCount
      let noRoom := s.library.freePages.length < (length + 1023) / 1024 ∨
        found = none ∧ ∀ i : Fin 16, s.library.entries[i] ≠ none
      let bad := id = 0 ∨ length < 64 ∨ 32768 < length ∨ 47 < shift ∨ 3 < interval
      (s.library.load ≠ none → BoxSkipped s t) ∧
      (s.library.load = none → bad → OrderRefused b post body .badValue s s t) ∧
      (s.library.load = none → ¬bad → wrong → OrderRefused b post body .wrongInterval s s t) ∧
      (s.library.load = none → ¬bad → ¬wrong → inBuffer s.regs image (2 * length) = false →
        OrderRefused b post body .badExtent s s t) ∧
      (s.library.load = none → ¬bad → ¬wrong → inBuffer s.regs image (2 * length) = true → inUse →
        OrderRefused b post body .pilotInUse s s t) ∧
      (s.library.load = none → ¬bad → ¬wrong → inBuffer s.regs image (2 * length) = true → ¬inUse → noRoom →
        OrderRefused b post body .noRoom s s t) ∧
      (s.library.load = none → ¬bad → ¬wrong → inBuffer s.regs image (2 * length) = true → ¬inUse → ¬noRoom →
        ∃ u slot, OrderAnswered b post body { outcome := .taken, reason := .none, words := [] } s u t ∧
          u = { s with library := u.library, bus := u.bus, freeDraws := u.freeDraws } ∧
          slot =
            { id := id, length := length, shift := shift, interval := interval, expectedCrc := bodyWord body 16
              box := b, post := post, pages := s.library.freePages.take ((length + 1023) / 1024)
              position := slot.position, imageOffset := image, received := 0, crc := 0xFFFFFFFF } ∧
          u.library = { s.library with load := some slot, entries := u.library.entries } ∧
          u.bus = { s.bus with
            scanner := .empty
            loader := .waiting { direction := .read, offset := image, data := []
                                 length := burstLength image (image + 2 * length) } } ∧
          (found ≠ none →
            slot.position = none ∧ u.library.entries = s.library.entries ∧ u.freeDraws = s.freeDraws) ∧
          (found = none → ∃ (i : Fin 16) (serial : Word), slot.position = some i ∧ s.library.entries[i] = none ∧
            (∀ k : Fin 16, k < i → s.library.entries[k] ≠ none) ∧ u.freeDraws = s.freeDraws + 1 ∧
            u.library.entries = s.library.entries.set i (some
              { id := id, state := .loading, length := length, shift := shift, interval := interval, pages := []
                useCount := 0, serial := serial })))

/-- DROP_PILOT: refused for an id that no READY or DAMAGED entry carries and for an entry in use; else the entry goes
and its pages are free (R52, R62, R147, R150, R151, R154; logs 7, 9, 18, 22, 34). -/
def Obligations.DropPilotFreesEntry : Prop :=
  ∀ (b : Fin 64) (post : Byte) (body : List Byte) (s : State), OrderReached (some .dropPilot) b post body s →
    ∃ t, exec (.dropPilot post) s = .next t ∧
      (s.library.lookup (bodyField body 4 1) = none → OrderRefused b post body .noPilot s s t) ∧
      ∀ (i : Fin 16) (e : PilotEntry), s.library.lookup (bodyField body 4 1) = some i → s.library.entries[i] = some e →
        (0 < e.useCount → OrderRefused b post body .pilotInUse s s t) ∧
        (e.useCount = 0 →
          let u := { s with library := { s.library with entries := s.library.entries.set i none } }
          OrderAnswered b post body
            { outcome := .done, reason := .none
              words := [resultWord e.pages.length, resultWord u.library.freePages.length] } s u t)

/-- SWEEP: its checks in their order, left untaken when every job entry holds a job, and else TAKEN: the job is
entered at the lowest free entry and at the back of its fleet's queue, READY at once if its span is settled, the
pilot's use count and the bin's pending count rise, and the arbiter acts (R1, R63, R67, R68, R69, R71, R73, R104,
R147, R150, R151, R154; logs 7, 8, 9, 18, 22, 34). -/
def Obligations.SweepEntersJob : Prop :=
  ∀ (b : Fin 64) (post : Byte) (body : List Byte) (us : List Upset) (s : State),
    OrderReached (some .sweep) b post body s →
    ∃ t, exec (.sweep post us) s = .next t ∧
      let v := s.applyUpsets us
      let fleet := bodyField body 4 1
      let t0 := bodyField body 8 5
      let found := s.library.lookup (bodyField body 5 1)
      let bin := s.stack.binOfKey (bodyWord body 16)
      (s.device ≠ .recording → OrderRefused b post body .wrongState s v t) ∧
      (s.device = .recording → 7 < fleet → OrderRefused b post body .badValue s v t) ∧
      (s.device = .recording → fleet ≤ 7 → found = none → OrderRefused b post body .noPilot s v t) ∧
      ∀ (p : Fin 16) (e : PilotEntry), s.device = .recording → fleet ≤ 7 → found = some p →
        s.library.entries[p] = some e →
        (e.state = .damaged → OrderRefused b post body .pilotDamaged s v t) ∧
        (e.state ≠ .damaged → bin = none → OrderRefused b post body .noBin s v t) ∧
        ∀ (n : Fin 8) (r : BinRecord), e.state ≠ .damaged → bin = some n → s.stack.bins[n].record = some r →
          let old := ∃ w : Int, s.store.newest = some w ∧ (t0 : Int) + r.lagFirst < w - 65535
          (r.phase ≠ .opened → OrderRefused b post body .binClosing s v t) ∧
          (r.phase = .opened → old → OrderRefused b post body .tooOld s v t) ∧
          (r.phase = .opened → ¬old → (∀ i : Fin 32, s.sched.jobs[i] ≠ none) → BoxSkipped v t) ∧
          ∀ (i : Fin 32) (f : Fin 8), r.phase = .opened → ¬old → s.sched.jobs[i] = none →
            (∀ k : Fin 32, k < i → s.sched.jobs[k] ≠ none) → f.val = fleet →
            ∃ j : Job,
              (j.state = .ready ↔ ∃ x : Int, s.store.settled = some x ∧ (j.needLast : Int) ≤ x) ∧ j.state ≠ .active ∧
              j = { box := b, post := post, fleet := f, pilot := p, bin := n, t0 := t0
                    needFirst := t0 + r.lagFirst, needLast := t0 + r.lagLast + e.length - 1
                    blocksTotal := (r.channelCount + 31) / 32, nextBlock := 0, state := j.state
                    cancelPending := false, blocksDone := 0, accepted := 0, noise := 0, gapped := 0, clipped := 0
                    surplus := 0, totalMissing := 0 } ∧
              OrderCounted b s (arbitrate (answeredBox b post body
                { outcome := .taken, reason := .none, words := [resultWord i.val, resultWord n.val] }
                { v with
                  bus := { s.bus with scanner := .empty }
                  sched := { s.sched with
                    jobs := s.sched.jobs.set i (some j)
                    queues := s.sched.queues.set f (s.sched.queues[f] ++ [i]) }
                  library := { s.library with
                    entries := s.library.entries.set p (some { e with useCount := e.useCount + 1 }) }
                  stack := { s.stack with
                    bins := s.stack.bins.set n { s.stack.bins[n] with
                      record := some { r with pendingJobs := r.pendingJobs + 1 } } } })) t

/-- CANCEL: refused for a box above 63. It is TOO_LATE for a post that the box has not answered or whose answer is
final, refused for an order that is no SWEEP, itself included, and else the SWEEP's job is ended at once, or marked
while its pass is in flight (R82, R83, R147, R150, R151, R154; logs 7, 9, 18, 22, 34). -/
def Obligations.CancelJudgesItsTarget : Prop :=
  ∀ (b : Fin 64) (post : Byte) (body : List Byte) (us : List Upset) (s : State),
    OrderReached (some .cancel) b post body s →
    ∃ t, exec (.cancel post us) s = .next t ∧
      let v := s.applyUpsets us
      let answer := fun n : Nat => { outcome := .done, reason := .none, words := [resultWord n] }
      (63 < bodyField body 4 1 → OrderRefused b post body .badValue s v t) ∧
      (bodyField body 4 1 = b.val →
        (post.toNat ≠ bodyField body 5 1 → OrderAnswered b post body (answer 1) s v t) ∧
        (post.toNat = bodyField body 5 1 → OrderRefused b post body .notCancellable s v t)) ∧
      ∀ g : Fin 64, bodyField body 4 1 = g.val → g ≠ b →
        let e := s.board.boxes[g]
        let late := e.answeredPost.toNat ≠ bodyField body 5 1 ∨ ∀ a, e.answer = some a → a.outcome ≠ .taken
        (late → OrderAnswered b post body (answer 1) s v t) ∧
        (¬late → e.current ≠ some 0x05 → OrderRefused b post body .notCancellable s v t) ∧
        ∀ (i : Fin 32) (j : Job), ¬late → e.current = some 0x05 → s.sched.jobs[i] = some j → j.box = g →
          (∀ k : Fin 32, k < i → ∀ x, s.sched.jobs[k] = some x → x.box ≠ g) →
          (j.state = .active → OrderAnswered b post body (answer 3) s
            { v with sched := { s.sched with
              jobs := s.sched.jobs.set i (some { j with cancelPending := true }) } } t) ∧
          (j.state ≠ .active → ∃ u, OrderAnswered b post body (answer 2) s u t ∧
            u = endJob i .cancelled .none { v with bus := { s.bus with scanner := .empty } })

/-- FLEET_ORDER: refused for a mode code above 1, and for a bottom fleet above 7 where one is given. Else the mode and
the hold mask take the given values, the list turns so that the given fleet is at the bottom, and the arbiter acts
(R72, R73, R81, R147, R150, R151, R154; logs 7, 8, 9, 18, 22, 34). -/
def Obligations.FleetOrderSetsArbitration : Prop :=
  ∀ (b : Fin 64) (post : Byte) (body : List Byte) (us : List Upset) (s : State),
    OrderReached (some .fleetOrder) b post body s →
    ∃ t, exec (.fleetOrder post us) s = .next t ∧
      let v := s.applyUpsets us
      let code := bodyField body 4 1
      let given := bodyField body 5 1 % 2 = 1
      let bottom := bodyField body 6 1
      let hold := bodyField body 7 1
      (1 < code ∨ given ∧ 7 < bottom → OrderRefused b post body .badValue s v t) ∧
      (code ≤ 1 → ¬(given ∧ 7 < bottom) → ∃ list : List (Fin 8),
        (¬given → list = s.sched.priority) ∧
        (given → list = (List.range 8).map fun i => Fin.ofNat 8 (bottom + 1 + i)) ∧
        OrderCounted b s (arbitrate (answeredBox b post body
          { outcome := .done, reason := .none
            words := [resultWord (list.foldr (fun f n => f.val + 16 * n) 0), resultWord code,
              resultWord (hold % 256)] }
          { v with
            bus := { s.bus with scanner := .empty }
            sched := { s.sched with
              priority := list, mode := if code = 0 then .rotate else .fixed, hold := BitVec.ofNat 8 hold } })) t)

/-- OPEN_BIN: refused outside RECORDING, for no channel left by the clamps, for an export area outside the buffer
area, for a key set that agrees with a non-FREE bin's at every position where both masks have a 0, and for want of a
FREE bin. Else the lowest FREE bin is OPEN with the clamped fields and zeroed accumulators. Two key sets overlap
exactly when some key lies in both (R1, R103, R106, R107, R108, R109, R110, R138, R141, R147, R150, R151, R154; logs
7, 9, 18, 22, 34). -/
def Obligations.OpenBinOpensLowestFree : Prop :=
  (∀ (b : Fin 64) (post : Byte) (body : List Byte) (s : State), OrderReached (some .openBin) b post body s →
    ∃ t, exec (.openBin post) s = .next t ∧
      let first := bodyField body 12 2
      let count := if 2047 < first then 0 else min (bodyField body 14 2) (2048 - first)
      let lagFirst := min 16383 (bodyField body 16 2)
      let lagLast := max lagFirst (min 16383 (bodyField body 18 2))
      let lags := lagLast - lagFirst + 1
      let fold := min 64 (max 1 (bodyField body 20 1))
      let trip := min 8 (max 1 (bodyField body 21 1))
      let ratio := max 8 (bodyField body 22 1)
      let hyst := min (ratio - 8) (bodyField body 23 1)
      let fits := inBuffer s.regs (bodyField body 36 4) (count * (32 + 4 * lags))
      let overlap := ∃ (n : Fin 8) (q : BinRecord), s.stack.bins[n].record = some q ∧
        ∀ i < 32, (bodyWord body 8).getLsbD i = false → q.mask.getLsbD i = false →
          (bodyWord body 4).getLsbD i = q.key.getLsbD i
      (s.device ≠ .recording → OrderRefused b post body .wrongState s s t) ∧
      (s.device = .recording → count = 0 → OrderRefused b post body .badValue s s t) ∧
      (s.device = .recording → count ≠ 0 → fits = false → OrderRefused b post body .badExtent s s t) ∧
      (s.device = .recording → count ≠ 0 → fits = true → overlap → OrderRefused b post body .keyOverlap s s t) ∧
      (s.device = .recording → count ≠ 0 → fits = true → ¬overlap → (∀ n : Fin 8, s.stack.bins[n].record ≠ none) →
        OrderRefused b post body .noBinFree s s t) ∧
      ∀ n : Fin 8, s.device = .recording → count ≠ 0 → fits = true → ¬overlap → s.stack.bins[n].record = none →
        (∀ k : Fin 8, k < n → s.stack.bins[k].record ≠ none) → ∃ u,
        OrderAnswered b post body
          { outcome := .taken, reason := .none
            words := [resultWord n.val, resultWord first, resultWord count, resultWord lagFirst, resultWord lagLast,
              resultWord fold, resultWord trip, resultWord ratio, resultWord hyst] } s u t ∧
        u = { s with
          dram := { s.dram with acc := u.dram.acc, accErrors := u.dram.accErrors }
          stack := { s.stack with
            bins := s.stack.bins.set n
              { lastExport := .none, heldFaultOffset := 0
                record := some
                  { phase := .opened, key := bodyWord body 4, mask := bodyWord body 8, box := b, post := post
                    firstChannel := first, channelCount := count, lagFirst := lagFirst, lagLast := lagLast
                    targetFold := fold, ratio8 := ratio, hyst8 := hyst, ceiling := bodyField body 24 4
                    tripCount := trip, missLimit := bodyField body 28 2, fillCode := bodyWord body 32
                    exportOffset := bodyField body 36 4, pendingJobs := 0, channelsAtTarget := 0
                    channels := List.replicate count
                      { fold := 0, noise := 0, gapped := 0, clipped := 0, surplus := 0, consecutive := 0
                        noisy := false, poisoned := false, referenceSum := 0, missTotal := 0 } } } } } ∧
        (∀ m position lag : Nat, position < 2048 → lag < 16384 →
          (cellRead 0 u.dram.acc (accAddress m position lag) =
            if m = n.val ∧ position < count ∧ lag < lags then 0
            else cellRead 0 s.dram.acc (accAddress m position lag)) ∧
          cellRead .clean u.dram.accErrors (accAddress m position lag) =
            if m = n.val ∧ position < count ∧ lag < lags then .clean
            else cellRead .clean s.dram.accErrors (accAddress m position lag))) ∧
  ∀ k m k' m' : Word,
    keysOverlap k m k' m' = true ↔ ∃ key, keyInSet k m key = true ∧ keyInSet k' m' key = true

/-- CLOSE_BIN: refused outside RECORDING, for a bin above 7, for a FREE or EXPORTING bin, and for a new offset that
the export does not fit at. An OPEN bin that jobs name becomes DRAINING; a DRAINING bin only takes the new offset; an
OPEN bin without jobs, and a HELD bin, enters EXPORTING at the back of the queue, and at an empty queue its export
begins if the window is valid, or leaves it HELD if it does not fit (R1, R125, R126, R127, R128, R135, R136, R147,
R150, R151, R154; logs 3, 7, 9, 18, 22, 30, 33, 34). -/
def Obligations.CloseBinMovesBin : Prop :=
  ∀ (b : Fin 64) (post : Byte) (body : List Byte) (us : List Upset) (s : State),
    OrderReached (some .closeBin) b post body s →
    ∃ t, exec (.closeBin post us) s = .next t ∧
      let v := s.applyUpsets us
      let offset := bodyField body 8 4
      (s.device ≠ .recording → OrderRefused b post body .wrongState s v t) ∧
      (s.device = .recording → 7 < bodyField body 4 1 → OrderRefused b post body .badValue s v t) ∧
      ∀ n : Fin 8, s.device = .recording → bodyField body 4 1 = n.val →
        (s.stack.bins[n].record = none → OrderRefused b post body .binState s v t) ∧
        ∀ r, s.stack.bins[n].record = some r →
          let length := r.channelCount * (32 + 4 * r.lags)
          let misfit := offset ≠ 0 ∧ inBuffer s.regs offset length = false
          let r' := { r with exportOffset := if offset = 0 then r.exportOffset else offset }
          let answer := { outcome := .done, reason := .none
                          words := [resultWord n.val, resultWord r.phase.code, resultWord r'.exportOffset] }
          let holding := fun q : BinRecord => s.stack.bins.set n { s.stack.bins[n] with record := some q }
          let leaves := r.phase = .held ∨ r.phase = .opened ∧ r.pendingJobs = 0
          let exporting := { s.stack with
            bins := holding { r' with phase := .exporting }, exportQueue := s.stack.exportQueue ++ [n] }
          (r.phase = .exporting → OrderRefused b post body .binState s v t) ∧
          (r.phase ≠ .exporting → misfit → OrderRefused b post body .badExtent s v t) ∧
          (r.phase = .opened → 0 < r.pendingJobs → ¬misfit → OrderAnswered b post body answer s
            { v with stack := { s.stack with bins := holding { r' with phase := .draining } } } t) ∧
          (r.phase = .draining → ¬misfit → OrderAnswered b post body answer s
            { v with stack := { s.stack with bins := holding r' } } t) ∧
          (leaves → ¬misfit → s.stack.exportQueue ≠ [] ∨ windowValid s.regs = false →
            OrderAnswered b post body answer s { v with stack := exporting } t) ∧
          (leaves → ¬misfit → s.stack.exportQueue = [] → windowValid s.regs = true →
            inBuffer s.regs r'.exportOffset length = true → ∃ u, OrderAnswered b post body answer s u t ∧
              u = { v with
                stack := u.stack, counts := u.counts, bus := { s.bus with exporter := u.bus.exporter } } ∧
              u.stack.exportQueue = [n] ∧ (∃ w, u.stack.writer = some w ∧ w.bin = n ∧ w.written = 0) ∧
              (∃ q, u.stack.bins[n].record = some q ∧ q.phase = .exporting ∧ q.exportOffset = r'.exportOffset) ∧
              (∀ m : Fin 8, m ≠ n → u.stack.bins[m] = s.stack.bins[m]) ∧
              u = withExportBurst
                { bin := n, nextChannel := 0, written := 0, formed := [], emptyCount := 0, poisonCount := 0
                  noisyCount := 0 } { r' with phase := .exporting } { v with stack := exporting } ∧
              u.bus.exporter.isWaiting = true) ∧
          (leaves → ¬misfit → s.stack.exportQueue = [] → windowValid s.regs = true →
            inBuffer s.regs r'.exportOffset length = false → ∃ u, OrderAnswered b post body answer s u t ∧
              u = { v with
                events := u.events
                stack := { s.stack with
                  writer := none
                  bins := s.stack.bins.set n
                    { record := some { r' with phase := .held }, lastExport := .writeFault
                      heldFaultOffset := r'.exportOffset } } } ∧
              isPending .bin u ∧ EventsGrow s.regs.intEn s.events u.events)

/-- DISCARD_BIN: refused outside RECORDING, for a bin above 7, for a FREE or EXPORTING bin, and BIN_BUSY for a bin
that jobs name or that is DRAINING. Else the bin is FREE, its OPEN_BIN is answered CANCELLED, and its last export
result stays (R1, R122, R138, R147, R150, R151, R154; logs 7, 9, 18, 22, 30, 34). -/
def Obligations.DiscardBinFreesBin : Prop :=
  ∀ (b : Fin 64) (post : Byte) (body : List Byte) (s : State), OrderReached (some .discardBin) b post body s →
    ∃ t, exec (.discardBin post) s = .next t ∧
      (s.device ≠ .recording → OrderRefused b post body .wrongState s s t) ∧
      (s.device = .recording → 7 < bodyField body 4 1 → OrderRefused b post body .badValue s s t) ∧
      ∀ n : Fin 8, s.device = .recording → bodyField body 4 1 = n.val →
        (s.stack.bins[n].record = none → OrderRefused b post body .binState s s t) ∧
        ∀ r, s.stack.bins[n].record = some r →
          (r.phase = .exporting → OrderRefused b post body .binState s s t) ∧
          (r.phase = .draining ∨ r.phase = .opened ∧ 0 < r.pendingJobs →
            OrderRefused b post body .binBusy s s t) ∧
          (r.phase = .held ∨ r.phase = .opened ∧ r.pendingJobs = 0 →
            OrderAnswered b post body
              { outcome := .done, reason := .none, words := [resultWord n.val, resultWord r.phase.code] } s
              { s with
                stack := { s.stack with bins := s.stack.bins.set n { s.stack.bins[n] with record := none } }
                board := { s.board with
                  boxes := s.board.boxes.set r.box { s.board.boxes[r.box] with
                    dirty := true
                    answer := some
                      { outcome := .cancelled, reason := .none
                        words := [resultWord n.val, resultWord r.channelsAtTarget] } } } } t)

/-! ## Exports -/

/-- A completed export burst: before the end of the extent the next burst is posted where it ended, with the bytes of
the records formed for it, and reaches the next 4,096-byte boundary or the end of the extent; a channel whose
accumulators cannot be corrected is poisoned as its record is formed, and the flags of the records are counted. At the
end of the extent the bin is FREE with last export result DONE, its OPEN_BIN is answered with those counts, BIN is
raised and the next bin of the queue begins, or is HELD if its extent does not fit. A faulted burst is counted and
raises FAULT and BIN, leaves the bin HELD at the burst's offset, and the next bin comes to the head (R128, R129, R130,
R131, R132, R133, R134, R135, R138, R158, R161; logs 3, 7, 33, 34). -/
def Obligations.ExportBurstReports : Prop :=
  (∀ (us : List Upset) (s : State) (burst : Burst) (host : BitVec 64) (w : Writer) (r : BinRecord), PortServed s →
    s.bus.exporter = .issued burst host → s.stack.writer = some w → s.stack.bins[w.bin].record = some r →
    ∃ t, exec (.exportBurstDone us) s = .next t ∧ EventsGrow s.regs.intEn s.events t.events ∧
      t.ports = s.ports ∧ t.store = s.store ∧ t.library = s.library ∧ t.sched = s.sched ∧ t.engine = s.engine ∧
      t.dram = (s.applyUpsets us).dram ∧
      (w.written + burst.length < r.channelCount * (32 + 4 * r.lags) →
        t.board = s.board ∧ t.events = s.events ∧ t.stack.exportQueue = s.stack.exportQueue ∧
        (∃ w', t.stack.writer = some w' ∧ w'.bin = w.bin ∧ w'.written = w.written + burst.length) ∧
        ∃ next, next.direction = .write ∧ next.offset = r.exportOffset + (w.written + burst.length) ∧
          next.length = next.data.length ∧
          (t.bus.exporter = if s.bus.portBusy = true then .waiting next
            else .issued next (BitVec.ofNat 64 (s.regs.base + next.offset))) ∧
          (WriterLawful s →
            next.length = burstLength next.offset (r.exportOffset + r.channelCount * (32 + 4 * r.lags))) ∧
        t = exporterServed (withExportBurst { w with written := w.written + burst.length } r
          { s.applyUpsets us with bus := { s.bus with exporter := .empty } })) ∧
      (r.channelCount * (32 + 4 * r.lags) ≤ w.written + burst.length →
        isPending .bin t ∧
        t.stack.bins[w.bin] = { record := none, lastExport := .done, heldFaultOffset := 0 } ∧
        t.board = { s.board with
          boxes := s.board.boxes.set r.box { s.board.boxes[r.box] with
            dirty := true
            answer := some
              { outcome := .done, reason := .none
                words := [resultWord w.bin.val, resultWord r.channelCount, resultWord w.emptyCount,
                  resultWord w.poisonCount, resultWord w.noisyCount] } } } ∧
        (QueueLawful s.stack → ∃ (e : EventUnit) (u : State), EventsGrow s.regs.intEn s.events e ∧
          e.pending = s.events.pending ||| Cause.bin.bit ∧ t = exporterServed u ∧
          ExportQueueBegins
            { s.applyUpsets us with
              events := e, board := t.board, bus := { s.bus with exporter := .empty }
              stack :=
                { bins := s.stack.bins.set w.bin { record := none, lastExport := .done, heldFaultOffset := 0 }
                  exportQueue := s.stack.exportQueue.drop 1, writer := none } } u) ∧
        (s.stack.exportQueue.drop 1 = [] → t.bus.exporter = .empty ∧ t.stack =
          { bins := s.stack.bins.set w.bin { record := none, lastExport := .done, heldFaultOffset := 0 }
            exportQueue := [], writer := none }) ∧
        ∀ (n : Fin 8) (rest : List (Fin 8)) (q : BinRecord), s.stack.exportQueue.drop 1 = n :: rest → n ≠ w.bin →
          s.stack.bins[n].record = some q → windowValid s.regs = true →
          inBuffer s.regs q.exportOffset (extentLength q.channelCount q.lags) = true →
          t.stack.exportQueue = n :: rest ∧ ∃ w', t.stack.writer = some w' ∧ w'.bin = n ∧ w'.written = 0)) ∧
  ∀ (us : List Upset) (s : State) (burst : Burst) (host : BitVec 64) (w : Writer) (r : BinRecord), PortServed s →
    s.bus.exporter = .issued burst host → s.stack.writer = some w → s.stack.bins[w.bin].record = some r →
    w.bin ∉ s.stack.exportQueue.drop 1 →
    ∃ t, exec (.exportBurstFault us) s = .next t ∧ EventsGrow s.regs.intEn s.events t.events ∧
      isPending .fault t ∧ isPending .bin t ∧ t.board = s.board ∧ t.dram = (s.applyUpsets us).dram ∧
      t.ports = s.ports ∧ t.store = s.store ∧ t.library = s.library ∧ t.sched = s.sched ∧ t.engine = s.engine ∧
      t.bus.exporterFaults = min (s.bus.exporterFaults + 1) 4294967295 ∧
      t.stack.bins[w.bin] =
        { record := some { r with phase := .held }, lastExport := .writeFault, heldFaultOffset := burst.offset } ∧
      (s.stack.exportQueue.drop 1 = [] →
        t.bus.exporter = .empty ∧ t.stack.exportQueue = [] ∧ t.stack.writer = none) ∧
      (QueueLawful s.stack → ∃ (e : EventUnit) (u : State), EventsGrow s.regs.intEn s.events e ∧
        e.pending = s.events.pending ||| Cause.fault.bit ||| Cause.bin.bit ∧ t = exporterServed u ∧
        ExportQueueBegins
          { s.applyUpsets us with
            events := e
            bus := { s.bus with
              exporter := .empty, exporterFaults := min (s.bus.exporterFaults + 1) 4294967295 }
            stack :=
              { exportQueue := s.stack.exportQueue.drop 1, writer := none
                bins := s.stack.bins.set w.bin
                  { record := some { r with phase := .held }, lastExport := .writeFault
                    heldFaultOffset := burst.offset } } } u)

/-! ## Properties that every step keeps -/

/-- The properties below hold right after a power-on reset. -/
def Obligations.ResetIsLawful : Prop :=
  MemoryCanonical State.reset ∧ PriorityLawful State.reset ∧ PortsLawful State.reset ∧ PortServed State.reset ∧
    BinsDisjoint State.reset ∧ WorkLawful State.reset ∧ StoreLawful State.reset ∧ WriterLawful State.reset ∧
    AnswersLawful State.reset

/-- Every step keeps local DRAM, its check bits and the scan map in canonical form (log 5). -/
def Obligations.MemoryStaysCanonical : Prop :=
  ∀ s t : State, MemoryCanonical s → step s = .next t → MemoryCanonical t

/-- Every step keeps the priority list a list of the eight fleets, leaves no request waiting before a free port, and
keeps the boxes left to the first round of the answer stage in ascending order (R72, R76, R81, R151, R159; log 7). -/
def Obligations.PriorityAndPortStayLawful : Prop :=
  (∀ s t : State, PriorityLawful s → step s = .next t → PriorityLawful t) ∧
    (∀ s t : State, PortServed s → step s = .next t → PortServed t) ∧
    ∀ s t : State, AnswersLawful s → step s = .next t → AnswersLawful t

/-- Every step keeps every port's counts in their ranges and its state in agreement with its error count
(R18, R19, R24, R25, R28). -/
def Obligations.PortsStayLawful : Prop :=
  ∀ s t : State, PortsLawful s → step s = .next t → PortsLawful t

/-- No two non-FREE bins ever have overlapping key sets (R107). -/
def Obligations.KeySetsStayDisjoint : Prop :=
  ∀ s t : State, BinsDisjoint s → step s = .next t → BinsDisjoint t

/-- Every step keeps session, passes, pin, jobs and export queue in agreement, and the writer's progress the bytes of
the records it has formed (R3, R18, R45, R49, R69, R85, R101, R128, R129; log 33). -/
def Obligations.WorkStaysLawful : Prop :=
  ∀ s t : State, WorkLawful s → step s = .next t → WorkLawful t ∧ (WriterLawful s → WriterLawful t)

/-- Every step keeps the settled index the least frontier of the ports LIVE or DEGRADED, at most W and at most 8,192 below
it, with every such port within its stall limit of W; and within a session neither W nor the settled index ever falls
(R26, R38, R39). -/
def Obligations.SettledIndexStaysLawful : Prop :=
  ∀ s t : State, WorkLawful s → StoreLawful s → step s = .next t →
    StoreLawful t ∧ (s.device = .recording → t.device = .recording →
      ∀ w w' x x' : Int, s.store.newest = some w → t.store.newest = some w' → s.store.settled = some x →
        t.store.settled = some x' → w ≤ w' ∧ x ≤ x')
end

