-- ==== Sys2Proof/Laws/State.lean ====
section
/-! SUPPORT. What each update of one record leaves alone and what it writes: for every update one lemma whose conjuncts,
all true by `rfl`, are the part's fields after it. -/

namespace Sys2Proof.Machine

variable (s : State)

/-- Raising a cause touches the Event Unit alone. -/
@[simp] theorem raise_frame (c : Cause) :
    (s.raise c).device = s.device ∧ (s.raise c).session = s.session ∧ (s.raise c).resetEpoch = s.resetEpoch ∧
      (s.raise c).regs = s.regs ∧ (s.raise c).ports = s.ports ∧ (s.raise c).store = s.store ∧
      (s.raise c).library = s.library ∧ (s.raise c).sched = s.sched ∧ (s.raise c).engine = s.engine ∧
      (s.raise c).stack = s.stack ∧ (s.raise c).board = s.board ∧ (s.raise c).bus = s.bus ∧
      (s.raise c).dram = s.dram ∧ (s.raise c).counts = s.counts ∧ (s.raise c).freeDraws = s.freeDraws ∧
      (s.raise c).pending = s.pending ∧ (s.raise c).events = raiseCause s.regs.intEn c s.events := by
  refine ⟨rfl, rfl, rfl, rfl, rfl, rfl, rfl, rfl, rfl, rfl, rfl, rfl, rfl, rfl, rfl, rfl, rfl⟩

/-- A port update. -/
@[simp] theorem setPort_frame (p : Fin 4) (x : Port) :
    (s.setPort p x).device = s.device ∧ (s.setPort p x).session = s.session ∧
      (s.setPort p x).resetEpoch = s.resetEpoch ∧ (s.setPort p x).regs = s.regs ∧
      (s.setPort p x).events = s.events ∧ (s.setPort p x).store = s.store ∧
      (s.setPort p x).library = s.library ∧ (s.setPort p x).sched = s.sched ∧
      (s.setPort p x).engine = s.engine ∧ (s.setPort p x).stack = s.stack ∧ (s.setPort p x).board = s.board ∧
      (s.setPort p x).bus = s.bus ∧ (s.setPort p x).dram = s.dram ∧ (s.setPort p x).counts = s.counts ∧
      (s.setPort p x).freeDraws = s.freeDraws ∧ (s.setPort p x).pending = s.pending ∧
      (s.setPort p x).ports = s.ports.set p x := by
  refine ⟨rfl, rfl, rfl, rfl, rfl, rfl, rfl, rfl, rfl, rfl, rfl, rfl, rfl, rfl, rfl, rfl, rfl⟩

/-- An update of a library position. -/
@[simp] theorem setEntry_frame (i : Fin 16) (x : Option PilotEntry) :
    (s.setEntry i x).device = s.device ∧ (s.setEntry i x).session = s.session ∧
      (s.setEntry i x).resetEpoch = s.resetEpoch ∧ (s.setEntry i x).regs = s.regs ∧
      (s.setEntry i x).events = s.events ∧ (s.setEntry i x).ports = s.ports ∧ (s.setEntry i x).store = s.store ∧
      (s.setEntry i x).sched = s.sched ∧ (s.setEntry i x).engine = s.engine ∧ (s.setEntry i x).stack = s.stack ∧
      (s.setEntry i x).board = s.board ∧ (s.setEntry i x).bus = s.bus ∧ (s.setEntry i x).dram = s.dram ∧
      (s.setEntry i x).counts = s.counts ∧ (s.setEntry i x).freeDraws = s.freeDraws ∧
      (s.setEntry i x).pending = s.pending ∧ (s.setEntry i x).library.entries = s.library.entries.set i x ∧
      (s.setEntry i x).library.load = s.library.load ∧ (s.setEntry i x).library.serial = s.library.serial := by
  refine ⟨rfl, rfl, rfl, rfl, rfl, rfl, rfl, rfl, rfl, rfl, rfl, rfl, rfl, rfl, rfl, rfl, rfl, rfl, rfl⟩

/-- An update of a job-table entry. -/
@[simp] theorem setJob_frame (i : Fin 32) (x : Option Job) :
    (s.setJob i x).device = s.device ∧ (s.setJob i x).session = s.session ∧
      (s.setJob i x).resetEpoch = s.resetEpoch ∧ (s.setJob i x).regs = s.regs ∧
      (s.setJob i x).events = s.events ∧ (s.setJob i x).ports = s.ports ∧ (s.setJob i x).store = s.store ∧
      (s.setJob i x).library = s.library ∧ (s.setJob i x).engine = s.engine ∧ (s.setJob i x).stack = s.stack ∧
      (s.setJob i x).board = s.board ∧ (s.setJob i x).bus = s.bus ∧ (s.setJob i x).dram = s.dram ∧
      (s.setJob i x).counts = s.counts ∧ (s.setJob i x).freeDraws = s.freeDraws ∧
      (s.setJob i x).pending = s.pending ∧ (s.setJob i x).sched.jobs = s.sched.jobs.set i x ∧
      (s.setJob i x).sched.queues = s.sched.queues ∧ (s.setJob i x).sched.priority = s.sched.priority ∧
      (s.setJob i x).sched.mode = s.sched.mode ∧ (s.setJob i x).sched.hold = s.sched.hold := by
  refine ⟨rfl, rfl, rfl, rfl, rfl, rfl, rfl, rfl, rfl, rfl, rfl, rfl, rfl, rfl, rfl, rfl, rfl, rfl, rfl, rfl, rfl⟩

/-- An update of a bin. -/
@[simp] theorem setBin_frame (b : Fin 8) (x : Bin) :
    (s.setBin b x).device = s.device ∧ (s.setBin b x).session = s.session ∧
      (s.setBin b x).resetEpoch = s.resetEpoch ∧ (s.setBin b x).regs = s.regs ∧
      (s.setBin b x).events = s.events ∧ (s.setBin b x).ports = s.ports ∧ (s.setBin b x).store = s.store ∧
      (s.setBin b x).library = s.library ∧ (s.setBin b x).sched = s.sched ∧ (s.setBin b x).engine = s.engine ∧
      (s.setBin b x).board = s.board ∧ (s.setBin b x).bus = s.bus ∧ (s.setBin b x).dram = s.dram ∧
      (s.setBin b x).counts = s.counts ∧ (s.setBin b x).freeDraws = s.freeDraws ∧
      (s.setBin b x).pending = s.pending ∧ (s.setBin b x).stack.bins = s.stack.bins.set b x ∧
      (s.setBin b x).stack.exportQueue = s.stack.exportQueue ∧
      (s.setBin b x).stack.writer = s.stack.writer := by
  refine ⟨rfl, rfl, rfl, rfl, rfl, rfl, rfl, rfl, rfl, rfl, rfl, rfl, rfl, rfl, rfl, rfl, rfl, rfl, rfl⟩

/-- An update of the record of a bin. -/
@[simp] theorem setBinRecord_frame (b : Fin 8) (r : Option BinRecord) :
    (s.setBinRecord b r).device = s.device ∧ (s.setBinRecord b r).session = s.session ∧
      (s.setBinRecord b r).resetEpoch = s.resetEpoch ∧ (s.setBinRecord b r).regs = s.regs ∧
      (s.setBinRecord b r).events = s.events ∧ (s.setBinRecord b r).ports = s.ports ∧
      (s.setBinRecord b r).store = s.store ∧ (s.setBinRecord b r).library = s.library ∧
      (s.setBinRecord b r).sched = s.sched ∧ (s.setBinRecord b r).engine = s.engine ∧
      (s.setBinRecord b r).board = s.board ∧ (s.setBinRecord b r).bus = s.bus ∧
      (s.setBinRecord b r).dram = s.dram ∧ (s.setBinRecord b r).counts = s.counts ∧
      (s.setBinRecord b r).freeDraws = s.freeDraws ∧ (s.setBinRecord b r).pending = s.pending ∧
      (s.setBinRecord b r).stack.bins = s.stack.bins.set b { s.stack.bins[b] with record := r } ∧
      (s.setBinRecord b r).stack.exportQueue = s.stack.exportQueue ∧
      (s.setBinRecord b r).stack.writer = s.stack.writer := by
  refine ⟨rfl, rfl, rfl, rfl, rfl, rfl, rfl, rfl, rfl, rfl, rfl, rfl, rfl, rfl, rfl, rfl, rfl, rfl, rfl⟩

/-- An update of a box entry. -/
@[simp] theorem setBox_frame (b : Fin 64) (x : BoxEntry) :
    (s.setBox b x).device = s.device ∧ (s.setBox b x).session = s.session ∧
      (s.setBox b x).resetEpoch = s.resetEpoch ∧ (s.setBox b x).regs = s.regs ∧
      (s.setBox b x).events = s.events ∧ (s.setBox b x).ports = s.ports ∧ (s.setBox b x).store = s.store ∧
      (s.setBox b x).library = s.library ∧ (s.setBox b x).sched = s.sched ∧ (s.setBox b x).engine = s.engine ∧
      (s.setBox b x).stack = s.stack ∧ (s.setBox b x).bus = s.bus ∧ (s.setBox b x).dram = s.dram ∧
      (s.setBox b x).counts = s.counts ∧ (s.setBox b x).freeDraws = s.freeDraws ∧
      (s.setBox b x).pending = s.pending ∧ (s.setBox b x).board.boxes = s.board.boxes.set b x ∧
      (s.setBox b x).board.rotation = s.board.rotation ∧ (s.setBox b x).board.phase = s.board.phase ∧
      (s.setBox b x).board.examined = s.board.examined ∧ (s.setBox b x).board.taken = s.board.taken ∧
      (s.setBox b x).board.lastTaken = s.board.lastTaken ∧
      (s.setBox b x).board.firstRound = s.board.firstRound ∧ (s.setBox b x).board.faulted = s.board.faulted ∧
      (s.setBox b x).board.followUp = s.board.followUp ∧ (s.setBox b x).board.period = s.board.period ∧
      (s.setBox b x).board.interval = s.board.interval := by
  refine ⟨rfl, rfl, rfl, rfl, rfl, rfl, rfl, rfl, rfl, rfl, rfl, rfl, rfl, rfl, rfl, rfl, rfl, rfl, rfl, rfl, rfl, rfl, rfl, rfl, rfl, rfl, rfl⟩

/-- An owner's answer. -/
@[simp] theorem setAnswer_frame (b : Fin 64) (a : Answer) :
    (s.setAnswer b a).device = s.device ∧ (s.setAnswer b a).session = s.session ∧
      (s.setAnswer b a).resetEpoch = s.resetEpoch ∧ (s.setAnswer b a).regs = s.regs ∧
      (s.setAnswer b a).events = s.events ∧ (s.setAnswer b a).ports = s.ports ∧
      (s.setAnswer b a).store = s.store ∧ (s.setAnswer b a).library = s.library ∧
      (s.setAnswer b a).sched = s.sched ∧ (s.setAnswer b a).engine = s.engine ∧
      (s.setAnswer b a).stack = s.stack ∧ (s.setAnswer b a).bus = s.bus ∧ (s.setAnswer b a).dram = s.dram ∧
      (s.setAnswer b a).counts = s.counts ∧ (s.setAnswer b a).freeDraws = s.freeDraws ∧
      (s.setAnswer b a).pending = s.pending ∧ (s.setAnswer b a).board.boxes =
        s.board.boxes.set b { s.board.boxes[b] with answer := some a, dirty := true } ∧
          (s.setAnswer b a).board.rotation = s.board.rotation ∧ (s.setAnswer b a).board.phase = s.board.phase ∧
          (s.setAnswer b a).board.examined = s.board.examined ∧ (s.setAnswer b a).board.taken = s.board.taken ∧
          (s.setAnswer b a).board.lastTaken = s.board.lastTaken ∧
          (s.setAnswer b a).board.firstRound = s.board.firstRound ∧
          (s.setAnswer b a).board.faulted = s.board.faulted ∧
          (s.setAnswer b a).board.followUp = s.board.followUp ∧
          (s.setAnswer b a).board.period = s.board.period ∧
          (s.setAnswer b a).board.interval = s.board.interval := by
  refine ⟨rfl, rfl, rfl, rfl, rfl, rfl, rfl, rfl, rfl, rfl, rfl, rfl, rfl, rfl, rfl, rfl, rfl, rfl, rfl, rfl, rfl, rfl, rfl, rfl, rfl, rfl, rfl⟩

/-- What the scanner waits for. -/
@[simp] theorem setPhase_frame (p : ScanPhase) :
    (s.setPhase p).device = s.device ∧ (s.setPhase p).session = s.session ∧
      (s.setPhase p).resetEpoch = s.resetEpoch ∧ (s.setPhase p).regs = s.regs ∧
      (s.setPhase p).events = s.events ∧ (s.setPhase p).ports = s.ports ∧ (s.setPhase p).store = s.store ∧
      (s.setPhase p).library = s.library ∧ (s.setPhase p).sched = s.sched ∧ (s.setPhase p).engine = s.engine ∧
      (s.setPhase p).stack = s.stack ∧ (s.setPhase p).bus = s.bus ∧ (s.setPhase p).dram = s.dram ∧
      (s.setPhase p).counts = s.counts ∧ (s.setPhase p).freeDraws = s.freeDraws ∧
      (s.setPhase p).pending = s.pending ∧ (s.setPhase p).board.phase = p ∧
      (s.setPhase p).board.boxes = s.board.boxes ∧ (s.setPhase p).board.rotation = s.board.rotation ∧
      (s.setPhase p).board.examined = s.board.examined ∧ (s.setPhase p).board.taken = s.board.taken ∧
      (s.setPhase p).board.lastTaken = s.board.lastTaken ∧
      (s.setPhase p).board.firstRound = s.board.firstRound ∧ (s.setPhase p).board.faulted = s.board.faulted ∧
      (s.setPhase p).board.followUp = s.board.followUp ∧ (s.setPhase p).board.period = s.board.period ∧
      (s.setPhase p).board.interval = s.board.interval := by
  refine ⟨rfl, rfl, rfl, rfl, rfl, rfl, rfl, rfl, rfl, rfl, rfl, rfl, rfl, rfl, rfl, rfl, rfl, rfl, rfl, rfl, rfl, rfl, rfl, rfl, rfl, rfl, rfl⟩

/-- The record of a take (R149). -/
@[simp] theorem recordTake_frame (b : Fin 64) (post code : Byte) (a : Answer) :
    (recordTake b post code a s).device = s.device ∧ (recordTake b post code a s).session = s.session ∧
      (recordTake b post code a s).resetEpoch = s.resetEpoch ∧ (recordTake b post code a s).regs = s.regs ∧
      (recordTake b post code a s).events = s.events ∧ (recordTake b post code a s).ports = s.ports ∧
      (recordTake b post code a s).store = s.store ∧ (recordTake b post code a s).library = s.library ∧
      (recordTake b post code a s).sched = s.sched ∧ (recordTake b post code a s).engine = s.engine ∧
      (recordTake b post code a s).stack = s.stack ∧ (recordTake b post code a s).bus = s.bus ∧
      (recordTake b post code a s).dram = s.dram ∧ (recordTake b post code a s).counts = s.counts ∧
      (recordTake b post code a s).freeDraws = s.freeDraws ∧ (recordTake b post code a s).pending = s.pending ∧
      (recordTake b post code a s).board.boxes =
        s.board.boxes.set b { s.board.boxes[b] with answeredPost := post, current := some code, answer := some a, dirty := true } ∧
          (recordTake b post code a s).board.rotation = s.board.rotation ∧
          (recordTake b post code a s).board.phase = s.board.phase ∧
          (recordTake b post code a s).board.examined = s.board.examined ∧
          (recordTake b post code a s).board.taken = s.board.taken ∧
          (recordTake b post code a s).board.lastTaken = s.board.lastTaken ∧
          (recordTake b post code a s).board.firstRound = s.board.firstRound ∧
          (recordTake b post code a s).board.faulted = s.board.faulted ∧
          (recordTake b post code a s).board.followUp = s.board.followUp ∧
          (recordTake b post code a s).board.period = s.board.period ∧
          (recordTake b post code a s).board.interval = s.board.interval := by
  refine ⟨rfl, rfl, rfl, rfl, rfl, rfl, rfl, rfl, rfl, rfl, rfl, rfl, rfl, rfl, rfl, rfl, rfl, rfl, rfl, rfl, rfl, rfl, rfl, rfl, rfl, rfl, rfl⟩

/-- Errors that arise in local DRAM. -/
@[simp] theorem applyUpsets_frame (us : List Upset) :
    (s.applyUpsets us).device = s.device ∧ (s.applyUpsets us).session = s.session ∧
      (s.applyUpsets us).resetEpoch = s.resetEpoch ∧ (s.applyUpsets us).regs = s.regs ∧
      (s.applyUpsets us).events = s.events ∧ (s.applyUpsets us).ports = s.ports ∧
      (s.applyUpsets us).store = s.store ∧ (s.applyUpsets us).library = s.library ∧
      (s.applyUpsets us).sched = s.sched ∧ (s.applyUpsets us).engine = s.engine ∧
      (s.applyUpsets us).stack = s.stack ∧ (s.applyUpsets us).board = s.board ∧ (s.applyUpsets us).bus = s.bus ∧
      (s.applyUpsets us).counts = s.counts ∧ (s.applyUpsets us).freeDraws = s.freeDraws ∧
      (s.applyUpsets us).pending = s.pending ∧ (s.applyUpsets us).dram = us.foldl upsetWord s.dram := by
  refine ⟨rfl, rfl, rfl, rfl, rfl, rfl, rfl, rfl, rfl, rfl, rfl, rfl, rfl, rfl, rfl, rfl, rfl⟩

/-- The ECC corrected count (R166). -/
@[simp] theorem countCorrected_frame (k : Nat) :
    (s.countCorrected k).device = s.device ∧ (s.countCorrected k).session = s.session ∧
      (s.countCorrected k).resetEpoch = s.resetEpoch ∧ (s.countCorrected k).regs = s.regs ∧
      (s.countCorrected k).events = s.events ∧ (s.countCorrected k).ports = s.ports ∧
      (s.countCorrected k).store = s.store ∧ (s.countCorrected k).library = s.library ∧
      (s.countCorrected k).sched = s.sched ∧ (s.countCorrected k).engine = s.engine ∧
      (s.countCorrected k).stack = s.stack ∧ (s.countCorrected k).board = s.board ∧
      (s.countCorrected k).bus = s.bus ∧ (s.countCorrected k).dram = s.dram ∧
      (s.countCorrected k).freeDraws = s.freeDraws ∧ (s.countCorrected k).pending = s.pending ∧
      (s.countCorrected k).counts.eccCorrected = satAdd32 s.counts.eccCorrected k ∧
      (s.countCorrected k).counts.scan = s.counts.scan ∧
      (s.countCorrected k).counts.pilotDamage = s.counts.pilotDamage ∧
      (s.countCorrected k).counts.poison = s.counts.poison ∧
      (s.countCorrected k).counts.discardedWrites = s.counts.discardedWrites := by
  refine ⟨rfl, rfl, rfl, rfl, rfl, rfl, rfl, rfl, rfl, rfl, rfl, rfl, rfl, rfl, rfl, rfl, rfl, rfl, rfl, rfl, rfl⟩

/-- The poison count (R120). -/
@[simp] theorem countPoison_frame :
    (s.countPoison).device = s.device ∧ (s.countPoison).session = s.session ∧
      (s.countPoison).resetEpoch = s.resetEpoch ∧ (s.countPoison).regs = s.regs ∧
      (s.countPoison).events = s.events ∧ (s.countPoison).ports = s.ports ∧ (s.countPoison).store = s.store ∧
      (s.countPoison).library = s.library ∧ (s.countPoison).sched = s.sched ∧
      (s.countPoison).engine = s.engine ∧ (s.countPoison).stack = s.stack ∧ (s.countPoison).board = s.board ∧
      (s.countPoison).bus = s.bus ∧ (s.countPoison).dram = s.dram ∧ (s.countPoison).freeDraws = s.freeDraws ∧
      (s.countPoison).pending = s.pending ∧ s.countPoison.counts.poison = satInc32 s.counts.poison ∧
      s.countPoison.counts.scan = s.counts.scan ∧ s.countPoison.counts.eccCorrected = s.counts.eccCorrected ∧
      s.countPoison.counts.pilotDamage = s.counts.pilotDamage ∧
      s.countPoison.counts.discardedWrites = s.counts.discardedWrites := by
  refine ⟨rfl, rfl, rfl, rfl, rfl, rfl, rfl, rfl, rfl, rfl, rfl, rfl, rfl, rfl, rfl, rfl, rfl, rfl, rfl, rfl, rfl⟩

/-- The count of discarded register writes (R176). -/
@[simp] theorem discardWrite_frame :
    (discardWrite s).device = s.device ∧ (discardWrite s).session = s.session ∧
      (discardWrite s).resetEpoch = s.resetEpoch ∧ (discardWrite s).regs = s.regs ∧
      (discardWrite s).events = s.events ∧ (discardWrite s).ports = s.ports ∧ (discardWrite s).store = s.store ∧
      (discardWrite s).library = s.library ∧ (discardWrite s).sched = s.sched ∧
      (discardWrite s).engine = s.engine ∧ (discardWrite s).stack = s.stack ∧ (discardWrite s).board = s.board ∧
      (discardWrite s).bus = s.bus ∧ (discardWrite s).dram = s.dram ∧ (discardWrite s).freeDraws = s.freeDraws ∧
      (discardWrite s).pending = s.pending ∧
      (discardWrite s).counts.discardedWrites = satInc32 s.counts.discardedWrites ∧
      (discardWrite s).counts.scan = s.counts.scan ∧
      (discardWrite s).counts.eccCorrected = s.counts.eccCorrected ∧
      (discardWrite s).counts.pilotDamage = s.counts.pilotDamage ∧
      (discardWrite s).counts.poison = s.counts.poison := by
  refine ⟨rfl, rfl, rfl, rfl, rfl, rfl, rfl, rfl, rfl, rfl, rfl, rfl, rfl, rfl, rfl, rfl, rfl, rfl, rfl, rfl, rfl⟩

/-- A request slot (R157). -/
@[simp] theorem setSlot_frame (r : Requester) (x : Slot) :
    (s.setSlot r x).device = s.device ∧ (s.setSlot r x).session = s.session ∧
      (s.setSlot r x).resetEpoch = s.resetEpoch ∧ (s.setSlot r x).regs = s.regs ∧
      (s.setSlot r x).events = s.events ∧ (s.setSlot r x).ports = s.ports ∧ (s.setSlot r x).store = s.store ∧
      (s.setSlot r x).library = s.library ∧ (s.setSlot r x).sched = s.sched ∧
      (s.setSlot r x).engine = s.engine ∧ (s.setSlot r x).stack = s.stack ∧ (s.setSlot r x).board = s.board ∧
      (s.setSlot r x).dram = s.dram ∧ (s.setSlot r x).counts = s.counts ∧
      (s.setSlot r x).freeDraws = s.freeDraws ∧ (s.setSlot r x).pending = s.pending ∧
      (s.setSlot r x).bus = s.bus.withSlot r x := by
  refine ⟨rfl, rfl, rfl, rfl, rfl, rfl, rfl, rfl, rfl, rfl, rfl, rfl, rfl, rfl, rfl, rfl, rfl⟩

/-- A posted request (R157). -/
@[simp] theorem post_frame (r : Requester) (b : Burst) :
    (s.post r b).device = s.device ∧ (s.post r b).session = s.session ∧ (s.post r b).resetEpoch = s.resetEpoch ∧
      (s.post r b).regs = s.regs ∧ (s.post r b).events = s.events ∧ (s.post r b).ports = s.ports ∧
      (s.post r b).store = s.store ∧ (s.post r b).library = s.library ∧ (s.post r b).sched = s.sched ∧
      (s.post r b).engine = s.engine ∧ (s.post r b).stack = s.stack ∧ (s.post r b).board = s.board ∧
      (s.post r b).dram = s.dram ∧ (s.post r b).counts = s.counts ∧ (s.post r b).freeDraws = s.freeDraws ∧
      (s.post r b).pending = s.pending ∧ (s.post r b).bus = s.bus.withSlot r (.waiting b) := by
  refine ⟨rfl, rfl, rfl, rfl, rfl, rfl, rfl, rfl, rfl, rfl, rfl, rfl, rfl, rfl, rfl, rfl, rfl⟩

/-- A counted fault (R161). -/
@[simp] theorem busFault_frame (r : Requester) :
    (s.busFault r).device = s.device ∧ (s.busFault r).session = s.session ∧
      (s.busFault r).resetEpoch = s.resetEpoch ∧ (s.busFault r).regs = s.regs ∧ (s.busFault r).ports = s.ports ∧
      (s.busFault r).store = s.store ∧ (s.busFault r).library = s.library ∧ (s.busFault r).sched = s.sched ∧
      (s.busFault r).engine = s.engine ∧ (s.busFault r).stack = s.stack ∧ (s.busFault r).board = s.board ∧
      (s.busFault r).dram = s.dram ∧ (s.busFault r).counts = s.counts ∧ (s.busFault r).freeDraws = s.freeDraws ∧
      (s.busFault r).pending = s.pending ∧ (s.busFault r).events = raiseCause s.regs.intEn .fault s.events := by
  refine ⟨rfl, rfl, rfl, rfl, rfl, rfl, rfl, rfl, rfl, rfl, rfl, rfl, rfl, rfl, rfl, rfl⟩

/-- An issue (R159). -/
@[simp] theorem issueBurst_frame (r : Requester) (b : Burst) :
    (issueBurst r b s).device = s.device ∧ (issueBurst r b s).session = s.session ∧
      (issueBurst r b s).resetEpoch = s.resetEpoch ∧ (issueBurst r b s).regs = s.regs ∧
      (issueBurst r b s).events = s.events ∧ (issueBurst r b s).ports = s.ports ∧
      (issueBurst r b s).store = s.store ∧ (issueBurst r b s).library = s.library ∧
      (issueBurst r b s).sched = s.sched ∧ (issueBurst r b s).engine = s.engine ∧
      (issueBurst r b s).stack = s.stack ∧ (issueBurst r b s).board = s.board ∧
      (issueBurst r b s).dram = s.dram ∧ (issueBurst r b s).counts = s.counts ∧
      (issueBurst r b s).freeDraws = s.freeDraws ∧ (issueBurst r b s).pending = s.pending ∧
      (issueBurst r b s).bus = { s.bus.withSlot r (.issued b (hostAddress s.regs b)) with portBusy := true } := by
  refine ⟨rfl, rfl, rfl, rfl, rfl, rfl, rfl, rfl, rfl, rfl, rfl, rfl, rfl, rfl, rfl, rfl, rfl⟩

/-- A settled-index notice (R41, R71). -/
@[simp] theorem noticeSettled_frame (x : Int) :
    (noticeSettled x s).device = s.device ∧ (noticeSettled x s).session = s.session ∧
      (noticeSettled x s).resetEpoch = s.resetEpoch ∧ (noticeSettled x s).regs = s.regs ∧
      (noticeSettled x s).events = s.events ∧ (noticeSettled x s).ports = s.ports ∧
      (noticeSettled x s).store = s.store ∧ (noticeSettled x s).library = s.library ∧
      (noticeSettled x s).engine = s.engine ∧ (noticeSettled x s).stack = s.stack ∧
      (noticeSettled x s).board = s.board ∧ (noticeSettled x s).bus = s.bus ∧
      (noticeSettled x s).dram = s.dram ∧ (noticeSettled x s).counts = s.counts ∧
      (noticeSettled x s).freeDraws = s.freeDraws ∧ (noticeSettled x s).pending = s.pending ∧
      (noticeSettled x s).sched.jobs = mapTable (noticeJob x) s.sched.jobs ∧
      (noticeSettled x s).sched.queues = s.sched.queues ∧
      (noticeSettled x s).sched.priority = s.sched.priority ∧ (noticeSettled x s).sched.mode = s.sched.mode ∧
      (noticeSettled x s).sched.hold = s.sched.hold := by
  simp only [noticeSettled, and_self]

/-- The first part of a job end (R79). -/
@[simp] theorem dropJob_frame (i : Fin 32) (j : Job) (o : OrderOutcome) (c : Reason) :
    (dropJob i j o c s).device = s.device ∧ (dropJob i j o c s).session = s.session ∧
      (dropJob i j o c s).resetEpoch = s.resetEpoch ∧ (dropJob i j o c s).regs = s.regs ∧
      (dropJob i j o c s).events = s.events ∧ (dropJob i j o c s).ports = s.ports ∧
      (dropJob i j o c s).store = s.store ∧ (dropJob i j o c s).engine = s.engine ∧
      (dropJob i j o c s).bus = s.bus ∧ (dropJob i j o c s).dram = s.dram ∧
      (dropJob i j o c s).counts = s.counts ∧ (dropJob i j o c s).freeDraws = s.freeDraws ∧
      (dropJob i j o c s).pending = s.pending ∧ (dropJob i j o c s).sched.jobs = s.sched.jobs.set i none ∧
      (dropJob i j o c s).sched.queues = s.sched.queues.set j.fleet (s.sched.queues[j.fleet].filter (· != i)) ∧
      (dropJob i j o c s).sched.priority = s.sched.priority ∧ (dropJob i j o c s).sched.mode = s.sched.mode ∧
      (dropJob i j o c s).sched.hold = s.sched.hold ∧
      (dropJob i j o c s).library.entries = s.library.entries.set j.pilot (releaseUse s.library.entries[j.pilot]) ∧
      (dropJob i j o c s).library.load = s.library.load ∧
      (dropJob i j o c s).library.serial = s.library.serial ∧
      (dropJob i j o c s).stack.bins = s.stack.bins.set j.bin (releasePending s.stack.bins[j.bin]) ∧
      (dropJob i j o c s).stack.exportQueue = s.stack.exportQueue ∧
      (dropJob i j o c s).stack.writer = s.stack.writer ∧ (dropJob i j o c s).board.boxes =
        s.board.boxes.set j.box
          { s.board.boxes[j.box] with
            answer := some { outcome := o, reason := c, words := jobWords j }, dirty := true } ∧
              (dropJob i j o c s).board.rotation = s.board.rotation ∧
              (dropJob i j o c s).board.phase = s.board.phase ∧
              (dropJob i j o c s).board.examined = s.board.examined ∧
              (dropJob i j o c s).board.taken = s.board.taken ∧
              (dropJob i j o c s).board.lastTaken = s.board.lastTaken ∧
              (dropJob i j o c s).board.firstRound = s.board.firstRound ∧
              (dropJob i j o c s).board.faulted = s.board.faulted ∧
              (dropJob i j o c s).board.followUp = s.board.followUp ∧
              (dropJob i j o c s).board.period = s.board.period ∧
              (dropJob i j o c s).board.interval = s.board.interval := by
  refine ⟨rfl, rfl, rfl, rfl, rfl, rfl, rfl, rfl, rfl, rfl, rfl, rfl, rfl, rfl, rfl, rfl, rfl, rfl, rfl, rfl, rfl, rfl, rfl, rfl, rfl, rfl, rfl, rfl, rfl, rfl, rfl, rfl, rfl, rfl, rfl⟩

/-- A pass start (R74). -/
@[simp] theorem startPass_frame (i : Fin 32) (j : Job) (e : PilotEntry) (r : BinRecord) :
    (startPass i j e r s).device = s.device ∧ (startPass i j e r s).session = s.session ∧
      (startPass i j e r s).resetEpoch = s.resetEpoch ∧ (startPass i j e r s).regs = s.regs ∧
      (startPass i j e r s).events = s.events ∧ (startPass i j e r s).ports = s.ports ∧
      (startPass i j e r s).library = s.library ∧ (startPass i j e r s).stack = s.stack ∧
      (startPass i j e r s).board = s.board ∧ (startPass i j e r s).bus = s.bus ∧
      (startPass i j e r s).dram = s.dram ∧ (startPass i j e r s).counts = s.counts ∧
      (startPass i j e r s).freeDraws = s.freeDraws ∧ (startPass i j e r s).pending = s.pending ∧
      (startPass i j e r s).sched.jobs = s.sched.jobs.set i (some { j with state := .active }) ∧
      (startPass i j e r s).sched.queues = s.sched.queues ∧
      (startPass i j e r s).sched.priority = s.sched.priority ∧
      (startPass i j e r s).sched.mode = s.sched.mode ∧ (startPass i j e r s).sched.hold = s.sched.hold ∧
      (startPass i j e r s).store = { s.store with pin := some j.needFirst } ∧
      (startPass i j e r s).engine = .compute (passRecord i j e r) [] [] [] := by
  refine ⟨rfl, rfl, rfl, rfl, rfl, rfl, rfl, rfl, rfl, rfl, rfl, rfl, rfl, rfl, rfl, rfl, rfl, rfl, rfl, rfl, rfl⟩

/-- A bin leaves the export queue HELD (R134, R135). -/
@[simp] theorem holdHead_frame (b : Fin 8) (r : BinRecord) (o : Nat) (rest : List (Fin 8)) :
    (holdHead b r o rest s).device = s.device ∧ (holdHead b r o rest s).session = s.session ∧
      (holdHead b r o rest s).resetEpoch = s.resetEpoch ∧ (holdHead b r o rest s).regs = s.regs ∧
      (holdHead b r o rest s).ports = s.ports ∧ (holdHead b r o rest s).store = s.store ∧
      (holdHead b r o rest s).library = s.library ∧ (holdHead b r o rest s).sched = s.sched ∧
      (holdHead b r o rest s).engine = s.engine ∧ (holdHead b r o rest s).board = s.board ∧
      (holdHead b r o rest s).bus = s.bus ∧ (holdHead b r o rest s).dram = s.dram ∧
      (holdHead b r o rest s).counts = s.counts ∧ (holdHead b r o rest s).freeDraws = s.freeDraws ∧
      (holdHead b r o rest s).pending = s.pending ∧ (holdHead b r o rest s).stack.bins =
        s.stack.bins.set b { record := some { r with phase := .held }, lastExport := .writeFault, heldFaultOffset := o } ∧
          (holdHead b r o rest s).stack.exportQueue = rest ∧ (holdHead b r o rest s).stack.writer = none ∧
          (holdHead b r o rest s).events = raiseCause s.regs.intEn .bin s.events := by
  refine ⟨rfl, rfl, rfl, rfl, rfl, rfl, rfl, rfl, rfl, rfl, rfl, rfl, rfl, rfl, rfl, rfl, rfl, rfl, rfl⟩

/-- A written frame (R36). -/
@[simp] theorem writeFrame_frame (p : Fin 4) (tag : Nat) (xs : List (BitVec 32)) :
    (writeFrame p tag xs s).device = s.device ∧ (writeFrame p tag xs s).session = s.session ∧
      (writeFrame p tag xs s).resetEpoch = s.resetEpoch ∧ (writeFrame p tag xs s).regs = s.regs ∧
      (writeFrame p tag xs s).events = s.events ∧ (writeFrame p tag xs s).ports = s.ports ∧
      (writeFrame p tag xs s).library = s.library ∧ (writeFrame p tag xs s).sched = s.sched ∧
      (writeFrame p tag xs s).engine = s.engine ∧ (writeFrame p tag xs s).stack = s.stack ∧
      (writeFrame p tag xs s).board = s.board ∧ (writeFrame p tag xs s).bus = s.bus ∧
      (writeFrame p tag xs s).counts = s.counts ∧ (writeFrame p tag xs s).freeDraws = s.freeDraws ∧
      (writeFrame p tag xs s).pending = s.pending ∧
      (writeFrame p tag xs s).dram = writeSamples (slotOf tag) (p.val * 512) (xs.take (configured s p)) s.dram ∧
      (writeFrame p tag xs s).store = setMark p (slotOf tag) s.store := by
  refine ⟨rfl, rfl, rfl, rfl, rfl, rfl, rfl, rfl, rfl, rfl, rfl, rfl, rfl, rfl, rfl, rfl, rfl⟩

/-- A cut (R25, R30). -/
@[simp] theorem cutPort_frame (p : Fin 4) (c : CutCause) :
    (cutPort p c s).device = s.device ∧ (cutPort p c s).session = s.session ∧
      (cutPort p c s).resetEpoch = s.resetEpoch ∧ (cutPort p c s).regs = s.regs ∧
      (cutPort p c s).store = s.store ∧ (cutPort p c s).library = s.library ∧ (cutPort p c s).sched = s.sched ∧
      (cutPort p c s).engine = s.engine ∧ (cutPort p c s).stack = s.stack ∧ (cutPort p c s).board = s.board ∧
      (cutPort p c s).bus = s.bus ∧ (cutPort p c s).dram = s.dram ∧ (cutPort p c s).counts = s.counts ∧
      (cutPort p c s).freeDraws = s.freeDraws ∧ (cutPort p c s).pending = s.pending ∧
      (cutPort p c s).ports = s.ports.set p (s.ports[p].afterCut c) ∧
      (cutPort p c s).events = raiseCause s.regs.intEn .link s.events := by
  refine ⟨rfl, rfl, rfl, rfl, rfl, rfl, rfl, rfl, rfl, rfl, rfl, rfl, rfl, rfl, rfl, rfl, rfl⟩

/-- A port's frontier moves (R17). -/
@[simp] theorem setFrontier_frame (p : Fin 4) (tag : Nat) :
    (setFrontier p tag s).device = s.device ∧ (setFrontier p tag s).session = s.session ∧
      (setFrontier p tag s).resetEpoch = s.resetEpoch ∧ (setFrontier p tag s).regs = s.regs ∧
      (setFrontier p tag s).events = s.events ∧ (setFrontier p tag s).store = s.store ∧
      (setFrontier p tag s).library = s.library ∧ (setFrontier p tag s).sched = s.sched ∧
      (setFrontier p tag s).engine = s.engine ∧ (setFrontier p tag s).stack = s.stack ∧
      (setFrontier p tag s).board = s.board ∧ (setFrontier p tag s).bus = s.bus ∧
      (setFrontier p tag s).dram = s.dram ∧ (setFrontier p tag s).counts = s.counts ∧
      (setFrontier p tag s).freeDraws = s.freeDraws ∧ (setFrontier p tag s).pending = s.pending ∧
      (setFrontier p tag s).ports = s.ports.set p { s.ports[p] with frontier := some (tag : Int) } := by
  refine ⟨rfl, rfl, rfl, rfl, rfl, rfl, rfl, rfl, rfl, rfl, rfl, rfl, rfl, rfl, rfl, rfl, rfl⟩

/-- The data of a burst of the copy (R57). -/
@[simp] theorem acceptImage_frame (slot : LoadSlot) (data : List Byte) :
    (acceptImage slot data s).device = s.device ∧ (acceptImage slot data s).session = s.session ∧
      (acceptImage slot data s).resetEpoch = s.resetEpoch ∧ (acceptImage slot data s).regs = s.regs ∧
      (acceptImage slot data s).events = s.events ∧ (acceptImage slot data s).ports = s.ports ∧
      (acceptImage slot data s).store = s.store ∧ (acceptImage slot data s).sched = s.sched ∧
      (acceptImage slot data s).engine = s.engine ∧ (acceptImage slot data s).stack = s.stack ∧
      (acceptImage slot data s).board = s.board ∧ (acceptImage slot data s).bus = s.bus ∧
      (acceptImage slot data s).counts = s.counts ∧ (acceptImage slot data s).freeDraws = s.freeDraws ∧
      (acceptImage slot data s).pending = s.pending ∧
      (acceptImage slot data s).dram = writePilotSamples slot.pages (slot.received / 2) (pilotSamplesOf data) s.dram ∧
      (acceptImage slot data s).library.entries = s.library.entries ∧
      (acceptImage slot data s).library.serial = s.library.serial := by
  refine ⟨rfl, rfl, rfl, rfl, rfl, rfl, rfl, rfl, rfl, rfl, rfl, rfl, rfl, rfl, rfl, rfl, rfl, rfl⟩

/-- A bin is opened (R110). -/
@[simp] theorem openBinAt_frame (b : Fin 8) (r : BinRecord) :
    (openBinAt b r s).device = s.device ∧ (openBinAt b r s).session = s.session ∧
      (openBinAt b r s).resetEpoch = s.resetEpoch ∧ (openBinAt b r s).regs = s.regs ∧
      (openBinAt b r s).events = s.events ∧ (openBinAt b r s).ports = s.ports ∧
      (openBinAt b r s).store = s.store ∧ (openBinAt b r s).library = s.library ∧
      (openBinAt b r s).sched = s.sched ∧ (openBinAt b r s).engine = s.engine ∧
      (openBinAt b r s).board = s.board ∧ (openBinAt b r s).bus = s.bus ∧ (openBinAt b r s).counts = s.counts ∧
      (openBinAt b r s).freeDraws = s.freeDraws ∧ (openBinAt b r s).pending = s.pending ∧
      (openBinAt b r s).stack.bins = s.stack.bins.set b { record := some r, lastExport := .none, heldFaultOffset := 0 } ∧
      (openBinAt b r s).stack.exportQueue = s.stack.exportQueue ∧
      (openBinAt b r s).stack.writer = s.stack.writer ∧
      (openBinAt b r s).dram = zeroAccumulators b r.channelCount r.lags s.dram := by
  refine ⟨rfl, rfl, rfl, rfl, rfl, rfl, rfl, rfl, rfl, rfl, rfl, rfl, rfl, rfl, rfl, rfl, rfl, rfl, rfl⟩

/-- A bin is given up (R122). -/
@[simp] theorem freeBin_frame (b : Fin 8) (r : BinRecord) :
    (freeBin b r s).device = s.device ∧ (freeBin b r s).session = s.session ∧
      (freeBin b r s).resetEpoch = s.resetEpoch ∧ (freeBin b r s).regs = s.regs ∧
      (freeBin b r s).events = s.events ∧ (freeBin b r s).ports = s.ports ∧ (freeBin b r s).store = s.store ∧
      (freeBin b r s).library = s.library ∧ (freeBin b r s).sched = s.sched ∧
      (freeBin b r s).engine = s.engine ∧ (freeBin b r s).bus = s.bus ∧ (freeBin b r s).dram = s.dram ∧
      (freeBin b r s).counts = s.counts ∧ (freeBin b r s).freeDraws = s.freeDraws ∧
      (freeBin b r s).pending = s.pending ∧
      (freeBin b r s).stack.bins = s.stack.bins.set b { s.stack.bins[b] with record := none } ∧
      (freeBin b r s).stack.exportQueue = s.stack.exportQueue ∧ (freeBin b r s).stack.writer = s.stack.writer ∧
      (freeBin b r s).board.rotation = s.board.rotation ∧ (freeBin b r s).board.phase = s.board.phase ∧
      (freeBin b r s).board.examined = s.board.examined ∧ (freeBin b r s).board.taken = s.board.taken ∧
      (freeBin b r s).board.lastTaken = s.board.lastTaken ∧
      (freeBin b r s).board.firstRound = s.board.firstRound ∧ (freeBin b r s).board.faulted = s.board.faulted ∧
      (freeBin b r s).board.followUp = s.board.followUp ∧ (freeBin b r s).board.period = s.board.period ∧
      (freeBin b r s).board.interval = s.board.interval := by
  refine ⟨rfl, rfl, rfl, rfl, rfl, rfl, rfl, rfl, rfl, rfl, rfl, rfl, rfl, rfl, rfl, rfl, rfl, rfl, rfl, rfl, rfl, rfl, rfl, rfl, rfl, rfl, rfl, rfl⟩

/-- A job enters the table (R68). -/
@[simp] theorem enterJob_frame (i : Fin 32) (j : Job) (e : PilotEntry) (r : BinRecord) :
    (enterJob i j e r s).device = s.device ∧ (enterJob i j e r s).session = s.session ∧
      (enterJob i j e r s).resetEpoch = s.resetEpoch ∧ (enterJob i j e r s).regs = s.regs ∧
      (enterJob i j e r s).events = s.events ∧ (enterJob i j e r s).ports = s.ports ∧
      (enterJob i j e r s).store = s.store ∧ (enterJob i j e r s).engine = s.engine ∧
      (enterJob i j e r s).board = s.board ∧ (enterJob i j e r s).bus = s.bus ∧
      (enterJob i j e r s).dram = s.dram ∧ (enterJob i j e r s).counts = s.counts ∧
      (enterJob i j e r s).freeDraws = s.freeDraws ∧ (enterJob i j e r s).pending = s.pending ∧
      (enterJob i j e r s).sched.jobs = s.sched.jobs.set i (some j) ∧
      (enterJob i j e r s).sched.queues = s.sched.queues.set j.fleet (s.sched.queues[j.fleet] ++ [i]) ∧
      (enterJob i j e r s).sched.priority = s.sched.priority ∧ (enterJob i j e r s).sched.mode = s.sched.mode ∧
      (enterJob i j e r s).sched.hold = s.sched.hold ∧
      (enterJob i j e r s).library.entries = s.library.entries.set j.pilot (some { e with useCount := e.useCount + 1 }) ∧
      (enterJob i j e r s).library.load = s.library.load ∧
      (enterJob i j e r s).library.serial = s.library.serial ∧ (enterJob i j e r s).stack.bins =
        s.stack.bins.set j.bin { s.stack.bins[j.bin] with record := some { r with pendingJobs := r.pendingJobs + 1 } } ∧
          (enterJob i j e r s).stack.exportQueue = s.stack.exportQueue ∧
          (enterJob i j e r s).stack.writer = s.stack.writer := by
  refine ⟨rfl, rfl, rfl, rfl, rfl, rfl, rfl, rfl, rfl, rfl, rfl, rfl, rfl, rfl, rfl, rfl, rfl, rfl, rfl, rfl, rfl, rfl, rfl, rfl, rfl⟩

/-! ## The request slots -/

section Slots

variable (b : BusMaster) (x : Slot)

/-- A slot update leaves the other slots, the port and the fault counts alone. -/
@[simp] theorem withSlot_scanner :
    (b.withSlot .scanner x).scanner = x ∧ (b.withSlot .scanner x).exporter = b.exporter ∧
      (b.withSlot .scanner x).loader = b.loader := ⟨rfl, rfl, rfl⟩

@[simp] theorem withSlot_exporter :
    (b.withSlot .exporter x).scanner = b.scanner ∧ (b.withSlot .exporter x).exporter = x ∧
      (b.withSlot .exporter x).loader = b.loader := ⟨rfl, rfl, rfl⟩

@[simp] theorem withSlot_loader :
    (b.withSlot .loader x).scanner = b.scanner ∧ (b.withSlot .loader x).exporter = b.exporter ∧
      (b.withSlot .loader x).loader = x := ⟨rfl, rfl, rfl⟩

@[simp] theorem withSlot_port (r : Requester) :
    (b.withSlot r x).portBusy = b.portBusy ∧ (b.withSlot r x).scannerFaults = b.scannerFaults ∧
      (b.withSlot r x).exporterFaults = b.exporterFaults ∧ (b.withSlot r x).loaderFaults = b.loaderFaults := by
  cases r <;> exact ⟨rfl, rfl, rfl, rfl⟩

/-- What a counted fault leaves of the unit (R161). -/
@[simp] theorem busFault_bus (s : State) (r : Requester) :
    (s.busFault r).bus.scanner = s.bus.scanner ∧ (s.busFault r).bus.exporter = s.bus.exporter ∧
      (s.busFault r).bus.loader = s.bus.loader ∧ (s.busFault r).bus.portBusy = s.bus.portBusy := by
  cases r <;> exact ⟨rfl, rfl, rfl, rfl⟩

end Slots

/-! ## Tables -/

/-- A mapped table, entry by entry. -/
@[simp] theorem mapTable_getElem {α β : Type} {n : Nat} (f : α → β) (v : Vector α n) (i : Nat) (h : i < n) :
    (mapTable f v)[i] = f v[i] := by simp [mapTable]

/-- An updated table, entry by entry. -/
theorem set_get {α : Type} {n : Nat} (v : Vector α n) (i j : Fin n) (x : α) :
    (v.set i x)[j] = if i = j then x else v[j] := by
  simp [Vector.getElem_set, Fin.ext_iff]

/-- The entry that was updated. -/
@[simp] theorem set_get_self {α : Type} {n : Nat} (v : Vector α n) (i : Fin n) (x : α) : (v.set i x)[i] = x := by
  rw [set_get, if_pos rfl]

/-- An entry that was not. -/
theorem set_get_other {α : Type} {n : Nat} (v : Vector α n) {i j : Fin n} (x : α) (h : i ≠ j) : (v.set i x)[j] = v[j] := by
  rw [set_get, if_neg h]

end Sys2Proof.Machine
end

