-- ==== Sys2Proof/Laws/Frames.lean ====
section
/-! SUPPORT. What each shared operation leaves alone: one lemma for each, whose conjuncts are the parts of the state that
it does not touch, whatever way it goes. -/

namespace Sys2Proof.Machine

/-! ## The issue arbiter and the scanner -/

/-- The issue arbiter touches the slots, the port and what the scanner holds of an answer (R159). -/
@[simp] theorem serveIssuePort_frame (s : State) :
    (serveIssuePort s).device = s.device ∧ (serveIssuePort s).session = s.session ∧
      (serveIssuePort s).resetEpoch = s.resetEpoch ∧ (serveIssuePort s).regs = s.regs ∧
      (serveIssuePort s).events = s.events ∧ (serveIssuePort s).ports = s.ports ∧
      (serveIssuePort s).store = s.store ∧ (serveIssuePort s).library = s.library ∧
      (serveIssuePort s).sched = s.sched ∧ (serveIssuePort s).engine = s.engine ∧
      (serveIssuePort s).stack = s.stack ∧ (serveIssuePort s).dram = s.dram ∧
      (serveIssuePort s).counts = s.counts ∧ (serveIssuePort s).freeDraws = s.freeDraws ∧
      (serveIssuePort s).pending = s.pending ∧ (serveIssuePort s).board.boxes = s.board.boxes ∧
      (serveIssuePort s).board.rotation = s.board.rotation ∧
      (serveIssuePort s).board.examined = s.board.examined ∧ (serveIssuePort s).board.taken = s.board.taken ∧
      (serveIssuePort s).board.lastTaken = s.board.lastTaken ∧
      (serveIssuePort s).board.firstRound = s.board.firstRound ∧
      (serveIssuePort s).board.faulted = s.board.faulted ∧
      (serveIssuePort s).board.followUp = s.board.followUp ∧ (serveIssuePort s).board.period = s.board.period ∧
      (serveIssuePort s).board.interval = s.board.interval ∧
      (serveIssuePort s).bus.scannerFaults = s.bus.scannerFaults ∧
      (serveIssuePort s).bus.exporterFaults = s.bus.exporterFaults ∧
      (serveIssuePort s).bus.loaderFaults = s.bus.loaderFaults := by
  unfold serveIssuePort
  split
  · simp
  · split
    · unfold refreshAnswer
      split <;> simp
    · simp
    · simp
    · simp

/-- The scanner posts a burst. -/
@[simp] theorem scannerPosts_frame (p : ScanPhase) (b : Burst) (s : State) :
    (scannerPosts p b s).device = s.device ∧ (scannerPosts p b s).session = s.session ∧
      (scannerPosts p b s).resetEpoch = s.resetEpoch ∧ (scannerPosts p b s).regs = s.regs ∧
      (scannerPosts p b s).events = s.events ∧ (scannerPosts p b s).ports = s.ports ∧
      (scannerPosts p b s).store = s.store ∧ (scannerPosts p b s).library = s.library ∧
      (scannerPosts p b s).sched = s.sched ∧ (scannerPosts p b s).engine = s.engine ∧
      (scannerPosts p b s).stack = s.stack ∧ (scannerPosts p b s).dram = s.dram ∧
      (scannerPosts p b s).counts = s.counts ∧ (scannerPosts p b s).freeDraws = s.freeDraws ∧
      (scannerPosts p b s).pending = s.pending ∧ (scannerPosts p b s).board.boxes = s.board.boxes ∧
      (scannerPosts p b s).board.rotation = s.board.rotation ∧
      (scannerPosts p b s).board.examined = s.board.examined ∧
      (scannerPosts p b s).board.taken = s.board.taken ∧
      (scannerPosts p b s).board.lastTaken = s.board.lastTaken ∧
      (scannerPosts p b s).board.firstRound = s.board.firstRound ∧
      (scannerPosts p b s).board.faulted = s.board.faulted ∧
      (scannerPosts p b s).board.followUp = s.board.followUp ∧
      (scannerPosts p b s).board.period = s.board.period ∧
      (scannerPosts p b s).board.interval = s.board.interval ∧
      (scannerPosts p b s).bus.exporter = s.bus.exporter ∧ (scannerPosts p b s).bus.loader = s.bus.loader ∧
      (scannerPosts p b s).bus.portBusy = s.bus.portBusy ∧
      (scannerPosts p b s).bus.scannerFaults = s.bus.scannerFaults ∧
      (scannerPosts p b s).bus.exporterFaults = s.bus.exporterFaults ∧
      (scannerPosts p b s).bus.loaderFaults = s.bus.loaderFaults := by
  simp [scannerPosts]

/-- The first reading of a post. -/
@[simp] theorem readHostPost_frame (b : Fin 64) (s : State) :
    (readHostPost b s).device = s.device ∧ (readHostPost b s).session = s.session ∧
      (readHostPost b s).resetEpoch = s.resetEpoch ∧ (readHostPost b s).regs = s.regs ∧
      (readHostPost b s).events = s.events ∧ (readHostPost b s).ports = s.ports ∧
      (readHostPost b s).store = s.store ∧ (readHostPost b s).library = s.library ∧
      (readHostPost b s).sched = s.sched ∧ (readHostPost b s).engine = s.engine ∧
      (readHostPost b s).stack = s.stack ∧ (readHostPost b s).dram = s.dram ∧
      (readHostPost b s).counts = s.counts ∧ (readHostPost b s).freeDraws = s.freeDraws ∧
      (readHostPost b s).pending = s.pending ∧ (readHostPost b s).board.boxes = s.board.boxes ∧
      (readHostPost b s).board.rotation = s.board.rotation ∧
      (readHostPost b s).board.examined = s.board.examined ∧ (readHostPost b s).board.taken = s.board.taken ∧
      (readHostPost b s).board.lastTaken = s.board.lastTaken ∧
      (readHostPost b s).board.firstRound = s.board.firstRound ∧
      (readHostPost b s).board.faulted = s.board.faulted ∧
      (readHostPost b s).board.followUp = s.board.followUp ∧ (readHostPost b s).board.period = s.board.period ∧
      (readHostPost b s).board.interval = s.board.interval ∧ (readHostPost b s).bus.exporter = s.bus.exporter ∧
      (readHostPost b s).bus.loader = s.bus.loader ∧ (readHostPost b s).bus.portBusy = s.bus.portBusy ∧
      (readHostPost b s).bus.scannerFaults = s.bus.scannerFaults ∧
      (readHostPost b s).bus.exporterFaults = s.bus.exporterFaults ∧
      (readHostPost b s).bus.loaderFaults = s.bus.loaderFaults := by
  simp [readHostPost]

/-- The body read. -/
@[simp] theorem readBody_frame (b : Fin 64) (post : Byte) (s : State) :
    (readBody b post s).device = s.device ∧ (readBody b post s).session = s.session ∧
      (readBody b post s).resetEpoch = s.resetEpoch ∧ (readBody b post s).regs = s.regs ∧
      (readBody b post s).events = s.events ∧ (readBody b post s).ports = s.ports ∧
      (readBody b post s).store = s.store ∧ (readBody b post s).library = s.library ∧
      (readBody b post s).sched = s.sched ∧ (readBody b post s).engine = s.engine ∧
      (readBody b post s).stack = s.stack ∧ (readBody b post s).dram = s.dram ∧
      (readBody b post s).counts = s.counts ∧ (readBody b post s).freeDraws = s.freeDraws ∧
      (readBody b post s).pending = s.pending ∧ (readBody b post s).board.boxes = s.board.boxes ∧
      (readBody b post s).board.rotation = s.board.rotation ∧
      (readBody b post s).board.examined = s.board.examined ∧ (readBody b post s).board.taken = s.board.taken ∧
      (readBody b post s).board.lastTaken = s.board.lastTaken ∧
      (readBody b post s).board.firstRound = s.board.firstRound ∧
      (readBody b post s).board.faulted = s.board.faulted ∧
      (readBody b post s).board.followUp = s.board.followUp ∧
      (readBody b post s).board.period = s.board.period ∧
      (readBody b post s).board.interval = s.board.interval ∧
      (readBody b post s).bus.exporter = s.bus.exporter ∧ (readBody b post s).bus.loader = s.bus.loader ∧
      (readBody b post s).bus.portBusy = s.bus.portBusy ∧
      (readBody b post s).bus.scannerFaults = s.bus.scannerFaults ∧
      (readBody b post s).bus.exporterFaults = s.bus.exporterFaults ∧
      (readBody b post s).bus.loaderFaults = s.bus.loaderFaults := by
  simp [readBody]

/-- The second reading of a post. -/
@[simp] theorem rereadPost_frame (b : Fin 64) (post : Byte) (body : List Byte) (s : State) :
    (rereadPost b post body s).device = s.device ∧ (rereadPost b post body s).session = s.session ∧
      (rereadPost b post body s).resetEpoch = s.resetEpoch ∧ (rereadPost b post body s).regs = s.regs ∧
      (rereadPost b post body s).events = s.events ∧ (rereadPost b post body s).ports = s.ports ∧
      (rereadPost b post body s).store = s.store ∧ (rereadPost b post body s).library = s.library ∧
      (rereadPost b post body s).sched = s.sched ∧ (rereadPost b post body s).engine = s.engine ∧
      (rereadPost b post body s).stack = s.stack ∧ (rereadPost b post body s).dram = s.dram ∧
      (rereadPost b post body s).counts = s.counts ∧ (rereadPost b post body s).freeDraws = s.freeDraws ∧
      (rereadPost b post body s).pending = s.pending ∧ (rereadPost b post body s).board.boxes = s.board.boxes ∧
      (rereadPost b post body s).board.rotation = s.board.rotation ∧
      (rereadPost b post body s).board.examined = s.board.examined ∧
      (rereadPost b post body s).board.taken = s.board.taken ∧
      (rereadPost b post body s).board.lastTaken = s.board.lastTaken ∧
      (rereadPost b post body s).board.firstRound = s.board.firstRound ∧
      (rereadPost b post body s).board.faulted = s.board.faulted ∧
      (rereadPost b post body s).board.followUp = s.board.followUp ∧
      (rereadPost b post body s).board.period = s.board.period ∧
      (rereadPost b post body s).board.interval = s.board.interval ∧
      (rereadPost b post body s).bus.exporter = s.bus.exporter ∧
      (rereadPost b post body s).bus.loader = s.bus.loader ∧
      (rereadPost b post body s).bus.portBusy = s.bus.portBusy ∧
      (rereadPost b post body s).bus.scannerFaults = s.bus.scannerFaults ∧
      (rereadPost b post body s).bus.exporterFaults = s.bus.exporterFaults ∧
      (rereadPost b post body s).bus.loaderFaults = s.bus.loaderFaults := by
  simp [rereadPost]

/-- The second baseline reading. -/
@[simp] theorem recheckPost_frame (b : Fin 64) (post : Byte) (s : State) :
    (recheckPost b post s).device = s.device ∧ (recheckPost b post s).session = s.session ∧
      (recheckPost b post s).resetEpoch = s.resetEpoch ∧ (recheckPost b post s).regs = s.regs ∧
      (recheckPost b post s).events = s.events ∧ (recheckPost b post s).ports = s.ports ∧
      (recheckPost b post s).store = s.store ∧ (recheckPost b post s).library = s.library ∧
      (recheckPost b post s).sched = s.sched ∧ (recheckPost b post s).engine = s.engine ∧
      (recheckPost b post s).stack = s.stack ∧ (recheckPost b post s).dram = s.dram ∧
      (recheckPost b post s).counts = s.counts ∧ (recheckPost b post s).freeDraws = s.freeDraws ∧
      (recheckPost b post s).pending = s.pending ∧ (recheckPost b post s).board.boxes = s.board.boxes ∧
      (recheckPost b post s).board.rotation = s.board.rotation ∧
      (recheckPost b post s).board.examined = s.board.examined ∧
      (recheckPost b post s).board.taken = s.board.taken ∧
      (recheckPost b post s).board.lastTaken = s.board.lastTaken ∧
      (recheckPost b post s).board.firstRound = s.board.firstRound ∧
      (recheckPost b post s).board.faulted = s.board.faulted ∧
      (recheckPost b post s).board.followUp = s.board.followUp ∧
      (recheckPost b post s).board.period = s.board.period ∧
      (recheckPost b post s).board.interval = s.board.interval ∧
      (recheckPost b post s).bus.exporter = s.bus.exporter ∧ (recheckPost b post s).bus.loader = s.bus.loader ∧
      (recheckPost b post s).bus.portBusy = s.bus.portBusy ∧
      (recheckPost b post s).bus.scannerFaults = s.bus.scannerFaults ∧
      (recheckPost b post s).bus.exporterFaults = s.bus.exporterFaults ∧
      (recheckPost b post s).bus.loaderFaults = s.bus.loaderFaults := by
  simp [recheckPost]

/-- The status stage. -/
@[simp] theorem beginStatusStage_frame (s : State) :
    (beginStatusStage s).device = s.device ∧ (beginStatusStage s).session = s.session ∧
      (beginStatusStage s).resetEpoch = s.resetEpoch ∧ (beginStatusStage s).regs = s.regs ∧
      (beginStatusStage s).events = s.events ∧ (beginStatusStage s).ports = s.ports ∧
      (beginStatusStage s).store = s.store ∧ (beginStatusStage s).library = s.library ∧
      (beginStatusStage s).sched = s.sched ∧ (beginStatusStage s).engine = s.engine ∧
      (beginStatusStage s).stack = s.stack ∧ (beginStatusStage s).dram = s.dram ∧
      (beginStatusStage s).freeDraws = s.freeDraws ∧ (beginStatusStage s).pending = s.pending ∧
      (beginStatusStage s).board.boxes = s.board.boxes ∧
      (beginStatusStage s).board.rotation = s.board.rotation ∧
      (beginStatusStage s).board.examined = s.board.examined ∧
      (beginStatusStage s).board.taken = s.board.taken ∧
      (beginStatusStage s).board.lastTaken = s.board.lastTaken ∧
      (beginStatusStage s).board.firstRound = s.board.firstRound ∧
      (beginStatusStage s).board.faulted = s.board.faulted ∧
      (beginStatusStage s).board.followUp = s.board.followUp ∧
      (beginStatusStage s).board.period = s.board.period ∧
      (beginStatusStage s).board.interval = s.board.interval ∧
      (beginStatusStage s).bus.exporter = s.bus.exporter ∧ (beginStatusStage s).bus.loader = s.bus.loader ∧
      (beginStatusStage s).bus.portBusy = s.bus.portBusy ∧
      (beginStatusStage s).bus.scannerFaults = s.bus.scannerFaults ∧
      (beginStatusStage s).bus.exporterFaults = s.bus.exporterFaults ∧
      (beginStatusStage s).bus.loaderFaults = s.bus.loaderFaults ∧
      (beginStatusStage s).counts.eccCorrected = s.counts.eccCorrected ∧
      (beginStatusStage s).counts.pilotDamage = s.counts.pilotDamage ∧
      (beginStatusStage s).counts.poison = s.counts.poison ∧
      (beginStatusStage s).counts.discardedWrites = s.counts.discardedWrites := by
  simp [beginStatusStage]

/-- The first write of an answer. -/
@[simp] theorem writeOutcome_frame (round : AnswerRound) (b : Fin 64) (s : State) :
    (writeOutcome round b s).device = s.device ∧ (writeOutcome round b s).session = s.session ∧
      (writeOutcome round b s).resetEpoch = s.resetEpoch ∧ (writeOutcome round b s).regs = s.regs ∧
      (writeOutcome round b s).events = s.events ∧ (writeOutcome round b s).ports = s.ports ∧
      (writeOutcome round b s).store = s.store ∧ (writeOutcome round b s).library = s.library ∧
      (writeOutcome round b s).sched = s.sched ∧ (writeOutcome round b s).engine = s.engine ∧
      (writeOutcome round b s).stack = s.stack ∧ (writeOutcome round b s).dram = s.dram ∧
      (writeOutcome round b s).counts = s.counts ∧ (writeOutcome round b s).freeDraws = s.freeDraws ∧
      (writeOutcome round b s).pending = s.pending ∧ (writeOutcome round b s).board.boxes = s.board.boxes ∧
      (writeOutcome round b s).board.rotation = s.board.rotation ∧
      (writeOutcome round b s).board.examined = s.board.examined ∧
      (writeOutcome round b s).board.taken = s.board.taken ∧
      (writeOutcome round b s).board.lastTaken = s.board.lastTaken ∧
      (writeOutcome round b s).board.firstRound = s.board.firstRound ∧
      (writeOutcome round b s).board.faulted = s.board.faulted ∧
      (writeOutcome round b s).board.followUp = s.board.followUp ∧
      (writeOutcome round b s).board.period = s.board.period ∧
      (writeOutcome round b s).board.interval = s.board.interval ∧
      (writeOutcome round b s).bus.exporter = s.bus.exporter ∧
      (writeOutcome round b s).bus.loader = s.bus.loader ∧
      (writeOutcome round b s).bus.portBusy = s.bus.portBusy ∧
      (writeOutcome round b s).bus.scannerFaults = s.bus.scannerFaults ∧
      (writeOutcome round b s).bus.exporterFaults = s.bus.exporterFaults ∧
      (writeOutcome round b s).bus.loaderFaults = s.bus.loaderFaults := by
  simp [writeOutcome]

/-- The second write of an answer. -/
@[simp] theorem writePost_frame (round : AnswerRound) (b : Fin 64) (sent : Option Answer) (s : State) :
    (writePost round b sent s).device = s.device ∧ (writePost round b sent s).session = s.session ∧
      (writePost round b sent s).resetEpoch = s.resetEpoch ∧ (writePost round b sent s).regs = s.regs ∧
      (writePost round b sent s).events = s.events ∧ (writePost round b sent s).ports = s.ports ∧
      (writePost round b sent s).store = s.store ∧ (writePost round b sent s).library = s.library ∧
      (writePost round b sent s).sched = s.sched ∧ (writePost round b sent s).engine = s.engine ∧
      (writePost round b sent s).stack = s.stack ∧ (writePost round b sent s).dram = s.dram ∧
      (writePost round b sent s).counts = s.counts ∧ (writePost round b sent s).freeDraws = s.freeDraws ∧
      (writePost round b sent s).pending = s.pending ∧ (writePost round b sent s).board.boxes = s.board.boxes ∧
      (writePost round b sent s).board.rotation = s.board.rotation ∧
      (writePost round b sent s).board.examined = s.board.examined ∧
      (writePost round b sent s).board.taken = s.board.taken ∧
      (writePost round b sent s).board.lastTaken = s.board.lastTaken ∧
      (writePost round b sent s).board.firstRound = s.board.firstRound ∧
      (writePost round b sent s).board.faulted = s.board.faulted ∧
      (writePost round b sent s).board.followUp = s.board.followUp ∧
      (writePost round b sent s).board.period = s.board.period ∧
      (writePost round b sent s).board.interval = s.board.interval ∧
      (writePost round b sent s).bus.exporter = s.bus.exporter ∧
      (writePost round b sent s).bus.loader = s.bus.loader ∧
      (writePost round b sent s).bus.portBusy = s.bus.portBusy ∧
      (writePost round b sent s).bus.scannerFaults = s.bus.scannerFaults ∧
      (writePost round b sent s).bus.exporterFaults = s.bus.exporterFaults ∧
      (writePost round b sent s).bus.loaderFaults = s.bus.loaderFaults := by
  simp [writePost]

/-- The second round. -/
@[simp] theorem goSecondRound_frame (start : Nat) (s : State) :
    (goSecondRound start s).device = s.device ∧ (goSecondRound start s).session = s.session ∧
      (goSecondRound start s).resetEpoch = s.resetEpoch ∧ (goSecondRound start s).regs = s.regs ∧
      (goSecondRound start s).events = s.events ∧ (goSecondRound start s).ports = s.ports ∧
      (goSecondRound start s).store = s.store ∧ (goSecondRound start s).library = s.library ∧
      (goSecondRound start s).sched = s.sched ∧ (goSecondRound start s).engine = s.engine ∧
      (goSecondRound start s).stack = s.stack ∧ (goSecondRound start s).dram = s.dram ∧
      (goSecondRound start s).freeDraws = s.freeDraws ∧ (goSecondRound start s).pending = s.pending ∧
      (goSecondRound start s).board.boxes = s.board.boxes ∧
      (goSecondRound start s).board.rotation = s.board.rotation ∧
      (goSecondRound start s).board.examined = s.board.examined ∧
      (goSecondRound start s).board.taken = s.board.taken ∧
      (goSecondRound start s).board.lastTaken = s.board.lastTaken ∧
      (goSecondRound start s).board.firstRound = s.board.firstRound ∧
      (goSecondRound start s).board.faulted = s.board.faulted ∧
      (goSecondRound start s).board.followUp = s.board.followUp ∧
      (goSecondRound start s).board.period = s.board.period ∧
      (goSecondRound start s).board.interval = s.board.interval ∧
      (goSecondRound start s).bus.exporter = s.bus.exporter ∧
      (goSecondRound start s).bus.loader = s.bus.loader ∧
      (goSecondRound start s).bus.portBusy = s.bus.portBusy ∧
      (goSecondRound start s).bus.scannerFaults = s.bus.scannerFaults ∧
      (goSecondRound start s).bus.exporterFaults = s.bus.exporterFaults ∧
      (goSecondRound start s).bus.loaderFaults = s.bus.loaderFaults ∧
      (goSecondRound start s).counts.eccCorrected = s.counts.eccCorrected ∧
      (goSecondRound start s).counts.pilotDamage = s.counts.pilotDamage ∧
      (goSecondRound start s).counts.poison = s.counts.poison ∧
      (goSecondRound start s).counts.discardedWrites = s.counts.discardedWrites := by
  unfold goSecondRound
  split <;> simp

/-- The first round. -/
@[simp] theorem goFirstRound_frame (s : State) :
    (goFirstRound s).device = s.device ∧ (goFirstRound s).session = s.session ∧
      (goFirstRound s).resetEpoch = s.resetEpoch ∧ (goFirstRound s).regs = s.regs ∧
      (goFirstRound s).events = s.events ∧ (goFirstRound s).ports = s.ports ∧ (goFirstRound s).store = s.store ∧
      (goFirstRound s).library = s.library ∧ (goFirstRound s).sched = s.sched ∧
      (goFirstRound s).engine = s.engine ∧ (goFirstRound s).stack = s.stack ∧ (goFirstRound s).dram = s.dram ∧
      (goFirstRound s).freeDraws = s.freeDraws ∧ (goFirstRound s).pending = s.pending ∧
      (goFirstRound s).board.boxes = s.board.boxes ∧ (goFirstRound s).board.rotation = s.board.rotation ∧
      (goFirstRound s).board.examined = s.board.examined ∧ (goFirstRound s).board.taken = s.board.taken ∧
      (goFirstRound s).board.lastTaken = s.board.lastTaken ∧ (goFirstRound s).board.faulted = s.board.faulted ∧
      (goFirstRound s).board.followUp = s.board.followUp ∧ (goFirstRound s).board.period = s.board.period ∧
      (goFirstRound s).board.interval = s.board.interval ∧ (goFirstRound s).bus.exporter = s.bus.exporter ∧
      (goFirstRound s).bus.loader = s.bus.loader ∧ (goFirstRound s).bus.portBusy = s.bus.portBusy ∧
      (goFirstRound s).bus.scannerFaults = s.bus.scannerFaults ∧
      (goFirstRound s).bus.exporterFaults = s.bus.exporterFaults ∧
      (goFirstRound s).bus.loaderFaults = s.bus.loaderFaults ∧
      (goFirstRound s).counts.eccCorrected = s.counts.eccCorrected ∧
      (goFirstRound s).counts.pilotDamage = s.counts.pilotDamage ∧
      (goFirstRound s).counts.poison = s.counts.poison ∧
      (goFirstRound s).counts.discardedWrites = s.counts.discardedWrites := by
  unfold goFirstRound
  split <;> simp

/-- The answer stage goes on. -/
@[simp] theorem nextAnswer_frame (round : AnswerRound) (b : Fin 64) (s : State) :
    (nextAnswer round b s).device = s.device ∧ (nextAnswer round b s).session = s.session ∧
      (nextAnswer round b s).resetEpoch = s.resetEpoch ∧ (nextAnswer round b s).regs = s.regs ∧
      (nextAnswer round b s).events = s.events ∧ (nextAnswer round b s).ports = s.ports ∧
      (nextAnswer round b s).store = s.store ∧ (nextAnswer round b s).library = s.library ∧
      (nextAnswer round b s).sched = s.sched ∧ (nextAnswer round b s).engine = s.engine ∧
      (nextAnswer round b s).stack = s.stack ∧ (nextAnswer round b s).dram = s.dram ∧
      (nextAnswer round b s).freeDraws = s.freeDraws ∧ (nextAnswer round b s).pending = s.pending ∧
      (nextAnswer round b s).board.boxes = s.board.boxes ∧
      (nextAnswer round b s).board.rotation = s.board.rotation ∧
      (nextAnswer round b s).board.examined = s.board.examined ∧
      (nextAnswer round b s).board.taken = s.board.taken ∧
      (nextAnswer round b s).board.lastTaken = s.board.lastTaken ∧
      (nextAnswer round b s).board.faulted = s.board.faulted ∧
      (nextAnswer round b s).board.followUp = s.board.followUp ∧
      (nextAnswer round b s).board.period = s.board.period ∧
      (nextAnswer round b s).board.interval = s.board.interval ∧
      (nextAnswer round b s).bus.exporter = s.bus.exporter ∧ (nextAnswer round b s).bus.loader = s.bus.loader ∧
      (nextAnswer round b s).bus.portBusy = s.bus.portBusy ∧
      (nextAnswer round b s).bus.scannerFaults = s.bus.scannerFaults ∧
      (nextAnswer round b s).bus.exporterFaults = s.bus.exporterFaults ∧
      (nextAnswer round b s).bus.loaderFaults = s.bus.loaderFaults ∧
      (nextAnswer round b s).counts.eccCorrected = s.counts.eccCorrected ∧
      (nextAnswer round b s).counts.pilotDamage = s.counts.pilotDamage ∧
      (nextAnswer round b s).counts.poison = s.counts.poison ∧
      (nextAnswer round b s).counts.discardedWrites = s.counts.discardedWrites := by
  unfold nextAnswer
  split <;> simp

/-- The end of the read stage. -/
@[simp] theorem endReadStage_frame (s : State) :
    (endReadStage s).device = s.device ∧ (endReadStage s).session = s.session ∧
      (endReadStage s).resetEpoch = s.resetEpoch ∧ (endReadStage s).regs = s.regs ∧
      (endReadStage s).events = s.events ∧ (endReadStage s).ports = s.ports ∧ (endReadStage s).store = s.store ∧
      (endReadStage s).library = s.library ∧ (endReadStage s).sched = s.sched ∧
      (endReadStage s).engine = s.engine ∧ (endReadStage s).stack = s.stack ∧ (endReadStage s).dram = s.dram ∧
      (endReadStage s).freeDraws = s.freeDraws ∧ (endReadStage s).pending = s.pending ∧
      (endReadStage s).board.boxes = s.board.boxes ∧ (endReadStage s).board.examined = s.board.examined ∧
      (endReadStage s).board.taken = s.board.taken ∧ (endReadStage s).board.lastTaken = s.board.lastTaken ∧
      (endReadStage s).board.followUp = s.board.followUp ∧ (endReadStage s).board.period = s.board.period ∧
      (endReadStage s).board.interval = s.board.interval ∧ (endReadStage s).bus.exporter = s.bus.exporter ∧
      (endReadStage s).bus.loader = s.bus.loader ∧ (endReadStage s).bus.portBusy = s.bus.portBusy ∧
      (endReadStage s).bus.scannerFaults = s.bus.scannerFaults ∧
      (endReadStage s).bus.exporterFaults = s.bus.exporterFaults ∧
      (endReadStage s).bus.loaderFaults = s.bus.loaderFaults ∧
      (endReadStage s).counts.eccCorrected = s.counts.eccCorrected ∧
      (endReadStage s).counts.pilotDamage = s.counts.pilotDamage ∧
      (endReadStage s).counts.poison = s.counts.poison ∧
      (endReadStage s).counts.discardedWrites = s.counts.discardedWrites := by
  simp [endReadStage]

/-- The read stage goes on. -/
@[simp] theorem nextBox_frame (s : State) :
    (nextBox s).device = s.device ∧ (nextBox s).session = s.session ∧ (nextBox s).resetEpoch = s.resetEpoch ∧
      (nextBox s).regs = s.regs ∧ (nextBox s).events = s.events ∧ (nextBox s).ports = s.ports ∧
      (nextBox s).store = s.store ∧ (nextBox s).library = s.library ∧ (nextBox s).sched = s.sched ∧
      (nextBox s).engine = s.engine ∧ (nextBox s).stack = s.stack ∧ (nextBox s).dram = s.dram ∧
      (nextBox s).freeDraws = s.freeDraws ∧ (nextBox s).pending = s.pending ∧
      (nextBox s).board.boxes = s.board.boxes ∧ (nextBox s).board.taken = s.board.taken ∧
      (nextBox s).board.lastTaken = s.board.lastTaken ∧ (nextBox s).board.followUp = s.board.followUp ∧
      (nextBox s).board.period = s.board.period ∧ (nextBox s).board.interval = s.board.interval ∧
      (nextBox s).bus.exporter = s.bus.exporter ∧ (nextBox s).bus.loader = s.bus.loader ∧
      (nextBox s).bus.portBusy = s.bus.portBusy ∧ (nextBox s).bus.scannerFaults = s.bus.scannerFaults ∧
      (nextBox s).bus.exporterFaults = s.bus.exporterFaults ∧
      (nextBox s).bus.loaderFaults = s.bus.loaderFaults ∧
      (nextBox s).counts.eccCorrected = s.counts.eccCorrected ∧
      (nextBox s).counts.pilotDamage = s.counts.pilotDamage ∧ (nextBox s).counts.poison = s.counts.poison ∧
      (nextBox s).counts.discardedWrites = s.counts.discardedWrites := by
  unfold nextBox
  dsimp only
  split <;> simp

/-- A take is counted. -/
@[simp] theorem countTake_frame (b : Fin 64) (s : State) :
    (countTake b s).device = s.device ∧ (countTake b s).session = s.session ∧
      (countTake b s).resetEpoch = s.resetEpoch ∧ (countTake b s).regs = s.regs ∧
      (countTake b s).events = s.events ∧ (countTake b s).ports = s.ports ∧ (countTake b s).store = s.store ∧
      (countTake b s).library = s.library ∧ (countTake b s).sched = s.sched ∧
      (countTake b s).engine = s.engine ∧ (countTake b s).stack = s.stack ∧ (countTake b s).dram = s.dram ∧
      (countTake b s).freeDraws = s.freeDraws ∧ (countTake b s).pending = s.pending ∧
      (countTake b s).board.boxes = s.board.boxes ∧ (countTake b s).board.followUp = s.board.followUp ∧
      (countTake b s).board.period = s.board.period ∧ (countTake b s).board.interval = s.board.interval ∧
      (countTake b s).bus.exporter = s.bus.exporter ∧ (countTake b s).bus.loader = s.bus.loader ∧
      (countTake b s).bus.portBusy = s.bus.portBusy ∧ (countTake b s).bus.scannerFaults = s.bus.scannerFaults ∧
      (countTake b s).bus.exporterFaults = s.bus.exporterFaults ∧
      (countTake b s).bus.loaderFaults = s.bus.loaderFaults ∧
      (countTake b s).counts.eccCorrected = s.counts.eccCorrected ∧
      (countTake b s).counts.pilotDamage = s.counts.pilotDamage ∧
      (countTake b s).counts.poison = s.counts.poison ∧
      (countTake b s).counts.discardedWrites = s.counts.discardedWrites := by
  unfold countTake
  dsimp only
  split <;> simp

/-- A scan starts. -/
@[simp] theorem startScan_frame (s : State) :
    (startScan s).device = s.device ∧ (startScan s).session = s.session ∧
      (startScan s).resetEpoch = s.resetEpoch ∧ (startScan s).regs = s.regs ∧ (startScan s).events = s.events ∧
      (startScan s).ports = s.ports ∧ (startScan s).store = s.store ∧ (startScan s).library = s.library ∧
      (startScan s).sched = s.sched ∧ (startScan s).engine = s.engine ∧ (startScan s).stack = s.stack ∧
      (startScan s).dram = s.dram ∧ (startScan s).counts = s.counts ∧ (startScan s).freeDraws = s.freeDraws ∧
      (startScan s).pending = s.pending ∧ (startScan s).board.boxes = s.board.boxes ∧
      (startScan s).board.rotation = s.board.rotation ∧ (startScan s).board.followUp = s.board.followUp ∧
      (startScan s).board.period = s.board.period ∧ (startScan s).board.interval = s.board.interval ∧
      (startScan s).bus.exporter = s.bus.exporter ∧ (startScan s).bus.loader = s.bus.loader ∧
      (startScan s).bus.portBusy = s.bus.portBusy ∧ (startScan s).bus.scannerFaults = s.bus.scannerFaults ∧
      (startScan s).bus.exporterFaults = s.bus.exporterFaults ∧
      (startScan s).bus.loaderFaults = s.bus.loaderFaults := by
  simp [startScan]

/-- A scan is requested. -/
@[simp] theorem requestScan_frame (s : State) :
    (requestScan s).device = s.device ∧ (requestScan s).session = s.session ∧
      (requestScan s).resetEpoch = s.resetEpoch ∧ (requestScan s).regs = s.regs ∧
      (requestScan s).events = s.events ∧ (requestScan s).ports = s.ports ∧ (requestScan s).store = s.store ∧
      (requestScan s).library = s.library ∧ (requestScan s).sched = s.sched ∧
      (requestScan s).engine = s.engine ∧ (requestScan s).stack = s.stack ∧ (requestScan s).dram = s.dram ∧
      (requestScan s).counts = s.counts ∧ (requestScan s).freeDraws = s.freeDraws ∧
      (requestScan s).pending = s.pending ∧ (requestScan s).board.boxes = s.board.boxes ∧
      (requestScan s).board.rotation = s.board.rotation ∧ (requestScan s).board.period = s.board.period ∧
      (requestScan s).board.interval = s.board.interval ∧ (requestScan s).bus.exporter = s.bus.exporter ∧
      (requestScan s).bus.loader = s.bus.loader ∧ (requestScan s).bus.portBusy = s.bus.portBusy ∧
      (requestScan s).bus.scannerFaults = s.bus.scannerFaults ∧
      (requestScan s).bus.exporterFaults = s.bus.exporterFaults ∧
      (requestScan s).bus.loaderFaults = s.bus.loaderFaults := by
  unfold requestScan
  split
  · simp
  · split <;> simp

/-- A scan ends. -/
@[simp] theorem endScan_frame (s : State) :
    (endScan s).device = s.device ∧ (endScan s).session = s.session ∧ (endScan s).resetEpoch = s.resetEpoch ∧
      (endScan s).regs = s.regs ∧ (endScan s).events = s.events ∧ (endScan s).ports = s.ports ∧
      (endScan s).store = s.store ∧ (endScan s).library = s.library ∧ (endScan s).sched = s.sched ∧
      (endScan s).engine = s.engine ∧ (endScan s).stack = s.stack ∧ (endScan s).dram = s.dram ∧
      (endScan s).counts = s.counts ∧ (endScan s).freeDraws = s.freeDraws ∧ (endScan s).pending = s.pending ∧
      (endScan s).board.boxes = s.board.boxes ∧ (endScan s).board.rotation = s.board.rotation ∧
      (endScan s).board.period = s.board.period ∧ (endScan s).board.interval = s.board.interval ∧
      (endScan s).bus.exporter = s.bus.exporter ∧ (endScan s).bus.loader = s.bus.loader ∧
      (endScan s).bus.portBusy = s.bus.portBusy ∧ (endScan s).bus.scannerFaults = s.bus.scannerFaults ∧
      (endScan s).bus.exporterFaults = s.bus.exporterFaults ∧
      (endScan s).bus.loaderFaults = s.bus.loaderFaults := by
  unfold endScan
  dsimp only
  split <;> simp

/-! ## Reads of local DRAM -/

/-- A read of one ECC word may count a correction (R166). -/
@[simp] theorem eccRead_frame {α : Type} (e : Ecc) (v : α) (s : State) :
    ((eccRead e v s).1).device = s.device ∧ ((eccRead e v s).1).session = s.session ∧
      ((eccRead e v s).1).resetEpoch = s.resetEpoch ∧ ((eccRead e v s).1).regs = s.regs ∧
      ((eccRead e v s).1).events = s.events ∧ ((eccRead e v s).1).ports = s.ports ∧
      ((eccRead e v s).1).store = s.store ∧ ((eccRead e v s).1).library = s.library ∧
      ((eccRead e v s).1).sched = s.sched ∧ ((eccRead e v s).1).engine = s.engine ∧
      ((eccRead e v s).1).stack = s.stack ∧ ((eccRead e v s).1).board = s.board ∧
      ((eccRead e v s).1).bus = s.bus ∧ ((eccRead e v s).1).dram = s.dram ∧
      ((eccRead e v s).1).freeDraws = s.freeDraws ∧ ((eccRead e v s).1).pending = s.pending ∧
      ((eccRead e v s).1).counts.scan = s.counts.scan ∧
      ((eccRead e v s).1).counts.pilotDamage = s.counts.pilotDamage ∧
      ((eccRead e v s).1).counts.poison = s.counts.poison ∧
      ((eccRead e v s).1).counts.discardedWrites = s.counts.discardedWrites := by
  unfold eccRead
  split <;> simp

/-- A read of a raw word. -/
@[simp] theorem readRaw_frame (a : Nat) (s : State) :
    ((readRaw a s).1).device = s.device ∧ ((readRaw a s).1).session = s.session ∧
      ((readRaw a s).1).resetEpoch = s.resetEpoch ∧ ((readRaw a s).1).regs = s.regs ∧
      ((readRaw a s).1).events = s.events ∧ ((readRaw a s).1).ports = s.ports ∧
      ((readRaw a s).1).store = s.store ∧ ((readRaw a s).1).library = s.library ∧
      ((readRaw a s).1).sched = s.sched ∧ ((readRaw a s).1).engine = s.engine ∧
      ((readRaw a s).1).stack = s.stack ∧ ((readRaw a s).1).board = s.board ∧ ((readRaw a s).1).bus = s.bus ∧
      ((readRaw a s).1).dram = s.dram ∧ ((readRaw a s).1).freeDraws = s.freeDraws ∧
      ((readRaw a s).1).pending = s.pending ∧ ((readRaw a s).1).counts.scan = s.counts.scan ∧
      ((readRaw a s).1).counts.pilotDamage = s.counts.pilotDamage ∧
      ((readRaw a s).1).counts.poison = s.counts.poison ∧
      ((readRaw a s).1).counts.discardedWrites = s.counts.discardedWrites := by
  simp [readRaw]

/-- A read of a pilot sample. -/
@[simp] theorem readPilot_frame (a : Nat) (s : State) :
    ((readPilot a s).1).device = s.device ∧ ((readPilot a s).1).session = s.session ∧
      ((readPilot a s).1).resetEpoch = s.resetEpoch ∧ ((readPilot a s).1).regs = s.regs ∧
      ((readPilot a s).1).events = s.events ∧ ((readPilot a s).1).ports = s.ports ∧
      ((readPilot a s).1).store = s.store ∧ ((readPilot a s).1).library = s.library ∧
      ((readPilot a s).1).sched = s.sched ∧ ((readPilot a s).1).engine = s.engine ∧
      ((readPilot a s).1).stack = s.stack ∧ ((readPilot a s).1).board = s.board ∧
      ((readPilot a s).1).bus = s.bus ∧ ((readPilot a s).1).dram = s.dram ∧
      ((readPilot a s).1).freeDraws = s.freeDraws ∧ ((readPilot a s).1).pending = s.pending ∧
      ((readPilot a s).1).counts.scan = s.counts.scan ∧
      ((readPilot a s).1).counts.pilotDamage = s.counts.pilotDamage ∧
      ((readPilot a s).1).counts.poison = s.counts.poison ∧
      ((readPilot a s).1).counts.discardedWrites = s.counts.discardedWrites := by
  simp [readPilot]

/-- A read of accumulators. -/
@[simp] theorem readAccs_frame (a n : Nat) (s : State) :
    ((readAccs a n s).1).device = s.device ∧ ((readAccs a n s).1).session = s.session ∧
      ((readAccs a n s).1).resetEpoch = s.resetEpoch ∧ ((readAccs a n s).1).regs = s.regs ∧
      ((readAccs a n s).1).events = s.events ∧ ((readAccs a n s).1).ports = s.ports ∧
      ((readAccs a n s).1).store = s.store ∧ ((readAccs a n s).1).library = s.library ∧
      ((readAccs a n s).1).sched = s.sched ∧ ((readAccs a n s).1).engine = s.engine ∧
      ((readAccs a n s).1).stack = s.stack ∧ ((readAccs a n s).1).board = s.board ∧
      ((readAccs a n s).1).bus = s.bus ∧ ((readAccs a n s).1).dram = s.dram ∧
      ((readAccs a n s).1).freeDraws = s.freeDraws ∧ ((readAccs a n s).1).pending = s.pending ∧
      ((readAccs a n s).1).counts.scan = s.counts.scan ∧
      ((readAccs a n s).1).counts.pilotDamage = s.counts.pilotDamage ∧
      ((readAccs a n s).1).counts.poison = s.counts.poison ∧
      ((readAccs a n s).1).counts.discardedWrites = s.counts.discardedWrites := by
  simp [readAccs]

/-- A read of a pass (R42). -/
@[simp] theorem readSample_frame (c i : Nat) (s : State) :
    ((readSample c i s).1).device = s.device ∧ ((readSample c i s).1).session = s.session ∧
      ((readSample c i s).1).resetEpoch = s.resetEpoch ∧ ((readSample c i s).1).regs = s.regs ∧
      ((readSample c i s).1).events = s.events ∧ ((readSample c i s).1).ports = s.ports ∧
      ((readSample c i s).1).store = s.store ∧ ((readSample c i s).1).library = s.library ∧
      ((readSample c i s).1).sched = s.sched ∧ ((readSample c i s).1).engine = s.engine ∧
      ((readSample c i s).1).stack = s.stack ∧ ((readSample c i s).1).board = s.board ∧
      ((readSample c i s).1).bus = s.bus ∧ ((readSample c i s).1).dram = s.dram ∧
      ((readSample c i s).1).freeDraws = s.freeDraws ∧ ((readSample c i s).1).pending = s.pending ∧
      ((readSample c i s).1).counts.scan = s.counts.scan ∧
      ((readSample c i s).1).counts.pilotDamage = s.counts.pilotDamage ∧
      ((readSample c i s).1).counts.poison = s.counts.poison ∧
      ((readSample c i s).1).counts.discardedWrites = s.counts.discardedWrites := by
  have h := readRaw_frame (rawAddress c (slotOf i)) s
  unfold readSample
  split
  · simp
  · split <;> simp_all

/-! ## Exports -/

/-- Forming a record (R130). -/
@[simp] theorem formSamples_frame (b : Fin 8) (r : BinRecord) (i : Nat) (s : State) :
    ((formSamples b r i s).1).device = s.device ∧ ((formSamples b r i s).1).session = s.session ∧
      ((formSamples b r i s).1).resetEpoch = s.resetEpoch ∧ ((formSamples b r i s).1).regs = s.regs ∧
      ((formSamples b r i s).1).events = s.events ∧ ((formSamples b r i s).1).ports = s.ports ∧
      ((formSamples b r i s).1).store = s.store ∧ ((formSamples b r i s).1).library = s.library ∧
      ((formSamples b r i s).1).sched = s.sched ∧ ((formSamples b r i s).1).engine = s.engine ∧
      ((formSamples b r i s).1).board = s.board ∧ ((formSamples b r i s).1).bus = s.bus ∧
      ((formSamples b r i s).1).dram = s.dram ∧ ((formSamples b r i s).1).freeDraws = s.freeDraws ∧
      ((formSamples b r i s).1).pending = s.pending ∧
      ((formSamples b r i s).1).stack.exportQueue = s.stack.exportQueue ∧
      ((formSamples b r i s).1).stack.writer = s.stack.writer ∧
      ((formSamples b r i s).1).counts.scan = s.counts.scan ∧
      ((formSamples b r i s).1).counts.pilotDamage = s.counts.pilotDamage ∧
      ((formSamples b r i s).1).counts.discardedWrites = s.counts.discardedWrites := by
  have h := readAccs_frame (accAddress b.val i 0) r.lags s
  unfold formSamples
  dsimp only
  split
  · simp
  · split <;> simp_all

/-- Forming the next record. -/
@[simp] theorem formNext_frame (r : BinRecord) (w : Writer) (s : State) :
    ((formNext r w s).1).device = s.device ∧ ((formNext r w s).1).session = s.session ∧
      ((formNext r w s).1).resetEpoch = s.resetEpoch ∧ ((formNext r w s).1).regs = s.regs ∧
      ((formNext r w s).1).events = s.events ∧ ((formNext r w s).1).ports = s.ports ∧
      ((formNext r w s).1).store = s.store ∧ ((formNext r w s).1).library = s.library ∧
      ((formNext r w s).1).sched = s.sched ∧ ((formNext r w s).1).engine = s.engine ∧
      ((formNext r w s).1).board = s.board ∧ ((formNext r w s).1).bus = s.bus ∧
      ((formNext r w s).1).dram = s.dram ∧ ((formNext r w s).1).freeDraws = s.freeDraws ∧
      ((formNext r w s).1).pending = s.pending ∧ ((formNext r w s).1).stack.exportQueue = s.stack.exportQueue ∧
      ((formNext r w s).1).stack.writer = s.stack.writer ∧ ((formNext r w s).1).counts.scan = s.counts.scan ∧
      ((formNext r w s).1).counts.pilotDamage = s.counts.pilotDamage ∧
      ((formNext r w s).1).counts.discardedWrites = s.counts.discardedWrites := by
  simp [formNext]

/-- Forming records until a burst is filled. -/
@[simp] theorem formUntil_frame (n need : Nat) (w : Writer) (s : State) :
    (formUntil n need w s).1.device = s.device ∧ (formUntil n need w s).1.session = s.session ∧
      (formUntil n need w s).1.resetEpoch = s.resetEpoch ∧ (formUntil n need w s).1.regs = s.regs ∧
      (formUntil n need w s).1.events = s.events ∧ (formUntil n need w s).1.ports = s.ports ∧
      (formUntil n need w s).1.store = s.store ∧ (formUntil n need w s).1.library = s.library ∧
      (formUntil n need w s).1.sched = s.sched ∧ (formUntil n need w s).1.engine = s.engine ∧
      (formUntil n need w s).1.board = s.board ∧ (formUntil n need w s).1.bus = s.bus ∧
      (formUntil n need w s).1.dram = s.dram ∧ (formUntil n need w s).1.freeDraws = s.freeDraws ∧
      (formUntil n need w s).1.pending = s.pending ∧
      (formUntil n need w s).1.stack.exportQueue = s.stack.exportQueue ∧
      (formUntil n need w s).1.stack.writer = s.stack.writer ∧
      (formUntil n need w s).1.counts.scan = s.counts.scan ∧
      (formUntil n need w s).1.counts.pilotDamage = s.counts.pilotDamage ∧
      (formUntil n need w s).1.counts.discardedWrites = s.counts.discardedWrites := by
  induction n generalizing w s with
  | zero => simp [formUntil]
  | succ n ih =>
    unfold formUntil
    split
    · simp
    · split
      · simp
      · simp [ih]

/-- The export writer posts its next burst (R129). -/
@[simp] theorem postExportBurst_frame (w : Writer) (s : State) :
    (postExportBurst w s).device = s.device ∧ (postExportBurst w s).session = s.session ∧
      (postExportBurst w s).resetEpoch = s.resetEpoch ∧ (postExportBurst w s).regs = s.regs ∧
      (postExportBurst w s).events = s.events ∧ (postExportBurst w s).ports = s.ports ∧
      (postExportBurst w s).store = s.store ∧ (postExportBurst w s).library = s.library ∧
      (postExportBurst w s).sched = s.sched ∧ (postExportBurst w s).engine = s.engine ∧
      (postExportBurst w s).board = s.board ∧ (postExportBurst w s).dram = s.dram ∧
      (postExportBurst w s).freeDraws = s.freeDraws ∧ (postExportBurst w s).pending = s.pending ∧
      (postExportBurst w s).stack.exportQueue = s.stack.exportQueue ∧
      (postExportBurst w s).bus.scanner = s.bus.scanner ∧ (postExportBurst w s).bus.loader = s.bus.loader ∧
      (postExportBurst w s).bus.portBusy = s.bus.portBusy ∧
      (postExportBurst w s).bus.scannerFaults = s.bus.scannerFaults ∧
      (postExportBurst w s).bus.exporterFaults = s.bus.exporterFaults ∧
      (postExportBurst w s).bus.loaderFaults = s.bus.loaderFaults ∧
      (postExportBurst w s).counts.scan = s.counts.scan ∧
      (postExportBurst w s).counts.pilotDamage = s.counts.pilotDamage ∧
      (postExportBurst w s).counts.discardedWrites = s.counts.discardedWrites := by
  unfold postExportBurst
  split
  · simp
  · simp

/-- The head of the export queue begins (R128). -/
@[simp] theorem beginExport_frame (n : Nat) (s : State) :
    (beginExport n s).device = s.device ∧ (beginExport n s).session = s.session ∧
      (beginExport n s).resetEpoch = s.resetEpoch ∧ (beginExport n s).regs = s.regs ∧
      (beginExport n s).ports = s.ports ∧ (beginExport n s).store = s.store ∧
      (beginExport n s).library = s.library ∧ (beginExport n s).sched = s.sched ∧
      (beginExport n s).engine = s.engine ∧ (beginExport n s).board = s.board ∧
      (beginExport n s).dram = s.dram ∧ (beginExport n s).freeDraws = s.freeDraws ∧
      (beginExport n s).pending = s.pending ∧ (beginExport n s).bus.scanner = s.bus.scanner ∧
      (beginExport n s).bus.loader = s.bus.loader ∧ (beginExport n s).bus.portBusy = s.bus.portBusy ∧
      (beginExport n s).bus.scannerFaults = s.bus.scannerFaults ∧
      (beginExport n s).bus.exporterFaults = s.bus.exporterFaults ∧
      (beginExport n s).bus.loaderFaults = s.bus.loaderFaults ∧ (beginExport n s).counts.scan = s.counts.scan ∧
      (beginExport n s).counts.pilotDamage = s.counts.pilotDamage ∧
      (beginExport n s).counts.discardedWrites = s.counts.discardedWrites := by
  induction n generalizing s with
  | zero => simp [beginExport]
  | succ n ih =>
    unfold beginExport
    split
    · simp
    · split
      · simp
      · split
        · simp
        · split
          · simp
          · simp [ih]

/-- A bin enters EXPORTING (R127). -/
@[simp] theorem enterExporting_frame (b : Fin 8) (r : BinRecord) (s : State) :
    (enterExporting b r s).device = s.device ∧ (enterExporting b r s).session = s.session ∧
      (enterExporting b r s).resetEpoch = s.resetEpoch ∧ (enterExporting b r s).regs = s.regs ∧
      (enterExporting b r s).ports = s.ports ∧ (enterExporting b r s).store = s.store ∧
      (enterExporting b r s).library = s.library ∧ (enterExporting b r s).sched = s.sched ∧
      (enterExporting b r s).engine = s.engine ∧ (enterExporting b r s).board = s.board ∧
      (enterExporting b r s).dram = s.dram ∧ (enterExporting b r s).freeDraws = s.freeDraws ∧
      (enterExporting b r s).pending = s.pending ∧ (enterExporting b r s).bus.scanner = s.bus.scanner ∧
      (enterExporting b r s).bus.loader = s.bus.loader ∧ (enterExporting b r s).bus.portBusy = s.bus.portBusy ∧
      (enterExporting b r s).bus.scannerFaults = s.bus.scannerFaults ∧
      (enterExporting b r s).bus.exporterFaults = s.bus.exporterFaults ∧
      (enterExporting b r s).bus.loaderFaults = s.bus.loaderFaults ∧
      (enterExporting b r s).counts.scan = s.counts.scan ∧
      (enterExporting b r s).counts.pilotDamage = s.counts.pilotDamage ∧
      (enterExporting b r s).counts.discardedWrites = s.counts.discardedWrites := by
  unfold enterExporting
  dsimp only
  split <;> simp

/-- The drain test (R127). -/
@[simp] theorem drainTest_frame (b : Fin 8) (s : State) :
    (drainTest b s).device = s.device ∧ (drainTest b s).session = s.session ∧
      (drainTest b s).resetEpoch = s.resetEpoch ∧ (drainTest b s).regs = s.regs ∧
      (drainTest b s).ports = s.ports ∧ (drainTest b s).store = s.store ∧ (drainTest b s).library = s.library ∧
      (drainTest b s).sched = s.sched ∧ (drainTest b s).engine = s.engine ∧ (drainTest b s).board = s.board ∧
      (drainTest b s).dram = s.dram ∧ (drainTest b s).freeDraws = s.freeDraws ∧
      (drainTest b s).pending = s.pending ∧ (drainTest b s).bus.scanner = s.bus.scanner ∧
      (drainTest b s).bus.loader = s.bus.loader ∧ (drainTest b s).bus.portBusy = s.bus.portBusy ∧
      (drainTest b s).bus.scannerFaults = s.bus.scannerFaults ∧
      (drainTest b s).bus.exporterFaults = s.bus.exporterFaults ∧
      (drainTest b s).bus.loaderFaults = s.bus.loaderFaults ∧ (drainTest b s).counts.scan = s.counts.scan ∧
      (drainTest b s).counts.pilotDamage = s.counts.pilotDamage ∧
      (drainTest b s).counts.discardedWrites = s.counts.discardedWrites := by
  unfold drainTest
  split
  · split <;> simp
  · simp

/-- An export succeeds (R133). -/
@[simp] theorem exportSucceeds_frame (w : Writer) (r : BinRecord) (s : State) :
    (exportSucceeds w r s).device = s.device ∧ (exportSucceeds w r s).session = s.session ∧
      (exportSucceeds w r s).resetEpoch = s.resetEpoch ∧ (exportSucceeds w r s).regs = s.regs ∧
      (exportSucceeds w r s).ports = s.ports ∧ (exportSucceeds w r s).store = s.store ∧
      (exportSucceeds w r s).library = s.library ∧ (exportSucceeds w r s).sched = s.sched ∧
      (exportSucceeds w r s).engine = s.engine ∧ (exportSucceeds w r s).dram = s.dram ∧
      (exportSucceeds w r s).freeDraws = s.freeDraws ∧ (exportSucceeds w r s).pending = s.pending ∧
      (exportSucceeds w r s).board.rotation = s.board.rotation ∧
      (exportSucceeds w r s).board.phase = s.board.phase ∧
      (exportSucceeds w r s).board.examined = s.board.examined ∧
      (exportSucceeds w r s).board.taken = s.board.taken ∧
      (exportSucceeds w r s).board.lastTaken = s.board.lastTaken ∧
      (exportSucceeds w r s).board.firstRound = s.board.firstRound ∧
      (exportSucceeds w r s).board.faulted = s.board.faulted ∧
      (exportSucceeds w r s).board.followUp = s.board.followUp ∧
      (exportSucceeds w r s).board.period = s.board.period ∧
      (exportSucceeds w r s).board.interval = s.board.interval ∧
      (exportSucceeds w r s).bus.scanner = s.bus.scanner ∧ (exportSucceeds w r s).bus.loader = s.bus.loader ∧
      (exportSucceeds w r s).bus.portBusy = s.bus.portBusy ∧
      (exportSucceeds w r s).bus.scannerFaults = s.bus.scannerFaults ∧
      (exportSucceeds w r s).bus.exporterFaults = s.bus.exporterFaults ∧
      (exportSucceeds w r s).bus.loaderFaults = s.bus.loaderFaults ∧
      (exportSucceeds w r s).counts.scan = s.counts.scan ∧
      (exportSucceeds w r s).counts.pilotDamage = s.counts.pilotDamage ∧
      (exportSucceeds w r s).counts.discardedWrites = s.counts.discardedWrites := by
  simp [exportSucceeds, freeExported]

/-- A completed export burst (R129). -/
@[simp] theorem exportBurstCompleted_frame (b : Burst) (s : State) :
    (exportBurstCompleted b s).device = s.device ∧ (exportBurstCompleted b s).session = s.session ∧
      (exportBurstCompleted b s).resetEpoch = s.resetEpoch ∧ (exportBurstCompleted b s).regs = s.regs ∧
      (exportBurstCompleted b s).ports = s.ports ∧ (exportBurstCompleted b s).store = s.store ∧
      (exportBurstCompleted b s).library = s.library ∧ (exportBurstCompleted b s).sched = s.sched ∧
      (exportBurstCompleted b s).engine = s.engine ∧ (exportBurstCompleted b s).dram = s.dram ∧
      (exportBurstCompleted b s).freeDraws = s.freeDraws ∧ (exportBurstCompleted b s).pending = s.pending ∧
      (exportBurstCompleted b s).board.rotation = s.board.rotation ∧
      (exportBurstCompleted b s).board.phase = s.board.phase ∧
      (exportBurstCompleted b s).board.examined = s.board.examined ∧
      (exportBurstCompleted b s).board.taken = s.board.taken ∧
      (exportBurstCompleted b s).board.lastTaken = s.board.lastTaken ∧
      (exportBurstCompleted b s).board.firstRound = s.board.firstRound ∧
      (exportBurstCompleted b s).board.faulted = s.board.faulted ∧
      (exportBurstCompleted b s).board.followUp = s.board.followUp ∧
      (exportBurstCompleted b s).board.period = s.board.period ∧
      (exportBurstCompleted b s).board.interval = s.board.interval ∧
      (exportBurstCompleted b s).bus.scanner = s.bus.scanner ∧
      (exportBurstCompleted b s).bus.loader = s.bus.loader ∧
      (exportBurstCompleted b s).bus.portBusy = s.bus.portBusy ∧
      (exportBurstCompleted b s).bus.scannerFaults = s.bus.scannerFaults ∧
      (exportBurstCompleted b s).bus.exporterFaults = s.bus.exporterFaults ∧
      (exportBurstCompleted b s).bus.loaderFaults = s.bus.loaderFaults ∧
      (exportBurstCompleted b s).counts.scan = s.counts.scan ∧
      (exportBurstCompleted b s).counts.pilotDamage = s.counts.pilotDamage ∧
      (exportBurstCompleted b s).counts.discardedWrites = s.counts.discardedWrites := by
  unfold exportBurstCompleted
  split
  · simp
  · dsimp only
    split
    · simp
    · split <;> simp

/-- A faulted export burst (R134). -/
@[simp] theorem exportBurstFailed_frame (b : Burst) (s : State) :
    (exportBurstFailed b s).device = s.device ∧ (exportBurstFailed b s).session = s.session ∧
      (exportBurstFailed b s).resetEpoch = s.resetEpoch ∧ (exportBurstFailed b s).regs = s.regs ∧
      (exportBurstFailed b s).ports = s.ports ∧ (exportBurstFailed b s).store = s.store ∧
      (exportBurstFailed b s).library = s.library ∧ (exportBurstFailed b s).sched = s.sched ∧
      (exportBurstFailed b s).engine = s.engine ∧ (exportBurstFailed b s).board = s.board ∧
      (exportBurstFailed b s).dram = s.dram ∧ (exportBurstFailed b s).freeDraws = s.freeDraws ∧
      (exportBurstFailed b s).pending = s.pending ∧ (exportBurstFailed b s).bus.scanner = s.bus.scanner ∧
      (exportBurstFailed b s).bus.loader = s.bus.loader ∧
      (exportBurstFailed b s).bus.portBusy = s.bus.portBusy ∧
      (exportBurstFailed b s).counts.scan = s.counts.scan ∧
      (exportBurstFailed b s).counts.pilotDamage = s.counts.pilotDamage ∧
      (exportBurstFailed b s).counts.discardedWrites = s.counts.discardedWrites := by
  unfold exportBurstFailed
  split
  · simp
  · dsimp only
    split <;> simp

/-! ## Jobs, the sweep arbiter and the ends of passes -/

/-- A job end (R79). -/
@[simp] theorem endJob_frame (i : Fin 32) (o : OrderOutcome) (c : Reason) (s : State) :
    (endJob i o c s).device = s.device ∧ (endJob i o c s).session = s.session ∧
      (endJob i o c s).resetEpoch = s.resetEpoch ∧ (endJob i o c s).regs = s.regs ∧
      (endJob i o c s).ports = s.ports ∧ (endJob i o c s).store = s.store ∧ (endJob i o c s).engine = s.engine ∧
      (endJob i o c s).dram = s.dram ∧ (endJob i o c s).freeDraws = s.freeDraws ∧
      (endJob i o c s).pending = s.pending ∧ (endJob i o c s).sched.priority = s.sched.priority ∧
      (endJob i o c s).sched.mode = s.sched.mode ∧ (endJob i o c s).sched.hold = s.sched.hold ∧
      (endJob i o c s).library.load = s.library.load ∧ (endJob i o c s).library.serial = s.library.serial ∧
      (endJob i o c s).board.rotation = s.board.rotation ∧ (endJob i o c s).board.phase = s.board.phase ∧
      (endJob i o c s).board.examined = s.board.examined ∧ (endJob i o c s).board.taken = s.board.taken ∧
      (endJob i o c s).board.lastTaken = s.board.lastTaken ∧
      (endJob i o c s).board.firstRound = s.board.firstRound ∧
      (endJob i o c s).board.faulted = s.board.faulted ∧ (endJob i o c s).board.followUp = s.board.followUp ∧
      (endJob i o c s).board.period = s.board.period ∧ (endJob i o c s).board.interval = s.board.interval ∧
      (endJob i o c s).bus.scanner = s.bus.scanner ∧ (endJob i o c s).bus.loader = s.bus.loader ∧
      (endJob i o c s).bus.portBusy = s.bus.portBusy ∧
      (endJob i o c s).bus.scannerFaults = s.bus.scannerFaults ∧
      (endJob i o c s).bus.exporterFaults = s.bus.exporterFaults ∧
      (endJob i o c s).bus.loaderFaults = s.bus.loaderFaults ∧ (endJob i o c s).counts.scan = s.counts.scan ∧
      (endJob i o c s).counts.pilotDamage = s.counts.pilotDamage ∧
      (endJob i o c s).counts.discardedWrites = s.counts.discardedWrites := by
  unfold endJob
  split <;> simp

/-- The arbiter's loop (R73, R74). -/
@[simp] theorem arbitrateLoop_frame (n : Nat) (s : State) :
    (arbitrateLoop n s).device = s.device ∧ (arbitrateLoop n s).session = s.session ∧
      (arbitrateLoop n s).resetEpoch = s.resetEpoch ∧ (arbitrateLoop n s).regs = s.regs ∧
      (arbitrateLoop n s).ports = s.ports ∧ (arbitrateLoop n s).dram = s.dram ∧
      (arbitrateLoop n s).freeDraws = s.freeDraws ∧ (arbitrateLoop n s).pending = s.pending ∧
      (arbitrateLoop n s).sched.priority = s.sched.priority ∧ (arbitrateLoop n s).sched.mode = s.sched.mode ∧
      (arbitrateLoop n s).sched.hold = s.sched.hold ∧ (arbitrateLoop n s).library.load = s.library.load ∧
      (arbitrateLoop n s).library.serial = s.library.serial ∧
      (arbitrateLoop n s).board.rotation = s.board.rotation ∧ (arbitrateLoop n s).board.phase = s.board.phase ∧
      (arbitrateLoop n s).board.examined = s.board.examined ∧ (arbitrateLoop n s).board.taken = s.board.taken ∧
      (arbitrateLoop n s).board.lastTaken = s.board.lastTaken ∧
      (arbitrateLoop n s).board.firstRound = s.board.firstRound ∧
      (arbitrateLoop n s).board.faulted = s.board.faulted ∧
      (arbitrateLoop n s).board.followUp = s.board.followUp ∧
      (arbitrateLoop n s).board.period = s.board.period ∧
      (arbitrateLoop n s).board.interval = s.board.interval ∧ (arbitrateLoop n s).bus.scanner = s.bus.scanner ∧
      (arbitrateLoop n s).bus.loader = s.bus.loader ∧ (arbitrateLoop n s).bus.portBusy = s.bus.portBusy ∧
      (arbitrateLoop n s).bus.scannerFaults = s.bus.scannerFaults ∧
      (arbitrateLoop n s).bus.exporterFaults = s.bus.exporterFaults ∧
      (arbitrateLoop n s).bus.loaderFaults = s.bus.loaderFaults ∧
      (arbitrateLoop n s).counts.scan = s.counts.scan ∧
      (arbitrateLoop n s).counts.pilotDamage = s.counts.pilotDamage ∧
      (arbitrateLoop n s).counts.discardedWrites = s.counts.discardedWrites ∧
      (arbitrateLoop n s).store.newest = s.store.newest ∧ (arbitrateLoop n s).store.settled = s.store.settled ∧
      (arbitrateLoop n s).store.marks = s.store.marks := by
  induction n generalizing s with
  | zero => simp [arbitrateLoop]
  | succ n ih =>
    unfold arbitrateLoop
    split
    · simp
    · split
      · simp
      · split
        · split
          · simp [ih]
          · split <;> simp [ih]
        · simp

/-- The arbiter (R73). -/
@[simp] theorem arbitrate_frame (s : State) :
    (arbitrate s).device = s.device ∧ (arbitrate s).session = s.session ∧
      (arbitrate s).resetEpoch = s.resetEpoch ∧ (arbitrate s).regs = s.regs ∧ (arbitrate s).ports = s.ports ∧
      (arbitrate s).dram = s.dram ∧ (arbitrate s).freeDraws = s.freeDraws ∧ (arbitrate s).pending = s.pending ∧
      (arbitrate s).sched.priority = s.sched.priority ∧ (arbitrate s).sched.mode = s.sched.mode ∧
      (arbitrate s).sched.hold = s.sched.hold ∧ (arbitrate s).library.load = s.library.load ∧
      (arbitrate s).library.serial = s.library.serial ∧ (arbitrate s).board.rotation = s.board.rotation ∧
      (arbitrate s).board.phase = s.board.phase ∧ (arbitrate s).board.examined = s.board.examined ∧
      (arbitrate s).board.taken = s.board.taken ∧ (arbitrate s).board.lastTaken = s.board.lastTaken ∧
      (arbitrate s).board.firstRound = s.board.firstRound ∧ (arbitrate s).board.faulted = s.board.faulted ∧
      (arbitrate s).board.followUp = s.board.followUp ∧ (arbitrate s).board.period = s.board.period ∧
      (arbitrate s).board.interval = s.board.interval ∧ (arbitrate s).bus.scanner = s.bus.scanner ∧
      (arbitrate s).bus.loader = s.bus.loader ∧ (arbitrate s).bus.portBusy = s.bus.portBusy ∧
      (arbitrate s).bus.scannerFaults = s.bus.scannerFaults ∧
      (arbitrate s).bus.exporterFaults = s.bus.exporterFaults ∧
      (arbitrate s).bus.loaderFaults = s.bus.loaderFaults ∧ (arbitrate s).counts.scan = s.counts.scan ∧
      (arbitrate s).counts.pilotDamage = s.counts.pilotDamage ∧
      (arbitrate s).counts.discardedWrites = s.counts.discardedWrites ∧
      (arbitrate s).store.newest = s.store.newest ∧ (arbitrate s).store.settled = s.store.settled ∧
      (arbitrate s).store.marks = s.store.marks := by
  unfold arbitrate
  split <;> simp

/-- The list turns (R76). -/
@[simp] theorem turnList_frame (f : Fin 8) (s : State) :
    (turnList f s).device = s.device ∧ (turnList f s).session = s.session ∧
      (turnList f s).resetEpoch = s.resetEpoch ∧ (turnList f s).regs = s.regs ∧
      (turnList f s).events = s.events ∧ (turnList f s).ports = s.ports ∧ (turnList f s).store = s.store ∧
      (turnList f s).library = s.library ∧ (turnList f s).engine = s.engine ∧ (turnList f s).stack = s.stack ∧
      (turnList f s).board = s.board ∧ (turnList f s).bus = s.bus ∧ (turnList f s).dram = s.dram ∧
      (turnList f s).counts = s.counts ∧ (turnList f s).freeDraws = s.freeDraws ∧
      (turnList f s).pending = s.pending ∧ (turnList f s).sched.jobs = s.sched.jobs ∧
      (turnList f s).sched.queues = s.sched.queues ∧ (turnList f s).sched.mode = s.sched.mode ∧
      (turnList f s).sched.hold = s.sched.hold := by
  unfold turnList
  split <;> simp

/-- The job of a pass is settled (R76). -/
@[simp] theorem settleJob_frame (i : Fin 32) (j : Job) (k : PassEnd) (s : State) :
    (settleJob i j k s).device = s.device ∧ (settleJob i j k s).session = s.session ∧
      (settleJob i j k s).resetEpoch = s.resetEpoch ∧ (settleJob i j k s).regs = s.regs ∧
      (settleJob i j k s).ports = s.ports ∧ (settleJob i j k s).store = s.store ∧
      (settleJob i j k s).engine = s.engine ∧ (settleJob i j k s).dram = s.dram ∧
      (settleJob i j k s).freeDraws = s.freeDraws ∧ (settleJob i j k s).pending = s.pending ∧
      (settleJob i j k s).sched.priority = s.sched.priority ∧ (settleJob i j k s).sched.mode = s.sched.mode ∧
      (settleJob i j k s).sched.hold = s.sched.hold ∧ (settleJob i j k s).library.load = s.library.load ∧
      (settleJob i j k s).library.serial = s.library.serial ∧
      (settleJob i j k s).board.rotation = s.board.rotation ∧ (settleJob i j k s).board.phase = s.board.phase ∧
      (settleJob i j k s).board.examined = s.board.examined ∧ (settleJob i j k s).board.taken = s.board.taken ∧
      (settleJob i j k s).board.lastTaken = s.board.lastTaken ∧
      (settleJob i j k s).board.firstRound = s.board.firstRound ∧
      (settleJob i j k s).board.faulted = s.board.faulted ∧
      (settleJob i j k s).board.followUp = s.board.followUp ∧
      (settleJob i j k s).board.period = s.board.period ∧
      (settleJob i j k s).board.interval = s.board.interval ∧ (settleJob i j k s).bus.scanner = s.bus.scanner ∧
      (settleJob i j k s).bus.loader = s.bus.loader ∧ (settleJob i j k s).bus.portBusy = s.bus.portBusy ∧
      (settleJob i j k s).bus.scannerFaults = s.bus.scannerFaults ∧
      (settleJob i j k s).bus.exporterFaults = s.bus.exporterFaults ∧
      (settleJob i j k s).bus.loaderFaults = s.bus.loaderFaults ∧
      (settleJob i j k s).counts.scan = s.counts.scan ∧
      (settleJob i j k s).counts.pilotDamage = s.counts.pilotDamage ∧
      (settleJob i j k s).counts.discardedWrites = s.counts.discardedWrites := by
  unfold settleJob
  split
  · dsimp only
    split
    · simp
    · split <;> simp
  · split <;> simp
  · split <;> simp

/-- A pass end (R76). -/
@[simp] theorem endPass_frame (k : PassEnd) (s : State) :
    (endPass k s).device = s.device ∧ (endPass k s).session = s.session ∧
      (endPass k s).resetEpoch = s.resetEpoch ∧ (endPass k s).regs = s.regs ∧ (endPass k s).ports = s.ports ∧
      (endPass k s).store = s.store ∧ (endPass k s).dram = s.dram ∧ (endPass k s).freeDraws = s.freeDraws ∧
      (endPass k s).pending = s.pending ∧ (endPass k s).sched.mode = s.sched.mode ∧
      (endPass k s).sched.hold = s.sched.hold ∧ (endPass k s).library.load = s.library.load ∧
      (endPass k s).library.serial = s.library.serial ∧ (endPass k s).board.rotation = s.board.rotation ∧
      (endPass k s).board.phase = s.board.phase ∧ (endPass k s).board.examined = s.board.examined ∧
      (endPass k s).board.taken = s.board.taken ∧ (endPass k s).board.lastTaken = s.board.lastTaken ∧
      (endPass k s).board.firstRound = s.board.firstRound ∧ (endPass k s).board.faulted = s.board.faulted ∧
      (endPass k s).board.followUp = s.board.followUp ∧ (endPass k s).board.period = s.board.period ∧
      (endPass k s).board.interval = s.board.interval ∧ (endPass k s).bus.scanner = s.bus.scanner ∧
      (endPass k s).bus.loader = s.bus.loader ∧ (endPass k s).bus.portBusy = s.bus.portBusy ∧
      (endPass k s).bus.scannerFaults = s.bus.scannerFaults ∧
      (endPass k s).bus.exporterFaults = s.bus.exporterFaults ∧
      (endPass k s).bus.loaderFaults = s.bus.loaderFaults ∧ (endPass k s).counts.scan = s.counts.scan ∧
      (endPass k s).counts.pilotDamage = s.counts.pilotDamage ∧
      (endPass k s).counts.discardedWrites = s.counts.discardedWrites := by
  unfold endPass
  split
  · simp
  · dsimp only
    split <;> simp

/-! ## The store -/

/-- A stall test (R26). -/
@[simp] theorem stallTest_frame (p : Fin 4) (s : State) :
    (stallTest p s).device = s.device ∧ (stallTest p s).session = s.session ∧
      (stallTest p s).resetEpoch = s.resetEpoch ∧ (stallTest p s).regs = s.regs ∧
      (stallTest p s).store = s.store ∧ (stallTest p s).library = s.library ∧ (stallTest p s).sched = s.sched ∧
      (stallTest p s).engine = s.engine ∧ (stallTest p s).stack = s.stack ∧ (stallTest p s).board = s.board ∧
      (stallTest p s).bus = s.bus ∧ (stallTest p s).dram = s.dram ∧ (stallTest p s).counts = s.counts ∧
      (stallTest p s).freeDraws = s.freeDraws ∧ (stallTest p s).pending = s.pending := by
  unfold stallTest
  split
  · split <;> simp
  · simp

/-- The stall tests (R37). -/
@[simp] theorem stallTests_frame (s : State) :
    (stallTests s).device = s.device ∧ (stallTests s).session = s.session ∧
      (stallTests s).resetEpoch = s.resetEpoch ∧ (stallTests s).regs = s.regs ∧ (stallTests s).store = s.store ∧
      (stallTests s).library = s.library ∧ (stallTests s).sched = s.sched ∧ (stallTests s).engine = s.engine ∧
      (stallTests s).stack = s.stack ∧ (stallTests s).board = s.board ∧ (stallTests s).bus = s.bus ∧
      (stallTests s).dram = s.dram ∧ (stallTests s).counts = s.counts ∧ (stallTests s).freeDraws = s.freeDraws ∧
      (stallTests s).pending = s.pending := by
  simp [stallTests, List.finRange_succ]

/-- The pin's test (R47). -/
@[simp] theorem pinTest_frame (s : State) :
    (pinTest s).device = s.device ∧ (pinTest s).session = s.session ∧ (pinTest s).resetEpoch = s.resetEpoch ∧
      (pinTest s).regs = s.regs ∧ (pinTest s).ports = s.ports ∧ (pinTest s).dram = s.dram ∧
      (pinTest s).freeDraws = s.freeDraws ∧ (pinTest s).pending = s.pending ∧
      (pinTest s).sched.mode = s.sched.mode ∧ (pinTest s).sched.hold = s.sched.hold ∧
      (pinTest s).library.load = s.library.load ∧ (pinTest s).library.serial = s.library.serial ∧
      (pinTest s).board.rotation = s.board.rotation ∧ (pinTest s).board.phase = s.board.phase ∧
      (pinTest s).board.examined = s.board.examined ∧ (pinTest s).board.taken = s.board.taken ∧
      (pinTest s).board.lastTaken = s.board.lastTaken ∧ (pinTest s).board.firstRound = s.board.firstRound ∧
      (pinTest s).board.faulted = s.board.faulted ∧ (pinTest s).board.followUp = s.board.followUp ∧
      (pinTest s).board.period = s.board.period ∧ (pinTest s).board.interval = s.board.interval ∧
      (pinTest s).bus.scanner = s.bus.scanner ∧ (pinTest s).bus.loader = s.bus.loader ∧
      (pinTest s).bus.portBusy = s.bus.portBusy ∧ (pinTest s).bus.scannerFaults = s.bus.scannerFaults ∧
      (pinTest s).bus.exporterFaults = s.bus.exporterFaults ∧
      (pinTest s).bus.loaderFaults = s.bus.loaderFaults ∧ (pinTest s).counts.scan = s.counts.scan ∧
      (pinTest s).counts.pilotDamage = s.counts.pilotDamage ∧
      (pinTest s).counts.discardedWrites = s.counts.discardedWrites ∧
      (pinTest s).store.newest = s.store.newest ∧ (pinTest s).store.settled = s.store.settled ∧
      (pinTest s).store.marks = s.store.marks := by
  unfold pinTest
  split
  · split <;> simp
  · simp

/-- A frame handed to the store (R36, R37). -/
@[simp] theorem storeFrame_frame (p : Fin 4) (tag : Nat) (xs : List (BitVec 32)) (s : State) :
    (storeFrame p tag xs s).device = s.device ∧ (storeFrame p tag xs s).session = s.session ∧
      (storeFrame p tag xs s).resetEpoch = s.resetEpoch ∧ (storeFrame p tag xs s).regs = s.regs ∧
      (storeFrame p tag xs s).freeDraws = s.freeDraws ∧ (storeFrame p tag xs s).pending = s.pending ∧
      (storeFrame p tag xs s).sched.mode = s.sched.mode ∧ (storeFrame p tag xs s).sched.hold = s.sched.hold ∧
      (storeFrame p tag xs s).library.load = s.library.load ∧
      (storeFrame p tag xs s).library.serial = s.library.serial ∧
      (storeFrame p tag xs s).board.rotation = s.board.rotation ∧
      (storeFrame p tag xs s).board.phase = s.board.phase ∧
      (storeFrame p tag xs s).board.examined = s.board.examined ∧
      (storeFrame p tag xs s).board.taken = s.board.taken ∧
      (storeFrame p tag xs s).board.lastTaken = s.board.lastTaken ∧
      (storeFrame p tag xs s).board.firstRound = s.board.firstRound ∧
      (storeFrame p tag xs s).board.faulted = s.board.faulted ∧
      (storeFrame p tag xs s).board.followUp = s.board.followUp ∧
      (storeFrame p tag xs s).board.period = s.board.period ∧
      (storeFrame p tag xs s).board.interval = s.board.interval ∧
      (storeFrame p tag xs s).bus.scanner = s.bus.scanner ∧ (storeFrame p tag xs s).bus.loader = s.bus.loader ∧
      (storeFrame p tag xs s).bus.portBusy = s.bus.portBusy ∧
      (storeFrame p tag xs s).bus.scannerFaults = s.bus.scannerFaults ∧
      (storeFrame p tag xs s).bus.exporterFaults = s.bus.exporterFaults ∧
      (storeFrame p tag xs s).bus.loaderFaults = s.bus.loaderFaults ∧
      (storeFrame p tag xs s).counts.scan = s.counts.scan ∧
      (storeFrame p tag xs s).counts.pilotDamage = s.counts.pilotDamage ∧
      (storeFrame p tag xs s).counts.discardedWrites = s.counts.discardedWrites ∧
      (storeFrame p tag xs s).store.settled = s.store.settled := by
  unfold storeFrame
  split
  · simp
  · split <;> simp [setMark, clearMarks]

/-- The settled index is recomputed (R39). -/
@[simp] theorem recomputeSettled_frame (s : State) :
    (recomputeSettled s).device = s.device ∧ (recomputeSettled s).session = s.session ∧
      (recomputeSettled s).resetEpoch = s.resetEpoch ∧ (recomputeSettled s).regs = s.regs ∧
      (recomputeSettled s).events = s.events ∧ (recomputeSettled s).ports = s.ports ∧
      (recomputeSettled s).library = s.library ∧ (recomputeSettled s).engine = s.engine ∧
      (recomputeSettled s).stack = s.stack ∧ (recomputeSettled s).board = s.board ∧
      (recomputeSettled s).bus = s.bus ∧ (recomputeSettled s).dram = s.dram ∧
      (recomputeSettled s).counts = s.counts ∧ (recomputeSettled s).freeDraws = s.freeDraws ∧
      (recomputeSettled s).pending = s.pending ∧ (recomputeSettled s).sched.queues = s.sched.queues ∧
      (recomputeSettled s).sched.priority = s.sched.priority ∧ (recomputeSettled s).sched.mode = s.sched.mode ∧
      (recomputeSettled s).sched.hold = s.sched.hold ∧ (recomputeSettled s).store.newest = s.store.newest ∧
      (recomputeSettled s).store.marks = s.store.marks ∧ (recomputeSettled s).store.pin = s.store.pin := by
  unfold recomputeSettled
  split
  · simp
  · split <;> simp

/-- What follows a change of the ports that settle (R39, R73). -/
@[simp] theorem settleEvent_frame (s : State) :
    (settleEvent s).device = s.device ∧ (settleEvent s).session = s.session ∧
      (settleEvent s).resetEpoch = s.resetEpoch ∧ (settleEvent s).regs = s.regs ∧
      (settleEvent s).ports = s.ports ∧ (settleEvent s).dram = s.dram ∧
      (settleEvent s).freeDraws = s.freeDraws ∧ (settleEvent s).pending = s.pending ∧
      (settleEvent s).sched.priority = s.sched.priority ∧ (settleEvent s).sched.mode = s.sched.mode ∧
      (settleEvent s).sched.hold = s.sched.hold ∧ (settleEvent s).library.load = s.library.load ∧
      (settleEvent s).library.serial = s.library.serial ∧ (settleEvent s).board.rotation = s.board.rotation ∧
      (settleEvent s).board.examined = s.board.examined ∧ (settleEvent s).board.taken = s.board.taken ∧
      (settleEvent s).board.lastTaken = s.board.lastTaken ∧
      (settleEvent s).board.firstRound = s.board.firstRound ∧ (settleEvent s).board.faulted = s.board.faulted ∧
      (settleEvent s).board.followUp = s.board.followUp ∧ (settleEvent s).board.period = s.board.period ∧
      (settleEvent s).board.interval = s.board.interval ∧
      (settleEvent s).bus.scannerFaults = s.bus.scannerFaults ∧
      (settleEvent s).bus.exporterFaults = s.bus.exporterFaults ∧
      (settleEvent s).bus.loaderFaults = s.bus.loaderFaults ∧ (settleEvent s).counts.scan = s.counts.scan ∧
      (settleEvent s).counts.pilotDamage = s.counts.pilotDamage ∧
      (settleEvent s).counts.discardedWrites = s.counts.discardedWrites ∧
      (settleEvent s).store.newest = s.store.newest ∧ (settleEvent s).store.marks = s.store.marks := by
  simp [settleEvent]

end Sys2Proof.Machine
end

