-- ==== Sys2Proof/Laws/CommandFrames.lean ====
section
/-! SUPPORT. What the parts of each command leave alone, and the one case split of the take of an order. -/

namespace Sys2Proof.Machine

/-! ## The link ports -/

/-- The test of a raised count (R23). -/
@[simp] theorem degradeTest_frame (p : Fin 4) (s : State) :
    (degradeTest p s).device = s.device ∧ (degradeTest p s).session = s.session ∧
      (degradeTest p s).resetEpoch = s.resetEpoch ∧ (degradeTest p s).regs = s.regs ∧
      (degradeTest p s).store = s.store ∧ (degradeTest p s).library = s.library ∧
      (degradeTest p s).sched = s.sched ∧ (degradeTest p s).engine = s.engine ∧
      (degradeTest p s).stack = s.stack ∧ (degradeTest p s).board = s.board ∧ (degradeTest p s).bus = s.bus ∧
      (degradeTest p s).dram = s.dram ∧ (degradeTest p s).counts = s.counts ∧
      (degradeTest p s).freeDraws = s.freeDraws ∧ (degradeTest p s).pending = s.pending := by
  unfold degradeTest
  split <;> simp

/-- A bad frame at a LIVE or DEGRADED port (R23). -/
@[simp] theorem badFrame_frame (p : Fin 4) (c : BadClass) (s : State) :
    (badFrame p c s).device = s.device ∧ (badFrame p c s).session = s.session ∧
      (badFrame p c s).resetEpoch = s.resetEpoch ∧ (badFrame p c s).regs = s.regs ∧
      (badFrame p c s).store = s.store ∧ (badFrame p c s).library = s.library ∧
      (badFrame p c s).sched = s.sched ∧ (badFrame p c s).engine = s.engine ∧ (badFrame p c s).stack = s.stack ∧
      (badFrame p c s).board = s.board ∧ (badFrame p c s).bus = s.bus ∧ (badFrame p c s).dram = s.dram ∧
      (badFrame p c s).counts = s.counts ∧ (badFrame p c s).freeDraws = s.freeDraws ∧
      (badFrame p c s).pending = s.pending := by
  unfold badFrame
  dsimp only
  split <;> simp

/-- The test of a lowered count (R22). -/
@[simp] theorem recoverTest_frame (p : Fin 4) (s : State) :
    (recoverTest p s).device = s.device ∧ (recoverTest p s).session = s.session ∧
      (recoverTest p s).resetEpoch = s.resetEpoch ∧ (recoverTest p s).regs = s.regs ∧
      (recoverTest p s).store = s.store ∧ (recoverTest p s).library = s.library ∧
      (recoverTest p s).sched = s.sched ∧ (recoverTest p s).engine = s.engine ∧
      (recoverTest p s).stack = s.stack ∧ (recoverTest p s).board = s.board ∧ (recoverTest p s).bus = s.bus ∧
      (recoverTest p s).dram = s.dram ∧ (recoverTest p s).counts = s.counts ∧
      (recoverTest p s).freeDraws = s.freeDraws ∧ (recoverTest p s).pending = s.pending := by
  unfold recoverTest
  split <;> simp

/-- A GAP frame (R23). -/
@[simp] theorem gapFrame_frame (p : Fin 4) (tag : Nat) (xs : List (BitVec 32)) (s : State) :
    (gapFrame p tag xs s).device = s.device ∧ (gapFrame p tag xs s).session = s.session ∧
      (gapFrame p tag xs s).resetEpoch = s.resetEpoch ∧ (gapFrame p tag xs s).regs = s.regs ∧
      (gapFrame p tag xs s).freeDraws = s.freeDraws ∧ (gapFrame p tag xs s).pending = s.pending ∧
      (gapFrame p tag xs s).sched.mode = s.sched.mode ∧ (gapFrame p tag xs s).sched.hold = s.sched.hold ∧
      (gapFrame p tag xs s).library.load = s.library.load ∧
      (gapFrame p tag xs s).library.serial = s.library.serial ∧
      (gapFrame p tag xs s).board.rotation = s.board.rotation ∧
      (gapFrame p tag xs s).board.phase = s.board.phase ∧
      (gapFrame p tag xs s).board.examined = s.board.examined ∧
      (gapFrame p tag xs s).board.taken = s.board.taken ∧
      (gapFrame p tag xs s).board.lastTaken = s.board.lastTaken ∧
      (gapFrame p tag xs s).board.firstRound = s.board.firstRound ∧
      (gapFrame p tag xs s).board.faulted = s.board.faulted ∧
      (gapFrame p tag xs s).board.followUp = s.board.followUp ∧
      (gapFrame p tag xs s).board.period = s.board.period ∧
      (gapFrame p tag xs s).board.interval = s.board.interval ∧
      (gapFrame p tag xs s).bus.scanner = s.bus.scanner ∧ (gapFrame p tag xs s).bus.loader = s.bus.loader ∧
      (gapFrame p tag xs s).bus.portBusy = s.bus.portBusy ∧
      (gapFrame p tag xs s).bus.scannerFaults = s.bus.scannerFaults ∧
      (gapFrame p tag xs s).bus.exporterFaults = s.bus.exporterFaults ∧
      (gapFrame p tag xs s).bus.loaderFaults = s.bus.loaderFaults ∧
      (gapFrame p tag xs s).counts.scan = s.counts.scan ∧
      (gapFrame p tag xs s).counts.pilotDamage = s.counts.pilotDamage ∧
      (gapFrame p tag xs s).counts.discardedWrites = s.counts.discardedWrites ∧
      (gapFrame p tag xs s).store.settled = s.store.settled := by
  unfold gapFrame
  dsimp only
  split <;> simp

/-- A good frame in sequence (R22). -/
@[simp] theorem goodFrame_frame (p : Fin 4) (tag : Nat) (xs : List (BitVec 32)) (s : State) :
    (goodFrame p tag xs s).device = s.device ∧ (goodFrame p tag xs s).session = s.session ∧
      (goodFrame p tag xs s).resetEpoch = s.resetEpoch ∧ (goodFrame p tag xs s).regs = s.regs ∧
      (goodFrame p tag xs s).freeDraws = s.freeDraws ∧ (goodFrame p tag xs s).pending = s.pending ∧
      (goodFrame p tag xs s).sched.mode = s.sched.mode ∧ (goodFrame p tag xs s).sched.hold = s.sched.hold ∧
      (goodFrame p tag xs s).library.load = s.library.load ∧
      (goodFrame p tag xs s).library.serial = s.library.serial ∧
      (goodFrame p tag xs s).board.rotation = s.board.rotation ∧
      (goodFrame p tag xs s).board.phase = s.board.phase ∧
      (goodFrame p tag xs s).board.examined = s.board.examined ∧
      (goodFrame p tag xs s).board.taken = s.board.taken ∧
      (goodFrame p tag xs s).board.lastTaken = s.board.lastTaken ∧
      (goodFrame p tag xs s).board.firstRound = s.board.firstRound ∧
      (goodFrame p tag xs s).board.faulted = s.board.faulted ∧
      (goodFrame p tag xs s).board.followUp = s.board.followUp ∧
      (goodFrame p tag xs s).board.period = s.board.period ∧
      (goodFrame p tag xs s).board.interval = s.board.interval ∧
      (goodFrame p tag xs s).bus.scanner = s.bus.scanner ∧ (goodFrame p tag xs s).bus.loader = s.bus.loader ∧
      (goodFrame p tag xs s).bus.portBusy = s.bus.portBusy ∧
      (goodFrame p tag xs s).bus.scannerFaults = s.bus.scannerFaults ∧
      (goodFrame p tag xs s).bus.exporterFaults = s.bus.exporterFaults ∧
      (goodFrame p tag xs s).bus.loaderFaults = s.bus.loaderFaults ∧
      (goodFrame p tag xs s).counts.scan = s.counts.scan ∧
      (goodFrame p tag xs s).counts.pilotDamage = s.counts.pilotDamage ∧
      (goodFrame p tag xs s).counts.discardedWrites = s.counts.discardedWrites ∧
      (goodFrame p tag xs s).store.settled = s.store.settled := by
  simp [goodFrame]

/-- An arrival at a LIVE or DEGRADED port (R16). -/
@[simp] theorem liveArrival_frame (p : Fin 4) (bytes : List Byte) (s : State) :
    (liveArrival p bytes s).device = s.device ∧ (liveArrival p bytes s).session = s.session ∧
      (liveArrival p bytes s).resetEpoch = s.resetEpoch ∧ (liveArrival p bytes s).regs = s.regs ∧
      (liveArrival p bytes s).freeDraws = s.freeDraws ∧ (liveArrival p bytes s).pending = s.pending ∧
      (liveArrival p bytes s).sched.mode = s.sched.mode ∧ (liveArrival p bytes s).sched.hold = s.sched.hold ∧
      (liveArrival p bytes s).library.load = s.library.load ∧
      (liveArrival p bytes s).library.serial = s.library.serial ∧
      (liveArrival p bytes s).board.rotation = s.board.rotation ∧
      (liveArrival p bytes s).board.phase = s.board.phase ∧
      (liveArrival p bytes s).board.examined = s.board.examined ∧
      (liveArrival p bytes s).board.taken = s.board.taken ∧
      (liveArrival p bytes s).board.lastTaken = s.board.lastTaken ∧
      (liveArrival p bytes s).board.firstRound = s.board.firstRound ∧
      (liveArrival p bytes s).board.faulted = s.board.faulted ∧
      (liveArrival p bytes s).board.followUp = s.board.followUp ∧
      (liveArrival p bytes s).board.period = s.board.period ∧
      (liveArrival p bytes s).board.interval = s.board.interval ∧
      (liveArrival p bytes s).bus.scanner = s.bus.scanner ∧ (liveArrival p bytes s).bus.loader = s.bus.loader ∧
      (liveArrival p bytes s).bus.portBusy = s.bus.portBusy ∧
      (liveArrival p bytes s).bus.scannerFaults = s.bus.scannerFaults ∧
      (liveArrival p bytes s).bus.exporterFaults = s.bus.exporterFaults ∧
      (liveArrival p bytes s).bus.loaderFaults = s.bus.loaderFaults ∧
      (liveArrival p bytes s).counts.scan = s.counts.scan ∧
      (liveArrival p bytes s).counts.pilotDamage = s.counts.pilotDamage ∧
      (liveArrival p bytes s).counts.discardedWrites = s.counts.discardedWrites ∧
      (liveArrival p bytes s).store.settled = s.store.settled := by
  unfold liveArrival
  dsimp only
  split
  · simp
  · split
    · simp
    · split
      · simp
      · split <;> simp

/-- A broken run (R19). -/
@[simp] theorem breakRun_frame (p : Fin 4) (c : BadClass) (s : State) :
    (breakRun p c s).device = s.device ∧ (breakRun p c s).session = s.session ∧
      (breakRun p c s).resetEpoch = s.resetEpoch ∧ (breakRun p c s).regs = s.regs ∧
      (breakRun p c s).events = s.events ∧ (breakRun p c s).store = s.store ∧
      (breakRun p c s).library = s.library ∧ (breakRun p c s).sched = s.sched ∧
      (breakRun p c s).engine = s.engine ∧ (breakRun p c s).stack = s.stack ∧ (breakRun p c s).board = s.board ∧
      (breakRun p c s).bus = s.bus ∧ (breakRun p c s).dram = s.dram ∧ (breakRun p c s).counts = s.counts ∧
      (breakRun p c s).freeDraws = s.freeDraws ∧ (breakRun p c s).pending = s.pending := by
  simp [breakRun]

/-- A run that grows (R19). -/
@[simp] theorem buildRun_frame (p : Fin 4) (tag : Nat) (s : State) :
    (buildRun p tag s).device = s.device ∧ (buildRun p tag s).session = s.session ∧
      (buildRun p tag s).resetEpoch = s.resetEpoch ∧ (buildRun p tag s).regs = s.regs ∧
      (buildRun p tag s).events = s.events ∧ (buildRun p tag s).store = s.store ∧
      (buildRun p tag s).library = s.library ∧ (buildRun p tag s).sched = s.sched ∧
      (buildRun p tag s).engine = s.engine ∧ (buildRun p tag s).stack = s.stack ∧
      (buildRun p tag s).board = s.board ∧ (buildRun p tag s).bus = s.bus ∧ (buildRun p tag s).dram = s.dram ∧
      (buildRun p tag s).counts = s.counts ∧ (buildRun p tag s).freeDraws = s.freeDraws ∧
      (buildRun p tag s).pending = s.pending := by
  simp [buildRun]

/-- A late frame (R20). -/
@[simp] theorem lateFrame_frame (p : Fin 4) (tag : Nat) (s : State) :
    (lateFrame p tag s).device = s.device ∧ (lateFrame p tag s).session = s.session ∧
      (lateFrame p tag s).resetEpoch = s.resetEpoch ∧ (lateFrame p tag s).regs = s.regs ∧
      (lateFrame p tag s).events = s.events ∧ (lateFrame p tag s).store = s.store ∧
      (lateFrame p tag s).library = s.library ∧ (lateFrame p tag s).sched = s.sched ∧
      (lateFrame p tag s).engine = s.engine ∧ (lateFrame p tag s).stack = s.stack ∧
      (lateFrame p tag s).board = s.board ∧ (lateFrame p tag s).bus = s.bus ∧
      (lateFrame p tag s).dram = s.dram ∧ (lateFrame p tag s).counts = s.counts ∧
      (lateFrame p tag s).freeDraws = s.freeDraws ∧ (lateFrame p tag s).pending = s.pending := by
  simp [lateFrame]

/-- The marks of skipped indices (R40). -/
@[simp] theorem clearSkipped_frame (x : Option Int) (tag : Nat) (s : State) :
    (clearSkipped x tag s).device = s.device ∧ (clearSkipped x tag s).session = s.session ∧
      (clearSkipped x tag s).resetEpoch = s.resetEpoch ∧ (clearSkipped x tag s).regs = s.regs ∧
      (clearSkipped x tag s).events = s.events ∧ (clearSkipped x tag s).ports = s.ports ∧
      (clearSkipped x tag s).library = s.library ∧ (clearSkipped x tag s).sched = s.sched ∧
      (clearSkipped x tag s).engine = s.engine ∧ (clearSkipped x tag s).stack = s.stack ∧
      (clearSkipped x tag s).board = s.board ∧ (clearSkipped x tag s).bus = s.bus ∧
      (clearSkipped x tag s).dram = s.dram ∧ (clearSkipped x tag s).counts = s.counts ∧
      (clearSkipped x tag s).freeDraws = s.freeDraws ∧ (clearSkipped x tag s).pending = s.pending ∧
      (clearSkipped x tag s).store.newest = s.store.newest ∧
      (clearSkipped x tag s).store.settled = s.store.settled ∧
      (clearSkipped x tag s).store.pin = s.store.pin := by
  unfold clearSkipped
  split <;> simp [clearMarks]

/-- A join (R20, R21). -/
@[simp] theorem joinPort_frame (p : Fin 4) (tag : Nat) (xs : List (BitVec 32)) (s : State) :
    (joinPort p tag xs s).device = s.device ∧ (joinPort p tag xs s).session = s.session ∧
      (joinPort p tag xs s).resetEpoch = s.resetEpoch ∧ (joinPort p tag xs s).regs = s.regs ∧
      (joinPort p tag xs s).freeDraws = s.freeDraws ∧ (joinPort p tag xs s).pending = s.pending ∧
      (joinPort p tag xs s).sched.mode = s.sched.mode ∧ (joinPort p tag xs s).sched.hold = s.sched.hold ∧
      (joinPort p tag xs s).library.load = s.library.load ∧
      (joinPort p tag xs s).library.serial = s.library.serial ∧
      (joinPort p tag xs s).board.rotation = s.board.rotation ∧
      (joinPort p tag xs s).board.phase = s.board.phase ∧
      (joinPort p tag xs s).board.examined = s.board.examined ∧
      (joinPort p tag xs s).board.taken = s.board.taken ∧
      (joinPort p tag xs s).board.lastTaken = s.board.lastTaken ∧
      (joinPort p tag xs s).board.firstRound = s.board.firstRound ∧
      (joinPort p tag xs s).board.faulted = s.board.faulted ∧
      (joinPort p tag xs s).board.followUp = s.board.followUp ∧
      (joinPort p tag xs s).board.period = s.board.period ∧
      (joinPort p tag xs s).board.interval = s.board.interval ∧
      (joinPort p tag xs s).bus.scanner = s.bus.scanner ∧ (joinPort p tag xs s).bus.loader = s.bus.loader ∧
      (joinPort p tag xs s).bus.portBusy = s.bus.portBusy ∧
      (joinPort p tag xs s).bus.scannerFaults = s.bus.scannerFaults ∧
      (joinPort p tag xs s).bus.exporterFaults = s.bus.exporterFaults ∧
      (joinPort p tag xs s).bus.loaderFaults = s.bus.loaderFaults ∧
      (joinPort p tag xs s).counts.scan = s.counts.scan ∧
      (joinPort p tag xs s).counts.pilotDamage = s.counts.pilotDamage ∧
      (joinPort p tag xs s).counts.discardedWrites = s.counts.discardedWrites ∧
      (joinPort p tag xs s).store.settled = s.store.settled := by
  unfold joinPort
  dsimp only
  split <;> simp

/-- An arrival at a SYNCING port (R19 to R21). -/
@[simp] theorem syncArrival_frame (p : Fin 4) (bytes : List Byte) (s : State) :
    (syncArrival p bytes s).device = s.device ∧ (syncArrival p bytes s).session = s.session ∧
      (syncArrival p bytes s).resetEpoch = s.resetEpoch ∧ (syncArrival p bytes s).regs = s.regs ∧
      (syncArrival p bytes s).freeDraws = s.freeDraws ∧ (syncArrival p bytes s).pending = s.pending ∧
      (syncArrival p bytes s).sched.mode = s.sched.mode ∧ (syncArrival p bytes s).sched.hold = s.sched.hold ∧
      (syncArrival p bytes s).library.load = s.library.load ∧
      (syncArrival p bytes s).library.serial = s.library.serial ∧
      (syncArrival p bytes s).board.rotation = s.board.rotation ∧
      (syncArrival p bytes s).board.examined = s.board.examined ∧
      (syncArrival p bytes s).board.taken = s.board.taken ∧
      (syncArrival p bytes s).board.lastTaken = s.board.lastTaken ∧
      (syncArrival p bytes s).board.firstRound = s.board.firstRound ∧
      (syncArrival p bytes s).board.faulted = s.board.faulted ∧
      (syncArrival p bytes s).board.followUp = s.board.followUp ∧
      (syncArrival p bytes s).board.period = s.board.period ∧
      (syncArrival p bytes s).board.interval = s.board.interval ∧
      (syncArrival p bytes s).bus.scannerFaults = s.bus.scannerFaults ∧
      (syncArrival p bytes s).bus.exporterFaults = s.bus.exporterFaults ∧
      (syncArrival p bytes s).bus.loaderFaults = s.bus.loaderFaults ∧
      (syncArrival p bytes s).counts.scan = s.counts.scan ∧
      (syncArrival p bytes s).counts.pilotDamage = s.counts.pilotDamage ∧
      (syncArrival p bytes s).counts.discardedWrites = s.counts.discardedWrites := by
  unfold syncArrival
  dsimp only
  split
  · simp
  · split
    · simp
    · split
      · simp
      · split <;> simp

/-- An arrival at a CUT port (R28). -/
@[simp] theorem cutArrival_frame (p : Fin 4) (bytes : List Byte) (s : State) :
    (cutArrival p bytes s).device = s.device ∧ (cutArrival p bytes s).session = s.session ∧
      (cutArrival p bytes s).resetEpoch = s.resetEpoch ∧ (cutArrival p bytes s).regs = s.regs ∧
      (cutArrival p bytes s).store = s.store ∧ (cutArrival p bytes s).library = s.library ∧
      (cutArrival p bytes s).sched = s.sched ∧ (cutArrival p bytes s).engine = s.engine ∧
      (cutArrival p bytes s).stack = s.stack ∧ (cutArrival p bytes s).board = s.board ∧
      (cutArrival p bytes s).bus = s.bus ∧ (cutArrival p bytes s).dram = s.dram ∧
      (cutArrival p bytes s).counts = s.counts ∧ (cutArrival p bytes s).freeDraws = s.freeDraws ∧
      (cutArrival p bytes s).pending = s.pending := by
  unfold cutArrival
  dsimp only
  split
  · simp
  · split <;> simp

/-- An arrival (R14). -/
@[simp] theorem arrival_frame (p : Fin 4) (bytes : List Byte) (s : State) :
    (arrival p bytes s).device = s.device ∧ (arrival p bytes s).session = s.session ∧
      (arrival p bytes s).resetEpoch = s.resetEpoch ∧ (arrival p bytes s).regs = s.regs ∧
      (arrival p bytes s).freeDraws = s.freeDraws ∧ (arrival p bytes s).pending = s.pending ∧
      (arrival p bytes s).sched.mode = s.sched.mode ∧ (arrival p bytes s).sched.hold = s.sched.hold ∧
      (arrival p bytes s).library.load = s.library.load ∧
      (arrival p bytes s).library.serial = s.library.serial ∧
      (arrival p bytes s).board.rotation = s.board.rotation ∧
      (arrival p bytes s).board.examined = s.board.examined ∧ (arrival p bytes s).board.taken = s.board.taken ∧
      (arrival p bytes s).board.lastTaken = s.board.lastTaken ∧
      (arrival p bytes s).board.firstRound = s.board.firstRound ∧
      (arrival p bytes s).board.faulted = s.board.faulted ∧
      (arrival p bytes s).board.followUp = s.board.followUp ∧
      (arrival p bytes s).board.period = s.board.period ∧
      (arrival p bytes s).board.interval = s.board.interval ∧
      (arrival p bytes s).bus.scannerFaults = s.bus.scannerFaults ∧
      (arrival p bytes s).bus.exporterFaults = s.bus.exporterFaults ∧
      (arrival p bytes s).bus.loaderFaults = s.bus.loaderFaults ∧
      (arrival p bytes s).counts.scan = s.counts.scan ∧
      (arrival p bytes s).counts.pilotDamage = s.counts.pilotDamage ∧
      (arrival p bytes s).counts.discardedWrites = s.counts.discardedWrites := by
  unfold arrival
  split <;> simp

/-- A carrier loss (R27). -/
@[simp] theorem loseCarrier_frame (p : Fin 4) (s : State) :
    (loseCarrier p s).device = s.device ∧ (loseCarrier p s).session = s.session ∧
      (loseCarrier p s).resetEpoch = s.resetEpoch ∧ (loseCarrier p s).regs = s.regs ∧
      (loseCarrier p s).store = s.store ∧ (loseCarrier p s).library = s.library ∧
      (loseCarrier p s).sched = s.sched ∧ (loseCarrier p s).engine = s.engine ∧
      (loseCarrier p s).stack = s.stack ∧ (loseCarrier p s).board = s.board ∧ (loseCarrier p s).bus = s.bus ∧
      (loseCarrier p s).dram = s.dram ∧ (loseCarrier p s).counts = s.counts ∧
      (loseCarrier p s).freeDraws = s.freeDraws ∧ (loseCarrier p s).pending = s.pending := by
  unfold loseCarrier
  dsimp only
  split <;> simp

/-! ## Passes and traces -/

/-- A damaged pilot (R65). -/
@[simp] theorem damagePilot_frame (i : Fin 16) (s : State) :
    (damagePilot i s).device = s.device ∧ (damagePilot i s).session = s.session ∧
      (damagePilot i s).resetEpoch = s.resetEpoch ∧ (damagePilot i s).regs = s.regs ∧
      (damagePilot i s).events = s.events ∧ (damagePilot i s).ports = s.ports ∧
      (damagePilot i s).store = s.store ∧ (damagePilot i s).sched = s.sched ∧
      (damagePilot i s).engine = s.engine ∧ (damagePilot i s).stack = s.stack ∧
      (damagePilot i s).board = s.board ∧ (damagePilot i s).bus = s.bus ∧ (damagePilot i s).dram = s.dram ∧
      (damagePilot i s).freeDraws = s.freeDraws ∧ (damagePilot i s).pending = s.pending ∧
      (damagePilot i s).library.load = s.library.load ∧ (damagePilot i s).library.serial = s.library.serial ∧
      (damagePilot i s).counts.scan = s.counts.scan ∧
      (damagePilot i s).counts.eccCorrected = s.counts.eccCorrected ∧
      (damagePilot i s).counts.poison = s.counts.poison ∧
      (damagePilot i s).counts.discardedWrites = s.counts.discardedWrites := by
  simp [damagePilot]

/-- A pass abandoned for damage (R95). -/
@[simp] theorem abandonDamaged_frame (r : PassRecord) (s : State) :
    (abandonDamaged r s).device = s.device ∧ (abandonDamaged r s).session = s.session ∧
      (abandonDamaged r s).resetEpoch = s.resetEpoch ∧ (abandonDamaged r s).regs = s.regs ∧
      (abandonDamaged r s).ports = s.ports ∧ (abandonDamaged r s).dram = s.dram ∧
      (abandonDamaged r s).freeDraws = s.freeDraws ∧ (abandonDamaged r s).pending = s.pending ∧
      (abandonDamaged r s).sched.mode = s.sched.mode ∧ (abandonDamaged r s).sched.hold = s.sched.hold ∧
      (abandonDamaged r s).library.load = s.library.load ∧
      (abandonDamaged r s).library.serial = s.library.serial ∧
      (abandonDamaged r s).board.rotation = s.board.rotation ∧
      (abandonDamaged r s).board.phase = s.board.phase ∧
      (abandonDamaged r s).board.examined = s.board.examined ∧
      (abandonDamaged r s).board.taken = s.board.taken ∧
      (abandonDamaged r s).board.lastTaken = s.board.lastTaken ∧
      (abandonDamaged r s).board.firstRound = s.board.firstRound ∧
      (abandonDamaged r s).board.faulted = s.board.faulted ∧
      (abandonDamaged r s).board.followUp = s.board.followUp ∧
      (abandonDamaged r s).board.period = s.board.period ∧
      (abandonDamaged r s).board.interval = s.board.interval ∧
      (abandonDamaged r s).bus.scanner = s.bus.scanner ∧ (abandonDamaged r s).bus.loader = s.bus.loader ∧
      (abandonDamaged r s).bus.portBusy = s.bus.portBusy ∧
      (abandonDamaged r s).bus.scannerFaults = s.bus.scannerFaults ∧
      (abandonDamaged r s).bus.exporterFaults = s.bus.exporterFaults ∧
      (abandonDamaged r s).bus.loaderFaults = s.bus.loaderFaults ∧
      (abandonDamaged r s).counts.scan = s.counts.scan ∧
      (abandonDamaged r s).counts.discardedWrites = s.counts.discardedWrites ∧
      (abandonDamaged r s).store.newest = s.store.newest ∧
      (abandonDamaged r s).store.settled = s.store.settled ∧
      (abandonDamaged r s).store.marks = s.store.marks := by
  simp [abandonDamaged]

/-- A raw read of a pass (R89). -/
@[simp] theorem readRawSample_frame (r : PassRecord) (pilot : List Int) (fin : List (List (Option Int)))
    (rd : List (Option Int)) (s : State) :
    (readRawSample r pilot fin rd s).device = s.device ∧ (readRawSample r pilot fin rd s).session = s.session ∧
      (readRawSample r pilot fin rd s).resetEpoch = s.resetEpoch ∧
      (readRawSample r pilot fin rd s).regs = s.regs ∧ (readRawSample r pilot fin rd s).events = s.events ∧
      (readRawSample r pilot fin rd s).ports = s.ports ∧ (readRawSample r pilot fin rd s).store = s.store ∧
      (readRawSample r pilot fin rd s).library = s.library ∧ (readRawSample r pilot fin rd s).sched = s.sched ∧
      (readRawSample r pilot fin rd s).stack = s.stack ∧ (readRawSample r pilot fin rd s).board = s.board ∧
      (readRawSample r pilot fin rd s).bus = s.bus ∧ (readRawSample r pilot fin rd s).dram = s.dram ∧
      (readRawSample r pilot fin rd s).freeDraws = s.freeDraws ∧
      (readRawSample r pilot fin rd s).pending = s.pending ∧
      (readRawSample r pilot fin rd s).counts.scan = s.counts.scan ∧
      (readRawSample r pilot fin rd s).counts.pilotDamage = s.counts.pilotDamage ∧
      (readRawSample r pilot fin rd s).counts.poison = s.counts.poison ∧
      (readRawSample r pilot fin rd s).counts.discardedWrites = s.counts.discardedWrites := by
  simp [readRawSample]

/-- A trace counted in its job (R80). -/
@[simp] theorem countInJob_frame (i : Fin 32) (o : EditOutcome) (t : Trace) (s : State) :
    (countInJob i o t s).device = s.device ∧ (countInJob i o t s).session = s.session ∧
      (countInJob i o t s).resetEpoch = s.resetEpoch ∧ (countInJob i o t s).regs = s.regs ∧
      (countInJob i o t s).events = s.events ∧ (countInJob i o t s).ports = s.ports ∧
      (countInJob i o t s).store = s.store ∧ (countInJob i o t s).library = s.library ∧
      (countInJob i o t s).engine = s.engine ∧ (countInJob i o t s).stack = s.stack ∧
      (countInJob i o t s).board = s.board ∧ (countInJob i o t s).bus = s.bus ∧
      (countInJob i o t s).dram = s.dram ∧ (countInJob i o t s).counts = s.counts ∧
      (countInJob i o t s).freeDraws = s.freeDraws ∧ (countInJob i o t s).pending = s.pending ∧
      (countInJob i o t s).sched.queues = s.sched.queues ∧
      (countInJob i o t s).sched.priority = s.sched.priority ∧ (countInJob i o t s).sched.mode = s.sched.mode ∧
      (countInJob i o t s).sched.hold = s.sched.hold := by
  unfold countInJob
  split <;> simp

/-- Auto-drain (R118). -/
@[simp] theorem autoDrain_frame (b : Fin 8) (s : State) :
    (autoDrain b s).device = s.device ∧ (autoDrain b s).session = s.session ∧
      (autoDrain b s).resetEpoch = s.resetEpoch ∧ (autoDrain b s).regs = s.regs ∧
      (autoDrain b s).ports = s.ports ∧ (autoDrain b s).store = s.store ∧ (autoDrain b s).library = s.library ∧
      (autoDrain b s).sched = s.sched ∧ (autoDrain b s).engine = s.engine ∧ (autoDrain b s).board = s.board ∧
      (autoDrain b s).dram = s.dram ∧ (autoDrain b s).freeDraws = s.freeDraws ∧
      (autoDrain b s).pending = s.pending ∧ (autoDrain b s).bus.scanner = s.bus.scanner ∧
      (autoDrain b s).bus.loader = s.bus.loader ∧ (autoDrain b s).bus.portBusy = s.bus.portBusy ∧
      (autoDrain b s).bus.scannerFaults = s.bus.scannerFaults ∧
      (autoDrain b s).bus.exporterFaults = s.bus.exporterFaults ∧
      (autoDrain b s).bus.loaderFaults = s.bus.loaderFaults ∧ (autoDrain b s).counts.scan = s.counts.scan ∧
      (autoDrain b s).counts.pilotDamage = s.counts.pilotDamage ∧
      (autoDrain b s).counts.discardedWrites = s.counts.discardedWrites := by
  unfold autoDrain
  split
  · split <;> simp
  · simp

/-- A trace that the edit admits (R117, R120). -/
@[simp] theorem acceptTrace_frame (i : Fin 32) (b : Fin 8) (r : BinRecord) (n : Nat) (t : Trace) (s : State) :
    (acceptTrace i b r n t s).device = s.device ∧ (acceptTrace i b r n t s).session = s.session ∧
      (acceptTrace i b r n t s).resetEpoch = s.resetEpoch ∧ (acceptTrace i b r n t s).regs = s.regs ∧
      (acceptTrace i b r n t s).ports = s.ports ∧ (acceptTrace i b r n t s).store = s.store ∧
      (acceptTrace i b r n t s).library = s.library ∧ (acceptTrace i b r n t s).engine = s.engine ∧
      (acceptTrace i b r n t s).board = s.board ∧ (acceptTrace i b r n t s).freeDraws = s.freeDraws ∧
      (acceptTrace i b r n t s).pending = s.pending ∧ (acceptTrace i b r n t s).bus.scanner = s.bus.scanner ∧
      (acceptTrace i b r n t s).bus.loader = s.bus.loader ∧
      (acceptTrace i b r n t s).bus.portBusy = s.bus.portBusy ∧
      (acceptTrace i b r n t s).bus.scannerFaults = s.bus.scannerFaults ∧
      (acceptTrace i b r n t s).bus.exporterFaults = s.bus.exporterFaults ∧
      (acceptTrace i b r n t s).bus.loaderFaults = s.bus.loaderFaults ∧
      (acceptTrace i b r n t s).counts.scan = s.counts.scan ∧
      (acceptTrace i b r n t s).counts.pilotDamage = s.counts.pilotDamage ∧
      (acceptTrace i b r n t s).counts.discardedWrites = s.counts.discardedWrites ∧
      (acceptTrace i b r n t s).sched.queues = s.sched.queues ∧
      (acceptTrace i b r n t s).sched.priority = s.sched.priority ∧
      (acceptTrace i b r n t s).sched.mode = s.sched.mode ∧
      (acceptTrace i b r n t s).sched.hold = s.sched.hold := by
  have h := readAccs_frame (accAddress b.val n 0) r.lags s
  unfold acceptTrace
  dsimp only
  split <;> simp_all

/-- A trace applied (R112). -/
@[simp] theorem applyTrace_frame (i : Fin 32) (b : Fin 8) (r : BinRecord) (t : Trace) (s : State) :
    (applyTrace i b r t s).device = s.device ∧ (applyTrace i b r t s).session = s.session ∧
      (applyTrace i b r t s).resetEpoch = s.resetEpoch ∧ (applyTrace i b r t s).regs = s.regs ∧
      (applyTrace i b r t s).ports = s.ports ∧ (applyTrace i b r t s).store = s.store ∧
      (applyTrace i b r t s).library = s.library ∧ (applyTrace i b r t s).engine = s.engine ∧
      (applyTrace i b r t s).board = s.board ∧ (applyTrace i b r t s).freeDraws = s.freeDraws ∧
      (applyTrace i b r t s).pending = s.pending ∧ (applyTrace i b r t s).bus.scanner = s.bus.scanner ∧
      (applyTrace i b r t s).bus.loader = s.bus.loader ∧ (applyTrace i b r t s).bus.portBusy = s.bus.portBusy ∧
      (applyTrace i b r t s).bus.scannerFaults = s.bus.scannerFaults ∧
      (applyTrace i b r t s).bus.exporterFaults = s.bus.exporterFaults ∧
      (applyTrace i b r t s).bus.loaderFaults = s.bus.loaderFaults ∧
      (applyTrace i b r t s).counts.scan = s.counts.scan ∧
      (applyTrace i b r t s).counts.pilotDamage = s.counts.pilotDamage ∧
      (applyTrace i b r t s).counts.discardedWrites = s.counts.discardedWrites ∧
      (applyTrace i b r t s).sched.queues = s.sched.queues ∧
      (applyTrace i b r t s).sched.priority = s.sched.priority ∧
      (applyTrace i b r t s).sched.mode = s.sched.mode ∧ (applyTrace i b r t s).sched.hold = s.sched.hold := by
  unfold applyTrace
  dsimp only
  split
  · simp
  · split <;> simp
  · simp
  · simp
  · simp

/-- After a trace (R97, R98). -/
@[simp] theorem afterTrace_frame (r : PassRecord) (rest : List Trace) (s : State) :
    (afterTrace r rest s).device = s.device ∧ (afterTrace r rest s).session = s.session ∧
      (afterTrace r rest s).resetEpoch = s.resetEpoch ∧ (afterTrace r rest s).regs = s.regs ∧
      (afterTrace r rest s).ports = s.ports ∧ (afterTrace r rest s).dram = s.dram ∧
      (afterTrace r rest s).freeDraws = s.freeDraws ∧ (afterTrace r rest s).pending = s.pending ∧
      (afterTrace r rest s).sched.mode = s.sched.mode ∧ (afterTrace r rest s).sched.hold = s.sched.hold ∧
      (afterTrace r rest s).library.load = s.library.load ∧
      (afterTrace r rest s).library.serial = s.library.serial ∧
      (afterTrace r rest s).board.rotation = s.board.rotation ∧
      (afterTrace r rest s).board.phase = s.board.phase ∧
      (afterTrace r rest s).board.examined = s.board.examined ∧
      (afterTrace r rest s).board.taken = s.board.taken ∧
      (afterTrace r rest s).board.lastTaken = s.board.lastTaken ∧
      (afterTrace r rest s).board.firstRound = s.board.firstRound ∧
      (afterTrace r rest s).board.faulted = s.board.faulted ∧
      (afterTrace r rest s).board.followUp = s.board.followUp ∧
      (afterTrace r rest s).board.period = s.board.period ∧
      (afterTrace r rest s).board.interval = s.board.interval ∧
      (afterTrace r rest s).bus.scanner = s.bus.scanner ∧ (afterTrace r rest s).bus.loader = s.bus.loader ∧
      (afterTrace r rest s).bus.portBusy = s.bus.portBusy ∧
      (afterTrace r rest s).bus.scannerFaults = s.bus.scannerFaults ∧
      (afterTrace r rest s).bus.exporterFaults = s.bus.exporterFaults ∧
      (afterTrace r rest s).bus.loaderFaults = s.bus.loaderFaults ∧
      (afterTrace r rest s).counts.scan = s.counts.scan ∧
      (afterTrace r rest s).counts.pilotDamage = s.counts.pilotDamage ∧
      (afterTrace r rest s).counts.discardedWrites = s.counts.discardedWrites ∧
      (afterTrace r rest s).store.newest = s.store.newest ∧
      (afterTrace r rest s).store.settled = s.store.settled ∧
      (afterTrace r rest s).store.marks = s.store.marks := by
  unfold afterTrace
  split <;> simp

/-! ## Loads -/

/-- The loader posts a burst (R57). -/
@[simp] theorem postLoaderBurst_frame (slot : LoadSlot) (s : State) :
    (postLoaderBurst slot s).device = s.device ∧ (postLoaderBurst slot s).session = s.session ∧
      (postLoaderBurst slot s).resetEpoch = s.resetEpoch ∧ (postLoaderBurst slot s).regs = s.regs ∧
      (postLoaderBurst slot s).events = s.events ∧ (postLoaderBurst slot s).ports = s.ports ∧
      (postLoaderBurst slot s).store = s.store ∧ (postLoaderBurst slot s).library = s.library ∧
      (postLoaderBurst slot s).sched = s.sched ∧ (postLoaderBurst slot s).engine = s.engine ∧
      (postLoaderBurst slot s).stack = s.stack ∧ (postLoaderBurst slot s).board = s.board ∧
      (postLoaderBurst slot s).dram = s.dram ∧ (postLoaderBurst slot s).counts = s.counts ∧
      (postLoaderBurst slot s).freeDraws = s.freeDraws ∧ (postLoaderBurst slot s).pending = s.pending ∧
      (postLoaderBurst slot s).bus.scanner = s.bus.scanner ∧
      (postLoaderBurst slot s).bus.exporter = s.bus.exporter ∧
      (postLoaderBurst slot s).bus.portBusy = s.bus.portBusy ∧
      (postLoaderBurst slot s).bus.scannerFaults = s.bus.scannerFaults ∧
      (postLoaderBurst slot s).bus.exporterFaults = s.bus.exporterFaults ∧
      (postLoaderBurst slot s).bus.loaderFaults = s.bus.loaderFaults := by
  simp [postLoaderBurst]

/-- The load slot is emptied (R59). -/
@[simp] theorem clearLoad_frame (slot : LoadSlot) (s : State) :
    (clearLoad slot s).device = s.device ∧ (clearLoad slot s).session = s.session ∧
      (clearLoad slot s).resetEpoch = s.resetEpoch ∧ (clearLoad slot s).regs = s.regs ∧
      (clearLoad slot s).events = s.events ∧ (clearLoad slot s).ports = s.ports ∧
      (clearLoad slot s).store = s.store ∧ (clearLoad slot s).sched = s.sched ∧
      (clearLoad slot s).engine = s.engine ∧ (clearLoad slot s).stack = s.stack ∧
      (clearLoad slot s).board = s.board ∧ (clearLoad slot s).bus = s.bus ∧ (clearLoad slot s).dram = s.dram ∧
      (clearLoad slot s).counts = s.counts ∧ (clearLoad slot s).freeDraws = s.freeDraws ∧
      (clearLoad slot s).pending = s.pending ∧ (clearLoad slot s).library.serial = s.library.serial := by
  unfold clearLoad
  dsimp only
  split <;> simp

/-- A load ends DONE (R60). -/
@[simp] theorem installLoad_frame (slot : LoadSlot) (s : State) :
    (installLoad slot s).device = s.device ∧ (installLoad slot s).session = s.session ∧
      (installLoad slot s).resetEpoch = s.resetEpoch ∧ (installLoad slot s).regs = s.regs ∧
      (installLoad slot s).events = s.events ∧ (installLoad slot s).ports = s.ports ∧
      (installLoad slot s).store = s.store ∧ (installLoad slot s).sched = s.sched ∧
      (installLoad slot s).engine = s.engine ∧ (installLoad slot s).stack = s.stack ∧
      (installLoad slot s).bus = s.bus ∧ (installLoad slot s).dram = s.dram ∧
      (installLoad slot s).counts = s.counts ∧ (installLoad slot s).freeDraws = s.freeDraws ∧
      (installLoad slot s).pending = s.pending ∧ (installLoad slot s).board.rotation = s.board.rotation ∧
      (installLoad slot s).board.phase = s.board.phase ∧
      (installLoad slot s).board.examined = s.board.examined ∧
      (installLoad slot s).board.taken = s.board.taken ∧
      (installLoad slot s).board.lastTaken = s.board.lastTaken ∧
      (installLoad slot s).board.firstRound = s.board.firstRound ∧
      (installLoad slot s).board.faulted = s.board.faulted ∧
      (installLoad slot s).board.followUp = s.board.followUp ∧
      (installLoad slot s).board.period = s.board.period ∧
      (installLoad slot s).board.interval = s.board.interval := by
  unfold installLoad
  split
  · simp
  · simp

/-- A load completes (R59). -/
@[simp] theorem completeLoad_frame (slot : LoadSlot) (f : Option Nat) (s : State) :
    (completeLoad slot f s).device = s.device ∧ (completeLoad slot f s).session = s.session ∧
      (completeLoad slot f s).resetEpoch = s.resetEpoch ∧ (completeLoad slot f s).regs = s.regs ∧
      (completeLoad slot f s).events = s.events ∧ (completeLoad slot f s).ports = s.ports ∧
      (completeLoad slot f s).store = s.store ∧ (completeLoad slot f s).sched = s.sched ∧
      (completeLoad slot f s).engine = s.engine ∧ (completeLoad slot f s).stack = s.stack ∧
      (completeLoad slot f s).bus = s.bus ∧ (completeLoad slot f s).dram = s.dram ∧
      (completeLoad slot f s).counts = s.counts ∧ (completeLoad slot f s).freeDraws = s.freeDraws ∧
      (completeLoad slot f s).pending = s.pending ∧ (completeLoad slot f s).board.rotation = s.board.rotation ∧
      (completeLoad slot f s).board.phase = s.board.phase ∧
      (completeLoad slot f s).board.examined = s.board.examined ∧
      (completeLoad slot f s).board.taken = s.board.taken ∧
      (completeLoad slot f s).board.lastTaken = s.board.lastTaken ∧
      (completeLoad slot f s).board.firstRound = s.board.firstRound ∧
      (completeLoad slot f s).board.faulted = s.board.faulted ∧
      (completeLoad slot f s).board.followUp = s.board.followUp ∧
      (completeLoad slot f s).board.period = s.board.period ∧
      (completeLoad slot f s).board.interval = s.board.interval := by
  unfold completeLoad
  split
  · simp
  · split
    · simp
    · split
      · simp
      · split <;> simp

/-- A faulted burst of the copy (R57). -/
@[simp] theorem failLoaderBurst_frame (b : Burst) (data : List Byte) (s : State) :
    (failLoaderBurst b data s).device = s.device ∧ (failLoaderBurst b data s).session = s.session ∧
      (failLoaderBurst b data s).resetEpoch = s.resetEpoch ∧ (failLoaderBurst b data s).regs = s.regs ∧
      (failLoaderBurst b data s).ports = s.ports ∧ (failLoaderBurst b data s).store = s.store ∧
      (failLoaderBurst b data s).sched = s.sched ∧ (failLoaderBurst b data s).engine = s.engine ∧
      (failLoaderBurst b data s).stack = s.stack ∧ (failLoaderBurst b data s).counts = s.counts ∧
      (failLoaderBurst b data s).freeDraws = s.freeDraws ∧ (failLoaderBurst b data s).pending = s.pending ∧
      (failLoaderBurst b data s).board.rotation = s.board.rotation ∧
      (failLoaderBurst b data s).board.phase = s.board.phase ∧
      (failLoaderBurst b data s).board.examined = s.board.examined ∧
      (failLoaderBurst b data s).board.taken = s.board.taken ∧
      (failLoaderBurst b data s).board.lastTaken = s.board.lastTaken ∧
      (failLoaderBurst b data s).board.firstRound = s.board.firstRound ∧
      (failLoaderBurst b data s).board.faulted = s.board.faulted ∧
      (failLoaderBurst b data s).board.followUp = s.board.followUp ∧
      (failLoaderBurst b data s).board.period = s.board.period ∧
      (failLoaderBurst b data s).board.interval = s.board.interval ∧
      (failLoaderBurst b data s).bus.scanner = s.bus.scanner ∧
      (failLoaderBurst b data s).bus.exporter = s.bus.exporter ∧
      (failLoaderBurst b data s).bus.portBusy = s.bus.portBusy := by
  unfold failLoaderBurst
  split <;> simp

/-- A completed burst of the copy (R57). -/
@[simp] theorem loaderBurstCompleted_frame (slot : LoadSlot) (data : List Byte) (s : State) :
    (loaderBurstCompleted slot data s).device = s.device ∧
      (loaderBurstCompleted slot data s).session = s.session ∧
      (loaderBurstCompleted slot data s).resetEpoch = s.resetEpoch ∧
      (loaderBurstCompleted slot data s).regs = s.regs ∧ (loaderBurstCompleted slot data s).events = s.events ∧
      (loaderBurstCompleted slot data s).ports = s.ports ∧ (loaderBurstCompleted slot data s).store = s.store ∧
      (loaderBurstCompleted slot data s).sched = s.sched ∧
      (loaderBurstCompleted slot data s).engine = s.engine ∧
      (loaderBurstCompleted slot data s).stack = s.stack ∧
      (loaderBurstCompleted slot data s).counts = s.counts ∧
      (loaderBurstCompleted slot data s).freeDraws = s.freeDraws ∧
      (loaderBurstCompleted slot data s).pending = s.pending ∧
      (loaderBurstCompleted slot data s).board.rotation = s.board.rotation ∧
      (loaderBurstCompleted slot data s).board.phase = s.board.phase ∧
      (loaderBurstCompleted slot data s).board.examined = s.board.examined ∧
      (loaderBurstCompleted slot data s).board.taken = s.board.taken ∧
      (loaderBurstCompleted slot data s).board.lastTaken = s.board.lastTaken ∧
      (loaderBurstCompleted slot data s).board.firstRound = s.board.firstRound ∧
      (loaderBurstCompleted slot data s).board.faulted = s.board.faulted ∧
      (loaderBurstCompleted slot data s).board.followUp = s.board.followUp ∧
      (loaderBurstCompleted slot data s).board.period = s.board.period ∧
      (loaderBurstCompleted slot data s).board.interval = s.board.interval ∧
      (loaderBurstCompleted slot data s).bus.scanner = s.bus.scanner ∧
      (loaderBurstCompleted slot data s).bus.exporter = s.bus.exporter ∧
      (loaderBurstCompleted slot data s).bus.portBusy = s.bus.portBusy ∧
      (loaderBurstCompleted slot data s).bus.scannerFaults = s.bus.scannerFaults ∧
      (loaderBurstCompleted slot data s).bus.exporterFaults = s.bus.exporterFaults ∧
      (loaderBurstCompleted slot data s).bus.loaderFaults = s.bus.loaderFaults := by
  unfold loaderBurstCompleted
  dsimp only
  split
  · split <;> simp
  · simp

/-- A load is taken (R56). -/
@[simp] theorem startLoad_frame (slot : LoadSlot) (s : State) :
    (startLoad slot s).device = s.device ∧ (startLoad slot s).session = s.session ∧
      (startLoad slot s).resetEpoch = s.resetEpoch ∧ (startLoad slot s).regs = s.regs ∧
      (startLoad slot s).events = s.events ∧ (startLoad slot s).ports = s.ports ∧
      (startLoad slot s).store = s.store ∧ (startLoad slot s).sched = s.sched ∧
      (startLoad slot s).engine = s.engine ∧ (startLoad slot s).stack = s.stack ∧
      (startLoad slot s).board = s.board ∧ (startLoad slot s).dram = s.dram ∧
      (startLoad slot s).counts = s.counts ∧ (startLoad slot s).pending = s.pending ∧
      (startLoad slot s).bus.scanner = s.bus.scanner ∧ (startLoad slot s).bus.exporter = s.bus.exporter ∧
      (startLoad slot s).bus.portBusy = s.bus.portBusy ∧
      (startLoad slot s).bus.scannerFaults = s.bus.scannerFaults ∧
      (startLoad slot s).bus.exporterFaults = s.bus.exporterFaults ∧
      (startLoad slot s).bus.loaderFaults = s.bus.loaderFaults ∧
      (startLoad slot s).library.serial = s.library.serial := by
  unfold startLoad
  dsimp only
  split <;> simp

/-! ## Scans and registers -/

/-- The first reading of a post (R147). -/
@[simp] theorem judgePost_frame (b : Fin 64) (post : Byte) (s : State) :
    (judgePost b post s).device = s.device ∧ (judgePost b post s).session = s.session ∧
      (judgePost b post s).resetEpoch = s.resetEpoch ∧ (judgePost b post s).regs = s.regs ∧
      (judgePost b post s).events = s.events ∧ (judgePost b post s).ports = s.ports ∧
      (judgePost b post s).store = s.store ∧ (judgePost b post s).library = s.library ∧
      (judgePost b post s).sched = s.sched ∧ (judgePost b post s).engine = s.engine ∧
      (judgePost b post s).stack = s.stack ∧ (judgePost b post s).dram = s.dram ∧
      (judgePost b post s).freeDraws = s.freeDraws ∧ (judgePost b post s).pending = s.pending ∧
      (judgePost b post s).board.boxes = s.board.boxes ∧
      (judgePost b post s).board.followUp = s.board.followUp ∧
      (judgePost b post s).board.period = s.board.period ∧
      (judgePost b post s).board.interval = s.board.interval ∧
      (judgePost b post s).bus.exporter = s.bus.exporter ∧ (judgePost b post s).bus.loader = s.bus.loader ∧
      (judgePost b post s).bus.portBusy = s.bus.portBusy ∧
      (judgePost b post s).bus.scannerFaults = s.bus.scannerFaults ∧
      (judgePost b post s).bus.exporterFaults = s.bus.exporterFaults ∧
      (judgePost b post s).bus.loaderFaults = s.bus.loaderFaults ∧
      (judgePost b post s).counts.eccCorrected = s.counts.eccCorrected ∧
      (judgePost b post s).counts.pilotDamage = s.counts.pilotDamage ∧
      (judgePost b post s).counts.poison = s.counts.poison ∧
      (judgePost b post s).counts.discardedWrites = s.counts.discardedWrites := by
  unfold judgePost
  split
  · split <;> simp
  · split <;> simp

/-- An answer written whole (R151). -/
@[simp] theorem answerWritten_frame (b : Fin 64) (sent : Option Answer) (s : State) :
    (answerWritten b sent s).device = s.device ∧ (answerWritten b sent s).session = s.session ∧
      (answerWritten b sent s).resetEpoch = s.resetEpoch ∧ (answerWritten b sent s).regs = s.regs ∧
      (answerWritten b sent s).ports = s.ports ∧ (answerWritten b sent s).store = s.store ∧
      (answerWritten b sent s).library = s.library ∧ (answerWritten b sent s).sched = s.sched ∧
      (answerWritten b sent s).engine = s.engine ∧ (answerWritten b sent s).stack = s.stack ∧
      (answerWritten b sent s).bus = s.bus ∧ (answerWritten b sent s).dram = s.dram ∧
      (answerWritten b sent s).counts = s.counts ∧ (answerWritten b sent s).freeDraws = s.freeDraws ∧
      (answerWritten b sent s).pending = s.pending ∧
      (answerWritten b sent s).board.rotation = s.board.rotation ∧
      (answerWritten b sent s).board.phase = s.board.phase ∧
      (answerWritten b sent s).board.examined = s.board.examined ∧
      (answerWritten b sent s).board.taken = s.board.taken ∧
      (answerWritten b sent s).board.lastTaken = s.board.lastTaken ∧
      (answerWritten b sent s).board.firstRound = s.board.firstRound ∧
      (answerWritten b sent s).board.faulted = s.board.faulted ∧
      (answerWritten b sent s).board.followUp = s.board.followUp ∧
      (answerWritten b sent s).board.period = s.board.period ∧
      (answerWritten b sent s).board.interval = s.board.interval := by
  unfold answerWritten
  dsimp only
  split <;> split <;> simp

/-- A faulted answer write (R151). -/
@[simp] theorem failAnswerWrite_frame (round : AnswerRound) (b : Fin 64) (s : State) :
    (failAnswerWrite round b s).device = s.device ∧ (failAnswerWrite round b s).session = s.session ∧
      (failAnswerWrite round b s).resetEpoch = s.resetEpoch ∧ (failAnswerWrite round b s).regs = s.regs ∧
      (failAnswerWrite round b s).ports = s.ports ∧ (failAnswerWrite round b s).store = s.store ∧
      (failAnswerWrite round b s).library = s.library ∧ (failAnswerWrite round b s).sched = s.sched ∧
      (failAnswerWrite round b s).engine = s.engine ∧ (failAnswerWrite round b s).stack = s.stack ∧
      (failAnswerWrite round b s).dram = s.dram ∧ (failAnswerWrite round b s).freeDraws = s.freeDraws ∧
      (failAnswerWrite round b s).pending = s.pending ∧
      (failAnswerWrite round b s).board.boxes = s.board.boxes ∧
      (failAnswerWrite round b s).board.rotation = s.board.rotation ∧
      (failAnswerWrite round b s).board.followUp = s.board.followUp ∧
      (failAnswerWrite round b s).board.period = s.board.period ∧
      (failAnswerWrite round b s).board.interval = s.board.interval ∧
      (failAnswerWrite round b s).counts.eccCorrected = s.counts.eccCorrected ∧
      (failAnswerWrite round b s).counts.pilotDamage = s.counts.pilotDamage ∧
      (failAnswerWrite round b s).counts.poison = s.counts.poison ∧
      (failAnswerWrite round b s).counts.discardedWrites = s.counts.discardedWrites := by
  simp [failAnswerWrite, State.scannerReported]

/-- A faulted read of the read stage (R162). -/
@[simp] theorem failScannerRead_frame (s : State) :
    (failScannerRead s).device = s.device ∧ (failScannerRead s).session = s.session ∧
      (failScannerRead s).resetEpoch = s.resetEpoch ∧ (failScannerRead s).regs = s.regs ∧
      (failScannerRead s).ports = s.ports ∧ (failScannerRead s).store = s.store ∧
      (failScannerRead s).library = s.library ∧ (failScannerRead s).sched = s.sched ∧
      (failScannerRead s).engine = s.engine ∧ (failScannerRead s).stack = s.stack ∧
      (failScannerRead s).dram = s.dram ∧ (failScannerRead s).freeDraws = s.freeDraws ∧
      (failScannerRead s).pending = s.pending ∧ (failScannerRead s).board.boxes = s.board.boxes ∧
      (failScannerRead s).board.followUp = s.board.followUp ∧
      (failScannerRead s).board.period = s.board.period ∧
      (failScannerRead s).board.interval = s.board.interval ∧
      (failScannerRead s).counts.eccCorrected = s.counts.eccCorrected ∧
      (failScannerRead s).counts.pilotDamage = s.counts.pilotDamage ∧
      (failScannerRead s).counts.poison = s.counts.poison ∧
      (failScannerRead s).counts.discardedWrites = s.counts.discardedWrites := by
  simp [failScannerRead, State.scannerReported]

/-- A reported burst of the scanner (R160). -/
@[simp] theorem scannerReported_frame (s : State) :
    (s.scannerReported).device = s.device ∧ (s.scannerReported).session = s.session ∧
      (s.scannerReported).resetEpoch = s.resetEpoch ∧ (s.scannerReported).regs = s.regs ∧
      (s.scannerReported).events = s.events ∧ (s.scannerReported).ports = s.ports ∧
      (s.scannerReported).store = s.store ∧ (s.scannerReported).library = s.library ∧
      (s.scannerReported).sched = s.sched ∧ (s.scannerReported).engine = s.engine ∧
      (s.scannerReported).stack = s.stack ∧ (s.scannerReported).board = s.board ∧
      (s.scannerReported).dram = s.dram ∧ (s.scannerReported).counts = s.counts ∧
      (s.scannerReported).freeDraws = s.freeDraws ∧ (s.scannerReported).pending = s.pending ∧
      (s.scannerReported).bus.exporter = s.bus.exporter ∧ (s.scannerReported).bus.loader = s.bus.loader ∧
      (s.scannerReported).bus.portBusy = s.bus.portBusy ∧
      (s.scannerReported).bus.scannerFaults = s.bus.scannerFaults ∧
      (s.scannerReported).bus.exporterFaults = s.bus.exporterFaults ∧
      (s.scannerReported).bus.loaderFaults = s.bus.loaderFaults := by
  simp [State.scannerReported]

/-- Every baseline mark is set (R153). -/
@[simp] theorem markAllBoxes_frame (s : State) :
    (markAllBoxes s).device = s.device ∧ (markAllBoxes s).session = s.session ∧
      (markAllBoxes s).resetEpoch = s.resetEpoch ∧ (markAllBoxes s).regs = s.regs ∧
      (markAllBoxes s).events = s.events ∧ (markAllBoxes s).ports = s.ports ∧ (markAllBoxes s).store = s.store ∧
      (markAllBoxes s).library = s.library ∧ (markAllBoxes s).sched = s.sched ∧
      (markAllBoxes s).engine = s.engine ∧ (markAllBoxes s).stack = s.stack ∧ (markAllBoxes s).bus = s.bus ∧
      (markAllBoxes s).dram = s.dram ∧ (markAllBoxes s).counts = s.counts ∧
      (markAllBoxes s).freeDraws = s.freeDraws ∧ (markAllBoxes s).pending = s.pending ∧
      (markAllBoxes s).board.rotation = s.board.rotation ∧ (markAllBoxes s).board.phase = s.board.phase ∧
      (markAllBoxes s).board.examined = s.board.examined ∧ (markAllBoxes s).board.taken = s.board.taken ∧
      (markAllBoxes s).board.lastTaken = s.board.lastTaken ∧
      (markAllBoxes s).board.firstRound = s.board.firstRound ∧
      (markAllBoxes s).board.faulted = s.board.faulted ∧ (markAllBoxes s).board.followUp = s.board.followUp ∧
      (markAllBoxes s).board.period = s.board.period ∧ (markAllBoxes s).board.interval = s.board.interval := by
  simp [markAllBoxes]

/-- A change of the window (R153). -/
@[simp] theorem windowChanged_frame (c : Bool) (s : State) :
    (windowChanged c s).device = s.device ∧ (windowChanged c s).session = s.session ∧
      (windowChanged c s).resetEpoch = s.resetEpoch ∧ (windowChanged c s).regs = s.regs ∧
      (windowChanged c s).events = s.events ∧ (windowChanged c s).ports = s.ports ∧
      (windowChanged c s).store = s.store ∧ (windowChanged c s).library = s.library ∧
      (windowChanged c s).sched = s.sched ∧ (windowChanged c s).engine = s.engine ∧
      (windowChanged c s).stack = s.stack ∧ (windowChanged c s).bus = s.bus ∧
      (windowChanged c s).dram = s.dram ∧ (windowChanged c s).counts = s.counts ∧
      (windowChanged c s).freeDraws = s.freeDraws ∧ (windowChanged c s).pending = s.pending ∧
      (windowChanged c s).board.rotation = s.board.rotation ∧ (windowChanged c s).board.phase = s.board.phase ∧
      (windowChanged c s).board.examined = s.board.examined ∧ (windowChanged c s).board.taken = s.board.taken ∧
      (windowChanged c s).board.lastTaken = s.board.lastTaken ∧
      (windowChanged c s).board.firstRound = s.board.firstRound ∧
      (windowChanged c s).board.faulted = s.board.faulted ∧
      (windowChanged c s).board.followUp = s.board.followUp ∧
      (windowChanged c s).board.period = s.board.period ∧
      (windowChanged c s).board.interval = s.board.interval := by
  unfold windowChanged
  split <;> simp

/-- SCAN_EN and INT_EN (R175). -/
@[simp] theorem setEnables_frame (v : Word) (s : State) :
    (setEnables v s).device = s.device ∧ (setEnables v s).session = s.session ∧
      (setEnables v s).resetEpoch = s.resetEpoch ∧ (setEnables v s).ports = s.ports ∧
      (setEnables v s).store = s.store ∧ (setEnables v s).library = s.library ∧
      (setEnables v s).sched = s.sched ∧ (setEnables v s).engine = s.engine ∧ (setEnables v s).stack = s.stack ∧
      (setEnables v s).bus = s.bus ∧ (setEnables v s).dram = s.dram ∧ (setEnables v s).counts = s.counts ∧
      (setEnables v s).freeDraws = s.freeDraws ∧ (setEnables v s).pending = s.pending ∧
      (setEnables v s).board.boxes = s.board.boxes ∧ (setEnables v s).board.rotation = s.board.rotation ∧
      (setEnables v s).board.phase = s.board.phase ∧ (setEnables v s).board.examined = s.board.examined ∧
      (setEnables v s).board.taken = s.board.taken ∧ (setEnables v s).board.lastTaken = s.board.lastTaken ∧
      (setEnables v s).board.firstRound = s.board.firstRound ∧
      (setEnables v s).board.faulted = s.board.faulted ∧ (setEnables v s).board.period = s.board.period ∧
      (setEnables v s).board.interval = s.board.interval := by
  simp [setEnables]

/-! ## What an owner leaves alone -/

/-- Cases 3 and 4 of a CANCEL (R82). -/
@[simp] theorem cancelJob_frame (b : Fin 64) (s : State) :
    ((cancelJob b s).1).device = s.device ∧ ((cancelJob b s).1).session = s.session ∧
      ((cancelJob b s).1).resetEpoch = s.resetEpoch ∧ ((cancelJob b s).1).regs = s.regs ∧
      ((cancelJob b s).1).ports = s.ports ∧ ((cancelJob b s).1).store = s.store ∧
      ((cancelJob b s).1).engine = s.engine ∧ ((cancelJob b s).1).dram = s.dram ∧
      ((cancelJob b s).1).freeDraws = s.freeDraws ∧ ((cancelJob b s).1).pending = s.pending ∧
      ((cancelJob b s).1).sched.mode = s.sched.mode ∧ ((cancelJob b s).1).sched.hold = s.sched.hold ∧
      ((cancelJob b s).1).library.load = s.library.load ∧
      ((cancelJob b s).1).library.serial = s.library.serial ∧
      ((cancelJob b s).1).board.rotation = s.board.rotation ∧ ((cancelJob b s).1).board.phase = s.board.phase ∧
      ((cancelJob b s).1).board.examined = s.board.examined ∧ ((cancelJob b s).1).board.taken = s.board.taken ∧
      ((cancelJob b s).1).board.lastTaken = s.board.lastTaken ∧
      ((cancelJob b s).1).board.firstRound = s.board.firstRound ∧
      ((cancelJob b s).1).board.faulted = s.board.faulted ∧
      ((cancelJob b s).1).board.followUp = s.board.followUp ∧
      ((cancelJob b s).1).board.period = s.board.period ∧
      ((cancelJob b s).1).board.interval = s.board.interval ∧ ((cancelJob b s).1).bus.scanner = s.bus.scanner ∧
      ((cancelJob b s).1).bus.loader = s.bus.loader ∧ ((cancelJob b s).1).bus.portBusy = s.bus.portBusy ∧
      ((cancelJob b s).1).bus.scannerFaults = s.bus.scannerFaults ∧
      ((cancelJob b s).1).bus.exporterFaults = s.bus.exporterFaults ∧
      ((cancelJob b s).1).bus.loaderFaults = s.bus.loaderFaults ∧
      ((cancelJob b s).1).counts.scan = s.counts.scan ∧
      ((cancelJob b s).1).counts.pilotDamage = s.counts.pilotDamage ∧
      ((cancelJob b s).1).counts.discardedWrites = s.counts.discardedWrites ∧
      ((cancelJob b s).1).sched.priority = s.sched.priority := by
  unfold cancelJob
  split
  · simp
  · split
    · simp
    · split <;> simp

/-- A CLOSE_BIN moves its bin (R126). -/
@[simp] theorem closeBinAt_frame (b : Fin 8) (r : BinRecord) (s : State) :
    (closeBinAt b r s).device = s.device ∧ (closeBinAt b r s).session = s.session ∧
      (closeBinAt b r s).resetEpoch = s.resetEpoch ∧ (closeBinAt b r s).regs = s.regs ∧
      (closeBinAt b r s).ports = s.ports ∧ (closeBinAt b r s).store = s.store ∧
      (closeBinAt b r s).library = s.library ∧ (closeBinAt b r s).sched = s.sched ∧
      (closeBinAt b r s).engine = s.engine ∧ (closeBinAt b r s).board = s.board ∧
      (closeBinAt b r s).dram = s.dram ∧ (closeBinAt b r s).freeDraws = s.freeDraws ∧
      (closeBinAt b r s).pending = s.pending ∧ (closeBinAt b r s).bus.scanner = s.bus.scanner ∧
      (closeBinAt b r s).bus.loader = s.bus.loader ∧ (closeBinAt b r s).bus.portBusy = s.bus.portBusy ∧
      (closeBinAt b r s).bus.scannerFaults = s.bus.scannerFaults ∧
      (closeBinAt b r s).bus.exporterFaults = s.bus.exporterFaults ∧
      (closeBinAt b r s).bus.loaderFaults = s.bus.loaderFaults ∧
      (closeBinAt b r s).counts.scan = s.counts.scan ∧
      (closeBinAt b r s).counts.pilotDamage = s.counts.pilotDamage ∧
      (closeBinAt b r s).counts.discardedWrites = s.counts.discardedWrites := by
  unfold closeBinAt
  split <;> simp

/-- A CONFIGURE is taken (R6, R7). -/
@[simp] theorem startSession_frame (i e n : Nat) (c : Vector Nat 4) (s : State) :
    (startSession i e n c s).resetEpoch = s.resetEpoch ∧ (startSession i e n c s).regs = s.regs ∧
      (startSession i e n c s).sched = s.sched ∧ (startSession i e n c s).engine = s.engine ∧
      (startSession i e n c s).stack = s.stack ∧ (startSession i e n c s).bus = s.bus ∧
      (startSession i e n c s).dram = s.dram ∧ (startSession i e n c s).counts = s.counts ∧
      (startSession i e n c s).freeDraws = s.freeDraws ∧ (startSession i e n c s).pending = s.pending ∧
      (startSession i e n c s).library.load = s.library.load ∧
      (startSession i e n c s).library.serial = s.library.serial ∧
      (startSession i e n c s).board.boxes = s.board.boxes ∧
      (startSession i e n c s).board.rotation = s.board.rotation ∧
      (startSession i e n c s).board.phase = s.board.phase ∧
      (startSession i e n c s).board.examined = s.board.examined ∧
      (startSession i e n c s).board.taken = s.board.taken ∧
      (startSession i e n c s).board.lastTaken = s.board.lastTaken ∧
      (startSession i e n c s).board.firstRound = s.board.firstRound ∧
      (startSession i e n c s).board.faulted = s.board.faulted ∧
      (startSession i e n c s).board.followUp = s.board.followUp ∧
      (startSession i e n c s).board.interval = s.board.interval := by
  unfold startSession
  dsimp only
  split <;> simp

/-- A session ends (R10). -/
@[simp] theorem endSession_frame (s : State) :
    (endSession s).resetEpoch = s.resetEpoch ∧ (endSession s).regs = s.regs ∧
      (endSession s).library = s.library ∧ (endSession s).sched = s.sched ∧ (endSession s).engine = s.engine ∧
      (endSession s).stack = s.stack ∧ (endSession s).bus = s.bus ∧ (endSession s).dram = s.dram ∧
      (endSession s).counts = s.counts ∧ (endSession s).freeDraws = s.freeDraws ∧
      (endSession s).pending = s.pending ∧ (endSession s).board.boxes = s.board.boxes ∧
      (endSession s).board.rotation = s.board.rotation ∧ (endSession s).board.phase = s.board.phase ∧
      (endSession s).board.examined = s.board.examined ∧ (endSession s).board.taken = s.board.taken ∧
      (endSession s).board.lastTaken = s.board.lastTaken ∧
      (endSession s).board.firstRound = s.board.firstRound ∧ (endSession s).board.faulted = s.board.faulted ∧
      (endSession s).board.followUp = s.board.followUp ∧ (endSession s).board.interval = s.board.interval := by
  unfold endSession
  dsimp only
  split <;> simp

/-! ## The take -/

/-- Everything the take of an order can do (R148 to R150): nothing, where it is not the step that the scanner waits
for; the box is skipped, for a second reading that differs or for an order left untaken; or the order is answered. -/
theorem takeOrder_cases (kind : Option OrderKind) (owner : Fin 64 → Byte → List Byte → State → Verdict)
    (after : State → State) (post : Byte) (s : State) :
    takeOrder kind owner after post s = s ∨
      takeOrder kind owner after post s = serveIssuePort (nextBox s.scannerReported) ∨
      ∃ b body t a, s.board.phase = .secondPost b post body ∧ bodyKind body = kind ∧
        owner b post body s.scannerReported = some (t, a) ∧ takeOrder kind owner after post s =
          serveIssuePort (countTake b (after (recordTake b post (bodyKindCode body) a t))) := by
  unfold takeOrder
  split
  · rename_i b first body hp
    split
    · exact .inl rfl
    · split
      · exact .inr (.inl rfl)
      · rename_i hpost
        obtain rfl : post = first := Decidable.not_not.mp hpost
        split
        · exact .inl rfl
        · rename_i hk
          split
          · exact .inr (.inl rfl)
          · rename_i t a ho
            exact .inr (.inr ⟨b, body, t, a, hp, Decidable.not_not.mp hk, ho, rfl⟩)
  · exact .inl rfl

end Sys2Proof.Machine
end

