-- ==== Sys2Proof/Laws/EventLaws.lean ====
section
/-! SUPPORT. What the shared operations do to the Event Unit: they raise causes, and so keep the mask, the endpoint's
input and every cause that is pending, and each of them raises only the causes it is said to. -/

namespace Sys2Proof.Machine

theorem EventsGrow.refl (i : Bool) (e : EventUnit) : EventsGrow i e e := by
  have h : ¬(i = true ∧ signalled e = 0 ∧ signalled e ≠ 0) := fun h => h.2.2 h.2.1
  refine ⟨rfl, rfl, rfl, BitVec.and_self, ?_⟩
  rw [if_neg h]
  exact ⟨rfl, by simp⟩

/-- While causes are only added, a signalled set that is empty afterwards was empty before. -/
theorem EventsGrow.empty {i : Bool} {e f : EventUnit} (h : EventsGrow i e f) (hf : signalled f = 0) :
    signalled e = 0 := by
  unfold signalled at *
  rw [← h.pending, ← h.mask, BitVec.and_comm f.pending, BitVec.and_assoc, hf]
  exact BitVec.and_zero

/-- At most one message goes however many causes are raised (R171). -/
theorem EventsGrow.trans {i : Bool} {e f g : EventUnit} (h : EventsGrow i e f) (k : EventsGrow i f g) :
    EventsGrow i e g := by
  refine ⟨k.mask.trans h.mask, k.enabled.trans h.enabled, k.link.trans h.link, by rw [← h.pending, ← BitVec.and_assoc, k.pending], ?_⟩
  have hm := h.messages
  have km := k.messages
  have hk := k.empty
  have hh := h.empty
  by_cases hi : i = true <;> by_cases he : signalled e = 0 <;> by_cases hf : signalled f = 0 <;>
    by_cases hg : signalled g = 0 <;> simp_all <;>
    exact ⟨by rw [km.sent, hm.sent], by rw [km.lost, hm.lost, h.enabled, h.link]; simp⟩

/-- An operation of the part raises causes at most, only those of `cs`, and leaves the registers alone. -/
structure Grows (cs : List Cause) (s t : State) : Prop where
  regs : t.regs = s.regs
  events : EventsGrow s.regs.intEn s.events t.events
  causes : ∀ c, isPending c t → isPending c s ∨ c ∈ cs

variable {cs : List Cause}

theorem Grows.refl (s : State) : Grows cs s s := ⟨rfl, .refl _ _, fun _ h => .inl h⟩

theorem Grows.of_eq {s t : State} (hr : t.regs = s.regs) (he : t.events = s.events) : Grows cs s t :=
  ⟨hr, he ▸ .refl _ _, fun c h => by unfold isPending at *; rw [he] at h; exact .inl h⟩

theorem Grows.trans {s t u : State} (h : Grows cs s t) (k : Grows cs t u) : Grows cs s u :=
  ⟨k.regs.trans h.regs, h.events.trans (by rw [← h.regs]; exact k.events),
    fun c hc => (k.causes c hc).elim (h.causes c) .inr⟩

/-- Only what stands before it matters of a state. -/
theorem Grows.start {s s' t : State} (h : Grows cs s t) (hr : s.regs = s'.regs) (he : s.events = s'.events) :
    Grows cs s' t := (Grows.of_eq (s := s') hr he).trans h

/-- A message sent is counted, and counted as lost if it does not reach the host (R171). -/
theorem sendMessage_goes (e : EventUnit) : MessagesGo 1 e (sendMessage e) := by
  refine ⟨rfl, ?_⟩
  unfold sendMessage EventUnit.delivers
  cases e.linkUp <;> cases e.messageEnabled <;> rfl

/-- A message is not an effect on the causes. -/
@[simp] theorem sendIf_keeps (c : Bool) (e : EventUnit) :
    (sendIf c e).mask = e.mask ∧ (sendIf c e).messageEnabled = e.messageEnabled ∧
      (sendIf c e).linkUp = e.linkUp ∧ (sendIf c e).pending = e.pending := by
  unfold sendIf
  split <;> simp [sendMessage]

/-- Raising a cause puts it in the pending set (R170). -/
@[simp] theorem raiseCause_keeps (i : Bool) (c : Cause) (e : EventUnit) :
    (raiseCause i c e).mask = e.mask ∧ (raiseCause i c e).messageEnabled = e.messageEnabled ∧
      (raiseCause i c e).linkUp = e.linkUp ∧
      (raiseCause i c e).pending = e.pending ||| c.bit := by
  simp [raiseCause]

/-- Raising a cause adds that cause alone. -/
theorem raise_causes (p : BitVec 5) (c c' : Cause) (h : (p ||| c.bit) &&& c'.bit = c'.bit) :
    p &&& c'.bit = c'.bit ∨ c' = c := by
  revert p
  cases c <;> cases c' <;> decide

theorem raise_grows {c : Cause} (hc : c ∈ cs) (s : State) : Grows cs s (s.raise c) := by
  have hp : (s.events.pending ||| c.bit) &&& s.events.pending = s.events.pending := by
    ext i h
    simp
    tauto
  refine ⟨rfl, ?_, fun c' h => ?_⟩
  rotate_left
  · unfold isPending at h ⊢
    change (raiseCause _ _ _).pending &&& _ = _ at h
    rw [(raiseCause_keeps ..).2.2.2] at h
    exact (raise_causes _ _ _ h).imp id (fun e => by rw [e]; exact hc)
  show EventsGrow s.regs.intEn s.events (raiseCause s.regs.intEn c s.events)
  refine ⟨(raiseCause_keeps ..).1, (raiseCause_keeps ..).2.1, (raiseCause_keeps ..).2.2.1, by rw [(raiseCause_keeps ..).2.2.2]; exact hp, ?_⟩
  have hs : signalled (raiseCause s.regs.intEn c s.events) =
      signalled { s.events with pending := s.events.pending ||| c.bit } := by
    simp [signalled]
  rw [hs]
  unfold raiseCause sendIf
  by_cases h : s.regs.intEn = true ∧ signalled s.events = 0 ∧
      signalled { s.events with pending := s.events.pending ||| c.bit } ≠ 0
  · rw [if_pos h, if_pos (by simpa [and_assoc] using h)]
    exact ⟨rfl, (sendMessage_goes _).lost⟩
  · rw [if_neg h, if_neg (by simpa [and_assoc] using h)]
    exact ⟨rfl, by simp⟩

/-- A raised cause is pending. -/
theorem raise_pending (c : Cause) (s : State) : isPending c (s.raise c) := by
  unfold isPending
  show (raiseCause _ _ _).pending &&& _ = _
  rw [(raiseCause_keeps ..).2.2.2]
  ext i h
  simp
  tauto

/-- A pending cause stays pending. -/
theorem EventsGrow.keeps {s t : State} (h : EventsGrow s.regs.intEn s.events t.events) {c : Cause} (hc : isPending c s) :
    isPending c t := by
  unfold isPending at *
  have e := h.pending
  rw [← hc, ← BitVec.and_assoc, e]

theorem busFault_grows (hf : Cause.fault ∈ cs) (r : Requester) (s : State) :
    Grows cs s (s.busFault r) :=
  (raise_grows hf _).start rfl rfl

/-! ## Exports and jobs -/

theorem postExportBurst_grows (w : Writer) (s : State) : Grows cs s (postExportBurst w s) :=
  .of_eq (by simp) (by simp)

theorem holdHead_grows (hb : Cause.bin ∈ cs) (b : Fin 8) (r : BinRecord) (o : Nat) (rest : List (Fin 8)) (s : State) :
    Grows cs s (holdHead b r o rest s) := (raise_grows hb _).start rfl rfl

theorem beginExport_grows (hb : Cause.bin ∈ cs) (n : Nat) (s : State) :
    Grows cs s (beginExport n s) := by
  induction n generalizing s with
  | zero => exact .of_eq rfl rfl
  | succ n ih =>
    unfold beginExport
    split
    · exact .of_eq rfl rfl
    · split
      · exact .of_eq rfl rfl
      · split
        · exact .of_eq rfl rfl
        · split
          · exact postExportBurst_grows _ _
          · exact (holdHead_grows hb ..).trans (ih _)

theorem enterExporting_grows (hb : Cause.bin ∈ cs) (b : Fin 8) (r : BinRecord) (s : State) :
    Grows cs s (enterExporting b r s) := by
  unfold enterExporting
  dsimp only
  split
  · exact (beginExport_grows hb _
      { s.setBinRecord b (some { r with phase := .exporting }) with
        stack :=
          { (s.setBinRecord b (some { r with phase := .exporting })).stack with
            exportQueue := s.stack.exportQueue ++ [b] } }).start rfl rfl
  · exact .of_eq rfl rfl

theorem drainTest_grows (hb : Cause.bin ∈ cs) (b : Fin 8) (s : State) :
    Grows cs s (drainTest b s) := by
  unfold drainTest
  split
  · split
    · exact enterExporting_grows hb _ _ _
    · exact .of_eq rfl rfl
  · exact .of_eq rfl rfl

theorem endJob_grows (hb : Cause.bin ∈ cs) (i : Fin 32) (o : OrderOutcome) (x : Reason) (s : State) :
    Grows cs s (endJob i o x s) := by
  unfold endJob
  split
  · rename_i j _
    exact (Grows.of_eq (by simp) (show (dropJob i j o x s).events = s.events by simp)).trans (drainTest_grows hb _ _)
  · exact .of_eq rfl rfl

theorem arbitrate_grows (hb : Cause.bin ∈ cs) (s : State) :
    Grows cs s (arbitrate s) := by
  have loop : ∀ n s, Grows cs s (arbitrateLoop n s) := by
    intro n
    induction n with
    | zero => exact fun s => .of_eq rfl rfl
    | succ n ih =>
      intro s
      unfold arbitrateLoop
      split
      · exact .of_eq rfl rfl
      · split
        · exact .of_eq rfl rfl
        · split
          · split
            · exact (endJob_grows hb ..).trans (ih _)
            · split
              · exact (endJob_grows hb ..).trans (ih _)
              · exact .of_eq rfl rfl
          · exact .of_eq rfl rfl
  unfold arbitrate
  split
  · exact loop _ _
  · exact .of_eq rfl rfl

theorem settleJob_grows (hb : Cause.bin ∈ cs) (i : Fin 32) (j : Job) (kind : PassEnd) (s : State) :
    Grows cs s (settleJob i j kind s) := by
  unfold settleJob
  split
  · dsimp only
    split
    · exact (endJob_grows hb _ _ _ (s.setJob i (some (countBlock j)))).start rfl rfl
    · split
      · exact .of_eq rfl rfl
      · exact (endJob_grows hb _ _ _ (s.setJob i (some (countBlock j)))).start rfl rfl
  · split <;> exact (endJob_grows hb _ _ _ _).start rfl rfl
  · split <;> exact (endJob_grows hb _ _ _ _).start rfl rfl

theorem endPass_grows (hb : Cause.bin ∈ cs) (kind : PassEnd) (s : State) :
    Grows cs s (endPass kind s) := by
  unfold endPass
  split
  · exact .of_eq rfl rfl
  · dsimp only
    split
    · exact .of_eq rfl rfl
    · rename_i i _ _ j _
      have h := settleJob_grows hb i j kind (turnList j.fleet { s with engine := .noPass })
      exact h.start (by simp) (by simp)

/-! ## Ports -/

theorem cutPort_grows (hl : Cause.link ∈ cs) (p : Fin 4) (c : CutCause) (s : State) :
    Grows cs s (cutPort p c s) :=
  (raise_grows hl _).start rfl rfl

theorem stallTest_grows (hl : Cause.link ∈ cs) (p : Fin 4) (s : State) :
    Grows cs s (stallTest p s) := by
  unfold stallTest
  split
  · split
    · exact (cutPort_grows hl _ _ _).start rfl rfl
    · exact .of_eq rfl rfl
  · exact .of_eq rfl rfl

theorem stallTests_grows (hl : Cause.link ∈ cs) (s : State) :
    Grows cs s (stallTests s) := by
  simp only [stallTests, List.finRange_succ, List.finRange_zero, List.map, List.foldl]
  exact (stallTest_grows hl _ _).trans
    ((stallTest_grows hl _ _).trans ((stallTest_grows hl _ _).trans (stallTest_grows hl _ _)))

theorem pinTest_grows (hb : Cause.bin ∈ cs) (s : State) :
    Grows cs s (pinTest s) := by
  unfold pinTest
  split
  · split
    · exact (endPass_grows hb _ { s with store := { s.store with pin := none } }).start rfl rfl
    · exact .of_eq rfl rfl
  · exact .of_eq rfl rfl

theorem storeFrame_grows (hl : Cause.link ∈ cs) (hb : Cause.bin ∈ cs)
    (p : Fin 4) (tag : Nat) (xs : List (BitVec 32)) (s : State) :
    Grows cs s (storeFrame p tag xs s) := by
  unfold storeFrame
  split
  · exact .of_eq rfl rfl
  · rename_i w _
    split
    · exact .of_eq (by simp) (by simp)
    · have h := pinTest_grows hb
        (setFrontier p tag
          (writeFrame p tag xs
            { s with store := { clearMarks (w + 1) tag s.store with newest := some (tag : Int) } }))
      exact (Grows.trans (.of_eq (by simp) (by simp)) h).trans (stallTests_grows hl _)

theorem degradeTest_grows (hl : Cause.link ∈ cs) (p : Fin 4) (s : State) :
    Grows cs s (degradeTest p s) := by
  unfold degradeTest
  split
  · have h := (raise_grows hl (s.setPort p { s.ports[p] with state := .degraded })).start rfl rfl
    exact (h.start (s' := s) rfl rfl).trans (stallTest_grows hl _ _)
  · exact .of_eq rfl rfl

theorem recoverTest_grows (hl : Cause.link ∈ cs) (p : Fin 4) (s : State) :
    Grows cs s (recoverTest p s) := by
  unfold recoverTest
  split
  · exact (raise_grows hl (s.setPort p { s.ports[p] with state := .live })).start rfl rfl
  · exact .of_eq rfl rfl

theorem badFrame_grows (hl : Cause.link ∈ cs) (p : Fin 4) (c : BadClass) (s : State) :
    Grows cs s (badFrame p c s) := by
  unfold badFrame
  dsimp only
  split
  · exact (cutPort_grows hl _ _ (s.setPort p _)).start rfl rfl
  · exact (degradeTest_grows hl _ (s.setPort p _)).start rfl rfl

theorem gapFrame_grows (hl : Cause.link ∈ cs) (hb : Cause.bin ∈ cs)
    (p : Fin 4) (tag : Nat) (xs : List (BitVec 32)) (s : State) :
    Grows cs s (gapFrame p tag xs s) := by
  unfold gapFrame
  dsimp only
  split
  · exact (cutPort_grows hl _ _ (s.setPort p _)).start rfl rfl
  · have h := storeFrame_grows hl hb p tag xs
      (s.setPort p { s.ports[p] with counts := { s.ports[p].counts with gap := satInc32 s.ports[p].counts.gap } })
    generalize storeFrame p tag xs
      (s.setPort p { s.ports[p] with counts := { s.ports[p].counts with gap := satInc32 s.ports[p].counts.gap } }) = t at h ⊢
    exact (h.start (s' := s) rfl rfl).trans ((degradeTest_grows hl p (t.setPort p _)).start rfl rfl)

theorem goodFrame_grows (hl : Cause.link ∈ cs) (hb : Cause.bin ∈ cs)
    (p : Fin 4) (tag : Nat) (xs : List (BitVec 32)) (s : State) :
    Grows cs s (goodFrame p tag xs s) :=
  (storeFrame_grows hl hb p tag xs s).trans
    ((recoverTest_grows hl p ((storeFrame p tag xs s).setPort p _)).start rfl rfl)

theorem liveArrival_grows (hl : Cause.link ∈ cs) (hb : Cause.bin ∈ cs) (p : Fin 4) (bytes : List Byte) (s : State) :
    Grows cs s (liveArrival p bytes s) := by
  unfold liveArrival
  dsimp only
  split
  · exact badFrame_grows hl _ _ _
  · split
    · exact badFrame_grows hl _ _ _
    · split
      · exact badFrame_grows hl _ _ _
      · split
        · exact goodFrame_grows hl hb _ _ _ _
        · exact gapFrame_grows hl hb _ _ _ _

theorem clearSkipped_grows (x : Option Int) (tag : Nat) (s : State) : Grows cs s (clearSkipped x tag s) := by
  unfold clearSkipped
  split <;> exact .of_eq rfl rfl

theorem joinPort_grows (hl : Cause.link ∈ cs) (hb : Cause.bin ∈ cs)
    (p : Fin 4) (tag : Nat) (xs : List (BitVec 32)) (s : State) :
    Grows cs s (joinPort p tag xs s) := by
  have h := ((raise_grows hl (s.setPort p
    { s.ports[p] with state := .live, errors := 0, syncRun := 0, syncTag := none })).trans
      (storeFrame_grows hl hb p tag xs _)).start (s' := s) rfl rfl
  unfold joinPort
  dsimp only
  split
  · exact h.trans (clearSkipped_grows ..)
  · exact h

theorem settleEvent_grows (hb : Cause.bin ∈ cs) (s : State) :
    Grows cs s (settleEvent s) := by
  have h := arbitrate_grows hb (recomputeSettled s)
  exact (Grows.trans (.of_eq (by simp) (by simp)) h).trans (.of_eq (by simp [settleEvent]) (by simp [settleEvent]))

theorem loseCarrier_grows (hl : Cause.link ∈ cs) (p : Fin 4) (s : State) :
    Grows cs s (loseCarrier p s) := by
  unfold loseCarrier
  dsimp only
  split
  · exact .of_eq rfl rfl
  · exact .of_eq rfl rfl
  · exact (cutPort_grows hl _ _ (s.setPort p _)).start rfl rfl
  · exact (cutPort_grows hl _ _ (s.setPort p _)).start rfl rfl
  · exact (cutPort_grows hl _ _ (s.setPort p _)).start rfl rfl

theorem arrival_grows (hl : Cause.link ∈ cs) (hb : Cause.bin ∈ cs) (p : Fin 4) (bytes : List Byte) (s : State) :
    Grows cs s (arrival p bytes s) := by
  unfold arrival
  split
  · exact .of_eq rfl rfl
  · unfold syncArrival
    dsimp only
    split
    · exact .of_eq (by simp) (by simp)
    · split
      · exact .of_eq (by simp) (by simp)
      · split
        · exact .of_eq (by simp) (by simp)
        · split
          · exact .of_eq (by simp) (by simp)
          · exact (joinPort_grows hl hb _ _ _ _).trans (settleEvent_grows hb _)
  · exact (liveArrival_grows hl hb _ _ _).trans (settleEvent_grows hb _)
  · exact (liveArrival_grows hl hb _ _ _).trans (settleEvent_grows hb _)
  · unfold cutArrival
    dsimp only
    split
    · exact .of_eq rfl rfl
    · split
      · exact (raise_grows hl (s.setPort p _)).start rfl rfl
      · exact .of_eq rfl rfl

/-! ## Traces -/

theorem countInJob_grows (i : Fin 32) (o : EditOutcome) (t : Trace) (s : State) : Grows cs s (countInJob i o t s) :=
  .of_eq (by simp) (by simp)

theorem autoDrain_grows (hb : Cause.bin ∈ cs) (b : Fin 8) (s : State) :
    Grows cs s (autoDrain b s) := by
  unfold autoDrain
  split
  · split
    · exact (drainTest_grows hb b (s.setBinRecord b _)).start rfl rfl
    · exact .refl _
  · exact .refl _

theorem acceptTrace_grows (hb : Cause.bin ∈ cs)
    (i : Fin 32) (b : Fin 8) (r : BinRecord) (n : Nat) (t : Trace) (s : State) :
    Grows cs s (acceptTrace i b r n t s) := by
  have h := readAccs_frame (accAddress b.val n 0) r.lags s
  unfold acceptTrace
  dsimp only
  split
  · rename_i u _ e
    rw [e] at h
    exact (autoDrain_grows hb b _).start (by simp_all) (by simp_all)
  · rename_i u e
    rw [e] at h
    exact (autoDrain_grows hb b _).start (by simp_all) (by simp_all)

theorem applyTrace_grows (hn : Cause.channel ∈ cs) (hb : Cause.bin ∈ cs)
    (i : Fin 32) (b : Fin 8) (r : BinRecord) (t : Trace) (s : State) :
    Grows cs s (applyTrace i b r t s) := by
  unfold applyTrace
  dsimp only
  split
  · exact acceptTrace_grows hb _ _ _ _ _ _
  · split
    · exact (raise_grows hn _).start (by simp) (by simp)
    · exact .of_eq (by simp) (by simp)
  · exact .of_eq (by simp) (by simp)
  · exact .of_eq (by simp) (by simp)
  · exact .of_eq (by simp) (by simp)

theorem afterTrace_grows (hb : Cause.bin ∈ cs) (r : PassRecord) (rest : List Trace) (s : State) :
    Grows cs s (afterTrace r rest s) := by
  unfold afterTrace
  split
  · exact (endPass_grows hb _ _).trans (arbitrate_grows hb _)
  · exact .of_eq rfl rfl

/-! ## Bus reports -/

theorem exportBurstCompleted_grows (hb : Cause.bin ∈ cs) (b : Burst) (s : State) :
    Grows cs s (exportBurstCompleted b s) := by
  unfold exportBurstCompleted
  split
  · exact .of_eq rfl rfl
  · dsimp only
    split
    · exact .of_eq rfl rfl
    · split
      · rename_i w _ _ r _ _
        have h : Grows cs s (freeExported { w with written := w.written + b.length } r (s.setSlot .exporter .empty)) :=
          (raise_grows hb _).start rfl rfl
        exact h.trans (beginExport_grows hb _ _)
      · exact (postExportBurst_grows _ _).start rfl rfl

theorem exportBurstFailed_grows (hf : Cause.fault ∈ cs) (hb : Cause.bin ∈ cs) (b : Burst) (s : State) :
    Grows cs s (exportBurstFailed b s) := by
  have h := (busFault_grows hf .exporter (s.setSlot .exporter .empty)).start (s' := s) rfl rfl
  unfold exportBurstFailed
  split
  · exact h
  · dsimp only
    split
    · exact h
    · exact h.trans ((holdHead_grows hb ..).trans (beginExport_grows hb _ _))

theorem failLoaderBurst_grows (hf : Cause.fault ∈ cs) (b : Burst) (data : List Byte) (s : State) :
    Grows cs s (failLoaderBurst b data s) := by
  have h := (busFault_grows hf .loader (s.setSlot .loader .empty)).start (s' := s) rfl rfl
  unfold failLoaderBurst
  split
  · exact h
  · exact h.trans (.of_eq (by simp) (by simp))

/-! ## The board scan -/

theorem failScannerRead_grows (hf : Cause.fault ∈ cs) (s : State) :
    Grows cs s (failScannerRead s) :=
  ((busFault_grows hf .scanner s.scannerReported).start (s' := s) rfl rfl).trans
    (.of_eq (by simp [failScannerRead]) (by simp [failScannerRead]))

theorem failAnswerWrite_grows (hf : Cause.fault ∈ cs) (round : AnswerRound) (b : Fin 64) (s : State) :
    Grows cs s (failAnswerWrite round b s) :=
  ((busFault_grows hf .scanner s.scannerReported).start (s' := s) rfl rfl).trans
    (.of_eq (by simp [failAnswerWrite]) (by simp [failAnswerWrite]))

theorem answerWritten_grows (hx : Cause.box ∈ cs) (b : Fin 64) (sent : Option Answer) (s : State) :
    Grows cs s (answerWritten b sent s) := by
  unfold answerWritten
  dsimp only
  split
  · split
    · exact (raise_grows hx _).start rfl rfl
    · exact (raise_grows hx _).start rfl rfl
  · split
    · exact .of_eq rfl rfl
    · exact .refl _

/-! ## Orders -/

theorem startSession_grows (hl : Cause.link ∈ cs) (i e n : Nat) (c : Vector Nat 4) (s : State) :
    Grows cs s (startSession i e n c s) := by
  unfold startSession
  dsimp only
  split
  · exact .of_eq rfl rfl
  · exact (raise_grows hl _).start rfl rfl

theorem endSession_grows (hl : Cause.link ∈ cs) (s : State) :
    Grows cs s (endSession s) := by
  unfold endSession
  dsimp only
  split
  · exact (raise_grows hl _).start rfl rfl
  · exact .of_eq rfl rfl

theorem cancelJob_grows (hb : Cause.bin ∈ cs) (b : Fin 64) (s : State) :
    Grows cs s (cancelJob b s).1 := by
  unfold cancelJob
  split
  · exact .refl _
  · split
    · exact .refl _
    · split
      · exact .of_eq rfl rfl
      · exact endJob_grows hb _ _ _ _

theorem closeBinAt_grows (hb : Cause.bin ∈ cs) (b : Fin 8) (r : BinRecord) (s : State) :
    Grows cs s (closeBinAt b r s) := by
  unfold closeBinAt
  split
  · exact (drainTest_grows hb b (s.setBinRecord b _)).start rfl rfl
  · exact .of_eq rfl rfl
  · exact enterExporting_grows hb _ _ _
  · exact .refl _

/-- The take of an order raises causes at most, if its owner and what follows do. -/
theorem takeOrder_grows (kind : Option OrderKind) (owner : Fin 64 → Byte → List Byte → State → Verdict)
    (after : State → State) (post : Byte) (s : State)
    (ho : ∀ b body u t a, owner b post body u = some (t, a) → Grows cs u t) (ha : ∀ u, Grows cs u (after u)) :
    Grows cs s (takeOrder kind owner after post s) := by
  rcases takeOrder_cases kind owner after post s with h | h | ⟨b, body, t, a, -, -, hv, h⟩ <;> rw [h]
  · exact .refl _
  · exact .of_eq (by simp) (by simp)
  · have h : Grows cs s t := (ho _ _ _ _ _ hv).start (by simp) (by simp)
    have k := (ha (recordTake b post (bodyKindCode body) a t)).start (s' := t) rfl rfl
    exact (h.trans k).trans (.of_eq (by simp) (by simp))

end Sys2Proof.Machine
end

