-- ==== Sys2Proof/Laws/Exports.lean ====
section
/-! SUPPORT. Everything that the export writer can do, said once: what it forms for a burst and posts (R129 to R132),
and how the export queue begins (R128, R135). -/

namespace Sys2Proof.Machine

variable {d : Dram} {b : Fin 8} {r : BinRecord} {i n : Nat} {l : List Nat}

/-! ## The channels of a record after some are formed -/

theorem afterForming_channel (h : exportSpoils d b r i = true → i ∉ l) :
    (r.afterForming d b l).channel i = r.channel i := by
  simp only [BinRecord.channel, BinRecord.afterForming, List.getD_eq_getElem?_getD, List.getElem?_mapIdx]
  cases hc : r.channels[i]? with
  | none => rfl
  | some c =>
    simp only [Option.map_some, Option.getD_some, List.mem_filter]
    rw [if_neg fun ⟨hm, hs⟩ => h hs hm]

theorem afterForming_spoilt (hm : i ∈ l) (hs : exportSpoils d b r i = true) :
    (r.afterForming d b l).channel i = { r.channel i with poisoned := true } := by
  simp only [BinRecord.channel, BinRecord.afterForming, List.getD_eq_getElem?_getD, List.getElem?_mapIdx]
  cases hc : r.channels[i]? with
  | none =>
    simp [exportSpoils, exportReads, BinRecord.channel, List.getD_eq_getElem?_getD, hc, ChannelRecord.zero] at hs
  | some c => simp [List.mem_filter, hm, hs]

theorem afterForming_clean (h : l.filter (exportSpoils d b r) = []) : r.afterForming d b l = r := by
  have e : (r.channels.mapIdx fun _ c => c) = r.channels := by simp [List.mapIdx_eq_ofFn]
  simp only [BinRecord.afterForming, h, List.filter_nil, List.not_mem_nil, if_false, List.length_nil, Nat.add_zero, e]

section other
variable (h : i ≠ n)
include h

theorem reads_other : exportReads (r.afterForming d b [n]) i = exportReads r i := by
  simp only [exportReads, afterForming_channel (l := [n]) (fun _ => by simpa using h)]

theorem spoils_other : exportSpoils d b (r.afterForming d b [n]) i = exportSpoils d b r i := by
  simp only [exportSpoils, reads_other h]
  rfl

theorem poisoned_other : exportPoisoned d b (r.afterForming d b [n]) i = exportPoisoned d b r i := by
  simp only [exportPoisoned, spoils_other h, afterForming_channel (l := [n]) (fun _ => by simpa using h)]

theorem empty_other : exportEmpty d b (r.afterForming d b [n]) i = exportEmpty d b r i := by
  simp only [exportEmpty, poisoned_other h, afterForming_channel (l := [n]) (fun _ => by simpa using h)]

theorem record_other : exportedRecord d b (r.afterForming d b [n]) i = exportedRecord d b r i := by
  simp only [exportedRecord, poisoned_other h, empty_other h,
    afterForming_channel (l := [n]) (fun _ => by simpa using h)]
  rfl

end other

theorem filter_other {p : BinRecord → Nat → Bool} (hp : ∀ i ≠ n, p (r.afterForming d b [n]) i = p r i) (hn : n ∉ l) :
    l.filter (p (r.afterForming d b [n])) = l.filter (p r) :=
  List.filter_congr fun i hi => hp i fun e => hn (e ▸ hi)

/-- Forming the record of one channel and then those of others is forming them all. -/
theorem afterForming_cons (hn : n ∉ l) :
    (r.afterForming d b [n]).afterForming d b l = r.afterForming d b (n :: l) := by
  have hf : l.filter (exportSpoils d b (r.afterForming d b [n])) = l.filter (exportSpoils d b r) :=
    filter_other (fun i hi => spoils_other hi) hn
  have hk : (l.filter (exportSpoils d b r)).filter
        (fun i => decide (((r.afterForming d b [n]).channel i).fold < r.targetFold)) =
      (l.filter (exportSpoils d b r)).filter (fun i => decide ((r.channel i).fold < r.targetFold)) := by
    refine List.filter_congr fun i hi => ?_
    rw [afterForming_channel fun _ => ?_]
    simp only [List.mem_singleton]
    rintro rfl
    exact hn (List.mem_filter.1 hi).1
  have h1 : ((r.afterForming d b [n]).afterForming d b l).channelsAtTarget =
      (r.afterForming d b (n :: l)).channelsAtTarget := by
    show (r.afterForming d b [n]).channelsAtTarget + _ = _
    rw [hf]
    show _ + ((l.filter (exportSpoils d b r)).filter
      (fun i => decide (((r.afterForming d b [n]).channel i).fold < r.targetFold))).length = _
    rw [hk]
    simp only [BinRecord.afterForming, List.filter_cons, List.filter_nil]
    split
    · simp only [List.filter_cons, List.filter_nil]
      split <;> simp only [List.length_cons, List.length_nil] <;> omega
    · rfl
  have h2 : ((r.afterForming d b [n]).afterForming d b l).channels = (r.afterForming d b (n :: l)).channels := by
    show List.mapIdx (fun i c => if i ∈ l.filter (exportSpoils d b (r.afterForming d b [n])) then
      ({ c with poisoned := true } : ChannelRecord) else c) (List.mapIdx _ r.channels) = List.mapIdx _ r.channels
    rw [hf, List.mapIdx_mapIdx]
    congr 1
    funext i c
    simp only [Function.comp, List.mem_filter, List.mem_cons, List.not_mem_nil, or_false]
    by_cases h1 : i = n <;> by_cases h2 : i ∈ l <;> by_cases h3 : exportSpoils d b r i = true <;> simp_all
  calc _ = { r with channels := ((r.afterForming d b [n]).afterForming d b l).channels
                    channelsAtTarget := ((r.afterForming d b [n]).afterForming d b l).channelsAtTarget } := rfl
    _ = _ := by rw [h1, h2]; rfl

theorem counts_cons (m : Counts) (hn : n ∉ l) :
    (m.afterForming d b r [n]).afterForming d b (r.afterForming d b [n]) l = m.afterForming d b r (n :: l) := by
  simp only [Counts.afterForming, filter_other (p := fun r => exportReads r) (fun i hi => reads_other hi) hn,
    filter_other (p := fun r => exportSpoils d b r) (fun i hi => spoils_other hi) hn]
  have e : exportSingles d b (r.afterForming d b [n]) = exportSingles d b r := rfl
  simp only [e, List.filter_cons, List.filter_nil]
  congr 1
  · by_cases h1 : exportReads r n = true <;> by_cases h2 : l.filter (exportReads r) = [] <;>
      simp only [h1, h2, if_true, if_false, List.map_cons, List.map_nil, List.sum_cons, List.sum_nil, reduceCtorEq,
        Bool.false_eq_true]
    all_goals omega
  · by_cases h1 : exportSpoils d b r n = true <;> by_cases h2 : l.filter (exportSpoils d b r) = [] <;>
      simp only [h1, h2, if_true, if_false, List.length_cons, List.length_nil, reduceCtorEq, Bool.false_eq_true]
    all_goals omega

/-! ## Forming one record -/

/-- The part after the records of some channels of bin `b` have been formed (R130). -/
def formedState (b : Fin 8) (r : BinRecord) (l : List Nat) (s : State) : State :=
  { s with
    counts := s.counts.afterForming s.dram b r l
    stack :=
      { s.stack with
        bins := s.stack.bins.set b { s.stack.bins[b] with record := some (r.afterForming s.dram b l) } } }

/-- The writer after those records have been formed. -/
def formedWriter (d : Dram) (r : BinRecord) (l : List Nat) (w : Writer) : Writer :=
  { w with
    nextChannel := w.nextChannel + l.length
    formed := w.formed ++ (l.map (exportedRecord d w.bin r)).flatten
    emptyCount := w.emptyCount + (l.filter (exportEmpty d w.bin r)).length
    poisonCount := w.poisonCount + (l.filter (exportPoisoned d w.bin r)).length
    noisyCount := w.noisyCount + (l.filter fun i => (r.channel i).noisy).length }

theorem bin_self {s : State} (hr : s.stack.bins[b].record = some r) :
    s.stack.bins.set b { s.stack.bins[b] with record := some r } = s.stack.bins := by
  rw [← hr]
  exact Vector.set_getElem_self ..

theorem formedState_same {s : State} (hr : s.stack.bins[b].record = some r)
    (h1 : r.afterForming s.dram b l = r) (h2 : s.counts.afterForming s.dram b r l = s.counts) :
    formedState b r l s = s := by
  show { s with counts := _, stack := { s.stack with bins := _ } } = s
  rw [h1, h2, bin_self hr]

theorem set_eq_mapIdx {c : ChannelRecord} (cs : List ChannelRecord) (hc : ∀ x, cs[n]? = some x → c = { x with poisoned := true }) :
    cs.set n c = cs.mapIdx fun i x => if i = n then { x with poisoned := true } else x := by
  refine List.ext_getElem? fun i => ?_
  rw [List.getElem?_set, List.getElem?_mapIdx]
  by_cases e : n = i
  · subst e
    cases h : cs[n]? with
    | none => simp [List.getElem?_eq_none_iff.1 h]
    | some x =>
      have : n < cs.length := (List.getElem?_eq_some_iff.1 h).1
      simp [this, hc x h]
  · rw [if_neg e]
    cases h : cs[i]? with
    | none => rfl
    | some x => simp [Ne.symm e]

/-- Poisoning one channel is what forming its record does when an accumulator cannot be corrected. -/
theorem poison_eq (h : exportSpoils d b r n = true) : r.poison n = r.afterForming d b [n] := by
  have hs : r.channels.set n { r.channel n with poisoned := true } =
      r.channels.mapIdx fun i x => if i = n then { x with poisoned := true } else x :=
    set_eq_mapIdx _ fun x hx => by simp [BinRecord.channel, List.getD_eq_getElem?_getD, hx]
  simp only [BinRecord.poison, BinRecord.withChannel, BinRecord.afterForming, List.filter_cons, h, if_true,
    List.filter_nil, List.mem_singleton, hs]
  split <;> simp [*]

theorem accAddress_add (b n j : Nat) : accAddress b n 0 + j = accAddress b n j := by
  simp only [accAddress, Nat.add_zero]

/-- The channel whose record has been formed. -/
theorem channel_formed (d : Dram) (b : Fin 8) (r : BinRecord) (n : Nat) :
    (r.afterForming d b [n]).channel n = { r.channel n with poisoned := exportPoisoned d b r n } := by
  by_cases hs : exportSpoils d b r n = true
  · rw [afterForming_spoilt (List.mem_singleton_self n) hs]
    simp [exportPoisoned, hs]
  · rw [afterForming_channel fun h => absurd h hs]
    simp [exportPoisoned, Bool.not_eq_true _ ▸ hs]

/-- The samples of the record of the channel at position `n` (R130, R131). -/
def exportedSamples (d : Dram) (b : Fin 8) (r : BinRecord) (n : Nat) : List Byte :=
  ((List.range r.lags).map fun j =>
    if exportPoisoned d b r n = true ∨ (r.channel n).fold = 0 then leBytes 4 r.fillCode.toNat
    else leBytes 4 (twos 32
      (exportedSample (r.channel n).fold (cellRead 0 d.acc (accAddress b.val n j)).toInt))).flatten

theorem header_formed (d : Dram) (b : Fin 8) (r : BinRecord) (n : Nat) :
    headerBytes (r.firstChannel + n) ((r.afterForming d b [n]).channel n) ++ exportedSamples d b r n =
      exportedRecord d b r n := by
  rw [channel_formed]
  rfl

theorem fill_eq (d : Dram) (b : Fin 8) (r : BinRecord) (n : Nat)
    (h : exportPoisoned d b r n = true ∨ (r.channel n).fold = 0) :
    (List.replicate r.lags (wordBytes r.fillCode)).flatten = exportedSamples d b r n := by
  simp only [exportedSamples, h, if_true, List.map_const', List.length_range]
  rfl

/-- What forming the samples of one record does (R130). -/
theorem formSamples_eq {s : State} (hr : s.stack.bins[b].record = some r) :
    formSamples b r n s = (formedState b r [n] s, exportedSamples s.dram b r n) := by
  have hany : anyUncorrectable s.dram.accErrors (accAddress b.val n 0) r.lags =
      (List.range r.lags).any fun j =>
        cellRead Ecc.clean s.dram.accErrors (accAddress b.val n j) == .uncorrectable := by
    simp only [anyUncorrectable, accAddress_add]
  have hsing : singleErrors s.dram.accErrors (accAddress b.val n 0) r.lags = exportSingles s.dram b r n := by
    simp only [singleErrors, exportSingles, accAddress_add]
  by_cases hread : exportReads r n = true
  · obtain ⟨hp, hf⟩ : (r.channel n).poisoned = false ∧ (r.channel n).fold ≠ 0 := by
      simpa [exportReads] using hread
    by_cases hs : exportSpoils s.dram b r n = true
    · have ha : anyUncorrectable s.dram.accErrors (accAddress b.val n 0) r.lags = true := by
        rw [hany]
        simpa [exportSpoils, hread] using hs
      simp only [formSamples, hp, hf, readAccs, ha, if_true, beq_iff_eq, Bool.false_or, if_false, hsing,
        fill_eq s.dram b r n (.inl (by simp [exportPoisoned, hs])), poison_eq hs]
      simp [formedState, State.countPoison, State.countCorrected, State.setBinRecord, State.setBin,
        Counts.afterForming, hread, hs, satInc32, satAdd32, max32]
    · have ha : anyUncorrectable s.dram.accErrors (accAddress b.val n 0) r.lags = false := by
        rw [hany]
        simpa [exportSpoils, hread] using hs
      have hx : r.afterForming s.dram b [n] = r := afterForming_clean (by simp [hs])
      have hq : exportPoisoned s.dram b r n = false := by simp [exportPoisoned, hs, hp]
      simp only [formSamples, hp, hf, readAccs, ha, beq_iff_eq, Bool.false_or,
        Bool.false_eq_true, if_false, hsing, formedState, hx, bin_self hr]
      simp [State.countCorrected, Counts.afterForming, hread, hs, satAdd32, max32, exportedSamples, hq, hf,
        sampleBytes, normalize, exportedSample, accAddress_add, Function.comp_def]
  · have hs : exportSpoils s.dram b r n = false := by simp [exportSpoils, hread]
    have hfill : (r.channel n).poisoned = true ∨ (r.channel n).fold = 0 := by
      by_contra hc
      push Not at hc
      exact hread (by simp [exportReads, hc])
    rw [formedState_same hr]
    · simp [formSamples, hfill]
      exact fill_eq s.dram b r n (hfill.imp (fun h => by simp [exportPoisoned, h]) id)
    · exact afterForming_clean (by simp [hs])
    · simp [Counts.afterForming, hs, hread]

/-- The writer forms the record of one channel: what it carries, and what becomes of bin and counts (R130, R132). -/
theorem formNext_eq {w : Writer} {s : State} (hr : s.stack.bins[w.bin].record = some r) :
    formNext r w s = (formedState w.bin r [w.nextChannel] s, formedWriter s.dram r [w.nextChannel] w) := by
  have hc : channelNow w.bin w.nextChannel (formedState w.bin r [w.nextChannel] s) =
      (r.afterForming s.dram w.bin [w.nextChannel]).channel w.nextChannel := by
    simp [channelNow, formedState]
  simp only [formNext, formSamples_eq hr, hc, List.append_assoc, header_formed]
  simp only [channel_formed, formedWriter, List.map_cons, List.map_nil, List.flatten_cons, List.flatten_nil,
    List.append_nil, List.filter_cons, List.filter_nil, List.length_cons, List.length_nil, ChannelRecord.isEmpty,
    incIf, exportEmpty]
  congr 2 <;> split <;> simp_all

/-! ## Forming what a burst needs -/

theorem leBytes_length (n v : Nat) : (leBytes n v).length = n := by
  induction n generalizing v with
  | zero => rfl
  | succ n ih => simp [leBytes, ih]

theorem exportedRecord_length (d : Dram) (b : Fin 8) (r : BinRecord) (n : Nat) :
    (exportedRecord d b r n).length = 32 + 4 * r.lags := by
  have h : ∀ f : Nat → List Byte, (∀ j, (f j).length = 4) → (((List.range r.lags).map f).flatten).length = 4 * r.lags := by
    intro f hf
    simp [List.length_flatten, Function.comp_def, hf, Nat.mul_comm]
  simp only [exportedRecord, List.length_append, leBytes_length, List.length_replicate]
  rw [h _ fun j => by split <;> exact leBytes_length ..]

theorem formedState_nil {s : State} (hr : s.stack.bins[b].record = some r) : formedState b r [] s = s :=
  formedState_same hr (afterForming_clean rfl) (by simp [Counts.afterForming])

theorem formedWriter_nil (d : Dram) (r : BinRecord) (w : Writer) : formedWriter d r [] w = w := by
  simp [formedWriter]

theorem formedState_cons {s : State} (hn : n ∉ l) :
    formedState b (r.afterForming s.dram b [n]) l (formedState b r [n] s) = formedState b r (n :: l) s := by
  simp [formedState, counts_cons _ hn, afterForming_cons hn]

theorem formedWriter_cons (w : Writer) (hn : n ∉ l) :
    formedWriter d (r.afterForming d w.bin [n]) l (formedWriter d r [n] w) = formedWriter d r (n :: l) w := by
  have hr : l.map (exportedRecord d w.bin (r.afterForming d w.bin [n])) = l.map (exportedRecord d w.bin r) :=
    List.map_congr_left fun i hi => record_other fun e => hn (e ▸ hi)
  have hz : (l.filter fun i => ((r.afterForming d w.bin [n]).channel i).noisy) =
      l.filter fun i => (r.channel i).noisy :=
    filter_other (p := fun r i => (r.channel i).noisy)
      (fun i hi => by rw [afterForming_channel (l := [n]) fun _ => by simpa using hi]) hn
  simp only [formedWriter, hr, hz, filter_other (p := exportEmpty d w.bin) (fun i hi => empty_other hi) hn,
    filter_other (p := exportPoisoned d w.bin) (fun i hi => poisoned_other hi) hn, List.map_cons, List.map_nil,
    List.flatten_cons, List.flatten_nil, List.append_nil, List.append_assoc, List.length_cons, List.length_nil,
    List.filter_cons, List.filter_nil]
  congr 1
  · omega
  all_goals split <;> simp only [List.length_cons, List.length_nil] <;> omega

theorem ceil_step {x R : Nat} (hx : 0 < x) (hR : 0 < R) : (x + R - 1) / R = (x - R + R - 1) / R + 1 := by
  have h1 : x + R - 1 = (x - 1) + R := by omega
  rw [h1, Nat.add_div_right _ hR]
  by_cases h : R ≤ x
  · rw [Nat.sub_add_cancel h]
  · rw [Nat.div_eq_of_lt (by omega : x - 1 < R), Nat.div_eq_of_lt (by omega : x - R + R - 1 < R)]

theorem channelsFormed_done {w : Writer} {need : Nat} (h : need ≤ w.formed.length ∨ r.channelCount ≤ w.nextChannel) :
    channelsFormed w r need = [] := by
  have hk : min (r.channelCount - w.nextChannel) ((need - w.formed.length + (32 + 4 * r.lags) - 1) / (32 + 4 * r.lags)) = 0 := by
    rcases h with h | h
    · rw [Nat.div_eq_of_lt (by omega : need - w.formed.length + (32 + 4 * r.lags) - 1 < 32 + 4 * r.lags)]
      simp
    · simp [h]
  rw [channelsFormed, hk]
  rfl

theorem channelsFormed_next {w : Writer} {need : Nat} (h : w.formed.length < need) (hc : w.nextChannel < r.channelCount) :
    channelsFormed w r need = w.nextChannel ::
      channelsFormed (formedWriter d r [w.nextChannel] w) (r.afterForming d b [w.nextChannel]) need := by
  have hlen : (formedWriter d r [w.nextChannel] w).formed.length = w.formed.length + (32 + 4 * r.lags) := by
    simp [formedWriter, exportedRecord_length]
  have hk := ceil_step (x := need - w.formed.length) (R := 32 + 4 * r.lags) (by omega) (by omega)
  have h1 : need - (w.formed.length + (32 + 4 * r.lags)) = need - w.formed.length - (32 + 4 * r.lags) := by omega
  rw [channelsFormed, channelsFormed, hlen]
  show _ = _ :: List.range' (w.nextChannel + 1) (min (r.channelCount - (w.nextChannel + 1))
    ((need - (w.formed.length + (32 + 4 * r.lags)) + (32 + 4 * r.lags) - 1) / (32 + 4 * r.lags)))
  rw [h1, hk]
  generalize (need - w.formed.length - (32 + 4 * r.lags) + (32 + 4 * r.lags) - 1) / (32 + 4 * r.lags) = q
  obtain ⟨m, hm⟩ : ∃ m, r.channelCount - w.nextChannel = m + 1 := ⟨r.channelCount - w.nextChannel - 1, by omega⟩
  rw [hm, Nat.add_min_add_right, List.range'_succ]
  congr 2
  omega

theorem not_mem_channelsFormed {w : Writer} {need : Nat} (h : n < w.nextChannel) : n ∉ channelsFormed w r need := by
  simp only [channelsFormed, List.mem_range'_1]
  omega

/-- Everything that the writer forms for a burst of `need` bytes (R129, R130). -/
theorem formUntil_eq (need fuel : Nat) (w : Writer) (r : BinRecord) (s : State)
    (hr : s.stack.bins[w.bin].record = some r) (hf : r.channelCount - w.nextChannel ≤ fuel) :
    formUntil fuel need w s =
      (formedState w.bin r (channelsFormed w r need) s, formedWriter s.dram r (channelsFormed w r need) w) := by
  induction fuel generalizing w r s with
  | zero => rw [channelsFormed_done (.inr (by omega)), formedState_nil hr, formedWriter_nil]; rfl
  | succ fuel ih =>
    simp only [formUntil, hr]
    split
    · rename_i h
      rw [channelsFormed_done h, formedState_nil hr, formedWriter_nil]
    · rename_i h
      push Not at h
      rw [formNext_eq hr, channelsFormed_next (d := s.dram) (b := w.bin) h.1 h.2]
      have hn := not_mem_channelsFormed (r := r.afterForming s.dram w.bin [w.nextChannel]) (need := need)
        (w := formedWriter s.dram r [w.nextChannel] w) (n := w.nextChannel) (Nat.lt_succ_self _)
      rw [ih (formedWriter s.dram r [w.nextChannel] w) (r.afterForming s.dram w.bin [w.nextChannel])
        (formedState w.bin r [w.nextChannel] s) (by simp [formedState, formedWriter])
        (show r.channelCount - (w.nextChannel + 1) ≤ fuel by omega)]
      exact Prod.ext (formedState_cons hn) (formedWriter_cons w hn)

/-- The writer forms what its next burst needs and posts it. -/
theorem postExportBurst_eq {w : Writer} {s : State} (hr : s.stack.bins[w.bin].record = some r) :
    postExportBurst w s = withExportBurst w r s := by
  simp only [postExportBurst, hr, formUntil_eq _ _ w r s hr (Nat.sub_le ..)]
  rfl

/-! ## The export queue -/

theorem holdHead_eq (b : Fin 8) (r : BinRecord) (rest : List (Fin 8)) (s : State) :
    holdHead b r r.exportOffset rest s = heldAtStart b r rest (raiseCause s.regs.intEn .bin s.events) s := rfl

/-- The export queue begins as R128 and R135 say. -/
theorem beginExport_begins (fuel : Nat) (s : State) (hf : s.stack.exportQueue.length ≤ fuel)
    (hn : s.stack.exportQueue.Nodup) (hq : ∀ b ∈ s.stack.exportQueue, s.stack.bins[b].record ≠ none) :
    ExportQueueBegins s (beginExport fuel s) := by
  induction fuel generalizing s with
  | zero => exact .empty s (List.length_eq_zero_iff.1 (Nat.le_zero.1 hf))
  | succ fuel ih =>
    simp only [beginExport]
    split
    · rename_i h
      exact .empty s h
    · rename_i b rest hb
      cases hv : windowValid s.regs with
      | false => exact .waits s hv
      | true =>
        simp only [Bool.not_true, Bool.false_eq_true, if_false]
        rw [hb] at hn hf hq
        split
        · rename_i h
          exact absurd h (hq b List.mem_cons_self)
        · rename_i r hr
          split
          · rename_i hi
            rw [postExportBurst_eq (w := Writer.start b) hr]
            exact .begins s b rest r hb hv hr hi
          · rename_i hi
            rw [holdHead_eq]
            refine .misfit s _ b rest r _ hb hv hr (Bool.eq_false_iff.2 hi) (raise_grows (List.mem_singleton_self Cause.bin) s).events ?_ (ih _ ?_ ?_ ?_)
            · simp [raiseCause, sendIf]
              split <;> rfl
            · exact Nat.le_of_succ_le_succ hf
            · exact (List.nodup_cons.1 hn).2
            · intro x hx
              have : b ≠ x := fun e => (List.nodup_cons.1 hn).1 (e ▸ hx)
              show (s.stack.bins.set b _)[x].record ≠ none
              rw [set_get_other _ _ this]
              exact hq x (List.mem_cons_of_mem _ hx)

/-! ## The burst's length and its issue -/

theorem channelsFormed_bytes {w : Writer} {need : Nat}
    (h : need + w.nextChannel * (32 + 4 * r.lags) ≤ w.formed.length + r.channelCount * (32 + 4 * r.lags)) :
    need ≤ w.formed.length + (channelsFormed w r need).length * (32 + 4 * r.lags) := by
  rw [channelsFormed, List.length_range']
  generalize hR : 32 + 4 * r.lags = R at *
  have hpos : 0 < R := by omega
  have hdiv : need - w.formed.length ≤ (need - w.formed.length + R - 1) / R * R := by
    have h1 := Nat.div_add_mod (need - w.formed.length + R - 1) R
    have h2 := Nat.mod_lt (need - w.formed.length + R - 1) hpos
    rw [Nat.mul_comm] at h1
    omega
  rcases Nat.le_total (r.channelCount - w.nextChannel) ((need - w.formed.length + R - 1) / R) with hm | hm
  · rw [Nat.min_eq_left hm, Nat.sub_mul]
    omega
  · rw [Nat.min_eq_right hm]
    omega

/-- The burst of a lawful writer runs to the next boundary or to the end of the extent. -/
theorem exportBurst_length {w : Writer} {need : Nat} (d : Dram) (b : Fin 8)
    (h : need + w.nextChannel * (32 + 4 * r.lags) ≤ w.formed.length + r.channelCount * (32 + 4 * r.lags)) :
    ((w.formed ++ ((channelsFormed w r need).map (exportedRecord d b r)).flatten).take need).length = need := by
  have hl : (((channelsFormed w r need).map (exportedRecord d b r)).flatten).length =
      (channelsFormed w r need).length * (32 + 4 * r.lags) := by
    simp [List.length_flatten, Function.comp_def, exportedRecord_length]
  rw [List.length_take, List.length_append, hl]
  exact Nat.min_eq_left (channelsFormed_bytes h)

/-- At a port that the other two requesters do not wait for, the issue arbiter serves the export writer. -/
theorem serveIssuePort_exporter {s : State}
    (h : s.bus.portBusy = true ∨ s.bus.scanner.isWaiting = false ∧ s.bus.loader.isWaiting = false) :
    serveIssuePort s = exporterServed s := by
  unfold serveIssuePort exporterServed
  cases hp : s.bus.portBusy with
  | true => rfl
  | false =>
    rw [hp] at h
    simp only [Bool.false_eq_true, false_or] at h
    cases hs : s.bus.scanner <;> cases he : s.bus.exporter <;> cases hl : s.bus.loader <;>
      simp_all [Slot.isWaiting, issueBurst, BusMaster.withSlot, hostAddress]

end Sys2Proof.Machine
end

