-- ==== Sys2Proof/Laws/AnswerStage.lean ====
section
/-! SUPPORT. Everything that the answer stage can do after a box, said once: the write that begins, or the status stage
(R151, R154). -/

namespace Sys2Proof.Machine

theorem outcomeBytes_length (a : Option Answer) : (outcomeBytes a).length = 124 := by
  cases a <;> simp [outcomeBytes, leBytes_length, zeroBytes, wordBytes, List.length_flatten, Function.comp_def]

/-- The first write of an answer, posted and offered to the issue port. -/
theorem writeOutcome_begins (round : AnswerRound) (x : Fin 64) (left : List (Fin 64)) (u : State) :
    AnswerWriteBegins round x u
      (serveIssuePort (writeOutcome round x { u with board := { u.board with firstRound := left } })) := by
  constructor
  · simp [writeOutcome, scannerPosts, State.setPhase, State.post, State.setSlot]
  · cases hp : u.bus.portBusy <;>
      simp [writeOutcome, scannerPosts, State.setPhase, State.post, State.setSlot, serveIssuePort,
        BusMaster.withSlot, hp, refreshAnswer, issueBurst]
  · intro hp
    simp [writeOutcome, scannerPosts, State.setPhase, State.post, State.setSlot, serveIssuePort, BusMaster.withSlot,
      hp, writeBurst, partHalf, outcomeBytes_length, Nat.add_assoc]
  · intro hp
    simp [writeOutcome, scannerPosts, State.setPhase, State.post, State.setSlot, serveIssuePort, BusMaster.withSlot,
      hp, refreshAnswer, issueBurst, writeBurst, partHalf, outcomeBytes_length, hostAddress, Nat.add_assoc]

/-- The status stage, its burst posted and offered to the issue port. -/
theorem beginStatusStage_begins (left : List (Fin 64)) (u : State)
    (hw : PageWhole u) :
    StatusBegins u (serveIssuePort (beginStatusStage { u with board := { u.board with firstRound := left } })) := by
  cases hp : u.bus.portBusy with
  | true =>
    have e : serveIssuePort (beginStatusStage { u with board := { u.board with firstRound := left } }) =
        beginStatusStage { u with board := { u.board with firstRound := left } } := by
      unfold serveIssuePort
      exact if_pos hp
    rw [e]
    exact ⟨rfl, rfl, hw, fun _ => rfl, fun h => (nomatch hp.symm.trans h)⟩
  | false =>
    have e : serveIssuePort (beginStatusStage { u with board := { u.board with firstRound := left } }) =
        issueBurst .scanner (writeBurst 0 (statusPage (countedScan u)))
          (beginStatusStage { u with board := { u.board with firstRound := left } }) := by
      unfold serveIssuePort
      exact if_neg fun h : u.bus.portBusy = true => Bool.false_ne_true (hp.symm.trans h)
    rw [e]
    refine ⟨rfl, rfl, hw, fun h => (nomatch hp.symm.trans h), fun _ => ?_⟩
    simp [issueBurst, beginStatusStage, scannerPosts, State.setPhase, State.post, State.setSlot, BusMaster.withSlot,
      writeBurst, hostAddress]

/-- The answer stage after box `b`: the lowest box left to the first round, else the lowest left to the second, else the
status stage. -/
theorem nextAnswer_goesOn (round : AnswerRound) (b : Fin 64) (u : State) (h : u.board.firstRound.Pairwise (· < ·))
    (hw : PageWhole u) :
    AnswerStageGoesOn round b u (serveIssuePort (nextAnswer round b u)) := by
  have second : ∀ (start : Nat) (fr : List (Fin 64)), (∀ y : Fin 64, ¬leftToFirst round u y) →
      (∀ y : Fin 64, (start ≤ y.val ↔ (round = .second → b < y))) →
      (∀ x : Fin 64, leftToSecond round b u x → (∀ y : Fin 64, leftToSecond round b u y → x ≤ y) →
        AnswerWriteBegins .second x u
          (serveIssuePort (goSecondRound start { u with board := { u.board with firstRound := fr } }))) ∧
      ((∀ y : Fin 64, ¬leftToSecond round b u y) →
        StatusBegins u
          (serveIssuePort (goSecondRound start { u with board := { u.board with firstRound := fr } }))) := by
    intro start fr hf hs
    have hmem : ∀ y, y ∈ secondRoundBoxes u.board start ↔ leftToSecond round b u y := by
      intro y
      simp only [secondRoundBoxes, dirtyBoxes, leftToSecond, List.mem_filter, List.mem_finRange, true_and, hs,
        Bool.and_eq_true, decide_eq_true_eq, Bool.not_eq_true', List.contains_eq_mem, decide_eq_false_iff_not]
      exact ⟨fun h => ⟨h.1, h.2.2, h.2.1⟩, fun h => ⟨h.1, h.2.2, h.2.1⟩⟩
    have hsorted : (secondRoundBoxes u.board start).Pairwise (· < ·) := by
      refine List.Pairwise.filter _ (List.Pairwise.filter _ ?_)
      exact List.pairwise_lt_finRange 64
    have hsame : secondRoundBoxes { u.board with firstRound := fr } start = secondRoundBoxes u.board start := rfl
    constructor
    · intro x hx hmin
      unfold goSecondRound
      dsimp only
      rw [hsame]
      cases hl : secondRoundBoxes u.board start with
      | nil => rw [← hmem, hl] at hx; cases hx
      | cons y rest =>
        have : y = x := by
          rw [hl] at hsorted
          have h1 := hmin y ((hmem y).1 (by rw [hl]; exact List.mem_cons_self))
          have h2 := (hmem x).2 hx
          rw [hl] at h2
          rcases List.mem_cons.1 h2 with h2 | h2
          · exact h2.symm
          · exact absurd ((List.pairwise_cons.1 hsorted).1 x h2) (not_lt.2 h1)
        subst this
        exact writeOutcome_begins ..
    · intro hn
      unfold goSecondRound
      dsimp only
      rw [hsame]
      cases hl : secondRoundBoxes u.board start with
      | nil => exact beginStatusStage_begins _ _ hw
      | cons y rest => exact absurd ((hmem y).1 (by rw [hl]; exact List.mem_cons_self)) (hn y)
  cases round with
  | second =>
    have hnf : ∀ y, ¬leftToFirst .second u y := fun y h => by cases h.1
    have := second (b.val + 1) u.board.firstRound hnf (fun y => by simp only [forall_const]; omega)
    exact ⟨fun x hx => absurd hx (hnf x), fun x _ => this.1 x, fun _ => this.2⟩
  | first =>
    have hmem : ∀ y, y ∈ (u.board.firstRound.filter fun i => u.board.boxes[i].dirty) ↔
        leftToFirst .first u y := by
      intro y
      simp [leftToFirst]
    have hsorted : (u.board.firstRound.filter fun i => u.board.boxes[i].dirty).Pairwise (· < ·) := h.filter _
    show AnswerStageGoesOn .first b u (serveIssuePort (goFirstRound u))
    unfold goFirstRound
    cases hl : (u.board.firstRound.filter fun i => u.board.boxes[i].dirty) with
    | nil =>
      have hnf : ∀ y, ¬leftToFirst .first u y := fun y h => by rw [← hmem, hl] at h; cases h
      have := second 0 [] hnf (fun y => by simp)
      exact ⟨fun x hx => absurd hx (hnf x), fun x _ => this.1 x, fun _ => this.2⟩
    | cons y rest =>
      have hy : leftToFirst .first u y := (hmem y).1 (by rw [hl]; exact List.mem_cons_self)
      refine ⟨fun x hx hmin => ?_, fun x hnf => absurd hy (hnf y), fun hnf => absurd hy (hnf y)⟩
      rw [hl] at hsorted
      have : y = x := by
        have h1 := hmin y hy
        have h2 := (hmem x).2 hx
        rw [hl] at h2
        rcases List.mem_cons.1 h2 with h2 | h2
        · exact h2.symm
        · exact absurd ((List.pairwise_cons.1 hsorted).1 x h2) (not_lt.2 h1)
      subst this
      refine ⟨writeOutcome_begins .first y rest u, fun z => ?_⟩
      rw [← hmem, hl]
      have hfr : (serveIssuePort (writeOutcome .first y
          { u with board := { u.board with firstRound := rest } })).board.firstRound = rest := by
        simp [writeOutcome, scannerPosts, State.setPhase, State.post, State.setSlot]
      refine Iff.trans (iff_of_eq (congrArg (z ∈ ·) hfr)) ?_
      constructor
      · intro hz
        exact ⟨List.mem_cons_of_mem _ hz, fun e => by
          have := (List.pairwise_cons.1 hsorted).1 z hz
          rw [e] at this; exact absurd this (lt_irrefl _)⟩
      · rintro ⟨hz, hne⟩
        rcases List.mem_cons.1 hz with h' | h'
        · exact absurd h' hne
        · exact h'

end Sys2Proof.Machine
end

