-- ==== Sys2Proof/Laws/Boxes.lean ====
section
/-! SUPPORT. Everything that passing a box can do, said once: the next box's post is read, or the answer stage begins
(R147, R150, R151). -/

namespace Sys2Proof.Machine

/-- What the scanner's slot holds does not matter to how an answer write begins. -/
theorem AnswerWriteBegins.ofSlot {round : AnswerRound} {x : Fin 64} {u t : State} (slot : Slot)
    (h : AnswerWriteBegins round x { u with bus := { u.bus with scanner := slot } } t) : AnswerWriteBegins round x u t :=
  ⟨h.counts, h.board, h.waits, h.issued⟩

theorem AnswerStageGoesOn.ofSlot {round : AnswerRound} {b : Fin 64} {u t : State} (slot : Slot) (hw : PageWhole u)
    (h : AnswerStageGoesOn round b { u with bus := { u.bus with scanner := slot } } t) :
    AnswerStageGoesOn round b u t :=
  ⟨fun x hx hm => ⟨(h.first x hx hm).1.ofSlot slot, (h.first x hx hm).2⟩,
    fun x hn hx hm => (h.second x hn hx hm).ofSlot slot,
    fun hn hs => have k := h.status hn hs; ⟨k.counts, k.board, hw, k.waits, k.issued⟩⟩

/-- The read of a host post, posted and offered to the issue port. -/
theorem readHostPost_begins (b : Fin 64) (u : State) (n m : Nat) (l : Option (Fin 64)) :
    let t := serveIssuePort (readHostPost b
      { u with
        bus := { u.bus with scanner := .empty }
        board := { u.board with examined := n, taken := m, lastTaken := l } })
    PostReadBegins b u t ∧ OnlyScanner u t ∧
      t.board = { u.board with phase := .hostPost b, examined := n, taken := m, lastTaken := l } := by
  cases hp : u.bus.portBusy <;>
    simp [readHostPost, scannerPosts, State.setPhase, State.post, State.setSlot, serveIssuePort, BusMaster.withSlot,
      hp, refreshAnswer, issueBurst, readBurst, hostHalf, hostAddress] <;>
    constructor
  all_goals constructor <;> simp [hp]

/-- What the first write of an answer leaves alone. -/
theorem writeOutcome_only (round : AnswerRound) (x : Fin 64) (u : State) :
    let t := serveIssuePort (writeOutcome round x u)
    OnlyScanner u t ∧ t.board = { u.board with phase := t.board.phase } ∧ t.board.phase.reads = false ∧
      t.scanBusy = true := by
  cases hp : u.bus.portBusy <;>
    simp [writeOutcome, scannerPosts, State.setPhase, State.post, State.setSlot, serveIssuePort, BusMaster.withSlot,
      hp, refreshAnswer, issueBurst, ScanPhase.reads, State.scanBusy] <;>
    constructor <;> simp

/-- What the beginning of the status stage leaves alone. -/
theorem beginStatusStage_only (u : State) :
    let t := serveIssuePort (beginStatusStage u)
    OnlyScanner u t ∧ t.board = { u.board with phase := t.board.phase } ∧ t.board.phase.reads = false ∧
      t.scanBusy = true := by
  cases hp : u.bus.portBusy <;>
    simp [beginStatusStage, scannerPosts, State.setPhase, State.post, State.setSlot, serveIssuePort,
      BusMaster.withSlot, hp, refreshAnswer, issueBurst, ScanPhase.reads, State.scanBusy] <;>
    constructor <;> simp

/-- Neither the scanner's own record nor its slot matters to what only the scanner changes. -/
theorem OnlyScanner.ofScanner {u t : State} (b : Board) (slot : Slot)
    (h : OnlyScanner { u with board := b, bus := { u.bus with scanner := slot } } t) (hp : b.period = u.board.period)
    (hi : b.interval = u.board.interval) : OnlyScanner u t :=
  ⟨h.device, h.session, h.resetEpoch, h.regs, h.events, h.ports, h.store, h.library, h.sched, h.engine, h.stack,
    h.dram, h.freeDraws, h.pending, h.eccCorrected, h.pilotDamage, h.poison, h.discardedWrites, h.exporter, h.loader,
    h.scannerFaults, h.exporterFaults, h.loaderFaults, h.period.trans hp, h.interval.trans hi⟩

/-- What the beginning of the answer stage leaves alone. -/
theorem goFirstRound_only (u : State) :
    let t := serveIssuePort (goFirstRound u)
    OnlyScanner u t ∧ t.board = { u.board with phase := t.board.phase, firstRound := t.board.firstRound } ∧
      t.board.phase.reads = false ∧ t.scanBusy = true := by
  unfold goFirstRound
  split
  · rename_i b rest _
    have h := writeOutcome_only .first b { u with board := { u.board with firstRound := rest } }
    exact ⟨h.1.ofScanner _ u.bus.scanner rfl rfl, by rw [h.2.1], h.2.2⟩
  · unfold goSecondRound
    split
    · rename_i b rest _
      have h := writeOutcome_only .second b { u with board := { u.board with firstRound := [] } }
      exact ⟨h.1.ofScanner _ u.bus.scanner rfl rfl, by rw [h.2.1], h.2.2⟩
    · have h := beginStatusStage_only { u with board := { u.board with firstRound := [] } }
      exact ⟨h.1.ofScanner _ u.bus.scanner rfl rfl, by rw [h.2.1], h.2.2⟩

/-- The end of the read stage: the rotation start moves past the last box in which an order was taken, and the answer
stage begins. -/
theorem endReadStage_begins (u : State) (n m : Nat) (l : Option (Fin 64))
    (hw : ∀ u, PageWhole u) :
    let t := serveIssuePort (endReadStage
      { u with
        bus := { u.bus with scanner := .empty }
        board := { u.board with examined := n, taken := m, lastTaken := l } })
    OnlyScanner u t ∧
      t.board =
        { u.board with
          phase := t.board.phase, firstRound := t.board.firstRound, examined := n, taken := m, lastTaken := l
          faulted := []
          rotation := match l with | some b => boxOf (b.val + 1) | none => u.board.rotation } ∧
      t.board.phase.reads = false ∧ t.scanBusy = true ∧
      (u.board.firstRound.Pairwise (· < ·) → AnswerStageBegins u t) := by
  intro t
  let v : State :=
    { u with
      bus := { u.bus with scanner := .empty }
      board :=
        { u.board with
          examined := n, taken := m, lastTaken := l, faulted := []
          rotation := match l with | some b => boxOf (b.val + 1) | none => u.board.rotation } }
  have ht : t = serveIssuePort (goFirstRound v) := rfl
  have h := goFirstRound_only v
  dsimp only at h
  rw [← ht] at h
  refine ⟨h.1.ofScanner _ _ rfl rfl, h.2.1, h.2.2.1, h.2.2.2, fun hp => ?_⟩
  have k := nextAnswer_goesOn .first 0 v hp (hw v)
  rw [show serveIssuePort (nextAnswer .first 0 v) = t from rfl] at k
  unfold AnswerStageBegins
  refine AnswerStageGoesOn.ofSlot .empty (hw _) ?_
  rw [h.2.1]
  exact k

/-- A box is skipped (R148, R150). -/
theorem nextBox_skips (s : State)
    (hw : ∀ u, PageWhole u) :
    BoxSkipped s (serveIssuePort (nextBox (s.setSlot .scanner .empty))) := by
  by_cases hn : 64 ≤ s.board.examined + 1
  · have h := endReadStage_begins s (s.board.examined + 1) s.board.taken s.board.lastTaken hw
    have e : serveIssuePort (nextBox (s.setSlot .scanner .empty)) = serveIssuePort (endReadStage
      { s with
        bus := { s.bus with scanner := .empty }
        board := { s.board with examined := s.board.examined + 1 } }) :=
      congrArg serveIssuePort (if_pos hn)
    rw [e]
    exact ⟨h.1, by rw [h.2.1], by rw [h.2.1], by rw [h.2.1], by rw [h.2.1],
      ⟨fun k => absurd hn k, fun _ => h.2.2⟩, by rw [h.2.1]; exact (if_pos hn).symm⟩
  · have h := readHostPost_begins (boxOf (s.board.rotation.val + (s.board.examined + 1))) s (s.board.examined + 1)
      s.board.taken s.board.lastTaken
    have e : serveIssuePort (nextBox (s.setSlot .scanner .empty)) = serveIssuePort
      (readHostPost (boxOf (s.board.rotation.val + (s.board.examined + 1)))
        { s with
          bus := { s.bus with scanner := .empty }
          board := { s.board with examined := s.board.examined + 1 } }) :=
      congrArg serveIssuePort (if_neg hn)
    rw [e]
    exact ⟨h.2.1, by rw [h.2.2], by rw [h.2.2], by rw [h.2.2], by rw [h.2.2],
      ⟨fun _ => ⟨h.1, by rw [h.2.2], by rw [h.2.2], by rw [h.2.2]⟩, fun k => absurd k hn⟩,
      by rw [h.2.2, if_neg hn]⟩

/-- The order of box `b` is counted: `u` is the part once the order's effects and its answer are in place
(R149, R150). -/
theorem countTake_counts (b : Fin 64) (s u : State) (hf : u.board.followUp = s.board.followUp)
    (ht : u.board.taken = s.board.taken) (hr : u.board.rotation = s.board.rotation)
    (he : u.board.examined = s.board.examined)
    (hw : ∀ u, PageWhole u) :
    OrderCounted b s u (serveIssuePort (countTake b (u.setSlot .scanner .empty))) := by
  have stop : ∀ n, OrderCounted b s u (serveIssuePort (endReadStage
      { u with
        bus := { u.bus with scanner := .empty }
        board := { u.board with examined := n, taken := s.board.taken + 1, lastTaken := some b } })) ∨
      ¬(8 ≤ s.board.taken + 1 ∨ 64 ≤ s.board.examined + 1) := by
    intro n
    by_cases hn : 8 ≤ s.board.taken + 1 ∨ 64 ≤ s.board.examined + 1
    · have h := endReadStage_begins u n (s.board.taken + 1) (some b) hw
      exact .inl ⟨h.1, by rw [h.2.1], by rw [h.2.1, hf], by rw [h.2.1], by rw [h.2.1],
        ⟨fun k => absurd hn k, fun _ => h.2.2⟩, by rw [h.2.1, if_pos hn]⟩
    · exact .inr hn
  by_cases h8 : 8 ≤ s.board.taken + 1
  · have e : serveIssuePort (countTake b (u.setSlot .scanner .empty)) = serveIssuePort (endReadStage
      { u with
        bus := { u.bus with scanner := .empty }
        board :=
          { u.board with examined := u.board.examined, taken := s.board.taken + 1, lastTaken := some b } }) := by
      rw [← ht] at h8 ⊢
      exact congrArg serveIssuePort (if_pos h8)
    rw [e]
    exact (stop _).resolve_right fun k => k (.inl h8)
  · have e : serveIssuePort (countTake b (u.setSlot .scanner .empty)) = serveIssuePort (nextBox
      { u with
        bus := { u.bus with scanner := .empty }
        board := { u.board with taken := s.board.taken + 1, lastTaken := some b } }) := by
      rw [← ht] at h8 ⊢
      exact congrArg serveIssuePort (if_neg h8)
    rw [e]
    by_cases hn : 64 ≤ s.board.examined + 1
    · have e : serveIssuePort (nextBox
        { u with
          bus := { u.bus with scanner := .empty }
          board := { u.board with taken := s.board.taken + 1, lastTaken := some b } }) =
          serveIssuePort (endReadStage
            { u with
              bus := { u.bus with scanner := .empty }
              board :=
                { u.board with
                  examined := s.board.examined + 1, taken := s.board.taken + 1, lastTaken := some b } }) := by
        rw [← he] at hn ⊢
        exact congrArg serveIssuePort (if_pos hn)
      rw [e]
      exact (stop _).resolve_right fun k => k (.inr hn)
    · have h := readHostPost_begins (boxOf (s.board.rotation.val + (s.board.examined + 1))) u
        (s.board.examined + 1) (s.board.taken + 1) (some b)
      have hne : ¬(8 ≤ s.board.taken + 1 ∨ 64 ≤ s.board.examined + 1) := fun k => k.elim h8 hn
      have e : serveIssuePort (nextBox
        { u with
          bus := { u.bus with scanner := .empty }
          board := { u.board with taken := s.board.taken + 1, lastTaken := some b } }) =
          serveIssuePort (readHostPost (boxOf (s.board.rotation.val + (s.board.examined + 1)))
            { u with
              bus := { u.bus with scanner := .empty }
              board :=
                { u.board with
                  examined := s.board.examined + 1, taken := s.board.taken + 1, lastTaken := some b } }) := by
        rw [← he, ← hr] at *
        exact congrArg serveIssuePort (if_neg hn)
      rw [e]
      exact ⟨h.2.1, by rw [h.2.2], by rw [h.2.2, hf], by rw [h.2.2], by rw [h.2.2],
        ⟨fun _ => ⟨h.1, by rw [h.2.2], by rw [h.2.2], by rw [h.2.2]⟩, fun k => absurd k hne⟩,
        by rw [h.2.2, if_neg hne, hr]⟩

end Sys2Proof.Machine
end

