-- ==== Sys2Proof/Laws/Memory.lean ====
section
/-! SUPPORT. The laws of the word memories: a read after a write, every other word left alone, and the canonical form
kept by every operation over the three stores of local DRAM and the scan map. -/

namespace Sys2Proof.Machine

section Cells

variable {α : Type} {d v w : α} {m : List (Nat × α)} {a b k : Nat}

/-- An unlisted word reads `d`. -/
theorem cellRead_of_not_mem (h : a ∉ m.map Prod.fst) : cellRead d m a = d := by
  induction m with
  | nil => rfl
  | cons c rest ih =>
    obtain ⟨k, w⟩ := c
    simp only [List.map_cons, List.mem_cons, not_or] at h
    simp [cellRead, Ne.symm h.1, ih h.2]

/-- In a canonical memory every key after the head is greater than the head's. -/
theorem CellsWf.tail (h : CellsWf d ((k, w) :: m)) : CellsWf d m ∧ (∀ j ∈ m.map Prod.fst, k < j) ∧ w ≠ d := by
  obtain ⟨h1, h2⟩ := h
  simp only [List.map_cons, List.pairwise_cons] at h1
  exact ⟨⟨h1.2, fun c hc => h2 c (List.mem_cons_of_mem _ hc)⟩, h1.1, h2 (k, w) List.mem_cons_self⟩

/-- A head below every other key, with a listed value, keeps a memory canonical. -/
theorem CellsWf.cons (h : CellsWf d m) (hk : ∀ j ∈ m.map Prod.fst, k < j) (hw : w ≠ d) :
    CellsWf d ((k, w) :: m) := by
  refine ⟨?_, ?_⟩
  · simpa using ⟨by simpa using hk, h.1⟩
  · intro c hc
    rcases List.mem_cons.mp hc with rfl | hc
    · exact hw
    · exact h.2 c hc

theorem CellsWf.nil : CellsWf d ([] : List (Nat × α)) := ⟨List.Pairwise.nil, by simp⟩

variable [DecidableEq α]

/-- The keys after a write are those before it, and perhaps the one written. -/
theorem mem_keys_cellWrite (h : b ∈ (cellWrite d a v m).map Prod.fst) : b = a ∨ b ∈ m.map Prod.fst := by
  induction m with
  | nil =>
    unfold cellWrite at h
    split at h <;> simp_all
  | cons c rest ih =>
    obtain ⟨k, w⟩ := c
    unfold cellWrite at h
    split at h
    · split at h <;> simp_all
    · split at h
      · split at h <;> simp_all
      · simp only [List.map_cons, List.mem_cons] at h ⊢
        rcases h with h | h
        · exact .inr (.inl h)
        · rcases ih h with h | h
          · exact .inl h
          · exact .inr (.inr h)

/-- A write keeps the canonical form. -/
theorem cellWrite_wf (h : CellsWf d m) : CellsWf d (cellWrite d a v m) := by
  induction m with
  | nil =>
    unfold cellWrite
    split
    · exact .nil
    · exact CellsWf.nil.cons (by simp) ‹_›
  | cons c rest ih =>
    obtain ⟨k, w⟩ := c
    obtain ⟨hr, hk, hw⟩ := h.tail
    unfold cellWrite
    split
    · split
      · exact h
      · refine h.cons ?_ ‹_›
        intro j hj
        rw [List.map_cons, List.mem_cons] at hj
        rcases hj with rfl | hj
        · assumption
        · have := hk j hj
          omega
    · split
      · subst_vars
        split
        · exact hr
        · exact hr.cons hk ‹_›
      · refine (ih hr).cons ?_ hw
        intro j hj
        rcases mem_keys_cellWrite hj with rfl | hj
        · omega
        · exact hk j hj

/-- A read after a write to the same word gives the value written. -/
theorem cellRead_cellWrite_same (h : CellsWf d m) : cellRead d (cellWrite d a v m) a = v := by
  induction m with
  | nil =>
    unfold cellWrite
    split <;> simp_all [cellRead]
  | cons c rest ih =>
    obtain ⟨k, w⟩ := c
    obtain ⟨hr, hk, -⟩ := h.tail
    unfold cellWrite
    split
    · split
      · subst_vars
        refine cellRead_of_not_mem ?_
        intro hm
        rw [List.map_cons, List.mem_cons] at hm
        rcases hm with hm | hm
        · dsimp only at hm; omega
        · have := hk a hm
          omega
      · simp [cellRead]
    · split
      · subst_vars
        split
        · subst_vars
          refine cellRead_of_not_mem ?_
          intro hm
          exact absurd (hk _ hm) (by omega)
        · simp [cellRead]
      · simp only [cellRead]
        rw [if_neg (by omega), ih hr]

/-- A write leaves every other word alone. -/
theorem cellRead_cellWrite_other (h : b ≠ a) : cellRead d (cellWrite d a v m) b = cellRead d m b := by
  induction m with
  | nil =>
    unfold cellWrite
    split <;> simp [cellRead, h.symm]
  | cons c rest ih =>
    obtain ⟨k, w⟩ := c
    unfold cellWrite
    split
    · split <;> simp [cellRead, h.symm]
    · split
      · subst_vars
        split <;> simp [cellRead, h.symm]
      · simp [cellRead, ih]

omit [DecidableEq α]

/-- Clearing words keeps the canonical form. -/
theorem cellsClear_wf {p : Nat → Bool} (h : CellsWf d m) : CellsWf d (cellsClear p m) := by
  refine ⟨?_, fun c hc => h.2 c (List.mem_of_mem_filter hc)⟩
  exact List.Pairwise.sublist (List.Sublist.map _ List.filter_sublist) h.1

/-- A cleared word reads `d`; every other word reads as before. -/
theorem cellRead_cellsClear {p : Nat → Bool} (h : CellsWf d m) :
    cellRead d (cellsClear p m) a = if p a then d else cellRead d m a := by
  induction m with
  | nil => simp [cellsClear, cellRead]
  | cons c rest ih =>
    obtain ⟨k, w⟩ := c
    obtain ⟨hr, hk, -⟩ := h.tail
    have ih := ih hr
    unfold cellsClear at ih ⊢
    rw [List.filter_cons]
    by_cases hpk : p k
    · simp only [hpk, Bool.not_true, Bool.false_eq_true, if_false]
      rw [ih]
      by_cases ha : k = a
      · subst ha; simp [hpk]
      · simp [cellRead, ha]
    · simp only [hpk, Bool.not_false, if_true, cellRead]
      by_cases ha : k = a
      · subst ha; simp [hpk]
      · simp only [ha, if_false, ih]

end Cells

/-! ## Local DRAM -/

/-- All three stores and their check bits are in canonical form. -/
abbrev DramWf (d : Dram) : Prop :=
  CellsWf 0 d.raw ∧ CellsWf .clean d.rawErrors ∧ CellsWf 0 d.pilot ∧ CellsWf .clean d.pilotErrors ∧
    CellsWf 0 d.acc ∧ CellsWf .clean d.accErrors

theorem scrubbed_wf : DramWf .scrubbed := ⟨.nil, .nil, .nil, .nil, .nil, .nil⟩

section Dram

variable {d : Dram}

theorem writeRaw_wf (a : Nat) (v : BitVec 32) (h : DramWf d) : DramWf (writeRaw a v d) :=
  ⟨cellWrite_wf h.1, cellWrite_wf h.2.1, h.2.2⟩

theorem writePilot_wf (a : Nat) (v : BitVec 16) (h : DramWf d) : DramWf (writePilot a v d) :=
  ⟨h.1, h.2.1, cellWrite_wf h.2.2.1, cellWrite_wf h.2.2.2.1, h.2.2.2.2⟩

theorem writeAcc_wf (a : Nat) (v : BitVec 64) (h : DramWf d) : DramWf (writeAcc a v d) :=
  ⟨h.1, h.2.1, h.2.2.1, h.2.2.2.1, cellWrite_wf h.2.2.2.2.1, cellWrite_wf h.2.2.2.2.2⟩

theorem writeSamples_wf (slot channel : Nat) (vs : List (BitVec 32)) (h : DramWf d) :
    DramWf (writeSamples slot channel vs d) := by
  induction vs generalizing channel d with
  | nil => exact h
  | cons v rest ih => exact ih (channel + 1) (writeRaw_wf _ v h)

theorem writePilotSamples_wf (pages : List (Fin 256)) (n : Nat) (vs : List (BitVec 16)) (h : DramWf d) :
    DramWf (writePilotSamples pages n vs d) := by
  induction vs generalizing n d with
  | nil => exact h
  | cons v rest ih => exact ih (n + 1) (writePilot_wf _ v h)

theorem writeAccs_wf (a : Nat) (vs : List (BitVec 64)) (h : DramWf d) : DramWf (writeAccs a vs d) := by
  induction vs generalizing a d with
  | nil => exact h
  | cons v rest ih => exact ih (a + 1) (writeAcc_wf a v h)

theorem upsetWord_wf (u : Upset) (h : DramWf d) : DramWf (upsetWord d u) := by
  unfold upsetWord
  split
  · exact ⟨h.1, cellWrite_wf h.2.1, h.2.2⟩
  · exact ⟨h.1, h.2.1, h.2.2.1, cellWrite_wf h.2.2.2.1, h.2.2.2.2⟩
  · exact ⟨h.1, h.2.1, h.2.2.1, h.2.2.2.1, h.2.2.2.2.1, cellWrite_wf h.2.2.2.2.2⟩

theorem upsets_wf (us : List Upset) (h : DramWf d) : DramWf (us.foldl upsetWord d) := by
  induction us generalizing d with
  | nil => exact h
  | cons u rest ih => exact ih (upsetWord_wf u h)

theorem zeroAccumulators_wf (b : Fin 8) (channels lags : Nat) (h : DramWf d) :
    DramWf (zeroAccumulators b channels lags d) :=
  ⟨h.1, h.2.1, h.2.2.1, h.2.2.2.1, cellsClear_wf h.2.2.2.2.1, cellsClear_wf h.2.2.2.2.2⟩

end Dram

/-! ## The scan map -/

section Marks

variable {st : SampleStore}

theorem clearMarks_wf (first last : Int) (h : CellsWf false st.marks) :
    CellsWf false (clearMarks first last st).marks :=
  cellsClear_wf (p := fun k => slotInRange first last (k % 65536)) h

theorem setMark_wf (p : Fin 4) (slot : Nat) (h : CellsWf false st.marks) :
    CellsWf false (setMark p slot st).marks := cellWrite_wf h

/-- A mark that is set reads as set, and every other mark reads as before (R35, R36). -/
theorem cellRead_setMark (p : Fin 4) (slot k : Nat) (h : CellsWf false st.marks) :
    cellRead false (setMark p slot st).marks k =
      if k = markAddress p.val slot then true else cellRead false st.marks k := by
  split
  · subst_vars; exact cellRead_cellWrite_same h
  · exact cellRead_cellWrite_other ‹_›

end Marks

/-- A write to one raw word, read back: the word, with clean check bits, and no other word (R34, R166). -/
theorem writeRaw_reads (d : Dram) (h : DramWf d) (a b : Nat) (v : BitVec 32) :
    cellRead 0 (writeRaw a v d).raw b = (if b = a then v else cellRead 0 d.raw b) ∧
      cellRead .clean (writeRaw a v d).rawErrors b = (if b = a then .clean else cellRead .clean d.rawErrors b) := by
  refine ⟨?_, ?_⟩
  · split
    · subst_vars; exact cellRead_cellWrite_same h.1
    · exact cellRead_cellWrite_other ‹_›
  · split
    · subst_vars; exact cellRead_cellWrite_same h.2.1
    · exact cellRead_cellWrite_other ‹_›

/-- A write to one accumulator, read back (R103, R166). -/
theorem writeAcc_reads (d : Dram) (h : DramWf d) (a b : Nat) (v : BitVec 64) :
    cellRead 0 (writeAcc a v d).acc b = (if b = a then v else cellRead 0 d.acc b) ∧
      cellRead .clean (writeAcc a v d).accErrors b = (if b = a then .clean else cellRead .clean d.accErrors b) := by
  refine ⟨?_, ?_⟩
  · split
    · subst_vars; exact cellRead_cellWrite_same h.2.2.2.2.1
    · exact cellRead_cellWrite_other ‹_›
  · split
    · subst_vars; exact cellRead_cellWrite_same h.2.2.2.2.2
    · exact cellRead_cellWrite_other ‹_›

/-- A write to one pilot sample, read back (R57, R166). -/
theorem writePilot_reads (d : Dram) (h : DramWf d) (a b : Nat) (v : BitVec 16) :
    cellRead 0 (writePilot a v d).pilot b = (if b = a then v else cellRead 0 d.pilot b) ∧
      cellRead .clean (writePilot a v d).pilotErrors b =
        (if b = a then .clean else cellRead .clean d.pilotErrors b) := by
  refine ⟨?_, ?_⟩
  · split
    · subst_vars; exact cellRead_cellWrite_same h.2.2.1
    · exact cellRead_cellWrite_other ‹_›
  · split
    · subst_vars; exact cellRead_cellWrite_same h.2.2.2.1
    · exact cellRead_cellWrite_other ‹_›

end Sys2Proof.Machine
end

