-- ==== Sys2Proof/Laws/Images.lean ====
section
/-! SUPPORT. What the copy of a pilot leaves in local DRAM, said once (R57). -/

namespace Sys2Proof.Machine

/-- How many whole samples a stretch of an image holds, and which bytes each is of (R57, R58). -/
theorem pilotSamplesOf_spec (data : List Byte) : (pilotSamplesOf data).length = data.length / 2 ∧
    ∀ k, k < data.length / 2 →
      (pilotSamplesOf data).getD k 0 = BitVec.ofNat 16 (leNat ((data.drop (2 * k)).take 2)) := by
  induction data using pilotSamplesOf.induct with
  | case1 b0 b1 rest ih =>
    refine ⟨by simp only [pilotSamplesOf, List.length_cons, ih.1]; omega, fun k hk => ?_⟩
    cases k with
    | zero => simp [pilotSamplesOf]
    | succ k =>
      simp only [List.length_cons] at hk
      have h := ih.2 k (by omega)
      rw [show 2 * (k + 1) = 2 * k + 1 + 1 by omega]
      simpa [pilotSamplesOf] using h
  | case2 data h =>
    have hl : data.length < 2 := by
      match data, h with
      | [], _ => decide
      | [_], _ => simp
      | b0 :: b1 :: rest, h => exact absurd rfl (h b0 b1 rest)
    have e : pilotSamplesOf data = [] := by
      match data, hl with
      | [], _ => rfl
      | [_], _ => rfl
    refine ⟨by rw [e]; simp; omega, fun k hk => by omega⟩

/-- Two samples of one pilot stand in different words (R52, R57). -/
theorem pilotWordAt_inj {pages : List (Fin 256)} (hd : pages.Nodup) {m n : Nat} (hm : m < 1024 * pages.length)
    (hn : n < 1024 * pages.length) (h : pilotWordAt pages m = pilotWordAt pages n) : m = n := by
  unfold pilotWordAt pilotAddress at h
  have lm : m / 1024 < pages.length := by omega
  have ln : n / 1024 < pages.length := by omega
  rw [List.getD_eq_getElem _ _ lm, List.getD_eq_getElem _ _ ln] at h
  have hp : pages[m / 1024] = pages[n / 1024] := Fin.ext (by omega)
  have := (List.Nodup.getElem_inj_iff hd).1 hp
  omega

/-- Writing samples touches the pilot words alone: each of them is at its word, under clean check bits, and every other
word is as it was (R57, R166). -/
theorem writePilotSamples_reads {pages : List (Fin 256)} (hd : pages.Nodup) (vs : List (BitVec 16)) (m : Nat) (d : Dram)
    (h : DramWf d) (hl : m + vs.length ≤ 1024 * pages.length) :
    let e := writePilotSamples pages m vs d
    e = { d with pilot := e.pilot, pilotErrors := e.pilotErrors } ∧
    (∀ n, m ≤ n → n < m + vs.length → cellRead 0 e.pilot (pilotWordAt pages n) = vs.getD (n - m) 0 ∧
      cellRead .clean e.pilotErrors (pilotWordAt pages n) = .clean) ∧
    ∀ a, (∀ n, m ≤ n → n < m + vs.length → a ≠ pilotWordAt pages n) →
      cellRead 0 e.pilot a = cellRead 0 d.pilot a ∧ cellRead .clean e.pilotErrors a = cellRead .clean d.pilotErrors a := by
  induction vs generalizing m d with
  | nil => exact ⟨rfl, fun n h1 h2 => by simp at h2; omega, fun a _ => ⟨rfl, rfl⟩⟩
  | cons v rest ih =>
    simp only [List.length_cons] at hl ⊢
    obtain ⟨h1, h2, h3⟩ := ih (m + 1) _ (writePilot_wf (pilotWordAt pages m) v h) (by omega)
    refine ⟨h1, fun n hn hn' => ?_, fun a ha => ?_⟩
    · by_cases e : n = m
      · subst e
        have k := h3 (pilotWordAt pages n) (fun i hi hi' => fun e => by
          have := pilotWordAt_inj hd (by omega) (by omega) e; omega)
        have w := writePilot_reads d h (pilotWordAt pages n) (pilotWordAt pages n) v
        rw [if_pos rfl, if_pos rfl] at w
        simp only [writePilotSamples]
        rw [k.1, k.2, w.1, w.2]
        simp
      · have k := h2 n (by omega) (by omega)
        simp only [writePilotSamples]
        rw [k.1, show n - m = (n - (m + 1)) + 1 by omega]
        exact ⟨by simp, k.2⟩
    · have k := h3 a (fun n h1 h2 => ha n (by omega) (by omega))
      have w := writePilot_reads d h (pilotWordAt pages m) a v
      rw [if_neg (ha m (le_refl _) (by omega)), if_neg (ha m (le_refl _) (by omega))] at w
      simp only [writePilotSamples]
      exact ⟨k.1.trans w.1, k.2.trans w.2⟩

/-- What a stretch of the image leaves in local DRAM. -/
theorem acceptImage_stores (slot : LoadSlot) (data : List Byte) (s : State) (h : DramWf s.dram)
    (hd : slot.pages.Nodup) (he : slot.received % 2 = 0) (hl : slot.received + data.length ≤ 2 * slot.length)
    (hp : slot.length ≤ 1024 * slot.pages.length) : ImageStored slot data s (acceptImage slot data s) := by
  have sp := pilotSamplesOf_spec data
  have k := writePilotSamples_reads hd (pilotSamplesOf data) (slot.received / 2) s.dram h (by rw [sp.1]; omega)
  rw [sp.1] at k
  refine ⟨k.1, fun n h1 h2 => ?_, k.2.2⟩
  have w := k.2.1 n h1 h2
  rw [sp.2 _ (by omega)] at w
  exact w

end Sys2Proof.Machine
end

