-- ==== Sys2Proof/Laws/Jobs.lean ====
section
/-! SUPPORT. What the Scheduler does to the job table, said once: the end of a job, the arbiter, the end of a pass and a
settled-index notice (R41, R71, R73, R79). -/

namespace Sys2Proof.Machine

/-- A job that ends leaves the table; no other entry changes. -/
theorem endJob_jobs (i k : Fin 32) (o : OrderOutcome) (x : Reason) (s : State) :
    (endJob i o x s).sched.jobs[k] = if i = k then none else s.sched.jobs[k] := by
  unfold endJob
  split
  · simp only [drainTest_frame, dropJob_frame]
    exact set_get ..
  · rename_i h
    split
    · rename_i e; subst e; exact h
    · rfl

/-- The arbiter chooses READY jobs alone. -/
theorem chooseJob_ready {sc : Scheduler} {i : Fin 32} (h : chooseJob sc = some i) : ∃ j, sc.readyJob i = some j := by
  have best : ∀ (l : List (Fin 32)) (b : Option (Fin 32 × Nat)) (r : Fin 32 × Nat), bestOf sc l b = some r →
      b = some r ∨ ∃ j, sc.readyJob r.1 = some j := by
    intro l
    induction l with
    | nil => exact fun b r h => .inl h
    | cons i l ih =>
      intro b r h
      unfold bestOf at h
      split at h
      · rename_i j k t hj
        split at h
        · exact (ih _ _ h).elim (fun e => .inr ⟨j, by rw [← Option.some.inj e]; exact hj⟩) .inr
        · exact ih _ _ h
      · rename_i j hj
        exact (ih _ _ h).elim (fun e => .inr ⟨j, by rw [← Option.some.inj e]; exact hj⟩) .inr
      · exact ih _ _ h
  have go : ∀ l, chooseFrom sc l = some i → ∃ j, sc.readyJob i = some j := by
    intro l
    induction l with
    | nil => exact fun h => nomatch h
    | cons f l ih =>
      intro h
      unfold chooseFrom at h
      split at h
      · exact ih h
      · split at h
        · rename_i k _ e
          obtain rfl := Option.some.inj h
          exact (best _ _ _ e).elim (fun e => nomatch e) id
        · exact ih h
  exact go _ h

/-- What the arbiter does with the job at an entry: it leaves it alone, or finds it READY and either ends it or makes it
ACTIVE with a pass for it. -/
def JobArbitrated (k : Fin 32) (s t : State) : Prop :=
  t.sched.jobs[k] = s.sched.jobs[k] ∨ ∃ j, s.sched.jobs[k] = some j ∧ j.state = .ready ∧
    (t.sched.jobs[k] = none ∨ t.sched.jobs[k] = some { j with state := .active } ∧ t.engine.activeJob = some k)

theorem arbitrateLoop_jobs (k : Fin 32) (n : Nat) (s : State) : JobArbitrated k s (arbitrateLoop n s) := by
  induction n generalizing s with
  | zero => exact .inl rfl
  | succ n ih =>
    have ended : ∀ (i : Fin 32) (j : Job) (o : OrderOutcome) (x : Reason), s.sched.jobs[i] = some j →
        j.state = .ready → JobArbitrated k s (arbitrateLoop n (endJob i o x s)) := by
      intro i j o x hj hr
      have h := ih (endJob i o x s)
      unfold JobArbitrated at h ⊢
      rw [endJob_jobs] at h
      by_cases e : i = k
      · subst e
        rw [if_pos rfl] at h
        exact .inr ⟨j, hj, hr, .inl (h.elim id fun ⟨_, h, _⟩ => nomatch h)⟩
      · rw [if_neg e] at h
        exact h
    unfold arbitrateLoop
    split
    · exact .inl rfl
    · rename_i i hc
      split
      · exact .inl rfl
      · rename_i j hj
        have hr : j.state = .ready := by
          obtain ⟨q, hq⟩ := chooseJob_ready hc
          unfold Scheduler.readyJob at hq
          rw [hj] at hq
          by_contra h
          simp [h] at hq
        split
        · split
          · exact ended _ _ _ _ hj hr
          · split
            · exact ended _ _ _ _ hj hr
            · by_cases e : i = k
              · subst e
                exact .inr ⟨j, hj, hr, .inr ⟨set_get_self .., rfl⟩⟩
              · exact .inl (set_get_other _ _ e)
        · exact .inl rfl

/-- The arbiter acts on READY jobs alone, and only while no pass is in flight. -/
theorem arbitrate_jobs (k : Fin 32) (s : State) :
    JobArbitrated k s (arbitrate s) ∧ (s.engine.activeJob ≠ none → arbitrate s = s) := by
  unfold arbitrate
  split
  · rename_i h
    exact ⟨arbitrateLoop_jobs .., fun hn => by cases he : s.engine <;> simp_all [Engine.isFree, Engine.activeJob]⟩
  · exact ⟨.inl rfl, fun _ => rfl⟩

/-- The end of a pass changes no entry but its job's, which is empty unless the pass is completed, and frees the
Engine. -/
theorem endPass_jobs (k : Fin 32) (kind : PassEnd) (s : State) :
    (s.engine.activeJob = none ∧ endPass kind s = s) ∨
      ∃ i, s.engine.activeJob = some i ∧ (endPass kind s).engine = .noPass ∧
        (i ≠ k → (endPass kind s).sched.jobs[k] = s.sched.jobs[k]) ∧
        (kind ≠ .completed → (endPass kind s).sched.jobs[i] = none) := by
  unfold endPass
  split
  · rename_i h
    exact .inl ⟨h, rfl⟩
  · rename_i i h
    refine .inr ⟨i, h, ?_⟩
    dsimp only
    split
    · rename_i hj
      exact ⟨rfl, fun _ => rfl, fun _ => hj⟩
    · rename_i j hj
      have ended : ∀ (o : OrderOutcome) (x : Reason) (u : State), u.engine = .noPass →
          (i ≠ k → u.sched.jobs[k] = s.sched.jobs[k]) →
          (endJob i o x u).engine = .noPass ∧ (i ≠ k → (endJob i o x u).sched.jobs[k] = s.sched.jobs[k]) ∧
            (kind ≠ .completed → (endJob i o x u).sched.jobs[i] = none) := by
        intro o x u hu hk
        refine ⟨by simp [hu], fun e => ?_, fun _ => by rw [endJob_jobs, if_pos rfl]⟩
        rw [endJob_jobs, if_neg e]
        exact hk e
      have ht : (turnList j.fleet { s with engine := .noPass }).engine = .noPass := by simp
      have hq : i ≠ k → (turnList j.fleet { s with engine := .noPass }).sched.jobs[k] = s.sched.jobs[k] :=
        fun _ => by simp
      have hs : ∀ x, i ≠ k →
          ((turnList j.fleet { s with engine := .noPass }).setJob i x).sched.jobs[k] = s.sched.jobs[k] :=
        fun x e => (set_get_other _ _ e).trans (hq e)
      unfold settleJob
      split
      · dsimp only
        split
        · exact ended _ _ _ ht (hs _)
        · split
          · exact ⟨ht, fun e => (set_get_other _ _ e).trans (hs _ e), fun h => absurd rfl h⟩
          · exact ended _ _ _ ht (hs _)
      · split <;> exact ended _ _ _ ht hq
      · split <;> exact ended _ _ _ ht hq

end Sys2Proof.Machine
end

