-- ==== Sys2Proof/Laws/PortLaws.lean ====
section
/-! SUPPORT. What each operation of the link ports makes of a lawful port table, when the issue arbiter leaves the port
free, and the two ways in which the priority list turns. -/

namespace Sys2Proof.Machine

/-! ## The issue port and the priority list -/

/-- After the issue arbiter has acted no request waits before a free port (R159). -/
theorem serveIssuePort_served (s : State) : PortServed (serveIssuePort s) := by
  unfold serveIssuePort
  split
  · exact .inl ‹_›
  · split
    · exact .inl rfl
    · exact .inl rfl
    · exact .inl rfl
    · rename_i h1 h2 h3
      refine .inr ⟨?_, ?_, ?_⟩
      · revert h1; cases s.bus.scanner <;> simp [Slot.isWaiting]
      · revert h2; cases s.bus.exporter <;> simp [Slot.isWaiting]
      · revert h3; cases s.bus.loader <;> simp [Slot.isWaiting]

/-- The turn of R76 keeps the eight fleets. -/
theorem moveToBottom_perm {list : List (Fin 8)} (f : Fin 8) (h : list.Perm (List.finRange 8)) :
    (moveToBottom f list).Perm (List.finRange 8) := by
  have e : ((List.finRange 8).filter (· != f) ++ [f]).Perm (List.finRange 8) := by
    clear h
    revert f
    decide
  exact ((h.filter _).append_right _).trans e

/-- The list that a FLEET_ORDER sets holds the eight fleets (R81). -/
theorem listWithBottom_perm (b : Nat) (h : b ≤ 7) : (listWithBottom b).Perm (List.finRange 8) := by
  interval_cases b <;> decide

/-! ## Ports -/

/-- One port's record is replaced by a lawful one. -/
theorem setPort_lawful {s : State} {p x} (h : PortsLawful s) (hx : PortLawful x) : PortsLawful (s.setPort p x) := by
  intro q
  simp only [setPort_frame]
  have := set_get s.ports p q x
  simp only [this]
  split
  · exact hx
  · exact h q

/-- Only the ports matter. -/
theorem lawful_congr {s t : State} (e : t.ports = s.ports) (h : PortsLawful s) : PortsLawful t := by
  intro p; rw [e]; exact h p

/-- A cut port is lawful (R25). -/
theorem cut_lawful {x : Port} {c} : PortLawful (x.afterCut c) := by
  constructor <;> simp [-Fin.getElem_fin, Port.afterCut, Port.counted]

/-- Cutting a port. -/
theorem cutPort_lawful {s : State} {p c} (h : PortsLawful s) : PortsLawful (cutPort p c s) := by
  unfold cutPort
  exact lawful_congr (t := State.raise _ _) (raise_frame _ _).2.2.2.2.1 (setPort_lawful h cut_lawful)

/-- The stall test of a port (R26). -/
theorem stallTest_lawful {s p} (h : PortsLawful s) : PortsLawful (stallTest p s) := by
  unfold stallTest
  split
  · split
    · exact cutPort_lawful h
    · exact h
  · exact h

/-- The stall test of every port. -/
theorem stallTests_lawful {s} (h : PortsLawful s) : PortsLawful (stallTests s) := by
  simp only [stallTests, List.finRange_succ, List.finRange_zero, List.map, List.foldl]
  repeat apply stallTest_lawful
  exact h

/-- A frontier moves at a port that is not DOWN. -/
theorem frontier_lawful {x : Port} (h : PortLawful x) (hd : x.state ≠ .down) (f) :
    PortLawful { x with frontier := some f } := by
  constructor <;> simp [-Fin.getElem_fin, Port.counted] <;>
    first
    | exact h.errors_le
    | exact h.recovery_le
    | exact h.syncRun_le
    | exact h.live_below
    | exact h.degraded_from
    | simpa [-Fin.getElem_fin, Port.counted] using h.errors_unused
    | exact h.recovery_unused
    | exact h.sync_unused
    | exact hd

/-- A good frame reaches the store. -/
theorem storeFrame_lawful {s p tag xs} (h : PortsLawful s) (hp : s.ports[p].state ≠ .down) :
    PortsLawful (storeFrame p tag xs s) := by
  unfold storeFrame
  split
  · exact h
  · split
    · unfold setFrontier
      exact setPort_lawful (lawful_congr (by simp [-Fin.getElem_fin]) h)
        (by simpa [-Fin.getElem_fin] using frontier_lawful (h p) hp tag)
    · apply stallTests_lawful
      refine lawful_congr (pinTest_frame _).2.2.2.2.1 ?_
      unfold setFrontier
      exact setPort_lawful (lawful_congr (by simp [-Fin.getElem_fin]) h)
        (by simpa [-Fin.getElem_fin] using frontier_lawful (h p) hp tag)

/-- The stall test leaves every other port alone. -/
theorem stallTest_other {s p q} (h : q ≠ p) : (stallTest q s).ports[p] = s.ports[p] := by
  unfold stallTest
  split
  · split
    · simp only [cutPort_frame]; rw [set_get]; simp [-Fin.getElem_fin, h]
    · rfl
  · rfl
/-- A port whose frontier is W does not fail the stall test. -/
theorem stallTest_own {s : State} {p : Fin 4} {w : Int} (hw : s.store.newest = some w) (hf : s.ports[p].frontier = some w) :
    (stallTest p s) = s := by
  unfold stallTest
  rw [hw]
  simp only [stalled, hf]
  rw [if_neg]
  generalize s.ports[p].state = q
  cases q <;> simp [stallLimit]

/-- No stall test touches a port whose frontier is W. -/
theorem stallTest_keep {s : State} {p q : Fin 4} {w : Int} (hw : s.store.newest = some w) (hf : s.ports[p].frontier = some w) :
    (stallTest q s).ports[p] = s.ports[p] ∧ (stallTest q s).store = s.store := by
  refine ⟨?_, by simp⟩
  by_cases h : q = p
  · subst h; rw [stallTest_own hw hf]
  · exact stallTest_other h

/-- The stall tests of R37 step 6 never cut the port whose frame made the advance. -/
theorem stallTests_own {s : State} {p : Fin 4} {w : Int} (hw : s.store.newest = some w) (hf : s.ports[p].frontier = some w) :
    (stallTests s).ports[p] = s.ports[p] := by
  simp only [stallTests, List.finRange_succ, List.finRange_zero, List.map, List.foldl]
  have a0 := stallTest_keep (q := 0) hw hf
  have a1 := stallTest_keep (q := 1) (p := p) (w := w)
    (by rw [a0.2]; exact hw) (by rw [a0.1]; exact hf)
  have a2 := stallTest_keep (q := 2) (p := p) (w := w)
    (by rw [a1.2, a0.2]; exact hw) (by rw [a1.1, a0.1]; exact hf)
  have a3 := stallTest_keep (q := 3) (p := p) (w := w)
    (by rw [a2.2, a1.2, a0.2]; exact hw) (by rw [a2.1, a1.1, a0.1]; exact hf)
  exact (a3.1.trans (a2.1.trans (a1.1.trans a0.1)))

/-- A good frame moves its own port's frontier and nothing else of that port. -/
theorem storeFrame_own {s p tag xs} :
    (storeFrame p tag xs s).ports[p] = s.ports[p] ∨
      (storeFrame p tag xs s).ports[p] = { s.ports[p] with frontier := some (tag : Int) } := by
  unfold storeFrame
  split
  · exact .inl rfl
  · right
    split
    · simp only [setFrontier_frame]; rw [set_get]; simp [-Fin.getElem_fin]
    · rw [stallTests_own (w := (tag : Int))]
      · simp [-Fin.getElem_fin, setFrontier]
      · simp [-Fin.getElem_fin, setMark]
      · simp [-Fin.getElem_fin]

/-- The DEGRADED test mends a LIVE port whose count has reached 128 (R23). -/
theorem degradeTest_lawful {s p} (h : ∀ q ≠ p, PortLawful s.ports[q])
    (h2 : PortLawful s.ports[p] ∨ (s.ports[p].state = .live ∧ 128 ≤ s.ports[p].errors ∧ s.ports[p].errors ≤ 255 ∧
      s.ports[p].recovery = 0 ∧ s.ports[p].syncRun = 0 ∧ s.ports[p].syncTag = none)) :
    PortsLawful (degradeTest p s) := by
  unfold degradeTest
  split
  · rename_i hh
    apply stallTest_lawful
    refine lawful_congr (raise_frame _ _).2.2.2.2.1 ?_
    intro q
    simp only [setPort_frame]
    rw [set_get]
    split
    · rcases h2 with h2 | h2
      · have := h2.live_below hh.1; omega
      · obtain ⟨a1,a2,a3,a4,a5,a6⟩ := h2
        constructor <;> simp [-Fin.getElem_fin, Port.counted, a4, a5, a6] <;> omega
    · exact h q (by tauto)
  · rename_i hh
    intro q
    by_cases hq : q = p
    · subst hq
      rcases h2 with h2 | h2
      · exact h2
      · exact absurd ⟨h2.1, h2.2.1⟩ hh
    · exact h q hq

/-- A count raised by 8 below 256, followed by the DEGRADED test (R23). -/
theorem bump_lawful {s p} {x y : Port} (h : PortsLawful s) (hx : PortLawful x) (hc : x.counted = true)
    (hn : x.errors + 8 < 256) (hy : y = { x with errors := x.errors + 8, frontier := y.frontier, counts := y.counts }) :
    PortsLawful (degradeTest p (s.setPort p y)) := by
  apply degradeTest_lawful
  · intro q hq; simp only [setPort_frame]; rw [set_get, if_neg (Ne.symm hq)]; exact h q
  · simp only [setPort_frame]; rw [set_get]; simp only [if_true]
    have hs : x.state = .live ∨ x.state = .degraded := by simpa [-Fin.getElem_fin, Port.counted] using hc
    rw [hy]
    have hr := hx.recovery_unused (by rcases hs with h | h <;> simp [-Fin.getElem_fin, h])
    have hz := hx.sync_unused (by rcases hs with h | h <;> simp [-Fin.getElem_fin, h])
    rcases hs with hs | hs
    · by_cases h128 : 128 ≤ x.errors + 8
      · right; simp [-Fin.getElem_fin]; exact ⟨hs, by omega, by omega, hr, hz.1, hz.2⟩
      · left; constructor <;> simp [-Fin.getElem_fin, Port.counted, hs, hr, hz] <;> omega
    · left
      have := hx.degraded_from hs
      constructor <;> simp [-Fin.getElem_fin, Port.counted, hs, hr, hz] <;> omega

/-- The cumulative counts do not matter. -/
theorem counts_lawful {x : Port} (h : PortLawful x) (c) : PortLawful { x with counts := c } := by
  constructor <;> simp [-Fin.getElem_fin, Port.counted] <;>
    first
    | exact h.errors_le
    | exact h.recovery_le
    | exact h.syncRun_le
    | exact h.live_below
    | exact h.degraded_from
    | simpa [-Fin.getElem_fin, Port.counted] using h.errors_unused
    | exact h.recovery_unused
    | exact h.sync_unused
    | exact h.down_frontier

/-- A bad frame at a LIVE or DEGRADED port (R23). -/
theorem badFrame_lawful {s p c} (h : PortsLawful s) (hc : s.ports[p].counted = true) :
    PortsLawful (badFrame p c s) := by
  unfold badFrame
  dsimp only
  split
  · exact cutPort_lawful (setPort_lawful h (counts_lawful (h p) _))
  · exact bump_lawful h (h p) hc (by simp [-Fin.getElem_fin] at *; omega) rfl

/-- A GAP frame (R23). -/
theorem gapFrame_lawful {s p tag xs} (h : PortsLawful s) (hc : s.ports[p].counted = true) :
    PortsLawful (gapFrame p tag xs s) := by
  unfold gapFrame
  dsimp only
  have hd : s.ports[p].state ≠ .down := by intro h; simp [-Fin.getElem_fin, Port.counted, h] at hc
  split
  · exact cutPort_lawful (setPort_lawful h (counts_lawful (h p) _))
  · have hx := setPort_lawful (p := p) h
      (counts_lawful (h p) { s.ports[p].counts with gap := satInc32 s.ports[p].counts.gap })
    refine bump_lawful (x := s.ports[p]) (storeFrame_lawful hx ?_) (h p) hc (by simp [-Fin.getElem_fin] at *; omega) ?_
    · simp [-Fin.getElem_fin]; exact hd
    · rcases storeFrame_own (p := p) (tag := tag) (xs := xs)
        (s := s.setPort p
          { s.ports[p] with counts := { s.ports[p].counts with gap := satInc32 s.ports[p].counts.gap } }) with e | e <;> rw [e] <;> simp [-Fin.getElem_fin]

/-- A good frame in sequence (R22). -/
theorem goodFrame_lawful {s p tag xs} (h : PortsLawful s) (hc : s.ports[p].counted = true) :
    PortsLawful (goodFrame p tag xs s) := by
  have hd : s.ports[p].state ≠ .down := by intro h; simp [-Fin.getElem_fin, Port.counted, h] at hc
  have h1 := storeFrame_lawful (p := p) (tag := tag) (xs := xs) h hd
  unfold goodFrame
  dsimp only
  generalize storeFrame p tag xs s = t at h1
  have hx := h1 p
  unfold recoverTest
  split
  · rename_i hh
    refine lawful_congr (raise_frame _ _).2.2.2.2.1 ?_
    intro q
    simp only [setPort_frame]
    rw [set_get]
    split
    · have hh1 : t.ports[p].state = .degraded := by simpa [-Fin.getElem_fin] using hh.1
      have hh2 : t.ports[p].errors - 1 ≤ 127 := by simpa [-Fin.getElem_fin] using hh.2
      have hr := hx.recovery_unused (by simp [-Fin.getElem_fin, hh1])
      have hy := hx.sync_unused (by simp [-Fin.getElem_fin, hh1])
      constructor <;> simp [-Fin.getElem_fin, Port.counted, hr, hy] <;> omega
    · rw [set_get, if_neg (by assumption)]; exact h1 q
  · rename_i hh
    apply setPort_lawful h1
    simp [-Fin.getElem_fin] at hh
    have := hx.errors_le; have := hx.live_below; have := hx.degraded_from
    constructor <;> simp [-Fin.getElem_fin, Port.counted]
    · omega
    · exact hx.recovery_le
    · exact hx.syncRun_le
    · intro h; have := hx.live_below h; omega
    · intro h; have := hh h; omega
    · intro h1 h2; have := hx.errors_unused (by simp [-Fin.getElem_fin, Port.counted, h1, h2]); omega
    · exact hx.recovery_unused
    · exact hx.sync_unused
    · exact hx.down_frontier

/-- Any arrival at a LIVE or DEGRADED port. -/
theorem liveArrival_lawful {s p bytes} (h : PortsLawful s) (hc : s.ports[p].counted = true) :
    PortsLawful (liveArrival p bytes s) := by
  unfold liveArrival; dsimp only
  split
  · exact badFrame_lawful h hc
  · split
    · exact badFrame_lawful h hc
    · split
      · exact badFrame_lawful h hc
      · split
        · exact goodFrame_lawful h hc
        · exact gapFrame_lawful h hc

/-- A join (R20, R21). -/
theorem joinPort_lawful {s p tag xs} (h : PortsLawful s) (hc : s.ports[p].state = .syncing) :
    PortsLawful (joinPort p tag xs s) := by
  unfold joinPort; dsimp only
  have hr := (h p).recovery_unused (by simp [-Fin.getElem_fin, hc])
  have key : PortsLawful (storeFrame p tag xs
      ((s.setPort p { s.ports[p] with state := .live, errors := 0, syncRun := 0, syncTag := none }).raise .link)) := by
    apply storeFrame_lawful
    · refine lawful_congr (raise_frame _ _).2.2.2.2.1 (setPort_lawful h ?_)
      constructor <;> simp [-Fin.getElem_fin, Port.counted, hr]
    · simp [-Fin.getElem_fin]
  split
  · exact lawful_congr (by simp [-Fin.getElem_fin]) key
  · exact key

/-- Any arrival at a SYNCING port. -/
theorem syncArrival_lawful {s p bytes} (h : PortsLawful s) (hc : s.ports[p].state = .syncing) :
    PortsLawful (syncArrival p bytes s) := by
  have hx := h p
  have hr := hx.recovery_unused (by simp [-Fin.getElem_fin, hc])
  have he := hx.errors_unused (by simp [-Fin.getElem_fin, hc, Port.counted])
  have := hx.syncRun_le
  unfold syncArrival; dsimp only
  have hb : ∀ c, PortsLawful (breakRun p c s) := by
    intro c; apply setPort_lawful h; constructor <;> simp [-Fin.getElem_fin, Port.counted, hc, hr, he]
  split
  · exact hb _
  · split
    · apply setPort_lawful h; constructor <;> simp [-Fin.getElem_fin, Port.counted, hc, hr, he]
      split <;> omega
    · split
      · apply setPort_lawful h; constructor <;> simp [-Fin.getElem_fin, Port.counted, hc, hr, he]; exact this
      · split
        · exact hb _
        · exact lawful_congr (settleEvent_frame _).2.2.2.2.1 (joinPort_lawful h hc)

/-- Any arrival at a CUT port (R28). -/
theorem cutArrival_lawful {s p bytes} (h : PortsLawful s) (hc : s.ports[p].state = .cut) :
    PortsLawful (cutArrival p bytes s) := by
  have hx := h p
  have he := hx.errors_unused (by simp [-Fin.getElem_fin, hc, Port.counted])
  have hy := hx.sync_unused (by simp [-Fin.getElem_fin, hc])
  unfold cutArrival; dsimp only
  split
  · exact setPort_lawful h (counts_lawful hx _)
  · split
    · refine lawful_congr (raise_frame _ _).2.2.2.2.1 (setPort_lawful h ?_)
      constructor <;> simp [-Fin.getElem_fin, Port.counted, he]
    · apply setPort_lawful h
      constructor <;> simp [-Fin.getElem_fin, Port.counted, hc, he, hy]; omega

/-- Any arrival at any port. -/
theorem arrival_lawful {s p bytes} (h : PortsLawful s) : PortsLawful (arrival p bytes s) := by
  unfold arrival
  split
  · exact h
  · exact syncArrival_lawful h ‹_›
  · exact lawful_congr (settleEvent_frame _).2.2.2.2.1
      (liveArrival_lawful h (by simp [-Fin.getElem_fin, Port.counted, *]))
  · exact lawful_congr (settleEvent_frame _).2.2.2.2.1
      (liveArrival_lawful h (by simp [-Fin.getElem_fin, Port.counted, *]))
  · exact cutArrival_lawful h ‹_›

/-- A port at the end of a session (R10). -/
theorem close_lawful {x : Port} : PortLawful (closePort x) := by
  constructor <;> simp [closePort, Port.counted]
/-- A port after a full or work reset (R33). -/
theorem reset_lawful {x : Port} : PortLawful x.afterReset := by
  constructor <;> simp [Port.afterReset, Port.reset, Port.counted]
/-- A port at the take of a CONFIGURE (R7). -/
theorem configure_lawful {x : Port} {e c} (h : PortLawful x) : PortLawful (configurePort e c x) := by
  unfold configurePort
  split
  · exact h
  · constructor <;> simp [Port.counted]
/-- The carrier field does not matter. -/
theorem carrier_lawful {x : Port} {c} (h : PortLawful x) : PortLawful { x with carrier := c } := by
  constructor <;> simp [Port.counted] <;>
    first
    | exact h.errors_le
    | exact h.recovery_le
    | exact h.syncRun_le
    | exact h.live_below
    | exact h.degraded_from
    | simpa [Port.counted] using h.errors_unused
    | exact h.recovery_unused
    | exact h.sync_unused
    | exact h.down_frontier

/-- A report of carrier loss (R27). -/
theorem loseCarrier_lawful {s p} (h : PortsLawful s) : PortsLawful (loseCarrier p s) := by
  have h1 := setPort_lawful (p := p) h (carrier_lawful (c := false) (h p))
  unfold loseCarrier
  dsimp only
  split
  · exact h1
  · rename_i hc
    apply setPort_lawful h1
    have := h p
    have he := this.errors_unused (by simp [Port.counted, hc, -Fin.getElem_fin])
    have hy := this.sync_unused (by simp [hc, -Fin.getElem_fin])
    constructor <;> simp [Port.counted, hc, he, hy, -Fin.getElem_fin]
  · exact cutPort_lawful h1
  · exact cutPort_lawful h1
  · exact cutPort_lawful h1

end Sys2Proof.Machine
end

