-- ==== Sys2Proof/Laws/Links.lean ====
section
/-! SUPPORT. LINK is raised by a change of a port's state and by nothing else (R30). -/

namespace Sys2Proof.Machine

/-- Where a state stands on the way from SYNCING to LIVE, DEGRADED and CUT. -/
def PortState.rank : PortState → Nat
  | .down => 0
  | .syncing => 1
  | .live => 2
  | .degraded => 3
  | .cut => 4

theorem PortState.rank_inj {a b : PortState} (h : a.rank = b.rank) : a = b := by
  cases a <;> cases b <;> first | rfl | exact absurd h (by decide)

/-- LINK tells of changes of state that all lead the same way, so that none undoes another. -/
structure Falls (s t : State) : Prop where
  down : ∀ q : Fin 4, s.ports[q].state.rank ≤ t.ports[q].state.rank
  tells : LinkTells s t

theorem Falls.of_eq {s t : State} (hp : ∀ q : Fin 4, t.ports[q].state = s.ports[q].state)
    (he : isPending .link t ↔ isPending .link s) : Falls s t :=
  ⟨fun q => by rw [hp q], by
    unfold LinkTells
    rw [he]
    exact ⟨.inl, fun h => h.elim id fun ⟨q, k⟩ => absurd (hp q) k⟩⟩

theorem Falls.trans {s t u : State} (h : Falls s t) (k : Falls t u) : Falls s u := by
  refine ⟨fun q => (h.down q).trans (k.down q), ?_⟩
  have ht := h.tells
  have kt := k.tells
  unfold LinkTells at *
  rw [kt, ht]
  constructor
  · rintro ((e | ⟨q, e⟩) | ⟨q, e⟩)
    · exact .inl e
    · refine .inr ⟨q, fun e' => e (PortState.rank_inj ?_)⟩
      have := h.down q
      have := k.down q
      rw [e'] at this
      omega
    · refine .inr ⟨q, fun e' => e (PortState.rank_inj ?_)⟩
      have h1 := h.down q
      have h2 := k.down q
      rw [e'] at h2 ⊢
      omega
  · rintro (e | ⟨q, e⟩)
    · exact .inl (.inl e)
    · by_cases e' : t.ports[q].state = s.ports[q].state
      · exact .inr ⟨q, fun e'' => e (e''.trans e')⟩
      · exact .inl (.inr ⟨q, e'⟩)

/-- An operation that raises no LINK and leaves the ports alone. -/
theorem Grows.falls {cs : List Cause} {s t : State} (h : Grows cs s t) (hl : Cause.link ∉ cs)
    (hp : t.ports = s.ports) : Falls s t :=
  .of_eq (fun q => by rw [hp]) ⟨fun k => (h.causes _ k).resolve_right hl, h.events.keeps⟩

/-- One port's record is replaced by one in the same state. -/
theorem setPort_falls {s : State} {p : Fin 4} {x : Port} (hx : x.state = s.ports[p].state) : Falls s (s.setPort p x) :=
  .of_eq (fun q => by
    simp only [setPort_frame]
    rw [set_get]
    split
    · subst_vars; exact hx
    · rfl) (by unfold isPending; simp only [setPort_frame])

/-- A port's state changes, and LINK is raised. -/
theorem raiseLink_tells {s : State} {p : Fin 4} {x : Port} (hx : x.state ≠ s.ports[p].state) :
    LinkTells s ((s.setPort p x).raise .link) := by
  refine ⟨fun _ => .inr ⟨p, ?_⟩, fun _ => raise_pending .link _⟩
  simp only [raise_frame, setPort_frame]
  rw [set_get, if_pos rfl]
  exact hx

/-- A port's state moves on, and LINK is raised. -/
theorem raiseLink_falls {s : State} {p : Fin 4} {x : Port} (hx : s.ports[p].state.rank < x.state.rank) :
    Falls s ((s.setPort p x).raise .link) := by
  refine ⟨fun q => ?_, raiseLink_tells fun e => by rw [e] at hx; omega⟩
  simp only [raise_frame, setPort_frame]
  rw [set_get]
  split
  · subst_vars; exact hx.le
  · exact le_refl _

theorem cutPort_falls {s : State} {p : Fin 4} {c : CutCause} (h : s.ports[p].state ≠ .cut) : Falls s (cutPort p c s) :=
  raiseLink_falls (by
    show _ < PortState.rank .cut
    cases e : s.ports[p].state <;> first | decide | exact absurd e h)

/-- Only a LIVE or DEGRADED port fails the stall test (R26). -/
theorem stallTest_falls (p : Fin 4) (s : State) : Falls s (stallTest p s) := by
  unfold stallTest
  split
  · split
    · refine cutPort_falls fun e => ?_
      rename_i h
      simp [-Fin.getElem_fin, stalled, stallLimit, e] at h
    · exact .of_eq (fun _ => rfl) .rfl
  · exact .of_eq (fun _ => rfl) .rfl

theorem stallTests_falls (s : State) : Falls s (stallTests s) := by
  simp only [stallTests, List.finRange_succ, List.finRange_zero, List.map, List.foldl]
  exact (stallTest_falls _ _).trans
    ((stallTest_falls _ _).trans ((stallTest_falls _ _).trans (stallTest_falls _ _)))

theorem storeFrame_falls (p : Fin 4) (tag : Nat) (xs : List (BitVec 32)) (s : State) :
    Falls s (storeFrame p tag xs s) := by
  have front : ∀ u : State, Falls u (setFrontier p tag u) := fun u => setPort_falls rfl
  have write : ∀ u v : State, v.ports = u.ports → v.events = u.events → Falls u v := fun u v hp he =>
    .of_eq (fun q => by rw [hp]) (by unfold isPending; rw [he])
  unfold storeFrame
  split
  · exact write _ _ rfl rfl
  · split
    · exact Falls.trans (t := writeFrame p tag xs s) (write _ _ (by simp) (by simp)) (front _)
    · rename_i w _ _
      refine Falls.trans (t := writeFrame p tag xs
        { s with store := { clearMarks (w + 1) tag s.store with newest := some (tag : Int) } })
        (write _ _ (by simp) (by simp)) ((front _).trans (Falls.trans ?_ (stallTests_falls _)))
      exact (pinTest_grows (List.mem_singleton_self Cause.bin) _).falls (by decide) (pinTest_frame _).2.2.2.2.1

theorem degradeTest_falls (p : Fin 4) (s : State) : Falls s (degradeTest p s) := by
  unfold degradeTest
  split
  · rename_i h
    exact (raiseLink_falls (by rw [h.1]; show 2 < 3; decide)).trans (stallTest_falls _ _)
  · exact .of_eq (fun _ => rfl) .rfl

theorem badFrame_falls {p : Fin 4} {s : State} (c : BadClass) (h : s.ports[p].counted = true) :
    Falls s (badFrame p c s) := by
  have hc : s.ports[p].state ≠ .cut := fun e => by simp [-Fin.getElem_fin, Port.counted, e] at h
  unfold badFrame
  dsimp only
  split
  · refine Falls.trans (setPort_falls ?_) (cutPort_falls ?_)
    · rfl
    · simp only [setPort_frame]
      rw [set_get, if_pos rfl]
      exact hc
  · refine Falls.trans (setPort_falls ?_) (degradeTest_falls _ _)
    rfl

theorem gapFrame_falls {p : Fin 4} {s : State} (tag : Nat) (xs : List (BitVec 32)) (h : s.ports[p].counted = true) :
    Falls s (gapFrame p tag xs s) := by
  have hc : s.ports[p].state ≠ .cut := fun e => by simp [-Fin.getElem_fin, Port.counted, e] at h
  unfold gapFrame
  dsimp only
  split
  · refine Falls.trans (setPort_falls ?_) (cutPort_falls ?_)
    · rfl
    · simp only [setPort_frame]
      rw [set_get, if_pos rfl]
      exact hc
  · have h1 := setPort_falls (s := s) (p := p)
      (x := { s.ports[p] with counts := { s.ports[p].counts with gap := satInc32 s.ports[p].counts.gap } }) rfl
    have h2 := h1.trans (storeFrame_falls p tag xs _)
    generalize storeFrame p tag xs _ = u at h2 ⊢
    refine h2.trans (Falls.trans (setPort_falls ?_) (degradeTest_falls _ _))
    rfl

theorem goodFrame_tells (p : Fin 4) (tag : Nat) (xs : List (BitVec 32)) (s : State) :
    LinkTells s (goodFrame p tag xs s) := by
  have h : Falls s (((storeFrame p tag xs s).setPort p
      { (storeFrame p tag xs s).ports[p] with errors := (storeFrame p tag xs s).ports[p].errors - 1 })) :=
    (storeFrame_falls p tag xs s).trans (setPort_falls rfl)
  have own : ((storeFrame p tag xs s).setPort p
      { (storeFrame p tag xs s).ports[p] with errors := (storeFrame p tag xs s).ports[p].errors - 1 }).ports[p].state =
      s.ports[p].state := by
    simp only [setPort_frame]
    rw [set_get, if_pos rfl]
    rcases storeFrame_own (s := s) (p := p) (tag := tag) (xs := xs) with e | e <;> rw [e]
  unfold goodFrame
  dsimp only
  generalize (storeFrame p tag xs s).setPort p _ = u at h own ⊢
  unfold recoverTest
  split
  · rename_i hd
    refine ⟨fun _ => .inr ⟨p, ?_⟩, fun _ => raise_pending .link _⟩
    simp only [raise_frame, setPort_frame]
    rw [set_get, if_pos rfl, ← own, hd.1]
    exact fun e => by cases e
  · exact h.tells

/-- After a frame at a LIVE or DEGRADED port LINK is pending if it was, or if some port's state has changed (R30). -/
theorem liveArrival_tells {p : Fin 4} {s : State} (bytes : List Byte) (h : s.ports[p].counted = true) :
    LinkTells s (liveArrival p bytes s) := by
  unfold liveArrival
  dsimp only
  split
  · exact (badFrame_falls _ h).tells
  · split
    · exact (badFrame_falls _ h).tells
    · split
      · exact (badFrame_falls _ h).tells
      · split
        · exact goodFrame_tells _ _ _ _
        · exact (gapFrame_falls _ _ h).tells

/-- The settled index and the arbiter have no part in it. -/
theorem LinkTells.settle {s t : State} (h : LinkTells s t) : LinkTells s (settleEvent t) := by
  have g := settleEvent_grows (List.mem_singleton_self Cause.bin) t
  have e : isPending .link (settleEvent t) ↔ isPending .link t :=
    ⟨fun k => (g.causes _ k).resolve_right (by decide), g.events.keeps⟩
  have hp : (settleEvent t).ports = t.ports := by simp [settleEvent]
  unfold LinkTells at *
  rw [e, h, hp]

end Sys2Proof.Machine
end

