-- ==== Sys2Proof/Laws/PerInstr.lean ====
section
/-! SUPPORT. A family of laws with one lemma for each command: the bit errors that a well-formed command carries are
errors (R166, log 3). -/

namespace Sys2Proof.Laws

/-- Every bit error that a well-formed command carries is a single-bit or an uncorrectable error. -/
def UpsetsAreErrors.Statement (i : Instr) : Prop := i.wellFormed = true → ∀ u ∈ i.upsets, u.kind ≠ .clean

/-- The check on a list of errors says what it should. -/
theorem upsets_are_errors {us : List Upset} (h : upsetsWellFormed us = true) (u : Upset) (hu : u ∈ us) :
    u.kind ≠ .clean := by
  have := List.all_eq_true.mp h u hu
  simpa using this

theorem UpsetsAreErrors.powerOnReset : Statement .powerOnReset := fun _ u hu => by cases hu

theorem UpsetsAreErrors.fullReset (value : Word) : Statement (.fullReset value) := fun _ u hu => by cases hu

theorem UpsetsAreErrors.workReset (value : Word) : Statement (.workReset value) := fun _ u hu => by cases hu

theorem UpsetsAreErrors.scanEnIntEnWrite (value : Word) : Statement (.scanEnIntEnWrite value) :=
  fun _ u hu => by cases hu

theorem UpsetsAreErrors.nudge (value : Word) : Statement (.nudge value) := fun _ u hu => by cases hu

theorem UpsetsAreErrors.windowBaseWrite (half : WordHalf) (value : Word) : Statement (.windowBaseWrite half value) :=
  fun _ u hu => by cases hu

theorem UpsetsAreErrors.windowSizeWrite (value : Word) (upsets : List Upset) :
    Statement (.windowSizeWrite value upsets) :=
  fun h u hu => upsets_are_errors h u hu

theorem UpsetsAreErrors.eventPendingWrite (value : Word) : Statement (.eventPendingWrite value) :=
  fun _ u hu => by cases hu

theorem UpsetsAreErrors.eventMaskWrite (value : Word) : Statement (.eventMaskWrite value) := fun _ u hu => by cases hu

theorem UpsetsAreErrors.registerWriteIgnored (offset width value : Nat) :
    Statement (.registerWriteIgnored offset width value) :=
  fun _ u hu => by cases hu

theorem UpsetsAreErrors.scrubComplete : Statement .scrubComplete := fun _ u hu => by cases hu

theorem UpsetsAreErrors.scanTimerExpiry : Statement .scanTimerExpiry := fun _ u hu => by cases hu

theorem UpsetsAreErrors.frameArrival (port : Fin 4) (bytes : List Byte) (upsets : List Upset) :
    Statement (.frameArrival port bytes upsets) :=
  fun h u hu => upsets_are_errors h u hu

theorem UpsetsAreErrors.carrierLoss (port : Fin 4) (upsets : List Upset) : Statement (.carrierLoss port upsets) :=
  fun h u hu => upsets_are_errors h u hu

theorem UpsetsAreErrors.carrierPresent (port : Fin 4) : Statement (.carrierPresent port) := fun _ u hu => by cases hu

theorem UpsetsAreErrors.pilotSampleRead (upsets : List Upset) : Statement (.pilotSampleRead upsets) :=
  fun h u hu => upsets_are_errors h u hu

theorem UpsetsAreErrors.rawSampleRead (upsets : List Upset) : Statement (.rawSampleRead upsets) :=
  fun h u hu => upsets_are_errors h u hu

theorem UpsetsAreErrors.computeEnd : Statement .computeEnd := fun _ u hu => by cases hu

theorem UpsetsAreErrors.traceApply (upsets : List Upset) : Statement (.traceApply upsets) :=
  fun h u hu => upsets_are_errors h u hu

theorem UpsetsAreErrors.burstHandedOver : Statement .burstHandedOver := fun _ u hu => by cases hu

theorem UpsetsAreErrors.readCompletionTimeout (requester : Requester) (received : List Byte) :
    Statement (.readCompletionTimeout requester received) :=
  fun _ u hu => by cases hu

theorem UpsetsAreErrors.hostPostReadDone (post : Byte) : Statement (.hostPostReadDone post) :=
  fun _ u hu => by cases hu

theorem UpsetsAreErrors.bodyReadDone (body : List Byte) : Statement (.bodyReadDone body) := fun _ u hu => by cases hu

theorem UpsetsAreErrors.tornRead (cause : TornCause) : Statement (.tornRead cause) := fun _ u hu => by cases hu

theorem UpsetsAreErrors.baselinePostRecheckDone (post : Byte) : Statement (.baselinePostRecheckDone post) :=
  fun _ u hu => by cases hu

theorem UpsetsAreErrors.badKind (post : Byte) : Statement (.badKind post) := fun _ u hu => by cases hu

theorem UpsetsAreErrors.configure (post : Byte) : Statement (.configure post) := fun _ u hu => by cases hu

theorem UpsetsAreErrors.endRecording (post : Byte) : Statement (.endRecording post) := fun _ u hu => by cases hu

theorem UpsetsAreErrors.loadPilot (post : Byte) : Statement (.loadPilot post) := fun _ u hu => by cases hu

theorem UpsetsAreErrors.dropPilot (post : Byte) : Statement (.dropPilot post) := fun _ u hu => by cases hu

theorem UpsetsAreErrors.sweep (post : Byte) (upsets : List Upset) : Statement (.sweep post upsets) :=
  fun h u hu => upsets_are_errors (Bool.and_eq_true_iff.mp h).2 u hu

theorem UpsetsAreErrors.cancel (post : Byte) (upsets : List Upset) : Statement (.cancel post upsets) :=
  fun h u hu => upsets_are_errors (Bool.and_eq_true_iff.mp h).2 u hu

theorem UpsetsAreErrors.fleetOrder (post : Byte) (upsets : List Upset) : Statement (.fleetOrder post upsets) :=
  fun h u hu => upsets_are_errors (Bool.and_eq_true_iff.mp h).2 u hu

theorem UpsetsAreErrors.openBin (post : Byte) : Statement (.openBin post) := fun _ u hu => by cases hu

theorem UpsetsAreErrors.closeBin (post : Byte) (upsets : List Upset) : Statement (.closeBin post upsets) :=
  fun h u hu => upsets_are_errors (Bool.and_eq_true_iff.mp h).2 u hu

theorem UpsetsAreErrors.discardBin (post : Byte) : Statement (.discardBin post) := fun _ u hu => by cases hu

theorem UpsetsAreErrors.answerFirstWriteDone : Statement .answerFirstWriteDone := fun _ u hu => by cases hu

theorem UpsetsAreErrors.answerSecondWriteDone : Statement .answerSecondWriteDone := fun _ u hu => by cases hu

theorem UpsetsAreErrors.answerWriteFault : Statement .answerWriteFault := fun _ u hu => by cases hu

theorem UpsetsAreErrors.statusPageWriteDone : Statement .statusPageWriteDone := fun _ u hu => by cases hu

theorem UpsetsAreErrors.statusPageWriteFault : Statement .statusPageWriteFault := fun _ u hu => by cases hu

theorem UpsetsAreErrors.exportBurstDone (upsets : List Upset) : Statement (.exportBurstDone upsets) :=
  fun h u hu => upsets_are_errors h u hu

theorem UpsetsAreErrors.exportBurstFault (upsets : List Upset) : Statement (.exportBurstFault upsets) :=
  fun h u hu => upsets_are_errors h u hu

theorem UpsetsAreErrors.pilotBurstDone (data : List Byte) : Statement (.pilotBurstDone data) :=
  fun _ u hu => by cases hu

theorem UpsetsAreErrors.pilotBurstFault (received : List Byte) : Statement (.pilotBurstFault received) :=
  fun _ u hu => by cases hu

end Sys2Proof.Laws
end

