-- ==== Sys2Proof/Laws/StackMoves.lean ====
section
/-! SUPPORT. Everything that the Stack Unit can do, said once: the moves of its bins, of the export queue and of the
writer. Every shared operation is a sequence of them; only OPEN_BIN adds a record. -/

namespace Sys2Proof.Machine

/-- One move of the Stack Unit. A premise `Q → _` says what holds when the queue was lawful at the start. -/
inductive StackMove (Q : Prop) : StackUnit → StackUnit → Prop
  | record (a : StackUnit) (b : Fin 8) (q r : BinRecord) (hq : a.bins[b].record = some q)
      (hk : r.key = q.key) (hm : r.mask = q.mask) (hp : r.phase = q.phase) :
      StackMove Q a { a with bins := a.bins.set b { a.bins[b] with record := some r } }
  | drain (a : StackUnit) (b : Fin 8) (q r : BinRecord) (hq : a.bins[b].record = some q)
      (hk : r.key = q.key) (hm : r.mask = q.mask) (ho : q.phase = .opened) (hp : r.phase = .draining) :
      StackMove Q a { a with bins := a.bins.set b { a.bins[b] with record := some r } }
  | enter (a : StackUnit) (b : Fin 8) (q r : BinRecord) (hq : a.bins[b].record = some q)
      (hk : r.key = q.key) (hm : r.mask = q.mask) (ho : q.phase ≠ .exporting) (hp : r.phase = .exporting) :
      StackMove Q a
        { a with bins := a.bins.set b { a.bins[b] with record := some r }, exportQueue := a.exportQueue ++ [b] }
  | write (a : StackUnit) (w : Writer) (hw : Q → a.exportQueue.head? = some w.bin) :
      StackMove Q a { a with writer := some w }
  | hold (a : StackUnit) (b : Fin 8) (q : BinRecord) (offset : Nat) (rest : List (Fin 8))
      (hq : a.bins[b].record = some q) (hr : Q → a.exportQueue = b :: rest) :
      StackMove Q a
        { bins :=
            a.bins.set b
              { record := some { q with phase := .held }, lastExport := .writeFault, heldFaultOffset := offset }
          exportQueue := rest, writer := none }
  | succeed (a : StackUnit) (b : Fin 8) (rest : List (Fin 8)) (hr : Q → a.exportQueue = b :: rest) :
      StackMove Q a
        { bins := a.bins.set b { record := none, lastExport := .done, heldFaultOffset := 0 }
          exportQueue := rest, writer := none }
  | discard (a : StackUnit) (b : Fin 8) (q : BinRecord) (hq : a.bins[b].record = some q) (hp : q.phase ≠ .exporting) :
      StackMove Q a { a with bins := a.bins.set b { a.bins[b] with record := none } }
  | reset (a : StackUnit) : StackMove Q a .reset

variable {Q : Prop}

/-- Any number of moves. -/
abbrev StackMoves (Q : Prop) := Relation.ReflTransGen (StackMove Q)

theorem StackMoves.one {a b : StackUnit} (h : StackMove Q a b) : StackMoves Q a b := .single h

/-! ## What the moves keep -/

theorem keys_set {v : Vector Bin 8} {b i : Fin 8} {q r' r : BinRecord} (hq : v[b].record = some q)
    (hk : r'.key = q.key) (hm : r'.mask = q.mask) (hr : (v.set b { v[b] with record := some r' })[i].record = some r) :
    ∃ q, v[i].record = some q ∧ r.key = q.key ∧ r.mask = q.mask := by
  simp only [set_get] at hr
  split at hr
  · rename_i e
    subst e
    cases hr
    exact ⟨q, hq, hk, hm⟩
  · exact ⟨r, hr, rfl, rfl⟩

/-- The records of `b` are records of `a` at the same bins, with the same key sets. -/
theorem StackMove.keys {a b : StackUnit} (h : StackMove Q a b) (i : Fin 8) (r : BinRecord)
    (hr : b.bins[i].record = some r) :
    ∃ q, a.bins[i].record = some q ∧ r.key = q.key ∧ r.mask = q.mask := by
  cases h with
  | record b q r' hq hk hm hp => exact keys_set hq hk hm hr
  | drain b q r' hq hk hm ho hp => exact keys_set hq hk hm hr
  | enter b q r' hq hk hm ho hp => exact keys_set hq hk hm hr
  | write w hw => exact ⟨r, hr, rfl, rfl⟩
  | hold b q offset rest hq hr' =>
    simp only [set_get] at hr
    split at hr
    · rename_i e
      subst e
      cases hr
      exact ⟨q, hq, rfl, rfl⟩
    · exact ⟨r, hr, rfl, rfl⟩
  | succeed b rest hr' =>
    simp only [set_get] at hr
    split at hr
    · cases hr
    · exact ⟨r, hr, rfl, rfl⟩
  | discard b q hq hp =>
    simp only [set_get] at hr
    split at hr
    · cases hr
    · exact ⟨r, hr, rfl, rfl⟩
  | reset =>
    have h : (StackUnit.reset.bins[i]).record = none := by
      clear hr
      revert i
      decide
    rw [h] at hr
    cases hr

theorem StackMoves.keys {a b : StackUnit} (h : StackMoves Q a b) (i : Fin 8) (r : BinRecord)
    (hr : b.bins[i].record = some r) :
    ∃ q, a.bins[i].record = some q ∧ r.key = q.key ∧ r.mask = q.mask := by
  induction h generalizing r with
  | refl => exact ⟨r, hr, rfl, rfl⟩
  | tail _ h ih =>
    obtain ⟨q, hq, e1, e2⟩ := h.keys i r hr
    obtain ⟨p, hp, e3, e4⟩ := ih q hq
    exact ⟨p, hp, e1.trans e3, e2.trans e4⟩

/-- A FREE bin stays FREE. -/
theorem StackMoves.free {a b : StackUnit} (h : StackMoves Q a b) (i : Fin 8) (hf : a.bins[i].record = none) :
    b.bins[i].record = none := by
  rcases hb : b.bins[i].record with _ | r
  · rfl
  · obtain ⟨q, hq, -⟩ := h.keys i r hb
    rw [hf] at hq
    cases hq

/-- Key sets that do not overlap stay so. -/
theorem StackMoves.disjoint {s t : State} (h : StackMoves Q s.stack t.stack) (hs : BinsDisjoint s) : BinsDisjoint t := by
  intro b c r q hbc hr hq
  obtain ⟨r', hr', e1, e2⟩ := h.keys b r hr
  obtain ⟨q', hq', e3, e4⟩ := h.keys c q hq
  rw [e1, e2, e3, e4]
  exact hs b c r' q' hbc hr' hq'

theorem reset_queueLawful : QueueLawful .reset := by
  refine ⟨List.nodup_nil, ?_, fun w h => by cases h⟩
  intro b
  have h : (StackUnit.reset.bins[b]).record = none := by revert b; decide
  refine ⟨fun hb => by simp [StackUnit.reset] at hb, ?_⟩
  rintro ⟨r, hr, -⟩
  rw [h] at hr
  cases hr

/-- A record that keeps its phase keeps the queue lawful. -/
theorem QueueLawful.rerecord {a : StackUnit} (h : QueueLawful a) {b : Fin 8} {q r : BinRecord}
    (hq : a.bins[b].record = some q) (hp : r.phase = .exporting ↔ q.phase = .exporting) :
    QueueLawful { a with bins := a.bins.set b { a.bins[b] with record := some r } } := by
  refine ⟨h.nodup, fun c => ?_, h.head⟩
  simp only [set_get, h.exporting c]
  by_cases hbc : b = c
  · subst hbc
    simp only [↓reduceIte]
    exact ⟨fun ⟨x, hx, he⟩ => ⟨r, rfl, hp.mpr (by rw [hq] at hx; cases hx; exact he)⟩,
      fun ⟨x, hx, he⟩ => ⟨q, hq, hp.mp (by cases hx; exact he)⟩⟩
  · simp only [if_neg hbc]

/-- Taking the head of a lawful queue away, its bin no longer EXPORTING. -/
theorem QueueLawful.behead {a : StackUnit} (h : QueueLawful a) {b : Fin 8} {rest : List (Fin 8)} {x : Bin}
    (hr : a.exportQueue = b :: rest) (hx : ∀ r, x.record = some r → r.phase ≠ .exporting) :
    QueueLawful { bins := a.bins.set b x, exportQueue := rest, writer := none } := by
  have hn := h.nodup
  rw [hr, List.nodup_cons] at hn
  refine ⟨hn.2, fun c => ?_, fun w hw => by cases hw⟩
  have hc := h.exporting c
  rw [hr, List.mem_cons] at hc
  simp only [set_get]
  by_cases hbc : b = c
  · subst hbc
    simp only [↓reduceIte]
    exact ⟨fun hm => absurd hm hn.1, fun ⟨r, h1, h2⟩ => absurd h2 (hx r h1)⟩
  · simp only [if_neg hbc, ← hc]
    exact ⟨.inr, fun hm => hm.resolve_left (Ne.symm hbc)⟩

/-- Every move keeps the queue lawful. -/
theorem StackMove.queue {a b : StackUnit} (h : StackMove Q a b) (hQ : Q) (ha : QueueLawful a) : QueueLawful b := by
  cases h with
  | record b q r hq hk hm hp => exact ha.rerecord hq (by rw [hp])
  | drain b q r hq hk hm ho hp => exact ha.rerecord hq (by simp [ho, hp])
  | enter b q r hq hk hm ho hp =>
    have hb : b ∉ a.exportQueue := fun hm => by
      obtain ⟨x, hx, he⟩ := (ha.exporting b).mp hm
      rw [hq] at hx
      cases hx
      exact ho he
    refine ⟨?_, fun c => ?_, fun w hw => ?_⟩
    · exact List.nodup_append.mpr ⟨ha.nodup, by simp, by intro x hx y hy; simp at hy; subst hy; rintro rfl; exact hb hx⟩
    · simp only [set_get, List.mem_append, List.mem_singleton]
      by_cases hbc : b = c
      · subst hbc
        simp only [↓reduceIte, or_true, true_iff]
        exact ⟨r, rfl, hp⟩
      · simp only [if_neg hbc, ha.exporting c, Ne.symm hbc, or_false]
    · have := ha.head w hw
      simp only [List.head?_append]
      rw [this]
      rfl
  | write w hw => exact ⟨ha.nodup, ha.exporting, fun w' h' => by cases h'; exact hw hQ⟩
  | hold b q offset rest hq hr => exact ha.behead (hr hQ) (fun r h => by cases h; simp)
  | succeed b rest hr => exact ha.behead (hr hQ) (fun r h => by cases h)
  | discard b q hq hp =>
    refine ⟨ha.nodup, fun c => ?_, ha.head⟩
    simp only [set_get, ha.exporting c]
    by_cases hbc : b = c
    · subst hbc
      simp only [↓reduceIte]
      exact ⟨fun ⟨x, hx, he⟩ => absurd he (by rw [hq] at hx; cases hx; exact hp), fun ⟨x, hx, _⟩ => by cases hx⟩
    · simp only [if_neg hbc]
  | reset => exact reset_queueLawful

theorem StackMoves.queue {a b : StackUnit} (h : StackMoves Q a b) (hQ : Q) (ha : QueueLawful a) : QueueLawful b := by
  induction h with
  | refl => exact ha
  | tail _ h ih => exact h.queue hQ ih

/-! ## The operations -/

theorem BinRecord.poison_keeps (r : BinRecord) (i : Nat) :
    (r.poison i).key = r.key ∧ (r.poison i).mask = r.mask ∧ (r.poison i).phase = r.phase ∧
      (r.poison i).pendingJobs = r.pendingJobs := by
  unfold BinRecord.poison
  dsimp only
  split <;> simp [BinRecord.withChannel]

/-- Replacing the record of a bin by one that keeps the key set and the phase. -/
theorem setBinRecord_moves {s : State} {b : Fin 8} {q r : BinRecord} (hq : s.stack.bins[b].record = some q)
    (hk : r.key = q.key) (hm : r.mask = q.mask) (hp : r.phase = q.phase) :
    StackMoves Q s.stack (s.setBinRecord b (some r)).stack := .one (.record s.stack b q r hq hk hm hp)

theorem formSamples_moves {s : State} {b : Fin 8} {r : BinRecord} (i : Nat) (hr : s.stack.bins[b].record = some r) :
    StackMoves Q s.stack (formSamples b r i s).1.stack := by
  unfold formSamples
  dsimp only
  split
  · exact .refl
  · split
    · rename_i h
      have := congrArg (fun x => x.1.stack) h
      simp only [readAccs_frame] at this
      rw [← this]
    · rename_i h
      have := congrArg (fun x => x.1.stack) h
      simp only [readAccs_frame] at this
      have hp := r.poison_keeps i
      simp only [countPoison_frame]
      rw [this] at hr ⊢
      exact setBinRecord_moves hr hp.1 hp.2.1 hp.2.2.1

theorem formUntil_moves (n need : Nat) (w : Writer) (s : State) :
    StackMoves Q s.stack (formUntil n need w s).1.stack ∧ (formUntil n need w s).2.bin = w.bin := by
  induction n generalizing w s with
  | zero => exact ⟨.refl, rfl⟩
  | succ n ih =>
    unfold formUntil
    split
    · exact ⟨.refl, rfl⟩
    · rename_i r hr
      split
      · exact ⟨.refl, rfl⟩
      · have h := ih (formNext r w s).2 (formNext r w s).1
        exact ⟨(formSamples_moves (s := s) w.nextChannel hr).trans h.1, h.2⟩

/-- The writer moves on with a burst of the bin at the head of the queue. -/
theorem postExportBurst_moves (w : Writer) (s : State) (hw : Q → s.stack.exportQueue.head? = some w.bin) :
    StackMoves Q s.stack (postExportBurst w s).stack := by
  unfold postExportBurst
  split
  · exact .refl
  · rename_i r hr
    have h := formUntil_moves (Q := Q) r.channelCount (burstLength (r.exportOffset + w.written) r.exportStop) w s
    refine h.1.tail (.write _ _ fun hq => ?_)
    exact (congrArg List.head? (by simp)).trans ((hw hq).trans (congrArg some h.2.symm))

/-- The head of the queue is HELD with a fault. -/
theorem holdHead_moves {b : Fin 8} {r : BinRecord} (offset : Nat) {rest : List (Fin 8)} {s : State}
    (hr : s.stack.bins[b].record = some r) (hq : Q → s.stack.exportQueue = b :: rest) :
    StackMoves Q s.stack (holdHead b r offset rest s).stack := .one (.hold s.stack b r offset rest hr hq)

theorem beginExport_moves (n : Nat) (s : State) : StackMoves Q s.stack (beginExport n s).stack := by
  induction n generalizing s with
  | zero => exact .refl
  | succ n ih =>
    unfold beginExport
    split
    · exact .refl
    · rename_i b rest hq
      split
      · exact .refl
      · split
        · exact .refl
        · rename_i r hr
          split
          · exact postExportBurst_moves _ _ fun _ => by rw [hq]; rfl
          · exact (holdHead_moves _ hr fun _ => hq).trans (ih _)

/-- A bin that is not EXPORTING joins the queue. -/
theorem enterExporting_moves {b : Fin 8} {q r : BinRecord} {s : State} (hq : s.stack.bins[b].record = some q)
    (hk : r.key = q.key) (hm : r.mask = q.mask) (ho : q.phase ≠ .exporting) :
    StackMoves Q s.stack (enterExporting b r s).stack := by
  have h := StackMoves.one (Q := Q) (.enter s.stack b q { r with phase := .exporting } hq hk hm ho rfl)
  unfold enterExporting
  dsimp only
  split
  · have h' := beginExport_moves (Q := Q) (s.stack.exportQueue ++ [b]).length
      { s.setBinRecord b (some { r with phase := .exporting }) with
        stack :=
          { (s.setBinRecord b (some { r with phase := .exporting })).stack with
            exportQueue := s.stack.exportQueue ++ [b] } }
    exact Relation.ReflTransGen.trans h h'
  · exact h

theorem drainTest_moves (b : Fin 8) (s : State) : StackMoves Q s.stack (drainTest b s).stack := by
  unfold drainTest
  split
  · rename_i r hr
    split
    · rename_i h
      exact enterExporting_moves hr rfl rfl (by simp [h.1])
    · exact .refl
  · exact .refl

theorem dropJob_moves (i : Fin 32) (j : Job) (o : OrderOutcome) (x : Reason) (s : State) :
    StackMoves Q s.stack (dropJob i j o x s).stack := by
  have e : (dropJob i j o x s).stack =
      { s.stack with bins := s.stack.bins.set j.bin (releasePending s.stack.bins[j.bin]) } := rfl
  rw [e]
  rcases h : s.stack.bins[j.bin].record with _ | r
  · have : releasePending s.stack.bins[j.bin] = s.stack.bins[j.bin] := by
      generalize s.stack.bins[j.bin] = x at h
      obtain ⟨x, _, _⟩ := x
      cases h
      rfl
    rw [this]
    simp only [Fin.getElem_fin, Vector.set_getElem_self]
    exact .refl
  · have := StackMoves.one (Q := Q) (.record s.stack j.bin r { r with pendingJobs := r.pendingJobs - 1 } h rfl rfl rfl)
    simpa [releasePending, h, -Fin.getElem_fin] using this

theorem endJob_moves (i : Fin 32) (o : OrderOutcome) (x : Reason) (s : State) :
    StackMoves Q s.stack (endJob i o x s).stack := by
  unfold endJob
  split
  · exact (dropJob_moves _ _ _ _ _).trans (drainTest_moves _ _)
  · exact .refl

theorem arbitrateLoop_moves (n : Nat) (s : State) : StackMoves Q s.stack (arbitrateLoop n s).stack := by
  induction n generalizing s with
  | zero => exact .refl
  | succ n ih =>
    unfold arbitrateLoop
    split
    · exact .refl
    · split
      · exact .refl
      · split
        · split
          · exact (endJob_moves _ _ _ _).trans (ih _)
          · split
            · exact (endJob_moves _ _ _ _).trans (ih _)
            · exact .refl
        · exact .refl

theorem arbitrate_moves (s : State) : StackMoves Q s.stack (arbitrate s).stack := by
  unfold arbitrate
  split
  · exact arbitrateLoop_moves _ _
  · exact .refl

theorem settleJob_moves (i : Fin 32) (j : Job) (kind : PassEnd) (s : State) :
    StackMoves Q s.stack (settleJob i j kind s).stack := by
  unfold settleJob
  split
  · dsimp only
    split
    · exact endJob_moves _ _ _ (s.setJob i (some (countBlock j)))
    · split
      · exact .refl
      · exact endJob_moves _ _ _ (s.setJob i (some (countBlock j)))
  · split <;> exact endJob_moves _ _ _ _
  · split <;> exact endJob_moves _ _ _ _

theorem endPass_moves (kind : PassEnd) (s : State) : StackMoves Q s.stack (endPass kind s).stack := by
  unfold endPass
  split
  · exact .refl
  · dsimp only
    split
    · exact .refl
    · rename_i i _ _ j _
      have := settleJob_moves (Q := Q) i j kind (turnList j.fleet { s with engine := .noPass })
      simpa using this

theorem pinTest_moves (s : State) : StackMoves Q s.stack (pinTest s).stack := by
  unfold pinTest
  split
  · split
    · exact endPass_moves _ { s with store := { s.store with pin := none } }
    · exact .refl
  · exact .refl

theorem storeFrame_moves (p : Fin 4) (tag : Nat) (xs : List (BitVec 32)) (s : State) :
    StackMoves Q s.stack (storeFrame p tag xs s).stack := by
  unfold storeFrame
  split
  · exact .refl
  · rename_i w _
    split
    · simp
      exact .refl
    · dsimp only
      have h := pinTest_moves (Q := Q)
        (setFrontier p tag
          (writeFrame p tag xs
            { s with store := { clearMarks (w + 1) tag s.store with newest := some (tag : Int) } }))
      simpa using h

theorem settleEvent_moves (s : State) : StackMoves Q s.stack (settleEvent s).stack := by
  have h := arbitrate_moves (Q := Q) (recomputeSettled s)
  simpa [settleEvent] using h

theorem gapFrame_moves (p : Fin 4) (tag : Nat) (xs : List (BitVec 32)) (s : State) :
    StackMoves Q s.stack (gapFrame p tag xs s).stack := by
  unfold gapFrame
  dsimp only
  split
  · simp
    exact .refl
  · have h := storeFrame_moves (Q := Q) p tag xs
      (s.setPort p { s.ports[p] with counts := { s.ports[p].counts with gap := satInc32 s.ports[p].counts.gap } })
    simpa using h

theorem goodFrame_moves (p : Fin 4) (tag : Nat) (xs : List (BitVec 32)) (s : State) :
    StackMoves Q s.stack (goodFrame p tag xs s).stack := by
  have h := storeFrame_moves (Q := Q) p tag xs s
  simpa [goodFrame] using h

theorem liveArrival_moves (p : Fin 4) (bytes : List Byte) (s : State) :
    StackMoves Q s.stack (liveArrival p bytes s).stack := by
  unfold liveArrival
  dsimp only
  split
  · simp
    exact .refl
  · split
    · simp
      exact .refl
    · split
      · simp
        exact .refl
      · split
        · exact goodFrame_moves _ _ _ _
        · exact gapFrame_moves _ _ _ _

theorem joinPort_moves (p : Fin 4) (tag : Nat) (xs : List (BitVec 32)) (s : State) :
    StackMoves Q s.stack (joinPort p tag xs s).stack := by
  have h := storeFrame_moves (Q := Q) p tag xs
    ((s.setPort p { s.ports[p] with state := .live, errors := 0, syncRun := 0, syncTag := none }).raise .link)
  unfold joinPort
  dsimp only
  split <;> simpa using h

theorem syncArrival_moves (p : Fin 4) (bytes : List Byte) (s : State) :
    StackMoves Q s.stack (syncArrival p bytes s).stack := by
  unfold syncArrival
  dsimp only
  split
  · simp
    exact .refl
  · split
    · simp
      exact .refl
    · split
      · simp
        exact .refl
      · split
        · simp
          exact .refl
        · exact (joinPort_moves _ _ _ _).trans (settleEvent_moves _)

/-- An arrival of any frame at any port. -/
theorem arrival_moves (p : Fin 4) (bytes : List Byte) (s : State) :
    StackMoves Q s.stack (arrival p bytes s).stack := by
  unfold arrival
  split
  · exact .refl
  · exact syncArrival_moves _ _ _
  · exact (liveArrival_moves _ _ _).trans (settleEvent_moves _)
  · exact (liveArrival_moves _ _ _).trans (settleEvent_moves _)
  · simp
    exact .refl

theorem readPilotSample_moves (r : PassRecord) (pilot : List Int) (finished : List (List (Option Int)))
    (reading : List (Option Int)) (s : State) :
    StackMoves Q s.stack (readPilotSample r pilot finished reading s).stack := by
  unfold readPilotSample
  split
  · rename_i h
    have := congrArg (fun x => x.1.stack) h
    simp only [readPilot_frame] at this
    rw [← this]
  · rename_i t h
    have := congrArg (fun x => x.1.stack) h
    simp only [readPilot_frame] at this
    rw [this]
    have h1 := endPass_moves (Q := Q) .pilotDamaged
      { damagePilot r.pilot t with store := { (damagePilot r.pilot t).store with pin := none } }
    have h2 := h1.trans (arbitrate_moves _)
    simpa [abandonDamaged] using h2

theorem autoDrain_moves (b : Fin 8) (s : State) : StackMoves Q s.stack (autoDrain b s).stack := by
  unfold autoDrain
  split
  · rename_i r hr
    split
    · rename_i h
      exact Relation.ReflTransGen.head (.drain s.stack b r { r with phase := .draining } hr rfl rfl h.1 rfl)
        (drainTest_moves b (s.setBinRecord b (some { r with phase := .draining })))
    · exact .refl
  · exact .refl

/-- A channel record of a bin is replaced. -/
theorem withChannel_moves {b : Fin 8} {r : BinRecord} (n : Nat) (c : ChannelRecord) {s : State}
    (hr : s.stack.bins[b].record = some r) :
    StackMoves Q s.stack (s.setBinRecord b (some (r.withChannel n c))).stack := setBinRecord_moves hr rfl rfl rfl

theorem acceptTrace_moves {i : Fin 32} {b : Fin 8} {q r : BinRecord} (n : Nat) (t : Trace) {s : State}
    (hq : s.stack.bins[b].record = some q) (hk : r.key = q.key) (hm : r.mask = q.mask) (hp : r.phase = q.phase) :
    StackMoves Q s.stack (acceptTrace i b r n t s).stack := by
  unfold acceptTrace
  dsimp only
  split
  · rename_i u values h
    have e := congrArg (fun x => x.1.stack) h
    simp only [readAccs_frame] at e
    refine Relation.ReflTransGen.trans ?_ (autoDrain_moves _ _)
    simp only [countInJob_frame]
    rw [e] at hq ⊢
    split
    · exact setBinRecord_moves (s := { u with dram := _ }) hq hk hm hp
    · exact setBinRecord_moves (s := { u with dram := _ }) hq hk hm hp
  · rename_i u h
    have e := congrArg (fun x => x.1.stack) h
    simp only [readAccs_frame] at e
    refine Relation.ReflTransGen.trans ?_ (autoDrain_moves _ _)
    simp only [countInJob_frame, countPoison_frame]
    rw [e] at hq ⊢
    have hpo := (r.withChannel n (countChannel .surplus (r.channel n))).poison_keeps n
    exact setBinRecord_moves hq (hpo.1.trans hk) (hpo.2.1.trans hm) (hpo.2.2.1.trans hp)

/-- A trace of the block is applied, whatever becomes of it. -/
theorem applyTrace_moves {i : Fin 32} {b : Fin 8} {r : BinRecord} (t : Trace) {s : State}
    (hr : s.stack.bins[b].record = some r) : StackMoves Q s.stack (applyTrace i b r t s).stack := by
  unfold applyTrace
  dsimp only
  split
  · exact acceptTrace_moves _ _ hr rfl rfl rfl
  · split
    · simp only [raise_frame, countInJob_frame]
      exact withChannel_moves _ _ hr
    · simp only [countInJob_frame]
      exact withChannel_moves _ _ hr
  · simp only [countInJob_frame]
    exact withChannel_moves _ _ hr
  · simp only [countInJob_frame]
    exact withChannel_moves _ _ hr
  · simp only [countInJob_frame]
    exact withChannel_moves _ _ hr

theorem afterTrace_moves (p : PassRecord) (rest : List Trace) (s : State) :
    StackMoves Q s.stack (afterTrace p rest s).stack := by
  unfold afterTrace
  split
  · exact (endPass_moves _ _).trans (arbitrate_moves _)
  · exact .refl

/-! ## The export writer's bursts -/

/-- The writer of a lawful queue works on the bin at its head. -/
theorem QueueLawful.writerHead {a : StackUnit} (h : QueueLawful a) {w : Writer} (hw : a.writer = some w) :
    a.exportQueue = w.bin :: a.exportQueue.drop 1 := by
  have := h.head w hw
  cases hq : a.exportQueue with
  | nil => simp [hq] at this
  | cons b rest => simp [hq] at this; simp [this]

theorem exportBurstCompleted_moves (b : Burst) (s : State) (hs : Q → QueueLawful s.stack) :
    StackMoves Q s.stack (exportBurstCompleted b s).stack := by
  unfold exportBurstCompleted
  split
  · simp
    exact .refl
  · rename_i w hw
    dsimp only
    split
    · exact .refl
    · rename_i r hr
      split
      · exact Relation.ReflTransGen.head
          (.succeed s.stack w.bin (s.stack.exportQueue.drop 1) fun q => (hs q).writerHead hw)
          (beginExport_moves _
            (freeExported { w with written := w.written + b.length } r (s.setSlot .exporter .empty)))
      · exact postExportBurst_moves { w with written := w.written + b.length } (s.setSlot .exporter .empty)
          fun q => (hs q).head w hw

theorem exportBurstFailed_moves (b : Burst) (s : State) (hs : Q → QueueLawful s.stack) :
    StackMoves Q s.stack (exportBurstFailed b s).stack := by
  unfold exportBurstFailed
  split
  · simp
    exact .refl
  · rename_i w hw
    dsimp only
    split
    · simp
      exact .refl
    · rename_i r hr
      have hr' : s.stack.bins[w.bin].record = some r := by simpa [-Fin.getElem_fin] using hr
      have h := StackMoves.one (Q := Q)
        (.hold s.stack w.bin r b.offset (s.stack.exportQueue.drop 1) hr' fun q => (hs q).writerHead hw)
      refine Relation.ReflTransGen.trans ?_ (beginExport_moves _ _)
      simpa [holdHead, -Fin.getElem_fin] using h

/-! ## The orders -/

theorem closeBinAt_moves {b : Fin 8} {q r : BinRecord} {s : State} (hq : s.stack.bins[b].record = some q)
    (hk : r.key = q.key) (hm : r.mask = q.mask) (hp : r.phase = q.phase) :
    StackMoves Q s.stack (closeBinAt b r s).stack := by
  unfold closeBinAt
  split
  · rename_i h
    exact Relation.ReflTransGen.head (.drain s.stack b q { r with phase := .draining } hq hk hm (hp ▸ h) rfl)
      (drainTest_moves b (s.setBinRecord b (some { r with phase := .draining })))
  · exact setBinRecord_moves hq hk hm hp
  · rename_i h
    exact enterExporting_moves hq hk hm (by rw [← hp, h]; decide)
  · exact .refl

theorem freeBin_moves {b : Fin 8} {r : BinRecord} {s : State} (hr : s.stack.bins[b].record = some r)
    (hp : r.phase ≠ .exporting) : StackMoves Q s.stack (freeBin b r s).stack := .one (.discard s.stack b r hr hp)

theorem cancelJob_moves (b : Fin 64) (s : State) : StackMoves Q s.stack (cancelJob b s).1.stack := by
  unfold cancelJob
  split
  · exact .refl
  · split
    · exact .refl
    · split
      · exact .refl
      · exact endJob_moves _ _ _ _

theorem enterJob_moves {i : Fin 32} {j : Job} {e : PilotEntry} {r : BinRecord} {s : State}
    (hr : s.stack.bins[j.bin].record = some r) : StackMoves Q s.stack (enterJob i j e r s).stack :=
  .one (.record s.stack j.bin r { r with pendingJobs := r.pendingJobs + 1 } hr rfl rfl rfl)

end Sys2Proof.Machine
end

