-- ==== Sys2Proof/Tests/Slice0.lean ====
section
/-! SUPPORT. Tests: the checks on operands, worked examples of the spec, single commands on small states, and for each
statement a concrete case that meets its hypotheses. Expected results are the spec's, or worked out by hand from it. -/

set_option maxRecDepth 8000

namespace Sys2Proof.Tests

open Sys2Proof.Machine

/-! ## Small states -/

/-- What a command leaves. -/
def after (c : Instr) (s : State) : State :=
  match exec c s with
  | .next t => t
  | _ => s

/-- IDLE with a valid window of 1 MiB at 0x00100000 and both enables set. -/
def idle : State :=
  { State.reset with
    device := .idle
    regs := { scanEn := true, intEn := true, baseLow := 0x00100000, baseHigh := 0, size := 20 } }

/-- RECORDING at interval code 1 with one channel at ports 0 and 1, W and the settled index at 200. -/
def recording : State :=
  { idle with
    device := .recording
    session := some { interval := 1, epoch := 100, counts := Vector.ofFn fun p : Fin 4 => if p.val < 2 then 1 else 0 }
    store := { newest := some 200, settled := some 200, marks := [], pin := none } }

/-- A LIVE port at frontier 200 with an error count. -/
def livePort (errors : Nat) : Port :=
  { Port.reset with state := .live, carrier := true, errors := errors, frontier := some 200 }

/-- RECORDING with port 0 LIVE. -/
def live (errors : Nat) : State := recording.setPort 0 (livePort errors)

/-- RECORDING with port 0 SYNCING and a sync run. -/
def syncing (run : Nat) : State :=
  recording.setPort 0 { Port.reset with state := .syncing, syncRun := run, syncTag := some 300, frontier := some 99 }

/-- RECORDING with port 0 CUT and a recovery count. -/
def cut (recovery : Nat) : State :=
  recording.setPort 0 { Port.reset with state := .cut, recovery := recovery, frontier := some 150 }

/-- The bytes of a frame that its CRC covers (13.1). -/
def covered (port tag : Nat) (samples : List Nat) : List Byte :=
  leBytes 1 port ++ leBytes 5 tag ++ leBytes 2 samples.length ++ (samples.map (leBytes 3)).flatten

/-- A frame with a good CRC. -/
def frame (port tag : Nat) (samples : List Nat) : List Byte :=
  leBytes 2 syncValue ++ covered port tag samples ++ leBytes 2 (crc16 (covered port tag samples)).toNat

/-- A frame whose CRC fails. -/
def badCrc : List Byte := List.replicate 15 0

/-- The scanner waiting in a phase with its burst on the link. -/
def scanning (phase : ScanPhase) (s : State) : State :=
  { s with
    board := { s.board with phase := phase }
    bus := { s.bus with scanner := .issued (readBurst 4096 1) 0 } }

/-- A field put into a body at byte `k` of the host half. -/
def put (k bytes v : Nat) (body : List Byte) : List Byte :=
  body.take (k - 1) ++ leBytes bytes v ++ body.drop (k - 1 + bytes)

/-- The body of an order of a kind, its other bytes zero. -/
def order (kind : Nat) : List Byte := put 1 1 kind (zeroBytes 127)

/-- The second reading of box 5's post awaited, the first having been 1. -/
def reached (body : List Byte) (s : State) : State := scanning (.secondPost 5 1 body) s

/-- What box 5 has been answered. -/
def answerOf (s : State) : Option (OrderOutcome × Reason × List Word) :=
  s.board.boxes[5].answer.map fun a => (a.outcome, a.reason, a.words)

/-- A READY pilot of 4 samples, too short for a real load, so that sums stay small. -/
def pilot : PilotEntry :=
  { id := 9, state := .ready, length := 4, shift := 1, interval := 1, pages := [3], useCount := 1, serial := 1 }

/-- A bin of one channel, 0, with three lags, in a phase. -/
def bin (phase : BinPhase) (pendingJobs : Nat) (c : ChannelRecord) : BinRecord :=
  { phase := phase, key := 0x10, mask := 0x0F, box := 7, post := 1, firstChannel := 0, channelCount := 1
    lagFirst := 0, lagLast := 2, targetFold := 4, ratio8 := 24, hyst8 := 8, ceiling := 0, tripCount := 2
    missLimit := 100, fillCode := 0x80000000, exportOffset := 20480, pendingJobs := pendingJobs
    channelsAtTarget := 0, channels := [c] }

/-- A job of fleet 3 on that bin and pilot. -/
def job (state : JobState) : Job :=
  { box := 6, post := 2, fleet := 3, pilot := 0, bin := 2, t0 := 150, needFirst := 150, needLast := 155
    blocksTotal := 2, nextBlock := 0, state := state, cancelPending := false, blocksDone := 0, accepted := 0
    noise := 0, gapped := 0, clipped := 0, surplus := 0, totalMissing := 0 }

/-- RECORDING with the pilot at position 0, the bin at number 2 and the job at entry 4. -/
def working (state : JobState) (r : BinRecord) : State :=
  ((recording.setEntry 0 (some pilot)).setJob 4 (some (job state))).setBinRecord 2 (some r)

/-- The pass record of that job's first block. -/
def pass : PassRecord :=
  { job := 4, pilot := 0, pages := [3], length := 4, shift := 1, bin := 2, block := 0, firstChannel := 0
    lastChannel := 0, lagFirst := 0, lagLast := 2, lags := 3, t0 := 150, needFirst := 150, needLast := 155 }

/-- The pilot samples of the worked case 6.6. -/
def pilotSamples : List Int := [3, -2, 5, 1]

/-- The reads of the worked case 6.6. -/
def readings : List (Option Int) := [some 10, some (-4), some 7, none, some 2, some (-6)]

/-- The pass in COMPUTE. -/
def computing (samples : List Int) (finished : List (List (Option Int))) (reading : List (Option Int)) : State :=
  { working .active (bin .opened 1 .zero) with
    engine := .compute pass samples finished reading
    store := { newest := some 200, settled := some 200, marks := [], pin := some 150 } }

/-- The channel of the worked case 7.9 at its start. -/
def channel79 : ChannelRecord := { ChannelRecord.zero with fold := 2, referenceSum := 38, missTotal := 10 }

/-- A trace of one channel with given M, m and s. -/
def trace (measure missing saturations : Nat) : Trace :=
  { channel := 0, values := [5, -5, 7], measure := measure, missing := missing, saturations := saturations }

/-- The pass in STACK with some traces to hand over. -/
def stacking (c : ChannelRecord) (traces : List Trace) : State :=
  { working .active (bin .opened 1 c) with engine := .stack pass traces }

/-- The channel of bin 2 after a command. -/
def channelOf (s : State) : ChannelRecord :=
  match s.stack.bins[(2 : Fin 8)].record with
  | some r => r.channel 0
  | none => .zero

/-- A load of 64 samples from window offset 20,480, at its last byte but some. -/
def slot (received : Nat) (crc expected : Word) : LoadSlot :=
  { id := 9, length := 64, shift := 1, interval := 1, expectedCrc := expected, box := 8, post := 3, pages := [3]
    position := some 1, imageOffset := 20480, received := received, crc := crc }

/-- IDLE with that load and its burst on the link. -/
def loading (received : Nat) (crc expected : Word) : State :=
  { idle with
    library := { idle.library with load := some (slot received crc expected) }
    bus := { idle.bus with loader := .issued (readBurst (20480 + received) (128 - received)) 0 } }

/-- RECORDING with bin 2's export in flight, `written` bytes completed and one burst on the link. -/
def exporting (written length : Nat) : State :=
  let s := working .waiting (bin .exporting 0 .zero)
  { s with
    stack :=
      { s.stack with
        exportQueue := [2]
        writer := some
          { Writer.start 2 with
            nextChannel := 1, written := written, emptyCount := 1, formed := zeroBytes (44 - (written + length)) } }
    bus := { s.bus with exporter := .issued (writeBurst (20480 + written) (zeroBytes length)) 0 } }

/-! ## The checks on operands -/

theorem test_fullReset_refuses_other_field : (Instr.fullReset 0x4).wellFormed = false := by decide
theorem test_workReset_refuses_other_field : (Instr.workReset 0x8).wellFormed = false := by decide
theorem test_enables_refuse_reset : (Instr.scanEnIntEnWrite 0x8).wellFormed = false := by decide
theorem test_ignored_refuses_register : (Instr.registerWriteIgnored 0x1C 32 0).wellFormed = false := by decide
theorem test_ignored_takes_other_width : (Instr.registerWriteIgnored 0x1C 16 0).wellFormed = true := by decide
theorem test_upset_refuses_clean :
    (Instr.traceApply [{ word := .raw 0 0, kind := .clean }]).wellFormed = false := by decide
theorem test_timeout_refuses_exporter : (Instr.readCompletionTimeout .exporter []).wellFormed = false := by decide
theorem test_timeout_refuses_whole : (Instr.readCompletionTimeout .loader (zeroBytes 4096)).wellFormed = false := by
  simp only [Instr.wellFormed, show (zeroBytes 4096).length = 4096 from List.length_replicate, Nat.lt_irrefl,
    decide_false, Bool.and_false]
theorem test_body_refuses_short : (Instr.bodyReadDone (zeroBytes 126)).wellFormed = false := by decide
theorem test_order_refuses_post_0 : (Instr.sweep 0 []).wellFormed = false := by decide
theorem test_burst_refuses_empty : (Instr.pilotBurstDone []).wellFormed = false := by decide
theorem test_burst_refuses_long : (Instr.pilotBurstFault (zeroBytes 4097)).wellFormed = false := by
  simp only [Instr.wellFormed, show (zeroBytes 4097).length = 4097 from List.length_replicate]
  decide

/-! ## Worked examples of the spec -/

/-- R15: the bytes 31 to 39 give 0x29B1. -/
theorem test_crc16_check_value : crc16 [0x31, 0x32, 0x33, 0x34, 0x35, 0x36, 0x37, 0x38, 0x39] = 0x29B1 := by decide

/-- R58: the same bytes give 0xCBF43926. -/
theorem test_crc32_check_value :
    crc32Final (crc32Run crc32Start [0x31, 0x32, 0x33, 0x34, 0x35, 0x36, 0x37, 0x38, 0x39]) = 0xCBF43926 := by decide

/-- The table of R91. -/
theorem test_scaling_table :
    [73, -24, 25, -25, -23].map (scaleSum 1) = [37, -12, 13, -12, -11] ∧ scaleSum 4 40 = 3 ∧ scaleSum 4 (-40) = -2 := by
  decide

/-- The table of R131. -/
theorem test_normalization_table :
    normalize 3 (-7) = -2 ∧ normalize 2 (-5) = -3 ∧ normalize 2 5 = 3 ∧ normalize 2 7 = 4 ∧ normalize 3 8 = 3 ∧
      normalize 3 (-8) = -3 ∧ normalize 64 (-137438953472) = -2147483648 ∧
      normalize 64 137438953408 = 2147483647 := by
  decide

/-- 6.6: the trace of the short pilot over a gap, and the same with S = 0. -/
theorem test_worked_case_6_6 :
    traceOf pass pilotSamples 0 readings =
        { channel := 0, values := [37, -12, 13], measure := 20, missing := 1, saturations := 0 } ∧
      (traceOf { pass with shift := 0 } pilotSamples 0 readings).values = [73, -24, 25] ∧
      (traceOf { pass with shift := 0 } pilotSamples 0 readings).measure = 40 := by
  decide

/-- 13.3: the list 3, 4, 5, 6, 7, 0, 1, 2. -/
theorem test_packed_list : packList (listWithBottom 2) = 0x21076543 := by decide

/-- R158: the bursts of the image at 20,544. -/
theorem test_burst_lengths :
    burstLength 20544 86080 = 4032 ∧ burstLength 24576 86080 = 4096 ∧ burstLength 86016 86080 = 64 := by decide

/-! ## Commands -/

theorem test_powerOnReset : (after .powerOnReset recording).device = .init ∧ (after .powerOnReset recording).regs.size = 0 := by
  decide
theorem test_fullReset : (after (.fullReset 0xB) recording).regs.size = 20 ∧ (after (.fullReset 0xB) recording).resetEpoch = 1 := by
  decide
theorem test_workReset : (after (.workReset 0x5) recording).device = .idle ∧ (after (.workReset 0x5) recording).regs.scanEn := by
  decide
theorem test_enables_drop_follow_up :
    (after (.scanEnIntEnWrite 2) { idle with board := { idle.board with followUp := true } }).board.followUp = false := by
  decide
theorem test_scrubComplete : (after .scrubComplete State.reset).device = .idle := by decide
theorem test_nudge : (after (.nudge 0) idle).board.phase = .hostPost 0 := by decide
theorem test_nudge_in_init : (after (.nudge 0) State.reset).board.phase = .idle := by decide
theorem test_timer_takes_new_period :
    (after .scanTimerExpiry { idle with board := { idle.board with period := 2500 } }).board.interval = 2500 := by decide
theorem test_windowBase_discarded : (after (.windowBaseWrite .low 0) idle).counts.discardedWrites = 1 := by decide
theorem test_windowSize_taken : (after (.windowSizeWrite 32 []) State.reset).regs.size = 32 := by decide
/-- Clearing LINK while FAULT stays pending and unmasked sends one message. -/
theorem test_eventPending :
    (after (.eventPendingWrite 0x04) { idle with events := { idle.events with pending := 0x14, mask := 0x0F } }).events =
      { idle.events with pending := 0x10, mask := 0x0F, messagesSent := 1, messagesLost := 1 } := by decide
/-- A message reaches the host only with the link up and "message enabled" true. -/
theorem test_messageLost :
    ∀ x ∈ [(true, true, 0), (true, false, 1), (false, true, 1), (false, false, 1)],
      (sendMessage { idle.events with linkUp := x.1, messageEnabled := x.2.1 }).messagesLost = x.2.2 := by decide
/-- Unmasking a pending cause from an empty signalled set sends one message. -/
theorem test_eventMask :
    (after (.eventMaskWrite 0x0F) { idle with events := { idle.events with pending := 0x10 } }).events.messagesSent = 1 := by
  decide
theorem test_registerWriteIgnored : after (.registerWriteIgnored 0x24 32 1) idle = idle := by decide
theorem test_identity_read : readRegister 0 32 idle = 0x4008B14F ∧ readRegister 0 16 idle = 0 := by decide
/-- IDLE, window valid. -/
theorem test_state_read : readRegister 8 32 idle = 0x9 := by decide

theorem test_frame_in_sequence :
    (after (.frameArrival 0 (frame 0 201 [5]) []) (live 3)).ports[(0 : Fin 4)] =
      { livePort 2 with frontier := some 201 } := by decide
theorem test_frame_bad_degrades : (after (.frameArrival 0 badCrc []) (live 120)).ports[(0 : Fin 4)].state = .degraded := by
  decide
theorem test_carrierLoss_cuts : (after (.carrierLoss 0 []) (live 3)).ports[(0 : Fin 4)].state = .cut := by decide
theorem test_carrierLoss_restarts_recovery : (after (.carrierLoss 0 []) (cut 5)).ports[(0 : Fin 4)].recovery = 0 := by decide
theorem test_carrierPresent : (after (.carrierPresent 0) (cut 5)).ports[(0 : Fin 4)].carrier = true := by decide
theorem test_frame_128th_recovers :
    (after (.frameArrival 0 (frame 0 9 [5]) []) (cut 127)).ports[(0 : Fin 4)].state = .syncing := by decide
theorem test_frame_joins :
    (after (.frameArrival 0 (frame 0 305 [0x800000]) []) (syncing 16)).store.settled = some 305 ∧
      cellRead 0 (after (.frameArrival 0 (frame 0 305 [0x800000]) []) (syncing 16)).dram.raw 305 = 0xFF800000 := by
  decide
theorem test_pilotSampleRead :
    (after (.pilotSampleRead []) (computing [3] [] [])).engine = .compute pass [3, 0] [] [] := by decide
/-- An error that cannot be corrected in page 3 ends the only job FAULTED. -/
theorem test_pilotSampleRead_damage :
    (after (.pilotSampleRead [{ word := .pilot 3 1, kind := .uncorrectable }]) (computing [3] [] [])).board.boxes[(6 : Fin 64)].answer.map
      (fun a => (a.outcome, a.reason)) = some (.faulted, .pilotDamaged) := by decide
/-- No mark is set, so the sample is missing. -/
theorem test_rawSampleRead :
    (after (.rawSampleRead []) (computing pilotSamples [] [])).engine = .compute pass pilotSamples [] [none] := by decide
theorem test_computeEnd :
    (after .computeEnd (computing pilotSamples [readings] [])).engine =
      .stack pass [{ channel := 0, values := [37, -12, 13], measure := 20, missing := 1, saturations := 0 }] := by decide
/-- 7.9, trace 1. -/
theorem test_traceApply_accept :
    channelOf (after (.traceApply []) (stacking channel79 [trace 20 0 0])) =
      { channel79 with fold := 3, referenceSum := 58 } := by decide
/-- 7.9, trace 4, from the channel as trace 2 left it. -/
theorem test_traceApply_noise :
    channelOf (after (.traceApply [])
        (stacking { channel79 with fold := 3, referenceSum := 58, noise := 1, consecutive := 1 } [trace 90 0 0])) =
      { channel79 with fold := 3, referenceSum := 58, noise := 2, consecutive := 2, noisy := true } := by decide
theorem test_burstHandedOver :
    (after .burstHandedOver
        { idle with bus := { idle.bus with portBusy := true, loader := .waiting (readBurst 20480 64) } }).bus.loader =
      .issued (readBurst 20480 64) 0x105000 := by decide
theorem test_readCompletionTimeout :
    (after (.readCompletionTimeout .scanner []) (scanning (.hostPost 5) idle)).bus.scannerFaults = 1 := by decide
/-- R160: a read whose one byte is there is not reported faulted. -/
theorem test_readCompletionTimeout_whole :
    exec (.readCompletionTimeout .scanner [7]) (scanning (.hostPost 5) idle) = .next (scanning (.hostPost 5) idle) := rfl
/-- Box 5 has no baseline mark, so post 1 is a new order. -/
theorem test_hostPostReadDone :
    (after (.hostPostReadDone 1)
        (scanning (.hostPost 5) (idle.setBox 5 { BoxEntry.reset with baseline := false }))).board.phase = .body 5 1 := by decide
theorem test_bodyReadDone :
    (after (.bodyReadDone (order 2)) (scanning (.body 5 1) idle)).board.phase = .secondPost 5 1 (order 2) := by decide
theorem test_tornRead : (after (.tornRead .differs) (reached (order 2) idle)).board.phase = .hostPost 1 := by decide
theorem test_baselinePostRecheckDone :
    (after (.baselinePostRecheckDone 7) (scanning (.baselineRecheck 5 7) idle)).board.boxes[(5 : Fin 64)] =
      { answeredPost := 7, current := none, answer := some { outcome := .stale, reason := .none, words := [] },
        dirty := true, baseline := false } := by decide
theorem test_badKind : answerOf (after (.badKind 1) (reached (order 11) idle)) = some (.refused, .badKind, []) := by decide
theorem test_configure :
    answerOf (after (.configure 1) (reached (put 16 2 600 (order 1)) idle)) =
      some (.done, .none, [512, 0, 0, 0, 100]) := by decide
/-- W and the settled index are 200. -/
theorem test_endRecording :
    answerOf (after (.endRecording 1) (reached (order 2) recording)) = some (.done, .none, [200, 0, 200, 0]) := by decide
theorem test_endRecording_idle :
    answerOf (after (.endRecording 1) (reached (order 2) idle)) = some (.refused, .wrongState, []) := by decide
theorem test_loadPilot_short :
    answerOf (after (.loadPilot 1) (reached (put 8 4 63 (put 4 1 9 (order 3))) idle)) = some (.refused, .badValue, []) := by
  decide
theorem test_dropPilot_missing :
    answerOf (after (.dropPilot 1) (reached (put 4 1 9 (order 4)) idle)) = some (.refused, .noPilot, []) := by decide
/-- The lowest free entry is 0, and key 0x13 lies in the key set of bin 2. -/
theorem test_sweep :
    answerOf (after (.sweep 1 []) (reached (put 16 4 0x13 (put 8 5 1000 (put 5 1 9 (order 5))))
      (working .active (bin .opened 1 .zero)))) = some (.taken, .none, [0, 2]) := by decide
theorem test_cancel_too_late :
    answerOf (after (.cancel 1 []) (reached (put 5 1 1 (put 4 1 6 (order 6))) idle)) = some (.done, .none, [1]) := by decide
/-- Bottom fleet 2. -/
theorem test_fleetOrder :
    answerOf (after (.fleetOrder 1 []) (reached (put 7 1 0x81 (put 6 1 2 (put 5 1 1 (order 7)))) idle)) =
      some (.done, .none, [0x21076543, 0, 0x81]) := by decide
/-- Trip count 0 and ratio 0 are clamped to 1 and 8, target fold 65 to 64. -/
theorem test_openBin :
    answerOf (after (.openBin 1)
        (reached (put 36 4 20480 (put 20 1 65 (put 18 2 1 (put 14 2 2 (put 12 2 2047 (order 8)))))) recording)) =
      some (.taken, .none, [0, 2047, 1, 0, 1, 64, 1, 8, 0]) := by decide
theorem test_closeBin_drains :
    (after (.closeBin 1 []) (reached (put 4 1 2 (order 9)) (working .active (bin .opened 1 .zero)))).stack.bins[(2 : Fin 8)].record.map
      (·.phase) = some .draining := by decide
/-- 13.5 and R131: a NOISY channel of fold 2 with accumulators 5, −5 and 0, and a reference sum of 38. -/
theorem test_closeBin_exports_record :
    let c : ChannelRecord :=
      { fold := 2, noise := 1, gapped := 2, clipped := 3, surplus := 4, consecutive := 0, noisy := true
        poisoned := false, referenceSum := 38, missTotal := 10 }
    let s := recording.setBinRecord 2 (some (bin .held 0 c))
    let t := after (.closeBin 1 []) (reached (put 4 1 2 (order 9))
      { s with dram := writeAccs (accAddress 2 0 0) [5, -5] s.dram })
    t.bus.exporter = .waiting (writeBurst 20480
      ([0, 0, 2, 2, 1, 0, 2, 0, 3, 0, 4, 0, 10, 0, 0, 0, 19, 0, 0, 0, 0, 0, 0, 0, 0, 0, 0, 0, 0, 0, 0, 0] ++
        [3, 0, 0, 0, 0xFD, 0xFF, 0xFF, 0xFF, 0, 0, 0, 0])) := by decide
theorem test_discardBin_busy :
    answerOf (after (.discardBin 1) (reached (put 4 1 2 (order 10)) (working .active (bin .opened 1 .zero)))) =
      some (.refused, .binBusy, []) := by decide
theorem test_answerFirstWriteDone :
    (after .answerFirstWriteDone (scanning (.answerFirst .first 5 none) idle)).board.phase = .answerSecond .first 5 none := by
  decide
theorem test_answerSecondWriteDone_raises_box :
    (after .answerSecondWriteDone
        (scanning (.answerSecond .second 5 (some (doneAnswer [])))
          (idle.setBox 5 { BoxEntry.reset with answer := some (doneAnswer []), dirty := true }))).events.pending = 1 := by
  decide
theorem test_answerWriteFault_keeps_dirty :
    (after .answerWriteFault
        (scanning (.answerFirst .second 5 none)
          (idle.setBox 5 { BoxEntry.reset with dirty := true }))).board.boxes[(5 : Fin 64)].dirty = true := by decide
theorem test_statusPageWriteDone : (after .statusPageWriteDone (scanning .statusPage idle)).board.phase = .idle := by decide
theorem test_statusPageWriteFault :
    (after .statusPageWriteFault (scanning .statusPage idle)).bus.scannerFaults = 1 := by decide
/-- One channel of three lags is 44 bytes; the bin was exported EMPTY. -/
theorem test_exportBurstDone :
    (after (.exportBurstDone []) (exporting 0 44)).board.boxes[(7 : Fin 64)].answer =
      some (doneAnswer [2, 1, 1, 0, 0]) := by decide
theorem test_exportBurstFault :
    (after (.exportBurstFault []) (exporting 20 24)).stack.bins[(2 : Fin 8)].heldFaultOffset = 20500 := by decide
/-- The register reads 0xFFFFFFFF before and the two bytes leave it other than the expected 1. -/
theorem test_pilotBurstDone_mismatch :
    (after (.pilotBurstDone [1, 2]) (loading 126 crc32Start 1)).board.boxes[(8 : Fin 64)].answer.map (·.reason) =
      some .crcMismatch := by decide
theorem test_pilotBurstFault :
    (after (.pilotBurstFault []) (loading 0 crc32Start 1)).board.boxes[(8 : Fin 64)].answer =
      some { outcome := .faulted, reason := .busFault, words := [20480] } := by decide

/-! ## Cases that meet the hypotheses of the statements

One theorem for each statement that has hypotheses, with a case for each of its clauses, at the bounds where a clause has
bounds. -/

theorem witness_StepRunsFrontCommand :
    ({ idle with pending := [.nudge 0, .scrubComplete] } : State).pending = .nudge 0 :: [.scrubComplete] ∧
      idle.pending = [] := by decide

theorem witness_DeviceStateMoves :
    (∃ t, exec .powerOnReset recording = .next t ∧ t.device ≠ recording.device) ∧
    (∃ t, exec (.fullReset 0x8) recording = .next t ∧ t.device ≠ recording.device) ∧
    (∃ t, exec .scrubComplete State.reset = .next t ∧ t.device ≠ State.reset.device) ∧
    (∃ t, exec (.workReset 0x4) recording = .next t ∧ t.device ≠ recording.device) ∧
    (∃ t, exec (.configure 1) (reached (order 1) idle) = .next t ∧ t.device ≠ idle.device) ∧
    ∃ t, exec (.endRecording 1) (reached (order 2) recording) = .next t ∧ t.device ≠ recording.device :=
  ⟨⟨_, rfl, by decide⟩, ⟨_, rfl, by decide⟩, ⟨_, rfl, by decide⟩, ⟨_, rfl, by decide⟩, ⟨_, rfl, by decide⟩,
    ⟨_, rfl, by decide⟩⟩

/-- No cause is masked. -/
def unmasked (s : State) : State := { s with events := { s.events with mask := 0 } }

/-- A mask write with LINK pending, and a write to EVENT_PENDING; and a frame that cuts a port while nothing is signalled
and INT_EN is 1. -/
theorem witness_PendingCausesStay :
    (let s := unmasked (live 248)
     s.regs.intEn = true ∧ signalled s.events = 0 ∧ signalled (after (.frameArrival 0 badCrc []) s).events ≠ 0) ∧
    ∀ c ∈ [Instr.eventMaskWrite 0, .eventPendingWrite 0x04], c ≠ .powerOnReset ∧
      (∀ v, resetField v = 2 → c ≠ .fullReset v ∧ c ≠ .workReset v ∧ c ≠ .scanEnIntEnWrite v) ∧
      (∃ t, exec c (live 3) = .next t) ∧ ((∀ v, c ≠ .eventMaskWrite v) ∨ ∀ v, c ≠ .eventPendingWrite v) ∧
      isPending .link ((live 3).raise .link) := by
  refine ⟨by decide, ?_⟩
  intro c hc
  simp only [List.mem_cons, List.not_mem_nil, or_false] at hc
  rcases hc with rfl | rfl
  · exact ⟨nofun, fun _ _ => ⟨nofun, nofun, nofun⟩, ⟨_, rfl⟩, .inr nofun, by unfold isPending; decide⟩
  · exact ⟨nofun, fun _ _ => ⟨nofun, nofun, nofun⟩, ⟨_, rfl⟩, .inl nofun, by unfold isPending; decide⟩

theorem witness_FullResetKeepsTheWindow : resetField 0x8 = 2 ∧ resetField 0xB = 2 := by decide

/-- Among them a work reset that turns INT_EN on while LINK is pending and not masked. -/
theorem witness_WorkResetKeepsPilotsAndBoxes :
    resetField 0x4 = 1 ∧ resetField 0x7 = 1 ∧ recording.device ≠ .init ∧ idle.device ≠ .init ∧
      (let s := unmasked { (recording.raise .link) with regs := { recording.regs with intEn := false } }
       s.regs.intEn = false ∧ BitVec.getLsbD (0x6 : Word) 1 = true ∧ resetField 0x6 = 1 ∧
         signalled s.events ≠ 0 ∧ s.device ≠ .init) := by decide

/-- RESET 0, RESET 3, and RESET 1 in INIT. -/
theorem witness_ControlWriteWithoutReset :
    resetField 0x0 = 0 ∧ resetField 0x3 = 0 ∧ resetField 0xC = 3 ∧ resetField 0x4 ≠ 2 ∧ (resetField 0x4 = 1 → State.reset.device = .init) := by decide

theorem witness_ScrubLeavesZeros : State.reset.device = .init ∧ idle.device ≠ .init := by decide

/-- Offsets just beyond a register and beyond the last one, another width, and the bits beside the five causes. -/
theorem witness_RegisterAccesses :
    (0x20 < 0x21 ∨ 0x21 % 4 ≠ 0) ∧ (0x20 < 0x24 ∨ 0x24 % 4 ≠ 0) ∧ (0x20 < 0x03 ∨ 0x03 % 4 ≠ 0) ∧ 16 ≠ 32 ∧ 4 < 5 ∧
      5 ≤ 5 ∧ 2 ≤ 2 := by decide

/-- A queue is lawful when it lists the bins in EXPORTING and the writer works on its head. -/
theorem queue_lawful {st : StackUnit} (h1 : st.exportQueue.Nodup)
    (h2 : ∀ b : Fin 8, b ∈ st.exportQueue ↔ st.bins[b].record.map (·.phase) = some .exporting)
    (h3 : ∀ w, st.writer = some w → st.exportQueue.head? = some w.bin) : QueueLawful st :=
  ⟨h1, fun b => by rw [h2]; cases st.bins[b].record <;> simp, h3⟩

/-- IDLE with SCAN_EN 0. -/
def unlocked (s : State) : State := { s with regs := { s.regs with scanEn := false } }

/-- RECORDING with SCAN_EN 0, the window not valid, and bin 2 waiting at the head of the export queue. -/
def waitingForWindow : State :=
  let s := working .waiting (bin .exporting 0 .zero)
  { s with
    regs := { s.regs with scanEn := false, size := 0 }
    stack := { s.stack with exportQueue := [2] } }

theorem witness_WindowWrites :
    QueueLawful waitingForWindow.stack ∧
    (let r := { bin .exporting 0 .zero with exportOffset := 1048576 }
     let s := waitingForWindow.setBinRecord 2 (some r)
     s.regs.scanEn = false ∧ s.board.phase = .idle ∧ s.library.load = none ∧ s.stack.writer = none ∧
       s.stack.exportQueue = 2 :: [] ∧ s.stack.bins[(2 : Fin 8)].record = some r ∧
       windowValid { s.regs with size := 20 } = true ∧
       inBuffer { s.regs with size := 20 } 1048576 (1 * (32 + 4 * r.lags)) = false) ∧
    ((unlocked idle).regs.scanEn = false ∧ (unlocked idle).board.phase = .idle ∧ (unlocked idle).library.load = none ∧
      (unlocked idle).stack.writer = none ∧ PortServed (unlocked idle) ∧ (unlocked idle).stack.exportQueue = []) ∧
    (waitingForWindow.regs.scanEn = false ∧ waitingForWindow.board.phase = .idle ∧
      waitingForWindow.library.load = none ∧ waitingForWindow.stack.writer = none ∧ PortServed waitingForWindow ∧
      waitingForWindow.stack.exportQueue = [2] ∧
      windowValid { waitingForWindow.regs with size := 19 } = false ∧
      windowValid { waitingForWindow.regs with size := 33 } = false ∧
      waitingForWindow.stack.bins[(2 : Fin 8)].record = some (bin .exporting 0 .zero) ∧
      windowValid { waitingForWindow.regs with size := 20 } = true ∧
      inBuffer { waitingForWindow.regs with size := 20 } 20480 (extentLength 1 3) = true ∧
      (bin .exporting 0 .zero).lags = 3) ∧
    idle.regs.scanEn = true ∧ (scanning .statusPage (unlocked idle)).board.phase ≠ .idle ∧
    (unlocked (loading 0 0 0)).library.load ≠ none ∧ (unlocked (exporting 0 44)).stack.writer ≠ none := by
  refine ⟨queue_lawful (by decide) (by decide) nofun, ?_⟩
  unfold PortServed
  decide

/-- INT_EN is 1, LINK and FAULT are pending and unmasked; clearing LINK leaves FAULT, clearing both leaves none. -/
theorem witness_EventPendingWriteClears :
    let s := { idle with events := { idle.events with pending := 0x14, mask := 0 } }
    (s.regs.intEn = true ∧
        ∃ i < 5, s.events.pending.getLsbD i = true ∧ (0x04 : Word).getLsbD i = false ∧ s.events.mask.getLsbD i = false) ∧
      ¬(s.regs.intEn = true ∧
        ∃ i < 5, s.events.pending.getLsbD i = true ∧ (0x14 : Word).getLsbD i = false ∧
          s.events.mask.getLsbD i = false) := by decide

/-- FAULT is pending and masked; the write 0x0F unmasks it, the write 0x1F does not. -/
theorem witness_EventMaskWriteReplaces :
    let s := { idle with events := { idle.events with pending := 0x10, mask := 0x1F } }
    (s.regs.intEn = true ∧ (∀ i < 5, s.events.pending.getLsbD i = true → s.events.mask.getLsbD i = true) ∧
        ∃ i < 5, s.events.pending.getLsbD i = true ∧ (0x0F : Word).getLsbD i = false) ∧
      ¬(∃ i < 5, s.events.pending.getLsbD i = true ∧ (0x1F : Word).getLsbD i = false) ∧ resetField 0x8 = 2 ∧
      resetField 0x4 = 1 := by decide

theorem witness_ScanRequests :
    PortServed idle ∧ (∃ v, Instr.nudge 0 = .nudge v) ∧
      (State.reset.device = .init ∧ (unlocked idle).regs.scanEn = false) ∧
      (let s := scanning .statusPage idle
       s.device ≠ .init ∧ s.regs.scanEn = true ∧ windowValid s.regs = true ∧ s.board.phase ≠ .idle) ∧
      idle.device ≠ .init ∧ idle.regs.scanEn = true ∧ windowValid idle.regs = true ∧ idle.board.phase = .idle :=
  ⟨.inr ⟨rfl, rfl, rfl⟩, ⟨0, rfl⟩, by decide⟩

theorem witness_FramesOutsideTheSession :
    idle.ports[(0 : Fin 4)].state = .down ∧ (cut 126).ports[(0 : Fin 4)].state = .cut ∧
      lineClass (configured (cut 126) 0) 0 badCrc = some .crc ∧
      lineClass (configured (cut 126) 0) 0 (frame 1 9 [5]) = some .format ∧
      lineClass (configured (cut 126) 0) 0 (frame 0 9 [5]) = none ∧ (cut 126).ports[(0 : Fin 4)].recovery + 1 < 128 ∧
      ¬(cut 127).ports[(0 : Fin 4)].recovery + 1 < 128 := by decide

/-- Port 0 SYNCING with a run, port 1 LIVE; the settled index is 200. -/
def syncingBeside (run : Nat) : State := (syncing run).setPort 1 (livePort 0)

theorem witness_SyncRunBuilds :
    let s := syncingBeside 16
    s.ports[(0 : Fin 4)].state = .syncing ∧ lineClass (configured s 0) 0 badCrc = some .crc ∧
      (syncingBeside 15).ports[(0 : Fin 4)].syncRun < 16 ∧
      lineClass (configured (syncingBeside 15) 0) 0 (frame 0 301 [5]) = none ∧
      16 ≤ s.ports[(0 : Fin 4)].syncRun ∧ s.store.settled = some 200 ∧
      (lineClass (configured s 0) 0 (frame 0 200 [5]) = none ∧ (frameTag (frame 0 200 [5]) : Int) ≤ 200) ∧
      lineClass (configured s 0) 0 (frame 0 16585 [5]) = none ∧
      (200 : Int) + 16384 < frameTag (frame 0 16585 [5]) ∧
      ∃ q : Fin 4, q ≠ 0 ∧ s.ports[q].counted = true := by decide

/-- The nearest and the farthest tag beside another LIVE port, and a far tag without one. -/
theorem witness_WaitingPortJoins :
    let s := syncingBeside 16
    (s.ports[(0 : Fin 4)].state = .syncing ∧ 16 ≤ s.ports[(0 : Fin 4)].syncRun ∧ s.store.newest = some 200 ∧
      s.store.settled = some 200) ∧
    (∀ tag ∈ [201, 16584], lineClass (configured s 0) 0 (frame 0 tag [5]) = none ∧
      (200 : Int) < frameTag (frame 0 tag [5]) ∧
      ((∃ q : Fin 4, q ≠ 0 ∧ s.ports[q].counted = true) → (frameTag (frame 0 tag [5]) : Int) ≤ 200 + 16384)) ∧
    lineClass (configured (syncing 16) 0) 0 (frame 0 99999 [5]) = none ∧
      (200 : Int) < frameTag (frame 0 99999 [5]) ∧ (∀ q : Fin 4, q ≠ 0 → (syncing 16).ports[q].counted = false) ∧
    (200 : Int) - 65535 ≤ frameTag (frame 0 201 [5]) ∧ MemoryCanonical s ∧ MemoryCanonical (syncing 16) := by
  unfold MemoryCanonical
  refine ⟨by decide, by decide, by decide, by decide, by decide, by decide, by decide, ?_⟩
  decide

/-- `live` with W beyond the port's frontier, 200. -/
def behind (w : Int) (errors : Nat) : State :=
  { live errors with store := { newest := some w, settled := some 200, marks := [], pin := none } }

theorem witness_BadFrameRaisesErrors :
    (∀ s ∈ [live 248, live 247, live 120, live 119, behind 1224 120, behind 1225 120],
      s.ports[(0 : Fin 4)].counted = true ∧ frameClass s 0 badCrc = some .crc ∧
        s.ports[(0 : Fin 4)].frontier = some 200 ∧ s.store.newest ≠ none) ∧
      frameClass (live 3) 0 (frame 0 201 [5, 5]) = some .format ∧
      frameClass (live 3) 0 (frame 0 200 [5]) = some .sequence ∧
      frameClass (live 3) 0 (frame 0 16585 [5]) = some .time := by decide

/-- In sequence at a LIVE port, and at a DEGRADED one that returns to LIVE; a GAP frame that cuts, one that raises the
count to 255, and ones that degrade at and below W − 1,024. -/
theorem witness_GoodFrameMovesFrontier :
    (∀ s ∈ [live 0, recording.setPort 0 { livePort 128 with state := .degraded }],
      s.ports[(0 : Fin 4)].counted = true ∧ frameClass s 0 (frame 0 201 [5]) = none ∧ s.store.newest = some 200 ∧
        s.ports[(0 : Fin 4)].frontier = some 200 ∧ (frameTag (frame 0 201 [5]) : Int) = 200 + 1) ∧
      ∀ s ∈ [live 248, live 247, behind 1226 120, behind 1227 120],
        s.ports[(0 : Fin 4)].counted = true ∧ frameClass s 0 (frame 0 202 [5]) = none ∧ s.store.newest ≠ none ∧
          s.ports[(0 : Fin 4)].frontier = some 200 ∧ (200 : Int) + 1 < frameTag (frame 0 202 [5]) := by decide

/-- At O = 201, and in sequence and after a gap beyond W. -/
theorem witness_GoodFrameIsStored :
    (∀ s ∈ [live 3, behind 65736 3], s.ports[(0 : Fin 4)].counted = true ∧
      frameClass s 0 (frame 0 201 [5]) = none ∧ s.ports[(0 : Fin 4)].frontier = some 200 ∧
      (frameTag (frame 0 201 [5]) : Int) = 200 + 1) ∧
      (live 3).store.newest = some 200 ∧ (behind 65736 3).store.newest = some 65736 ∧
      (65736 : Int) - 65535 ≤ frameTag (frame 0 201 [5]) ∧ frameClass (live 247) 0 (frame 0 300 [5]) = none ∧
      (live 247).ports[(0 : Fin 4)].errors + 8 < 256 ∧ MemoryCanonical (live 3) ∧ MemoryCanonical (behind 65736 3) ∧
      MemoryCanonical (live 247) := by
  refine ⟨by decide, by decide, by decide, by decide, by decide, by decide, ?_, ?_, ?_⟩ <;>
  · unfold MemoryCanonical
    decide

/-- A frame that cuts the only LIVE port, and one that moves its frontier past a job's span. -/
theorem witness_SettledIndexIsLeastFrontier :
    (∀ s ∈ [live 248, live 3], s.ports[(0 : Fin 4)].counted = true ∧ s.store.newest ≠ none ∧
      ∀ q : Fin 4, s.ports[q].counted = true → s.ports[q].frontier ≠ none) ∧
      (∀ q : Fin 4, (after (.frameArrival 0 badCrc []) (live 248)).ports[q].counted = false) ∧
      (∃ q : Fin 4, (after (.frameArrival 0 (frame 0 201 [5]) []) (live 3)).ports[q].counted = true) ∧
      (live 3).store.settled ≠ (after (.frameArrival 0 (frame 0 201 [5]) []) (live 3)).store.settled := by decide

/-- The jobs of a notice: one whose span the new value 201 settles, and one that it does not, with no pass in flight. -/
theorem witness_SettledFollows :
    let late := { job .waiting with needLast := 400 }
    let s := ((working .waiting (bin .opened 1 .zero)).setJob 5 (some late)).setPort 0 (livePort 3)
    (after (.frameArrival 0 (frame 0 201 [5]) []) s).store.settled = some 201 ∧ s.store.settled ≠ some 201 ∧
      s.sched.jobs[(4 : Fin 32)] = some (job .waiting) ∧ (job .waiting).needLast ≤ 201 ∧
      s.sched.jobs[(5 : Fin 32)] = some late ∧ 201 < late.needLast ∧ s.engine.activeJob = none := by decide

/-- A port that is not LIVE or DEGRADED; the loss of a LIVE port, alone and beside another. -/
theorem witness_CarrierReports :
    (cut 5).ports[(0 : Fin 4)].counted = false ∧
    (∀ s ∈ [live 3, (live 3).setPort 1 (livePort 0)], s.ports[(0 : Fin 4)].counted = true ∧
      ∀ q : Fin 4, s.ports[q].counted = true → s.ports[q].frontier ≠ none) ∧
    (∀ q : Fin 4, (after (.carrierLoss 0 []) (live 3)).ports[q].counted = false) ∧
    ∃ q : Fin 4, (after (.carrierLoss 0 []) ((live 3).setPort 1 (livePort 0))).ports[q].counted = true := by decide

/-- One sample short of the pilot's length, with the word clean and with an error that cannot be corrected. -/
theorem witness_PilotSampleIsRead :
    let s := computing [3, -2, 5] [] []
    let us : List Upset := [{ word := .pilot 3 3, kind := .uncorrectable }]
    s.engine = .compute pass [3, -2, 5] [] [] ∧ ([3, -2, 5] : List Int).length < pass.length ∧
      cellRead .clean (s.applyUpsets []).dram.pilotErrors (pilotAddress (pass.pages.getD 0 0).val 3) ≠ .uncorrectable ∧
      cellRead .clean (s.applyUpsets us).dram.pilotErrors (pilotAddress (pass.pages.getD 0 0).val 3) = .uncorrectable ∧
      s.library.entries[pass.pilot] = some pilot ∧ s.sched.jobs[pass.job] = some (job .active) ∧
      ∀ i : Fin 32, i ≠ pass.job → s.sched.jobs[i] = none := by decide

/-- The first and the last sample of the channel's span, not held; and index 150 held, clean and with errors. -/
theorem witness_RawSampleIsRead :
    (∀ reading ∈ [[], readings.take 5], let s := computing pilotSamples [] reading
      s.engine = .compute pass pilotSamples [] reading ∧ pass.length ≤ pilotSamples.length ∧
        0 < pass.lastChannel + 1 - pass.firstChannel ∧ (pass.firstChannel + 0) / 512 = 0 ∧
        s.store.newest = some 200) ∧
      (readings.take 5).length + 1 = pass.needLast + 1 - pass.needFirst ∧
      (0 : Nat) % 512 < configured (computing pilotSamples [] []) 0 ∧ (200 : Int) - 65535 ≤ 150 ∧
      cellRead false (computing pilotSamples [] []).store.marks (markAddress 0 (150 % 65536)) = false ∧
      (let s := computing pilotSamples [] []
       let held := { s with store := setMark 0 150 s.store }
       held.engine = s.engine ∧ held.store.newest = some 200 ∧
         cellRead false held.store.marks (markAddress 0 (150 % 65536)) = true) ∧
      cellRead .clean
        ((computing pilotSamples [] []).applyUpsets [{ word := .raw 0 150, kind := .single }]).dram.rawErrors
        (rawAddress 0 150) = .single := by decide

theorem witness_ComputeEndFormsTraces :
    (computing pilotSamples [readings] []).engine = .compute pass pilotSamples [readings] [] ∧
      pass.length ≤ pilotSamples.length ∧ pass.lastChannel + 1 - pass.firstChannel ≤ [readings].length := by decide

/-- A channel at its target, a POISONED one and one below its target, with a trace that is clipped, one above the miss
limit, and ones at and above the ratio in use (the ceiling is off), before another trace and as the last of the block. -/
theorem witness_DroppedTraceIsCounted :
    let surplus := { channel79 with fold := 4 }
    let poisoned := { channel79 with poisoned := true }
    (∀ c ∈ [surplus, poisoned, channel79], ∀ t ∈ [trace 20 0 0, trace 20 0 1, trace 20 101 0, trace 58 0 0],
      ∀ rest ∈ [[trace 20 0 0], []],
      (stacking c (t :: rest)).engine = .stack pass (t :: rest) ∧
        (stacking c (t :: rest)).stack.bins[pass.bin].record = some (bin .opened 1 c) ∧
        (stacking c (t :: rest)).sched.jobs[pass.job] = some (job .active) ∧
        (bin .opened 1 c).channel 0 = c) ∧
    (∀ rest, PortServed (stacking channel79 (trace 58 0 0 :: rest))) ∧
    surplus.fold = (bin .opened 1 surplus).targetFold ∧
    ¬(channel79.fold = (bin .opened 1 channel79).targetFold ∨ channel79.poisoned = true) ∧
    0 < (trace 20 0 1).saturations ∧ (trace 20 101 0).saturations = 0 ∧
    (bin .opened 1 channel79).missLimit < (trace 20 101 0).missing ∧
    (trace 58 0 0).missing ≤ (bin .opened 1 channel79).missLimit ∧
    24 * (channel79.referenceSum / channel79.fold) < 8 * (trace 58 0 0).measure ∧
    ¬24 * (channel79.referenceSum / channel79.fold) < 8 * (trace 57 0 0).measure := by
  refine ⟨by decide, fun _ => .inr ⟨rfl, rfl, rfl⟩, by decide⟩

/-- The fold below its target by 1, with every accumulator readable and with one that is not, before another trace and as
the last of the block; M at the ratio in use, and m at the miss limit. -/
theorem witness_AdmittedTraceIsStacked :
    let c := { channel79 with fold := 3, referenceSum := 57 }
    let us : List Upset := [{ word := .acc 2 0 2, kind := .uncorrectable }]
    let r := bin .opened 1 c
    let t := trace 57 100 0
    ∀ rest ∈ [[trace 20 0 0], []], let s := stacking c (t :: rest)
    (PortServed s ∧ MemoryCanonical s) ∧ s.engine = .stack pass (t :: rest) ∧
      s.stack.bins[pass.bin].record = some r ∧ s.sched.jobs[pass.job] = some (job .active) ∧
      0 < r.pendingJobs ∧ t.values.length = r.lags ∧ r.channel (t.channel - r.firstChannel) = c ∧
      ¬(c.fold = r.targetFold ∨ c.poisoned = true) ∧ t.saturations = 0 ∧ t.missing ≤ r.missLimit ∧
      (r.ceiling = 0 ∨ t.measure ≤ r.ceiling) ∧ c.noisy = false ∧
      (c.fold = 0 ∨ 8 * t.measure ≤ r.ratio8 * (c.referenceSum / c.fold)) ∧
      (∀ i < 3, cellRead .clean (s.applyUpsets []).dram.accErrors (accAddress 2 0 i) ≠ .uncorrectable) ∧
      cellRead .clean (s.applyUpsets us).dram.accErrors (accAddress 2 0 2) = .uncorrectable := by
  intro c us r t rest hr
  simp only [List.mem_cons, List.not_mem_nil, or_false] at hr
  rcases hr with rfl | rfl <;>
    exact ⟨⟨.inr ⟨rfl, rfl, rfl⟩, by unfold MemoryCanonical; decide⟩, by decide⟩

/-- RECORDING with a READY job in its queue. -/
def readyToRun : State :=
  let s := working .ready (bin .opened 1 .zero)
  { s with sched := { s.sched with queues := s.sched.queues.set (3 : Fin 8) [4] } }

/-- A READY job in its queue, and none; a pass in flight; a DAMAGED pilot; need_first one below O, and at O. -/
theorem witness_ArbiterChoosesBySmallestStart :
    chooseJob readyToRun.sched = some 4 ∧ chooseJob (working .ready (bin .opened 1 .zero)).sched = none ∧
      readyToRun.sched.priority = [0, 1, 2] ++ 3 :: [4, 5, 6, 7] ∧
      (computing [] [] []).engine ≠ .noPass ∧ readyToRun.engine = .noPass ∧
      readyToRun.sched.jobs[(4 : Fin 32)] = some (job .ready) ∧
      readyToRun.library.entries[(job .ready).pilot] = some pilot ∧
      readyToRun.stack.bins[(job .ready).bin].record = some (bin .opened 1 .zero) ∧ pilot.state ≠ .damaged ∧
      (let damaged := { pilot with state := .damaged }
       (readyToRun.setEntry 0 (some damaged)).library.entries[(job .ready).pilot] = some damaged ∧
         chooseJob (readyToRun.setEntry 0 (some damaged)).sched = some 4) ∧
      (let at_ := fun w : Int => { readyToRun with store := { readyToRun.store with newest := some w } }
       (at_ 65686).store.newest = some 65686 ∧ ((job .ready).needFirst : Int) < 65686 - 65535 ∧
         (at_ 65685).store.newest = some 65685 ∧ ¬((job .ready).needFirst : Int) < 65685 - 65535) := by decide

/-- An active job; an OPEN bin, and a DRAINING one that no other job names, behind another export and at an empty queue. -/
theorem witness_PassEndSettlesJob :
    let draining := working .active (bin .draining 1 .zero)
    (computing [] [] []).engine.activeJob = some 4 ∧ (computing [] [] []).sched.jobs[(4 : Fin 32)] = some (job .active) ∧
      (computing [] [] []).stack.bins[(job .active).bin].record = some (bin .opened 1 .zero) ∧
      draining.sched.jobs[(4 : Fin 32)] = some (job .active) ∧
      draining.stack.bins[(job .active).bin].record = some (bin .draining 1 .zero) ∧
      (bin .draining 1 .zero).pendingJobs ≤ 1 ∧
      ({ draining with stack := { draining.stack with exportQueue := [6] } } : State).stack.exportQueue ≠ [] ∧
      draining.stack.exportQueue = [] := by
  decide

/-- The port is busy; the scanner waits with an answer and with another burst, the exporter, the loader, and none. -/
theorem witness_IssuePortServesByPriority :
    let busy := { idle with bus := { idle.bus with portBusy := true } }
    let waits := .waiting (readBurst 20480 64)
    busy.bus.portBusy = true ∧
      (let s := { scanning (.answerFirst .first 5 none) busy with bus := { busy.bus with scanner := waits } }
       s.bus.scanner = waits ∧ s.board.phase = .answerFirst .first 5 none) ∧
      (let s := { scanning (.hostPost 5) busy with bus := { busy.bus with scanner := waits } }
       s.bus.scanner = waits ∧ s.board.phase = .hostPost 5) ∧
      (let s := { busy with bus := { busy.bus with exporter := waits } }
       s.bus.scanner.isWaiting = false ∧ s.bus.exporter = waits) ∧
      (let s := { busy with bus := { busy.bus with loader := waits } }
       s.bus.scanner.isWaiting = false ∧ s.bus.exporter.isWaiting = false ∧ s.bus.loader = waits) ∧
      busy.bus.scanner.isWaiting = false ∧ busy.bus.exporter.isWaiting = false ∧
      busy.bus.loader.isWaiting = false := by decide

theorem witness_BurstsEndAtBoundaries : 24575 < 24576 ∧ 24576 < 86080 ∧ idle.sched.priority.length = 8 := by decide

/-- 13.4: the first bytes of the page and of port 0's record, a LIVE port with 96 errors. -/
theorem test_statusPage :
    (statusPage (live 96)).take 16 = [2, 0, 1, 0, 0, 0, 0, 0, 200, 0, 0, 0, 0, 0, 0, 0] ∧
      ((statusPage (live 96)).drop 128).take 6 = [2, 1, 96, 1, 0, 0] := by decide

/-- RECORDING at another interval code than the load's. -/
def otherInterval (s : State) : State :=
  { s with session := some { interval := 0, epoch := 100, counts := Vector.replicate 4 0 } }

/-- The CRC of the load's last two bytes, 1 and 2, read after 126 others. -/
def goodCrc : Word := crc32Final (crc32Run crc32Start [1, 2])

/-- A burst that ends the image, with another CRC, with the id in use, at another interval, and installed; and one of 64
bytes from its start. -/
theorem witness_PilotBurstIsTakenIn :
    let last := loading 126 crc32Start goodCrc
    let first := loading 0 crc32Start 1
    let burst := { direction := .read, offset := 20606, length := 2, data := [] }
    (PortServed last ∧ last.bus.loader = .issued burst 0 ∧
      last.library.load = some (slot 126 crc32Start goodCrc) ∧ 126 % 2 = 0 ∧ 126 + 2 ≤ 2 * 64 ∧
      64 ≤ 1024 * (slot 126 crc32Start goodCrc).pages.length ∧ (slot 126 crc32Start goodCrc).pages.Nodup ∧
      MemoryCanonical last) ∧
    crc32Final (crc32Run crc32Start [1, 2]) = goodCrc ∧ crc32Final (crc32Run crc32Start [1, 3]) ≠ goodCrc ∧
    (let s := last.setEntry 0 (some pilot)
     s.library.lookup 9 = some 0 ∧ s.library.entries[(0 : Fin 16)] = some pilot ∧ 0 < pilot.useCount) ∧
    (∃ c, (otherInterval last).session = some c ∧ c.interval ≠ (slot 126 crc32Start goodCrc).interval) ∧
    (last.library.lookup 9 = none ∧ (slot 126 crc32Start goodCrc).position = some 1 ∧ last.session = none) ∧
    (let s := { first with bus := { first.bus with loader := .issued (readBurst 20480 64) 0 } }
     s.bus.loader = .issued (readBurst 20480 64) 0 ∧ s.library.load = some (slot 0 crc32Start 1) ∧ 0 + 64 < 2 * 64) := by
  unfold MemoryCanonical
  refine ⟨⟨.inr ⟨rfl, rfl, rfl⟩, ?_⟩, ?_, ?_, ?_, ⟨_, rfl, ?_⟩, ?_⟩ <;> decide

/-- An odd number of bytes, one short of the whole; and the whole. -/
theorem witness_PilotFaultEndsLoad :
    (PortServed (loading 0 0 1) ∧ (loading 0 0 1).bus.loader = .issued (readBurst 20480 128) 0 ∧
      (loading 0 0 1).library.load = some (slot 0 0 1) ∧ (zeroBytes 127).length < (readBurst 20480 128).length ∧
      (readBurst 20480 128).length ≤ (zeroBytes 128).length) ∧
      (slot 0 0 1).received % 2 = 0 ∧
      (slot 0 0 1).received + ((zeroBytes 127).take (readBurst 20480 128).length).length ≤ 2 * (slot 0 0 1).length ∧
      (slot 0 0 1).length ≤ 1024 * (slot 0 0 1).pages.length ∧ (slot 0 0 1).pages.Nodup ∧
      MemoryCanonical (loading 0 0 1) := by
  unfold MemoryCanonical
  refine ⟨⟨.inr ⟨rfl, rfl, rfl⟩, ?_⟩, ?_⟩ <;> decide

/-- Box 5 without its baseline mark. -/
def unmarked (e : BoxEntry) (s : State) : State := s.setBox 5 { e with baseline := false }

/-- A box entry with an answer. -/
def answeredEntry (o : OrderOutcome) (dirty : Bool) : BoxEntry :=
  { answeredPost := 1, current := some 2, answer := some { outcome := o, reason := .none, words := [] }, dirty := dirty
    baseline := true }

/-- Box 5 marked and clean, marked and dirty, marked and TAKEN; not marked with a new order, with post 0, with the
answered post. -/
theorem witness_HostPostIsJudged :
    let first := scanning (.hostPost 5)
    ((first idle).board.phase = .hostPost 5 ∧ (first idle).scannerIssued = true) ∧
    (let e := (first idle).board.boxes[(5 : Fin 64)]
     e.baseline = true ∧ e.answer = none ∧ e.dirty = false) ∧
    (let e := (first (idle.setBox 5 (answeredEntry .done true))).board.boxes[(5 : Fin 64)]
     e.baseline = true ∧ e.dirty = true) ∧
    (let e := (first (idle.setBox 5 (answeredEntry .taken false))).board.boxes[(5 : Fin 64)]
     e.baseline = true ∧ finalOrNone e.answer = false) ∧
    let e := (first (unmarked (answeredEntry .done false) idle)).board.boxes[(5 : Fin 64)]
    e.baseline = false ∧ finalOrNone e.answer = true ∧ e.dirty = false ∧ e.answeredPost = 1 ∧
      (2 : Byte) ≠ e.answeredPost ∧ (2 : Byte) ≠ 0 := by decide

theorem witness_ScannerGoesOnInOrder :
    ((scanning (.body 5 1) idle).board.phase = .body 5 1 ∧ (scanning (.body 5 1) idle).scannerIssued = true ∧
      (order 2).length = 127) ∧
    (scanning (.answerFirst .first 5 none) idle).board.phase = .answerFirst .first 5 none ∧
      (scanning (.answerFirst .first 5 none) idle).scannerIssued = true := by decide

theorem witness_TornReadSkipsBox :
    (∀ phase ∈ [ScanPhase.hostPost 5, .body 5 1, .secondPost 5 1 [], .baselineRecheck 63 1],
      (scanning phase idle).board.phase.reads = true ∧ (scanning phase idle).scannerIssued = true) ∧
      (∀ phase ∈ [ScanPhase.secondPost 5 1 [], .baselineRecheck 63 1],
        (scanning phase idle).board.phase.rereads = true) ∧
      (scanning (.hostPost 5) idle).bus.scanner = .issued (readBurst 4096 1) 0 ∧
      ([] : List Byte).length < (readBurst 4096 1).length ∧ (readBurst 4096 1).length ≤ [(7 : Byte)].length := by decide

/-- The box that is passed is not the last of the read stage; the last one examined; the eighth taken. -/
theorem witness_BoxPassed :
    let last := { idle with board := { idle.board with examined := 63, firstRound := [7, 9] } }
    let eighth := { idle with board := { idle.board with taken := 7, firstRound := [7, 9] } }
    ¬(8 ≤ idle.board.taken + 1 ∨ 64 ≤ idle.board.examined + 1) ∧ 64 ≤ last.board.examined + 1 ∧
      last.board.firstRound.Pairwise (· < ·) ∧ 8 ≤ eighth.board.taken + 1 ∧
      eighth.board.firstRound.Pairwise (· < ·) := by decide

/-- The second reading differs; equals a post with a final answer; equals another post; equals 0. -/
theorem witness_BaselineIsAdopted :
    let s := scanning (.baselineRecheck 5 1) (idle.setBox 5 (answeredEntry .done false))
    (s.board.phase = .baselineRecheck 5 1 ∧ s.scannerIssued = true ∧ s.board.boxes[(5 : Fin 64)].dirty = false) ∧
      (2 : Byte) ≠ 1 ∧
      (∃ a, s.board.boxes[(5 : Fin 64)].answer = some a ∧ a.outcome ≠ .taken ∧
        (1 : Byte) = s.board.boxes[(5 : Fin 64)].answeredPost) ∧
      (scanning (.baselineRecheck 5 1) idle).board.boxes[(5 : Fin 64)].answer = none ∧
      (scanning (.baselineRecheck 5 0) idle).board.phase = .baselineRecheck 5 0 ∧
      (scanning (.baselineRecheck 5 0) idle).board.boxes[(5 : Fin 64)].dirty = false :=
  ⟨by decide, by decide, ⟨_, rfl, by decide, by decide⟩, by decide⟩

/-- Boxes 5, 7 and 9 dirty, 7 and 9 left to the first round, the scanner writing box 5's answer. -/
def answering (phase : ScanPhase) (left : List (Fin 64)) (o : OrderOutcome) : State :=
  let s := scanning phase (((idle.setBox 5 (answeredEntry o true)).setBox 7 (answeredEntry .done true)).setBox 9
    (answeredEntry .done true))
  { s with board := { s.board with firstRound := left } }

/-- A final answer and one that is TAKEN; two boxes left to the first round, one left to the second, and none. -/
theorem witness_AnswerIsWritten :
    let phase := fun (r : AnswerRound) (o : OrderOutcome) => ScanPhase.answerSecond r 5 (answeredEntry o true).answer
    (∀ o ∈ [OrderOutcome.done, .taken],
      (answering (phase .second o) [] o).board.phase = phase .second o ∧
        (answering (phase .second o) [] o).scannerIssued = true ∧
        ∃ a, (answeredEntry o true).answer = some a ∧ a.outcome = o) ∧
    (let s := answering (phase .first .done) [7, 9] .done
     s.board.phase = phase .first .done ∧ AnswersLawful s ∧ leftToFirst .first s 7 ∧
       ∀ y : Fin 64, leftToFirst .first s y → 7 ≤ y) ∧
    (let s := answering (phase .second .done) [] .done
     AnswersLawful s ∧ (∀ y : Fin 64, ¬leftToFirst .second s y) ∧ leftToSecond .second 5 s 7 ∧
       ∀ y : Fin 64, leftToSecond .second 5 s y → 7 ≤ y) ∧
    (let s := scanning (phase .second .done) (idle.setBox 5 (answeredEntry .done true))
     AnswersLawful s ∧ (∀ y : Fin 64, ¬leftToFirst .second s y) ∧ ∀ y : Fin 64, ¬leftToSecond .second 5 s y) := by
  refine ⟨fun _ _ => ⟨rfl, rfl, _, rfl, rfl⟩, ⟨rfl, ⟨by decide, nofun, ?_⟩, ?_⟩, ⟨⟨by decide, nofun, nofun⟩, ?_⟩,
    ⟨⟨by decide, nofun, nofun⟩, ?_⟩⟩
  · rintro b sent h
    cases h
    decide
  all_goals
    unfold leftToFirst
    try unfold leftToSecond
    decide

/-- Either write, of either round; the boxes left to the rounds are those of the statement before. -/
theorem witness_AnswerFaultKeepsDirty :
    (∀ phase ∈ [ScanPhase.answerFirst .first 5 none, .answerSecond .second 5 none],
      (answering phase [7, 9] .done).board.phase = phase ∧ (answering phase [7, 9] .done).scannerIssued = true ∧
        (5 : Fin 64) ∉ (answering phase [7, 9] .done).board.firstRound) ∧
    AnswersLawful (answering (.answerFirst .first 5 none) [7, 9] .done) ∧
    AnswersLawful (answering (.answerSecond .second 5 none) [7, 9] .done) := by
  refine ⟨by decide, ⟨by decide, ?_, nofun⟩, by decide, nofun, nofun⟩
  rintro b sent h
  cases h
  decide

/-- With and without a follow-up that can run. -/
theorem witness_StatusPageEndsScan :
    let s := scanning .statusPage idle
    PortServed s ∧ s.board.phase = .statusPage ∧ s.scannerIssued = true ∧ s.board.followUp = false ∧
      (let t := scanning .statusPage { idle with board := { idle.board with followUp := true } }
       t.board.phase = .statusPage ∧ t.board.followUp = true ∧ t.device ≠ .init ∧ t.regs.scanEn = true ∧
         windowValid t.regs = true) :=
  ⟨.inr ⟨rfl, rfl, rfl⟩, by decide⟩

/-- Box 5's order of a kind has been read whole and its second post reading is awaited, and a clause's premises hold. -/
def Meets (kind : Option OrderKind) (body : List Byte) (s : State) (premises : State → Prop) : Prop :=
  OrderReached kind 5 1 body (reached body s) ∧ premises (reached body s)

theorem witness_BadKindIsRefused :
    Meets none (order 0) idle (fun _ => True) ∧ Meets none (order 11) idle (fun _ => True) ∧
      (reached (order 2) idle).board.phase = .secondPost 5 1 (order 2) ∧ (reached (order 2) idle).scannerIssued = true ∧
      (2 : Byte) ≠ 1 :=
  ⟨⟨⟨rfl, by decide, by decide⟩, trivial⟩, ⟨⟨rfl, by decide, by decide⟩, trivial⟩, by decide⟩

/-- RECORDING; interval code 4; epoch 2^39 + 1; interval code 3 with epoch 2^39, with and without channels. -/
theorem witness_ConfigureBeginsSession :
    let bad := put 4 1 4 (order 1)
    let high := put 8 5 (2 ^ 39 + 1) (order 1)
    let none' := put 4 1 3 (put 8 5 (2 ^ 39) (order 1))
    let some' := put 22 2 1 none'
    let kind := some OrderKind.configure
    Meets kind (order 1) recording (fun s => s.device ≠ .idle) ∧
      Meets kind bad idle (fun s => s.device = .idle ∧ 3 < bodyField bad 4 1) ∧
      Meets kind high idle (fun s => s.device = .idle ∧ 2 ^ 39 < bodyField high 8 5) ∧
      Meets kind none' idle (fun s => s.device = .idle ∧ bodyField none' 4 1 = 3 ∧ bodyField none' 8 5 = 2 ^ 39 ∧
        ∀ p : Fin 4, min 512 (bodyField none' (16 + 2 * p.val) 2) = 0) ∧
      Meets kind some' idle (fun s => s.device = .idle ∧ bodyField some' 4 1 = 3 ∧ bodyField some' 8 5 = 2 ^ 39 ∧
        min 512 (bodyField some' (16 + 2 * 3) 2) ≠ 0) := by
  refine ⟨?_, ?_, ?_, ?_, ?_⟩ <;> exact ⟨⟨rfl, by decide, by decide⟩, by beta_reduce; decide⟩

/-- IDLE; a bin OPEN; a job in the table; neither, with every port DOWN and with one LIVE. -/
theorem witness_EndRecordingEndsSession :
    let busyBin := recording.setBinRecord 2 (some (bin .opened 0 .zero))
    let busyJob := recording.setJob 31 (some (job .waiting))
    let kind := some OrderKind.endRecording
    Meets kind (order 2) idle (fun s => s.device ≠ .recording) ∧
      Meets kind (order 2) busyBin (fun s => s.device = .recording ∧ s.stack.bins[(2 : Fin 8)].record ≠ none) ∧
      Meets kind (order 2) busyJob (fun s => s.device = .recording ∧ s.sched.jobs[(31 : Fin 32)] ≠ none) ∧
      Meets kind (order 2) recording (fun s => s.device = .recording ∧ (∀ n : Fin 8, s.stack.bins[n].record = none) ∧
        (∀ i : Fin 32, s.sched.jobs[i] = none) ∧ ∀ p : Fin 4, s.ports[p].state = .down) ∧
      Meets kind (order 2) (live 3) (fun s => (∀ n : Fin 8, s.stack.bins[n].record = none) ∧
        (∀ i : Fin 32, s.sched.jobs[i] = none) ∧ s.ports[(0 : Fin 4)].state ≠ .down) := by
  refine ⟨?_, ?_, ?_, ?_, ?_⟩ <;> exact ⟨⟨rfl, by decide, by decide⟩, by beta_reduce; decide⟩

/-- The body of a LOAD_PILOT. -/
def loadOrder (id interval shift length image : Nat) : List Byte :=
  put 12 4 image (put 8 4 length (put 6 1 shift (put 5 1 interval (put 4 1 id (order 3)))))

/-- A load in flight; length 63 and 32,769, shift 48, interval code 4, id 0; another interval; an image off 64 bytes; the
id in use; no room at sixteen entries; and the shortest and the longest load, of a new id and of a known one. -/
theorem witness_LoadPilotStartsCopy :
    let kind := some OrderKind.loadPilot
    let good := loadOrder 9 1 47 64 20480
    let long := loadOrder 9 1 0 32768 20480
    let known := idle.setEntry 0 (some { pilot with useCount := 0 })
    let full := { idle with library :=
      { idle.library with entries := Vector.replicate 16 (some { pilot with id := 8, pages := [] }) } }
    Meets kind good { loading 0 0 1 with board := idle.board } (fun s => s.library.load ≠ none) ∧
      Meets kind (loadOrder 9 1 0 63 20480) idle (fun s => s.library.load = none ∧
        bodyField (loadOrder 9 1 0 63 20480) 8 4 < 64) ∧
      Meets kind (loadOrder 9 1 0 32769 20480) idle (fun s => s.library.load = none ∧
        32768 < bodyField (loadOrder 9 1 0 32769 20480) 8 4) ∧
      Meets kind (loadOrder 9 1 48 64 20480) idle (fun _ => 47 < bodyField (loadOrder 9 1 48 64 20480) 6 1) ∧
      Meets kind (loadOrder 9 4 0 64 20480) idle (fun _ => 3 < bodyField (loadOrder 9 4 0 64 20480) 5 1) ∧
      Meets kind (loadOrder 0 1 0 64 20480) idle (fun _ => bodyField (loadOrder 0 1 0 64 20480) 4 1 = 0) ∧
      Meets kind good (otherInterval idle) (fun s => s.session.map (·.interval) = some 0 ∧ bodyField good 5 1 = 1) ∧
      Meets kind (loadOrder 9 1 0 64 20481) idle (fun s => s.session = none ∧ inBuffer s.regs 20481 128 = false) ∧
      Meets kind good (idle.setEntry 0 (some pilot)) (fun s => s.library.lookup 9 = some 0 ∧
        s.library.entries[(0 : Fin 16)] = some pilot ∧ 0 < pilot.useCount) ∧
      Meets kind good full (fun s => s.library.lookup 9 = none ∧ ∀ i : Fin 16, s.library.entries[i] ≠ none) ∧
      Meets kind good idle (fun s => s.library.load = none ∧ bodyField good 4 1 = 9 ∧ bodyField good 5 1 = 1 ∧
        bodyField good 6 1 = 47 ∧ bodyField good 8 4 = 64 ∧ bodyField good 12 4 = 20480 ∧ s.session = none ∧
        inBuffer s.regs 20480 128 = true ∧ s.library.lookup 9 = none ∧ ¬s.library.freePages.length < 1 ∧
        s.library.entries[(0 : Fin 16)] = none) ∧
      Meets kind long known (fun s => bodyField long 8 4 = 32768 ∧ inBuffer s.regs 20480 65536 = true ∧
        s.library.lookup 9 = some 0 ∧ ¬s.library.freePages.length < 32) := by
  refine ⟨?_, ?_, ?_, ?_, ?_, ?_, ?_, ?_, ?_, ?_, ?_, ?_⟩ <;>
    exact ⟨⟨rfl, by decide, by decide⟩, by beta_reduce; decide⟩

theorem witness_DropPilotFreesEntry :
    let body := put 4 1 9 (order 4)
    let kind := some OrderKind.dropPilot
    Meets kind body idle (fun s => s.library.lookup (bodyField body 4 1) = none) ∧
      Meets kind body (idle.setEntry 15 (some pilot)) (fun s => s.library.lookup (bodyField body 4 1) = some 15 ∧
        s.library.entries[(15 : Fin 16)] = some pilot ∧ 0 < pilot.useCount) ∧
      Meets kind body (idle.setEntry 15 (some { pilot with useCount := 0 })) (fun s =>
        s.library.lookup (bodyField body 4 1) = some 15 ∧
          s.library.entries[(15 : Fin 16)] = some { pilot with useCount := 0 }) := by
  refine ⟨?_, ?_, ?_⟩ <;> exact ⟨⟨rfl, by decide, by decide⟩, by beta_reduce; decide⟩

/-- The body of a SWEEP of pilot 9 at key 0x13, which bin 2 holds. -/
def sweepOrder (fleet t0 : Nat) : List Byte := put 16 4 0x13 (put 8 5 t0 (put 5 1 9 (put 4 1 fleet (order 5))))

/-- `working` with W at `w` and no job. -/
def sweeping (w : Int) (e : PilotEntry) (phase : BinPhase) : State :=
  { (recording.setEntry 0 (some e)).setBinRecord 2 (some (bin phase 0 .zero)) with
    store := { newest := some w, settled := some 200, marks := [], pin := none } }

/-- IDLE; fleet 8; no pilot; a DAMAGED one; no bin; a bin that is not OPEN; a span one below O; a full table; the last
entry free with the span at O, not settled, and with the span settled. -/
theorem witness_SweepEntersJob :
    let kind := some OrderKind.sweep
    let body := sweepOrder 7 150
    let full := { sweeping 200 pilot .opened with
      sched := { recording.sched with jobs := Vector.replicate 32 (some (job .waiting)) } }
    let found := fun (e : PilotEntry) (s : State) => s.device = .recording ∧ bodyField body 4 1 = 7 ∧
      s.library.lookup (bodyField body 5 1) = some 0 ∧ s.library.entries[(0 : Fin 16)] = some e
    let inBin := fun (phase : BinPhase) (s : State) => s.stack.binOfKey (bodyWord body 16) = some 2 ∧
      s.stack.bins[(2 : Fin 8)].record = some (bin phase 0 .zero)
    Meets kind body idle (fun s => s.device ≠ .recording) ∧
      Meets kind (sweepOrder 8 150) recording (fun s => s.device = .recording ∧ 7 < bodyField (sweepOrder 8 150) 4 1) ∧
      Meets kind body recording (fun s => s.library.lookup (bodyField body 5 1) = none) ∧
      Meets kind body (sweeping 200 { pilot with state := .damaged } .opened)
        (fun s => found { pilot with state := .damaged } s) ∧
      Meets kind body (recording.setEntry 0 (some pilot))
        (fun s => found pilot s ∧ s.stack.binOfKey (bodyWord body 16) = none) ∧
      Meets kind body (sweeping 200 pilot .held) (fun s => found pilot s ∧ inBin .held s) ∧
      Meets kind body (sweeping 65686 pilot .opened) (fun s => found pilot s ∧ inBin .opened s ∧
        s.store.newest = some 65686 ∧ (bodyField body 8 5 : Int) + 0 < 65686 - 65535) ∧
      Meets kind body full (fun s => found pilot s ∧ inBin .opened s ∧ s.store.newest = some 200 ∧
        ∀ i : Fin 32, s.sched.jobs[i] ≠ none) ∧
      Meets kind body (sweeping 65685 pilot .opened) (fun s => found pilot s ∧ inBin .opened s ∧
        s.store.newest = some 65685 ∧ ¬(bodyField body 8 5 : Int) + 0 < 65685 - 65535 ∧
        s.sched.jobs[(0 : Fin 32)] = none ∧ s.store.settled = some 200) := by
  refine ⟨?_, ?_, ?_, ?_, ?_, ?_, ?_, ?_, ?_⟩ <;> exact ⟨⟨rfl, by decide, by decide⟩, by beta_reduce; decide⟩

/-- The body of a CANCEL. -/
def cancelOrder (box post : Nat) : List Byte := put 5 1 post (put 4 1 box (order 6))

/-- `working`, with the job's box in a state of its table entry. -/
def cancelling (state : JobState) (o : OrderOutcome) (kind : Byte) : State :=
  (working state (bin .opened 1 .zero)).setBox 6
    { answeredPost := 2, current := some kind, answer := some { outcome := o, reason := .none, words := [] }
      dirty := false, baseline := false }

/-- Box 64; the order itself and another post of its box; another post and a final answer of box 6; a TAKEN order of
another kind; and the job active and waiting. -/
theorem witness_CancelJudgesItsTarget :
    let kind := some OrderKind.cancel
    let body := cancelOrder 6 2
    let sweep := fun (state : JobState) (s : State) => bodyField body 4 1 = 6 ∧
      s.board.boxes[(6 : Fin 64)].answeredPost.toNat = bodyField body 5 1 ∧
      s.board.boxes[(6 : Fin 64)].answer.map (·.outcome) = some .taken ∧
      s.board.boxes[(6 : Fin 64)].current = some 0x05 ∧ s.sched.jobs[(4 : Fin 32)] = some (job state) ∧
      (job state).box = 6 ∧ ∀ k : Fin 32, k < 4 → s.sched.jobs[k] = none
    Meets kind (cancelOrder 64 2) recording (fun _ => 63 < bodyField (cancelOrder 64 2) 4 1) ∧
      Meets kind (cancelOrder 5 2) recording (fun _ => bodyField (cancelOrder 5 2) 4 1 = 5 ∧
        (1 : Byte).toNat ≠ bodyField (cancelOrder 5 2) 5 1) ∧
      Meets kind (cancelOrder 5 1) recording (fun _ => bodyField (cancelOrder 5 1) 4 1 = 5 ∧
        (1 : Byte).toNat = bodyField (cancelOrder 5 1) 5 1) ∧
      Meets kind (cancelOrder 63 2) recording (fun s => bodyField (cancelOrder 63 2) 4 1 = 63 ∧
        s.board.boxes[(63 : Fin 64)].answeredPost.toNat ≠ 2) ∧
      Meets kind body (cancelling .waiting .done 0x05) (fun s =>
        s.board.boxes[(6 : Fin 64)].answer.map (·.outcome) = some .done) ∧
      Meets kind body (cancelling .waiting .taken 0x08) (fun s =>
        s.board.boxes[(6 : Fin 64)].answer.map (·.outcome) = some .taken ∧
          s.board.boxes[(6 : Fin 64)].current = some 0x08) ∧
      Meets kind body (cancelling .active .taken 0x05) (fun s => sweep .active s) ∧
      Meets kind body (cancelling .waiting .taken 0x05) (fun s => sweep .waiting s) := by
  refine ⟨?_, ?_, ?_, ?_, ?_, ?_, ?_, ?_⟩ <;> exact ⟨⟨rfl, by decide, by decide⟩, by beta_reduce; decide⟩

/-- The body of a FLEET_ORDER. -/
def fleetBody (mode flags bottom : Nat) : List Byte := put 6 1 bottom (put 5 1 flags (put 4 1 mode (order 7)))

/-- Mode code 2; a bottom fleet of 8 given; one of 8 not given; one of 7 given. -/
theorem witness_FleetOrderSetsArbitration :
    let kind := some OrderKind.fleetOrder
    Meets kind (fleetBody 2 0 0) idle (fun _ => 1 < bodyField (fleetBody 2 0 0) 4 1) ∧
      Meets kind (fleetBody 1 1 8) idle (fun _ => bodyField (fleetBody 1 1 8) 5 1 % 2 = 1 ∧
        7 < bodyField (fleetBody 1 1 8) 6 1) ∧
      Meets kind (fleetBody 1 0 8) idle (fun _ => bodyField (fleetBody 1 0 8) 4 1 ≤ 1 ∧
        ¬bodyField (fleetBody 1 0 8) 5 1 % 2 = 1) ∧
      Meets kind (fleetBody 0 1 7) idle (fun _ => bodyField (fleetBody 0 1 7) 4 1 ≤ 1 ∧
        bodyField (fleetBody 0 1 7) 5 1 % 2 = 1 ∧ ¬7 < bodyField (fleetBody 0 1 7) 6 1) := by
  refine ⟨?_, ?_, ?_, ?_⟩ <;> exact ⟨⟨rfl, by decide, by decide⟩, by beta_reduce; decide⟩

/-- The body of an OPEN_BIN of lag 0 only. -/
def openOrder (key first count offset : Nat) : List Byte :=
  put 36 4 offset (put 14 2 count (put 12 2 first (put 4 4 key (order 8))))

/-- IDLE; a first channel of 2,048, and a count of 0; an area outside the buffer; a key that bin 2 holds; eight bins in
use; and the last channel into bin 0 and, with bin 0 in use, into bin 1. -/
theorem witness_OpenBinOpensLowestFree :
    let kind := some OrderKind.openBin
    let body := openOrder 0x20 2047 2 20480
    let one := { bin .opened 0 .zero with mask := 0 }
    let first := recording.setBinRecord 0 (some one)
    let full := { recording with stack :=
      { recording.stack with
        bins := Vector.replicate 8 { record := some one, lastExport := .none, heldFaultOffset := 0 } } }
    let channels := fun b => if 2047 < bodyField b 12 2 then 0 else min (bodyField b 14 2) (2048 - bodyField b 12 2)
    let fits := fun s : State => s.device = .recording ∧ channels body = 1 ∧ bodyField body 16 2 = 0 ∧
      bodyField body 18 2 = 0 ∧ bodyField body 36 4 = 20480 ∧ inBuffer s.regs 20480 (1 * (32 + 4 * 1)) = true
    let apart := ∃ i < 32, (bodyWord body 8).getLsbD i = false ∧ one.mask.getLsbD i = false ∧
      (bodyWord body 4).getLsbD i ≠ one.key.getLsbD i
    Meets kind body idle (fun s => s.device ≠ .recording) ∧
      Meets kind (openOrder 0x20 2048 1 20480) recording (fun s => s.device = .recording ∧
        channels (openOrder 0x20 2048 1 20480) = 0) ∧
      Meets kind (openOrder 0x20 0 0 20480) recording (fun _ => channels (openOrder 0x20 0 0 20480) = 0) ∧
      Meets kind (openOrder 0x20 2047 1 20416) recording (fun s => channels (openOrder 0x20 2047 1 20416) = 1 ∧
        inBuffer s.regs 20416 36 = false) ∧
      Meets kind body (recording.setBinRecord 2 (some { one with key := 0x20 })) (fun s => fits s ∧
        s.stack.bins[(2 : Fin 8)].record = some { one with key := 0x20 } ∧
        ∀ i < 32, (bodyWord body 4).getLsbD i = ({ one with key := 0x20 } : BinRecord).key.getLsbD i) ∧
      Meets kind body full (fun s => fits s ∧ apart ∧ ∀ n : Fin 8, s.stack.bins[n].record = some one) ∧
      Meets kind body recording (fun s => fits s ∧ ∀ n : Fin 8, s.stack.bins[n].record = none) ∧
      Meets kind body first (fun s => fits s ∧ apart ∧ s.stack.bins[(0 : Fin 8)].record = some one ∧
        s.stack.bins[(1 : Fin 8)].record = none) := by
  refine ⟨?_, ?_, ?_, ?_, ?_, ?_, ?_, ?_⟩ <;> exact ⟨⟨rfl, by decide, by decide⟩, by beta_reduce; decide⟩

/-- The body of a CLOSE_BIN. -/
def closeOrder (bin offset : Nat) : List Byte := put 8 4 offset (put 4 1 bin (order 9))

/-- RECORDING with bin 2 in a phase. -/
def binIn (phase : BinPhase) (jobs : Nat) : State := recording.setBinRecord 2 (some (bin phase jobs .zero))

/-- IDLE; bin 8; a FREE bin; an EXPORTING one; an offset that does not fit; OPEN with a job; DRAINING; OPEN without a job
with an export in front, and with the window not valid; HELD with a fitting offset; and HELD with its own offset no longer
fitting. -/
theorem witness_CloseBinMovesBin :
    let kind := some OrderKind.closeBin
    let keep := closeOrder 2 0
    let move := closeOrder 2 20544
    let has := fun (phase : BinPhase) (jobs : Nat) (s : State) => s.device = .recording ∧ bodyField keep 4 1 = 2 ∧
      bodyField keep 8 4 = 0 ∧ s.stack.bins[(2 : Fin 8)].record = some (bin phase jobs .zero)
    let behindOne := { binIn .opened 0 with stack := { (binIn .opened 0).stack with exportQueue := [6] } }
    let noWindow := { binIn .opened 0 with regs := { recording.regs with size := 0 } }
    let outside := recording.setBinRecord 2 (some { bin .held 0 .zero with exportOffset := 1048576 })
    Meets kind keep idle (fun s => s.device ≠ .recording) ∧
      Meets kind (closeOrder 8 0) recording (fun s => s.device = .recording ∧ 7 < bodyField (closeOrder 8 0) 4 1) ∧
      Meets kind keep recording (fun s => s.stack.bins[(2 : Fin 8)].record = none) ∧
      Meets kind keep (binIn .exporting 0) (fun s => has .exporting 0 s) ∧
      Meets kind (closeOrder 2 20481) (binIn .held 0) (fun s => bodyField (closeOrder 2 20481) 8 4 ≠ 0 ∧
        inBuffer s.regs (bodyField (closeOrder 2 20481) 8 4) 44 = false) ∧
      Meets kind keep (binIn .opened 1) (fun s => has .opened 1 s) ∧
      Meets kind keep (binIn .draining 1) (fun s => has .draining 1 s) ∧
      Meets kind keep behindOne (fun s => has .opened 0 s ∧ s.stack.exportQueue ≠ []) ∧
      Meets kind keep noWindow (fun s => has .opened 0 s ∧ windowValid s.regs = false) ∧
      Meets kind move (binIn .held 0) (fun s => s.stack.bins[(2 : Fin 8)].record = some (bin .held 0 .zero) ∧
        s.stack.exportQueue = [] ∧ windowValid s.regs = true ∧ bodyField move 8 4 = 20544 ∧
        inBuffer s.regs 20544 44 = true) ∧
      Meets kind keep outside (fun s => s.stack.exportQueue = [] ∧ windowValid s.regs = true ∧
        s.stack.bins[(2 : Fin 8)].record = some { bin .held 0 .zero with exportOffset := 1048576 } ∧
        inBuffer s.regs 1048576 44 = false) := by
  refine ⟨?_, ?_, ?_, ?_, ?_, ?_, ?_, ?_, ?_, ?_, ?_⟩ <;>
    exact ⟨⟨rfl, by decide, by decide⟩, by beta_reduce; decide⟩

theorem witness_DiscardBinFreesBin :
    let kind := some OrderKind.discardBin
    let body := put 4 1 2 (order 10)
    let has := fun (phase : BinPhase) (jobs : Nat) (s : State) => s.device = .recording ∧ bodyField body 4 1 = 2 ∧
      s.stack.bins[(2 : Fin 8)].record = some (bin phase jobs .zero)
    Meets kind body idle (fun s => s.device ≠ .recording) ∧
      Meets kind (put 4 1 8 (order 10)) recording (fun _ => 7 < bodyField (put 4 1 8 (order 10)) 4 1) ∧
      Meets kind body recording (fun s => s.stack.bins[(2 : Fin 8)].record = none) ∧
      Meets kind body (binIn .exporting 0) (fun s => has .exporting 0 s) ∧
      Meets kind body (binIn .draining 1) (fun s => has .draining 1 s) ∧
      Meets kind body (binIn .opened 1) (fun s => has .opened 1 s) ∧
      Meets kind body (binIn .held 0) (fun s => has .held 0 s) ∧
      Meets kind body (binIn .opened 0) (fun s => has .opened 0 s) := by
  refine ⟨?_, ?_, ?_, ?_, ?_, ?_, ?_, ?_⟩ <;> exact ⟨⟨rfl, by decide, by decide⟩, by beta_reduce; decide⟩

/-- A writer's burst stands in the exporter's slot, and all that is formed is accounted for. -/
theorem exporting_lawful (n : Nat) (h : n = 43 ∨ n = 44) :
    QueueLawful (exporting 0 n).stack ∧ WriterLawful (exporting 0 n) := by
  rcases h with rfl | rfl <;>
    exact ⟨queue_lawful (by decide) (by decide) (fun w h => by cases h; rfl), fun w r hw hr => by
      cases hw
      cases hr
      exact ⟨_, .inr ⟨_, rfl⟩, by decide, by decide⟩⟩

/-- The burst before the last byte, the last burst with no bin waiting, and with bin 6 waiting at the head. -/
theorem witness_ExportBurstReports :
    (∀ n ∈ [43, 44], (exporting 0 n).bus.exporter = .issued (writeBurst 20480 (zeroBytes n)) 0 ∧
      (exporting 0 n).stack.exportQueue.drop 1 = [] ∧ ((exporting 0 n).stack.writer.map (·.bin)) = some 2 ∧
      (exporting 0 n).stack.bins[(2 : Fin 8)].record = some (bin .exporting 0 .zero)) ∧
    (∀ n ∈ [43, 44], QueueLawful (exporting 0 n).stack ∧ WriterLawful (exporting 0 n)) ∧
    PortServed (exporting 0 44) ∧ 0 + 43 < 1 * (32 + 4 * 3) ∧ 1 * (32 + 4 * 3) ≤ 0 + 44 ∧
      (let s := (exporting 0 44).setBinRecord 6 (some (bin .exporting 0 .zero))
       let t := { s with stack := { s.stack with exportQueue := [2, 6] } }
       t.stack.exportQueue.drop 1 = 6 :: [] ∧ (6 : Fin 8) ≠ 2 ∧
         t.stack.bins[(6 : Fin 8)].record = some (bin .exporting 0 .zero) ∧ windowValid t.regs = true ∧
         inBuffer t.regs 20480 (extentLength 1 3) = true) :=
  ⟨by decide, fun n hn => exporting_lawful n (by simpa using hn), .inr ⟨rfl, rfl, rfl⟩, by decide⟩

/-! The properties that every step keeps hold of a part at work, and it has a next state. -/

/-- RECORDING with port 0 LIVE, bin 2 OPEN, and a frame waiting. -/
def atWork : State :=
  { (live 3).setBinRecord 2 (some (bin .opened 0 .zero)) with pending := [.frameArrival 0 (frame 0 201 [5]) []] }

theorem witness_MemoryStaysCanonical : MemoryCanonical atWork ∧ ∃ t, step atWork = .next t :=
  ⟨by unfold MemoryCanonical; decide, _, rfl⟩

theorem witness_PriorityAndPortStayLawful :
    (PriorityLawful atWork ∧ PortServed atWork ∧ AnswersLawful atWork) ∧ ∃ t, step atWork = .next t :=
  ⟨⟨by unfold PriorityLawful; decide, .inr ⟨rfl, rfl, rfl⟩, by decide, nofun, nofun⟩, _, rfl⟩

theorem witness_PortsStayLawful : PortsLawful atWork ∧ ∃ t, step atWork = .next t := by
  refine ⟨fun p => ?_, _, rfl⟩
  match p with
  | 0 => exact ⟨by decide, by decide, by decide, by decide, by decide, by decide, by decide, by decide, by decide⟩
  | 1 => exact ⟨by decide, by decide, by decide, by decide, by decide, by decide, by decide, by decide, by decide⟩
  | 2 => exact ⟨by decide, by decide, by decide, by decide, by decide, by decide, by decide, by decide, by decide⟩
  | 3 => exact ⟨by decide, by decide, by decide, by decide, by decide, by decide, by decide, by decide, by decide⟩

theorem witness_KeySetsStayDisjoint : BinsDisjoint atWork ∧ ∃ t, step atWork = .next t := by
  have only : ∀ b : Fin 8, b ≠ 2 → atWork.stack.bins[b].record = none := by decide
  refine ⟨fun b c r q apart hb hc => ?_, _, rfl⟩
  by_cases h : b = 2
  · exact nomatch (only c fun e => apart (h.trans e.symm)).symm.trans hc
  · exact nomatch (only b h).symm.trans hb

/-- A part at work, and one whose export writer waits for the report of a burst. -/
theorem witness_WorkStaysLawful :
    ∀ s ∈ [atWork, { exporting 0 43 with pending := [.exportBurstDone []] }],
      (WorkLawful s ∧ WriterLawful s) ∧ ∃ t, step s = .next t := by
  have lawful : ∀ s : State, s.device = .recording → s.session.isSome = true → QueueLawful s.stack →
      s.engine = .noPass → s.store.pin = none → (∀ i : Fin 32, s.sched.jobs[i].map (·.state) ≠ some .active) →
      WorkLawful s := by
    intro s hd hs hq he hp hj
    have away : ∀ p : Prop, s.device ≠ .recording → p := fun _ h => absurd hd h
    refine ⟨⟨by simp [hd, hs], away _, away _, away _, away _⟩, ⟨fun i => ⟨?_, ?_⟩, ⟨?_, ?_⟩⟩, hq⟩
    · rw [he]
      exact nofun
    · rintro ⟨j, h, ha⟩
      exact absurd (by rw [h]; exact congrArg some ha) (hj i)
    · rw [hp]
      exact nofun
    · rintro ⟨r, pilot, finished, reading, h⟩
      exact nomatch he.symm.trans h
  intro s hs
  simp only [List.mem_cons, List.not_mem_nil, or_false] at hs
  rcases hs with rfl | rfl
  · exact ⟨⟨lawful _ rfl rfl (queue_lawful .nil (by decide) nofun) rfl rfl (by decide), nofun⟩, _, rfl⟩
  · exact ⟨⟨lawful _ rfl rfl (exporting_lawful 43 (.inl rfl)).1 rfl rfl (by decide), (exporting_lawful 43 (.inl rfl)).2⟩,
      _, rfl⟩

theorem witness_SettledIndexStaysLawful :
    StoreLawful atWork ∧ atWork.device = .recording ∧ atWork.store.newest = some 200 ∧
      atWork.store.settled = some 200 ∧ ∃ t, step atWork = .next t ∧ t.device = .recording ∧
        t.store.newest = some 201 ∧ t.store.settled = some 201 := by
  have counted : ∀ p : Fin 4, atWork.ports[p].counted = true → p = 0 := by decide
  refine ⟨fun _ => ⟨200, 200, rfl, rfl, by decide, by decide, fun p hp => ?_, fun _ => ⟨0, by decide⟩⟩, rfl, rfl, rfl, _,
    rfl, by decide⟩
  cases counted p hp
  exact ⟨200, by decide⟩

end Sys2Proof.Tests
end

section
/-! PROOFS. Session, passes, pin, jobs, queue of EXPORTING bins and writer stay in agreement (O59). -/

namespace Sys2Proof.Machine

/-! ## What an operation keeps -/

/-- An operation keeps the four parts of the agreement. The writer's progress may rest on the queue, and session and
passes on each other, as they are at the start. -/
structure Keeps (s t : State) : Prop where
  queue : QueueLawful s.stack → QueueLawful t.stack
  writer : QueueLawful s.stack → WriterLawful s → WriterLawful t
  pass : SessionLawful s → PassLawful s → PassLawful t
  session : PassLawful s → SessionLawful s → SessionLawful t

theorem Keeps.refl (s : State) : Keeps s s := ⟨id, fun _ => id, fun _ => id, fun _ => id⟩

theorem Keeps.trans {s t u : State} (h : Keeps s t) (k : Keeps t u) : Keeps s u :=
  ⟨k.queue ∘ h.queue, fun hq hw => k.writer (h.queue hq) (h.writer hq hw),
    fun hs hp => k.pass (h.session hp hs) (h.pass hs hp), fun hp hs => k.session (h.pass hs hp) (h.session hp hs)⟩

/-- The same, read from the end. -/
theorem Keeps.after {s t u : State} (k : Keeps t u) (h : Keeps s t) : Keeps s u := h.trans k

/-! ## Congruence: each part rests on a few fields -/

theorem PassLawful.of_eq {s t : State} (h : PassLawful s) (hj : t.sched.jobs = s.sched.jobs)
    (he : t.engine = s.engine) (hp : t.store.pin = s.store.pin) : PassLawful t :=
  ⟨fun i => by rw [hj, he]; exact h.active i, by rw [hp, he]; exact h.pin⟩

/-- The exporter's slot holds a burst, waiting or on the link. -/
def Slot.holds (x : Slot) (burst : Burst) : Prop := x = .waiting burst ∨ ∃ host, x = .issued burst host

/-- Every record of `b` is one of `a` at the same bin, with the same channels and lags. -/
def SameGeometry (a b : StackUnit) : Prop :=
  ∀ (i : Fin 8) (r : BinRecord), b.bins[i].record = some r →
    ∃ q, a.bins[i].record = some q ∧ r.channelCount = q.channelCount ∧ r.lags = q.lags

theorem SameGeometry.refl (a : StackUnit) : SameGeometry a a := fun _ r hr => ⟨r, hr, rfl, rfl⟩

/-- Replacing the record of a bin by one of the same geometry, or by none. -/
theorem SameGeometry.set {a : StackUnit} {b : Fin 8} {x : Bin} {c : StackUnit} (hc : c.bins = a.bins.set b x)
    (hx : ∀ r, x.record = some r → ∃ q, a.bins[b].record = some q ∧ r.channelCount = q.channelCount ∧ r.lags = q.lags) :
    SameGeometry a c := by
  intro i r hr
  rw [hc, set_get] at hr
  split at hr
  · rename_i e
    subst e
    exact hx r hr
  · exact ⟨r, hr, rfl, rfl⟩

/-- The writer's progress stays in order while its record keeps its channels and lags and the exporter's slot its
burst. -/
theorem WriterLawful.of_geometry {s t : State} (h : WriterLawful s) (hw : t.stack.writer = s.stack.writer)
    (hg : SameGeometry s.stack t.stack) (hx : ∀ b, s.bus.exporter.holds b → t.bus.exporter.holds b) :
    WriterLawful t := by
  intro w r hwt hr
  obtain ⟨q, hq, hc, hl⟩ := hg _ r hr
  obtain ⟨burst, hb, h1, h2⟩ := h w q (hw ▸ hwt) hq
  exact ⟨burst, hx burst hb, hc ▸ h1, hl ▸ h2⟩

/-- Without a writer there is no progress to keep. -/
theorem WriterLawful.of_none {t : State} (h : t.stack.writer = none) : WriterLawful t := fun w r hw => by
  rw [h] at hw
  cases hw

/-- Outside RECORDING there is no work. -/
structure Unworked (s : State) : Prop where
  ports : ∀ p : Fin 4, s.ports[p].state = .down
  store : s.store = .reset
  jobs : ∀ i : Fin 32, s.sched.jobs[i] = none
  bins : ∀ b : Fin 8, s.stack.bins[b].record = none

theorem SessionLawful.unworked {s : State} (h : SessionLawful s) (hd : s.device ≠ .recording) : Unworked s :=
  ⟨h.ports hd, h.store hd, h.jobs hd, h.bins hd⟩

theorem SessionLawful.of_unworked {s : State} (hr : s.device = .recording ↔ s.session.isSome = true)
    (h : s.device ≠ .recording → Unworked s) : SessionLawful s :=
  ⟨hr, fun hd => (h hd).ports, fun hd => (h hd).store, fun hd => (h hd).jobs, fun hd => (h hd).bins⟩

/-- Device and session stay, and what is without work stays so. -/
theorem SessionLawful.of_same {s t : State} (h : SessionLawful s) (hd : t.device = s.device)
    (hs : t.session = s.session) (hu : Unworked s → Unworked t) : SessionLawful t :=
  .of_unworked (by rw [hd, hs]; exact h.recording) fun k => hu (h.unworked (hd ▸ k))

/-- Outside RECORDING no pass is in flight, since no entry of the job table holds a job. -/
theorem PassLawful.noPass {s : State} (h : PassLawful s) (hj : ∀ i : Fin 32, s.sched.jobs[i] = none) :
    s.engine = .noPass := by
  have none_active : s.engine.activeJob = none := by
    rw [Option.eq_none_iff_forall_ne_some]
    intro i hi
    obtain ⟨j, hj', -⟩ := (h.active i).mp hi
    rw [hj i] at hj'
    cases hj'
  cases he : s.engine with
  | noPass => rfl
  | compute => simp [he, Engine.activeJob] at none_active
  | stack => simp [he, Engine.activeJob] at none_active

/-! ## The kinds of operation -/

/-- Only the Stack Unit and the exporter's slot change. -/
theorem Keeps.of_stack {s t : State} (hd : t.device = s.device) (hs : t.session = s.session)
    (hp : t.ports = s.ports) (hst : t.store = s.store) (hj : t.sched.jobs = s.sched.jobs) (he : t.engine = s.engine)
    (hm : StackMoves (QueueLawful s.stack) s.stack t.stack)
    (hw : QueueLawful s.stack → WriterLawful s → WriterLawful t) : Keeps s t :=
  ⟨fun hq => hm.queue hq hq, hw, fun _ h => h.of_eq hj he (by rw [hst]), fun _ h =>
    h.of_same hd hs fun u => ⟨by rw [hp]; exact u.ports, by rw [hst]; exact u.store, by rw [hj]; exact u.jobs,
      fun b => hm.free b (u.bins b)⟩⟩

/-- Nothing of the work changes but, perhaps, that the exporter's burst is issued. -/
theorem Keeps.of_frame {s t : State} (hd : t.device = s.device) (hs : t.session = s.session) (hp : t.ports = s.ports)
    (hst : t.store = s.store) (hj : t.sched.jobs = s.sched.jobs) (he : t.engine = s.engine) (hk : t.stack = s.stack)
    (hx : ∀ b, s.bus.exporter.holds b → t.bus.exporter.holds b) : Keeps s t :=
  .of_stack hd hs hp hst hj he (by rw [hk]) fun _ h =>
    h.of_geometry (by rw [hk]) (by rw [hk]; exact .refl _) hx

/-- Nothing of the work differs. -/
def SameWork (s t : State) : Prop :=
  t.device = s.device ∧ t.session = s.session ∧ t.ports = s.ports ∧ t.store = s.store ∧
    t.sched.jobs = s.sched.jobs ∧ t.engine = s.engine ∧ t.stack = s.stack ∧ t.bus.exporter = s.bus.exporter

theorem Keeps.of_same {s t : State} (h : SameWork s t) : Keeps s t := by
  obtain ⟨hd, hs, hp, hst, hj, he, hk, hx⟩ := h
  exact .of_frame hd hs hp hst hj he hk (by rw [hx]; exact fun _ => id)

/-- Only ports and store change; a DOWN port stays DOWN, an empty store empty, and the pin as it is. -/
theorem Keeps.of_ports {s t : State} (hd : t.device = s.device) (hs : t.session = s.session)
    (hp : ∀ p : Fin 4, s.ports[p].state = .down → t.ports[p].state = .down)
    (hst : s.store = .reset → t.store = .reset) (hpin : t.store.pin = s.store.pin)
    (hj : t.sched.jobs = s.sched.jobs) (he : t.engine = s.engine) (hk : t.stack = s.stack)
    (hx : t.bus.exporter = s.bus.exporter) : Keeps s t :=
  ⟨by rw [hk]; exact id,
    fun _ h => h.of_geometry (by rw [hk]) (by rw [hk]; exact .refl _) (by rw [hx]; exact fun _ => id),
    fun _ h => h.of_eq hj he hpin, fun _ h =>
    h.of_same hd hs fun u => ⟨fun p => hp p (u.ports p), hst u.store, by rw [hj]; exact u.jobs, by rw [hk]; exact u.bins⟩⟩

/-- One entry of the job table changes and the Stack Unit moves; the changed job is ACTIVE exactly if it was. -/
theorem Keeps.of_job {s t : State} (hd : t.device = s.device) (hs : t.session = s.session) (hp : t.ports = s.ports)
    (hst : t.store = s.store) (he : t.engine = s.engine)
    (hj : ∀ i : Fin 32, (∃ j, t.sched.jobs[i] = some j ∧ j.state = .active) ↔ ∃ j, s.sched.jobs[i] = some j ∧ j.state = .active)
    (hn : Unworked s → ∀ i : Fin 32, t.sched.jobs[i] = none)
    (hm : StackMoves (QueueLawful s.stack) s.stack t.stack)
    (hw : QueueLawful s.stack → WriterLawful s → WriterLawful t) : Keeps s t :=
  ⟨fun hq => hm.queue hq hq, hw, fun _ h => ⟨fun i => by rw [he, h.active i, hj], by rw [hst, he]; exact h.pin⟩, fun _ h =>
    h.of_same hd hs fun u => ⟨by rw [hp]; exact u.ports, by rw [hst]; exact u.store, hn u,
      fun b => hm.free b (u.bins b)⟩⟩

/-- A part with a session and no premise on its work. -/
theorem SessionLawful.of_recording {t : State} (hd : t.device = .recording) (hs : t.session.isSome = true) :
    SessionLawful t := .of_unworked (iff_of_true hd hs) fun k => absurd hd k

end Sys2Proof.Machine
end

section
/-! PROOFS. The issue port, the writer of exports, the jobs, the arbiter and the ends of passes keep the agreement (O59). -/

namespace Sys2Proof.Machine

/-! ## The issue port -/

theorem serveIssuePort_holds (s : State) (b : Burst) (h : s.bus.exporter.holds b) :
    (serveIssuePort s).bus.exporter.holds b := by
  unfold serveIssuePort
  split
  · exact h
  · split
    · unfold refreshAnswer
      split <;> exact h
    · rename_i b' he _
      rw [he] at h
      obtain e | ⟨host, e⟩ := h
      · cases e
        exact .inr ⟨_, rfl⟩
      · cases e
    · exact h
    · exact h

theorem serveIssuePort_keeps (s : State) : Keeps s (serveIssuePort s) :=
  .of_frame (by simp) (by simp) (by simp) (by simp) (by simp) (by simp) (by simp) (serveIssuePort_holds s)

/-- An operation on the part, and the issue port serves what it posted. -/
theorem Keeps.served {s t : State} (h : Keeps s t) : Keeps s (serveIssuePort t) := h.trans (serveIssuePort_keeps t)

/-! ## The writer of exports -/

/-- A burst carries the writer on: what is formed beyond the completed bursts is what the records formed before left
over, and the records formed for the burst. -/
theorem withExportBurst_writer {w : Writer} {r : BinRecord} {s : State} (hn : w.nextChannel ≤ r.channelCount)
    (hl : w.written + w.formed.length = w.nextChannel * (32 + 4 * r.lags)) : WriterLawful (withExportBurst w r s) := by
  intro w' r' hw hr
  obtain rfl := Option.some.inj hw
  obtain rfl : r.afterForming s.dram w.bin (channelsFormed w r
      (burstLength (r.exportOffset + w.written) (r.exportOffset + r.channelCount * (32 + 4 * r.lags)))) = r' := by
    simpa [withExportBurst] using hr
  refine ⟨_, .inl rfl, ?_, ?_⟩
  · simp only [BinRecord.afterForming, channelsFormed, List.length_range']
    omega
  · generalize channelsFormed w r _ = formed
    have hrec : ((formed.map (exportedRecord s.dram w.bin r)).flatten).length = formed.length * (32 + 4 * r.lags) := by
      simp [List.length_flatten, Function.comp_def, exportedRecord_length]
    have hlags : (r.afterForming s.dram w.bin formed).lags = r.lags := rfl
    simp only [hlags, List.length_take, List.length_drop, List.length_append, hrec, Nat.add_mul, ← hl]
    omega

theorem postExportBurst_writer {w : Writer} {r : BinRecord} {s : State} (hr : s.stack.bins[w.bin].record = some r)
    (hn : w.nextChannel ≤ r.channelCount)
    (hl : w.written + w.formed.length = w.nextChannel * (32 + 4 * r.lags)) : WriterLawful (postExportBurst w s) := by
  rw [postExportBurst_eq hr]
  exact withExportBurst_writer hn hl

/-- Without a writer the queue may begin: a writer that starts has formed and written nothing. -/
theorem beginExport_writer (n : Nat) {s : State} (h : s.stack.writer = none) : WriterLawful (beginExport n s) := by
  induction n generalizing s with
  | zero => exact .of_none h
  | succ n ih =>
    unfold beginExport
    split
    · exact .of_none h
    · split
      · exact .of_none h
      · split
        · exact .of_none h
        · rename_i hr
          split
          · exact postExportBurst_writer (w := .start _) hr (Nat.zero_le _) (by simp [Writer.start])
          · exact ih rfl

/-- At an empty queue no writer is at work. -/
theorem QueueLawful.no_writer {a : StackUnit} (h : QueueLawful a) (he : a.exportQueue = []) : a.writer = none := by
  rw [Option.eq_none_iff_forall_ne_some]
  intro w hw
  have := h.head w hw
  rw [he] at this
  cases this

theorem enterExporting_writer {b : Fin 8} {q r : BinRecord} {s : State} (hq : s.stack.bins[b].record = some q)
    (hc : r.channelCount = q.channelCount) (hl : r.lags = q.lags) (h : QueueLawful s.stack) (hw : WriterLawful s) :
    WriterLawful (enterExporting b r s) := by
  unfold enterExporting
  dsimp only
  split
  · rename_i he
    exact beginExport_writer _ (h.no_writer (List.isEmpty_iff.mp he))
  · refine hw.of_geometry rfl (.set (b := b) rfl ?_) (fun _ => id)
    rintro _ ⟨⟩
    exact ⟨q, hq, hc, hl⟩

theorem drainTest_keeps (b : Fin 8) (s : State) : Keeps s (drainTest b s) := by
  refine .of_stack (by simp) (by simp) (by simp) (by simp) (by simp) (by simp) (drainTest_moves b s) fun hq hw => ?_
  unfold drainTest
  split
  · rename_i r hr
    split
    · exact enterExporting_writer hr rfl rfl hq hw
    · exact hw
  · exact hw

/-- Replacing the record of a bin by one of the same key set, phase and geometry. -/
theorem setBinRecord_keeps {s : State} {b : Fin 8} {q r : BinRecord} (hq : s.stack.bins[b].record = some q)
    (hm : StackMoves (QueueLawful s.stack) s.stack (s.setBinRecord b (some r)).stack)
    (hc : r.channelCount = q.channelCount) (hl : r.lags = q.lags) : Keeps s (s.setBinRecord b (some r)) := by
  refine .of_stack rfl rfl rfl rfl rfl rfl hm fun _ hw => hw.of_geometry rfl (.set (b := b) rfl ?_) (fun _ => id)
  rintro _ ⟨⟩
  exact ⟨q, hq, hc, hl⟩

theorem exportBurstCompleted_keeps {b : Burst} {s : State} (hb : s.bus.exporter.issuedBurst = some b) :
    Keeps s (exportBurstCompleted b s) := by
  refine ⟨fun h => (exportBurstCompleted_moves (Q := True) b s fun _ => h).queue trivial h, fun hq hw => ?_,
    fun _ h => h.of_eq (by simp) (by simp) (by simp), fun _ h => ?_⟩
  · unfold exportBurstCompleted
    split
    · rename_i hn
      exact .of_none hn
    · rename_i w hs
      dsimp only
      split
      · rename_i hn
        intro w' r hw' hr
        rw [show w' = w from Option.some.inj (hw'.symm.trans hs)] at hr
        exact absurd (hr.symm.trans hn) nofun
      · rename_i r hr
        split
        · exact beginExport_writer _ rfl
        · obtain ⟨burst, hx, h1, h2⟩ := hw w r hs hr
          obtain rfl : burst = b := by
            obtain e | ⟨host, e⟩ := hx <;> rw [e] at hb
            · cases hb
            · exact Option.some.inj hb
          exact postExportBurst_writer
            (w := { w with written := w.written + burst.length }) hr h1 h2
  · exact h.of_same (by simp) (by simp) fun u => ⟨by simpa using u.ports, by simpa using u.store, by simpa using u.jobs,
      fun i => (exportBurstCompleted_moves (Q := False) b s nofun).free i (u.bins i)⟩

theorem exportBurstFailed_keeps (b : Burst) (s : State) : Keeps s (exportBurstFailed b s) := by
  refine ⟨fun h => (exportBurstFailed_moves (Q := True) b s fun _ => h).queue trivial h, fun hq hw => ?_,
    fun _ h => h.of_eq (by simp) (by simp) (by simp), fun _ h => ?_⟩
  · unfold exportBurstFailed
    split
    · rename_i hn
      exact .of_none (by simpa using hn)
    · rename_i w hs
      dsimp only
      split
      · rename_i hn
        intro w' r hw' hr
        have e : ((s.setSlot .exporter .empty).busFault .exporter).stack = s.stack := by simp
        rw [e] at hw' hr hn
        rw [show w' = w from Option.some.inj (hw'.symm.trans hs)] at hr
        exact absurd (hr.symm.trans hn) nofun
      · exact beginExport_writer _ rfl
  · exact h.of_same (by simp) (by simp) fun u => ⟨by simpa using u.ports, by simpa using u.store, by simpa using u.jobs,
      fun i => (exportBurstFailed_moves (Q := False) b s nofun).free i (u.bins i)⟩

/-! ## Jobs -/

theorem releasePending_geometry {b : Bin} {r : BinRecord} (h : (releasePending b).record = some r) :
    ∃ q, b.record = some q ∧ r.channelCount = q.channelCount ∧ r.lags = q.lags := by
  obtain ⟨q, hq, rfl⟩ := Option.map_eq_some_iff.mp h
  exact ⟨q, hq, rfl, rfl⟩

theorem dropJob_writer (i : Fin 32) (j : Job) (o : OrderOutcome) (x : Reason) {s : State} (hw : WriterLawful s) :
    WriterLawful (dropJob i j o x s) :=
  hw.of_geometry (by simp) (.set (b := j.bin) (by simp) fun _ => releasePending_geometry) (by simp)

theorem endJob_writer (i : Fin 32) (o : OrderOutcome) (x : Reason) {s : State} (hq : QueueLawful s.stack)
    (hw : WriterLawful s) : WriterLawful (endJob i o x s) := by
  unfold endJob
  split
  · rename_i j _
    exact (drainTest_keeps j.bin _).writer ((dropJob_moves (Q := True) i j o x s).queue trivial hq) (dropJob_writer i j o x hw)
  · exact hw

/-- A job that is not ACTIVE ends. -/
theorem endJob_keeps {i : Fin 32} (o : OrderOutcome) (x : Reason) {s : State}
    (h : PassLawful s → s.engine.activeJob ≠ some i) : Keeps s (endJob i o x s) := by
  refine ⟨fun hq => (endJob_moves (Q := True) i o x s).queue trivial hq, endJob_writer i o x, fun _ hp => ⟨fun k => ?_, by simpa using hp.pin⟩,
    fun _ hs => hs.of_same (by simp) (by simp) fun u => ⟨by simpa using u.ports, by simpa using u.store, fun k => ?_,
      fun b => (endJob_moves (Q := False) i o x s).free b (u.bins b)⟩⟩
  · rw [endJob_jobs]
    simp only [endJob_frame]
    split
    · rename_i e
      subst e
      exact iff_of_false (h hp) (by rintro ⟨j, hj, -⟩; cases hj)
    · exact hp.active k
  · rw [endJob_jobs]
    split
    · rfl
    · exact u.jobs k

/-- With a free Engine a job becomes ACTIVE and the pin is set: a pass starts. -/
theorem startPass_keeps {i : Fin 32} {j : Job} {e : PilotEntry} {r : BinRecord} {s : State}
    (hf : s.engine = .noPass) (hj : s.sched.jobs[i] = some j) : Keeps s (startPass i j e r s) := by
  refine ⟨id, fun _ h => h.of_geometry rfl (.refl _) (fun _ => id), fun _ hp => ⟨fun k => ?_, ?_⟩, fun _ hs => ?_⟩
  · have free : ¬∃ q, s.sched.jobs[k] = some q ∧ q.state = .active := by
      rw [← hp.active k, hf]
      exact nofun
    simp only [startPass_frame, set_get]
    split
    · rename_i e
      subst e
      exact iff_of_true rfl ⟨_, rfl, rfl⟩
    · rename_i e
      exact iff_of_false (fun k => e (Option.some.inj k)) free
  · exact iff_of_true rfl ⟨_, _, _, _, rfl⟩
  · refine hs.of_same rfl rfl fun u => ?_
    rw [u.jobs i] at hj
    cases hj

theorem arbitrateLoop_keeps (n : Nat) {s : State} (hf : s.engine = .noPass) : Keeps s (arbitrateLoop n s) := by
  induction n generalizing s with
  | zero => exact .refl s
  | succ n ih =>
    have ended : ∀ (i : Fin 32) (o : OrderOutcome) (x : Reason), Keeps s (arbitrateLoop n (endJob i o x s)) := fun i o x =>
      (endJob_keeps o x fun _ => by rw [hf]; exact nofun).trans (ih (by simpa using hf))
    unfold arbitrateLoop
    split
    · exact .refl s
    · rename_i i _
      split
      · exact .refl s
      · rename_i j hj
        split
        · split
          · exact ended ..
          · split
            · exact ended ..
            · exact startPass_keeps hf hj
        · exact .refl s

theorem isFree_iff {e : Engine} : e.isFree = true ↔ e = .noPass := by cases e <;> simp [Engine.isFree]

theorem arbitrate_keeps (s : State) : Keeps s (arbitrate s) := by
  unfold arbitrate
  split
  · rename_i h
    exact arbitrateLoop_keeps _ (isFree_iff.mp h)
  · exact .refl s

/-- A settled job is not ACTIVE. -/
theorem settleJob_inactive (i : Fin 32) (j k : Job) (kind : PassEnd) (s : State)
    (h : (settleJob i j kind s).sched.jobs[i] = some k) : k.state ≠ .active := by
  have ended : ∀ (o : OrderOutcome) (x : Reason) (u : State), (endJob i o x u).sched.jobs[i] ≠ some k := fun o x u => by
    rw [endJob_jobs, if_pos rfl]
    exact nofun
  unfold settleJob at h
  split at h
  · dsimp only at h
    split at h
    · exact (ended _ _ _ h).elim
    · split at h
      · simp only [setJob_frame, set_get_self] at h
        cases h
        simp
      · exact (ended _ _ _ h).elim
  · split at h <;> exact (ended _ _ _ h).elim
  · split at h <;> exact (ended _ _ _ h).elim

theorem settleJob_writer (i : Fin 32) (j : Job) (kind : PassEnd) {s : State} (hq : QueueLawful s.stack)
    (hw : WriterLawful s) : WriterLawful (settleJob i j kind s) := by
  have counted : WriterLawful (s.setJob i (some (countBlock j))) := hw.of_geometry rfl (.refl _) (fun _ => id)
  unfold settleJob
  split
  · dsimp only
    split
    · exact endJob_writer _ _ _ hq counted
    · split
      · exact hw.of_geometry rfl (.refl _) (fun _ => id)
      · exact endJob_writer _ _ _ hq counted
  · split <;> exact endJob_writer _ _ _ hq hw
  · split <;> exact endJob_writer _ _ _ hq hw

theorem endPass_writer (kind : PassEnd) {s : State} (hq : QueueLawful s.stack) (hw : WriterLawful s) :
    WriterLawful (endPass kind s) := by
  unfold endPass
  split
  · exact hw
  · have free : WriterLawful { s with engine := .noPass } := hw.of_geometry rfl (.refl _) (fun _ => id)
    dsimp only
    split
    · exact free
    · exact settleJob_writer _ _ _ (by simpa using hq) (free.of_geometry (by simp) (by simpa using .refl _) (by simp))

/-- The job of a pass that has ended is not ACTIVE. -/
theorem endPass_inactive {i : Fin 32} {k : Job} {kind : PassEnd} {s : State} (ha : s.engine.activeJob = some i)
    (h : (endPass kind s).sched.jobs[i] = some k) : k.state ≠ .active := by
  unfold endPass at h
  rw [ha] at h
  dsimp only at h
  split at h
  · rename_i hn
    rw [hn] at h
    cases h
  · exact settleJob_inactive _ _ _ _ _ h

/-- A pass ends, and with it the pin is released if it is still held: no job is ACTIVE and the Engine is free. -/
theorem endPass_keeps (kind : PassEnd) (s : State) :
    Keeps s (endPass kind { s with store := { s.store with pin := none } }) := by
  have unpinned : WriterLawful s → WriterLawful { s with store := { s.store with pin := none } } :=
    fun hw => hw.of_geometry rfl (.refl _) (fun _ => id)
  refine ⟨fun hq => (endPass_moves (Q := True) kind _).queue trivial hq, fun hq hw => endPass_writer kind hq (unpinned hw),
    fun _ hp => ?_, fun hp hs => ?_⟩
  · obtain ⟨ha, e⟩ | ⟨i, ha, he, -, -⟩ := endPass_jobs 0 kind { s with store := { s.store with pin := none } }
    · rw [e]
      refine ⟨hp.active, iff_of_false nofun ?_⟩
      rintro ⟨r, p, f, x, hc⟩
      rw [show s.engine = _ from hc] at ha
      cases ha
    · refine ⟨fun k => ?_, ?_⟩
      · rw [he]
        refine iff_of_false nofun ?_
        rintro ⟨j, hj, hact⟩
        obtain ⟨ha', -⟩ | ⟨i', ha', -, hk, -⟩ := endPass_jobs k kind { s with store := { s.store with pin := none } }
        · rw [ha] at ha'
          cases ha'
        · obtain rfl := Option.some.inj (ha'.symm.trans ha)
          by_cases hik : i' = k
          · subst hik
            exact endPass_inactive ha hj hact
          · rw [hk hik] at hj
            exact hik (Option.some.inj (ha'.symm.trans ((hp.active k).mpr ⟨j, hj, hact⟩)))
      · rw [he]
        simp
  · refine hs.of_same (by simp) (by simp) fun u => ?_
    have e : endPass kind { s with store := { s.store with pin := none } } = { s with store := { s.store with pin := none } } := by
      unfold endPass
      rw [show Engine.activeJob _ = none from by rw [hp.noPass u.jobs]; rfl]
    rw [e]
    exact ⟨u.ports, by rw [u.store]; rfl, u.jobs, u.bins⟩

end Sys2Proof.Machine
end

section
/-! PROOFS. The link ports, the store, the passes and the traces keep the agreement (O59). -/

namespace Sys2Proof.Machine

/-! ## Ports and the store -/

theorem raise_keeps (c : Cause) (s : State) : Keeps s (s.raise c) :=
  .of_same (by simp [SameWork])

theorem setPort_keeps {p : Fin 4} {x : Port} {s : State} (h : s.ports[p].state = .down → x.state = .down) :
    Keeps s (s.setPort p x) := by
  refine .of_ports rfl rfl (fun q hq => ?_) id rfl rfl rfl rfl rfl
  simp only [setPort_frame, set_get]
  split
  · rename_i e
    exact h (e ▸ hq)
  · exact hq

theorem cutPort_keeps {p : Fin 4} (c : CutCause) {s : State} (h : s.ports[p].state ≠ .down) :
    Keeps s (cutPort p c s) := (raise_keeps _ _).after (setPort_keeps fun k => absurd k h)

theorem not_down_of_stalled {w : Int} {x : Port} (h : stalled w x = true) : x.state ≠ .down := by
  intro hd
  simp [stalled, stallLimit, hd] at h

theorem stallTest_keeps (p : Fin 4) (s : State) : Keeps s (stallTest p s) := by
  unfold stallTest
  split
  · split
    · rename_i h
      exact cutPort_keeps _ (not_down_of_stalled h)
    · exact .refl s
  · exact .refl s

theorem stallTests_keeps (s : State) : Keeps s (stallTests s) := by
  unfold stallTests
  induction List.finRange 4 generalizing s with
  | nil => exact .refl s
  | cons p l ih => exact (stallTest_keeps p s).trans (ih _)

theorem pinTest_keeps (s : State) : Keeps s (pinTest s) := by
  unfold pinTest
  split
  · split
    · exact endPass_keeps _ s
    · exact .refl s
  · exact .refl s

/-- A change of the store in a session that has a W, the pin as it is. -/
theorem Keeps.of_store {s t : State} {w : Int} (hn : s.store.newest = some w) (ht : t.store.pin = s.store.pin)
    (hd : t.device = s.device) (hs : t.session = s.session) (hp : t.ports = s.ports)
    (hj : t.sched.jobs = s.sched.jobs) (he : t.engine = s.engine) (hk : t.stack = s.stack)
    (hx : t.bus.exporter = s.bus.exporter) : Keeps s t :=
  .of_ports hd hs (fun _ h => by rw [hp]; exact h) (fun h => by rw [h] at hn; cases hn) ht hj he hk hx

theorem setFrontier_keeps (p : Fin 4) (tag : Nat) (s : State) : Keeps s (setFrontier p tag s) := setPort_keeps fun k => k

theorem storeFrame_keeps (p : Fin 4) (tag : Nat) (xs : List (BitVec 32)) (s : State) :
    Keeps s (storeFrame p tag xs s) := by
  unfold storeFrame
  split
  · exact .refl s
  · rename_i w hn
    split
    · exact (setFrontier_keeps p tag _).after (.of_store hn rfl rfl rfl rfl rfl rfl rfl rfl)
    · exact (stallTests_keeps _).after ((pinTest_keeps _).after
        ((setFrontier_keeps p tag _).after (.of_store hn rfl rfl rfl rfl rfl rfl rfl rfl)))

theorem degradeTest_keeps (p : Fin 4) (s : State) : Keeps s (degradeTest p s) := by
  unfold degradeTest
  split
  · rename_i h
    refine (stallTest_keeps _ _).after ((raise_keeps _ _).after (setPort_keeps fun hd => ?_))
    rw [h.1] at hd
    cases hd
  · exact .refl s

theorem badFrame_keeps {p : Fin 4} (c : BadClass) {s : State} (h : s.ports[p].state ≠ .down) :
    Keeps s (badFrame p c s) := by
  unfold badFrame
  dsimp only
  split
  · refine (cutPort_keeps _ ?_).after (setPort_keeps fun k => k)
    simpa using h
  · exact (degradeTest_keeps _ _).after (setPort_keeps fun k => k)

theorem gapFrame_keeps {p : Fin 4} (tag : Nat) (xs : List (BitVec 32)) {s : State} (h : s.ports[p].state ≠ .down) :
    Keeps s (gapFrame p tag xs s) := by
  unfold gapFrame
  dsimp only
  split
  · refine (cutPort_keeps _ ?_).after (setPort_keeps fun k => k)
    simpa using h
  · refine (degradeTest_keeps _ _).after (.after (setPort_keeps fun k => k) (.after (storeFrame_keeps _ _ _ _) ?_))
    exact setPort_keeps fun k => k

theorem recoverTest_keeps (p : Fin 4) (s : State) : Keeps s (recoverTest p s) := by
  unfold recoverTest
  split
  · rename_i h
    refine (raise_keeps _ _).after (setPort_keeps fun hd => ?_)
    rw [h.1] at hd
    cases hd
  · exact .refl s

theorem goodFrame_keeps (p : Fin 4) (tag : Nat) (xs : List (BitVec 32)) (s : State) :
    Keeps s (goodFrame p tag xs s) := by
  refine (recoverTest_keeps _ _).after (.after ?_ (storeFrame_keeps p tag xs s))
  exact setPort_keeps fun k => k

theorem liveArrival_keeps {p : Fin 4} (bytes : List Byte) {s : State} (h : s.ports[p].state ≠ .down) :
    Keeps s (liveArrival p bytes s) := by
  unfold liveArrival
  dsimp only
  split
  · exact badFrame_keeps _ h
  · split
    · exact badFrame_keeps _ h
    · split
      · exact badFrame_keeps _ h
      · split
        · exact goodFrame_keeps ..
        · exact gapFrame_keeps _ _ h

theorem minFrontier_none {ports : Vector Port 4} (h : ∀ p : Fin 4, ports[p].state = .down) : minFrontier ports = none := by
  have nothing : ∀ p : Fin 4, ports[p].counted = false := fun p => by simp [Port.counted, h p, -Fin.getElem_fin]
  simp [minFrontier, nothing, -Fin.getElem_fin]

theorem noticeJob_active (x : Int) (o : Option Job) :
    (∃ j, noticeJob x o = some j ∧ j.state = .active) ↔ ∃ j, o = some j ∧ j.state = .active := by
  rcases o with _ | j
  · simp [noticeJob]
  · unfold noticeJob
    dsimp only
    split
    · rename_i h
      simp [h.1]
    · rfl

theorem noticeSettled_keeps (x : Int) (s : State) : Keeps s (noticeSettled x s) := by
  have entry (i : Fin 32) : (noticeSettled x s).sched.jobs[i] = noticeJob x s.sched.jobs[i] := by simp
  have stack : (noticeSettled x s).stack = s.stack := by simp
  refine .of_job (by simp) (by simp) (by simp) (by simp) (by simp) (fun i => ?_) (fun u i => ?_) (by rw [stack])
    fun _ h => h.of_geometry (by rw [stack]) (by rw [stack]; exact .refl _) (by simp)
  · rw [entry]
    exact noticeJob_active x _
  · rw [entry, u.jobs i]
    rfl

theorem recomputeSettled_keeps (s : State) : Keeps s (recomputeSettled s) := by
  unfold recomputeSettled
  split
  · exact .refl s
  · rename_i m hm
    split
    · exact .refl s
    · refine Keeps.trans (t := { s with store := { s.store with settled := some m } }) ?_ (noticeSettled_keeps m _)
      refine ⟨id, fun _ h => h.of_geometry rfl (.refl _) (fun _ => id), fun _ h => h.of_eq rfl rfl rfl, fun _ h =>
        h.of_same rfl rfl fun u => ?_⟩
      rw [minFrontier_none u.ports] at hm
      cases hm

theorem settleEvent_keeps (s : State) : Keeps s (settleEvent s) :=
  ((recomputeSettled_keeps s).trans (arbitrate_keeps _)).served

theorem clearSkipped_keeps (x : Option Int) (tag : Nat) (s : State) : Keeps s (clearSkipped x tag s) := by
  unfold clearSkipped
  split
  · rename_i ho
    obtain ⟨w, hw, -⟩ := Option.map_eq_some_iff.mp ho
    exact .of_store hw rfl rfl rfl rfl rfl rfl rfl rfl
  · exact .refl s

theorem joinPort_keeps {p : Fin 4} (tag : Nat) (xs : List (BitVec 32)) {s : State} (h : s.ports[p].state ≠ .down) :
    Keeps s (joinPort p tag xs s) := by
  have joined := ((setPort_keeps (x := { s.ports[p] with state := .live, errors := 0, syncRun := 0, syncTag := none })
    fun k => absurd k h).trans (raise_keeps .link _)).trans (storeFrame_keeps p tag xs _)
  unfold joinPort
  dsimp only
  split
  · exact joined.trans (clearSkipped_keeps _ _ _)
  · exact joined

theorem syncArrival_keeps {p : Fin 4} (bytes : List Byte) {s : State} (h : s.ports[p].state ≠ .down) :
    Keeps s (syncArrival p bytes s) := by
  unfold syncArrival
  dsimp only
  split
  · exact setPort_keeps fun k => k
  · split
    · exact setPort_keeps fun k => k
    · split
      · exact setPort_keeps fun k => k
      · split
        · exact setPort_keeps fun k => k
        · exact (joinPort_keeps _ _ h).trans (settleEvent_keeps _)

theorem cutArrival_keeps {p : Fin 4} (bytes : List Byte) {s : State} (h : s.ports[p].state ≠ .down) :
    Keeps s (cutArrival p bytes s) := by
  unfold cutArrival
  dsimp only
  split
  · exact setPort_keeps fun k => k
  · split
    · exact (raise_keeps _ _).after (setPort_keeps fun k => absurd k h)
    · exact setPort_keeps fun k => k

theorem arrival_keeps (p : Fin 4) (bytes : List Byte) (s : State) : Keeps s (arrival p bytes s) := by
  unfold arrival
  split
  · exact .refl s
  all_goals rename_i h
  · exact syncArrival_keeps bytes (by rw [h]; exact nofun)
  · exact (liveArrival_keeps bytes (by rw [h]; exact nofun)).trans (settleEvent_keeps _)
  · exact (liveArrival_keeps bytes (by rw [h]; exact nofun)).trans (settleEvent_keeps _)
  · exact cutArrival_keeps bytes (by rw [h]; exact nofun)

theorem loseCarrier_keeps (p : Fin 4) (s : State) : Keeps s (loseCarrier p s) := by
  have report : Keeps s (s.setPort p { s.ports[p] with carrier := false }) := setPort_keeps fun k => k
  have cut (h : s.ports[p].state ≠ .down) :
      Keeps s (cutPort p .signal (s.setPort p { s.ports[p] with carrier := false })) :=
    report.trans (cutPort_keeps _ (by simpa using h))
  unfold loseCarrier
  dsimp only
  split
  · exact report
  · exact report.trans (setPort_keeps (by simp))
  all_goals
    rename_i h
    exact cut (by rw [h]; exact nofun)

/-! ## Passes and traces -/

/-- Only the Engine and the pin change, for the same job, and they agree afterwards. -/
theorem Keeps.of_engine {s t : State} (ha : t.engine.activeJob = s.engine.activeJob)
    (hpin : PassLawful s → (t.store.pin.isSome = true ↔ ∃ r p f x, t.engine = .compute r p f x))
    (hst : s.store = .reset → t.store = .reset) (hd : t.device = s.device) (hs : t.session = s.session)
    (hp : t.ports = s.ports) (hj : t.sched.jobs = s.sched.jobs) (hk : t.stack = s.stack)
    (hx : t.bus.exporter = s.bus.exporter) : Keeps s t :=
  ⟨by rw [hk]; exact id,
    fun _ h => h.of_geometry (by rw [hk]) (by rw [hk]; exact .refl _) (by rw [hx]; exact fun _ => id),
    fun _ h => ⟨fun i => by rw [ha, hj]; exact h.active i, hpin h⟩, fun _ h =>
    h.of_same hd hs fun u => ⟨by rw [hp]; exact u.ports, hst u.store, by rw [hj]; exact u.jobs, by rw [hk]; exact u.bins⟩⟩

/-- A reading in COMPUTE: the pass stays in COMPUTE for its job. -/
theorem reading_keeps {r : PassRecord} {p p' : List Int} {f f' : List (List (Option Int))} {x x' : List (Option Int)}
    {s t : State} (h : s.engine = .compute r p f x) (ht : t.engine = .compute r p' f' x')
    (hst : t.store = s.store) (hd : t.device = s.device) (hs : t.session = s.session)
    (hp : t.ports = s.ports) (hj : t.sched.jobs = s.sched.jobs) (hk : t.stack = s.stack)
    (hx : t.bus.exporter = s.bus.exporter) : Keeps s t :=
  .of_engine (by rw [h, ht]; rfl)
    (fun hl => iff_of_true (by rw [hst]; exact hl.pin.mpr ⟨_, _, _, _, h⟩) ⟨_, _, _, _, ht⟩)
    (by rw [hst]; exact id) hd hs hp hj hk hx

theorem damagePilot_keeps (i : Fin 16) (s : State) : Keeps s (damagePilot i s) :=
  .of_same (by simp [SameWork])

theorem applyUpsets_keeps (us : List Upset) (s : State) : Keeps s (s.applyUpsets us) :=
  .of_same (by simp [SameWork])

theorem readPilotSample_keeps {r : PassRecord} {pilot : List Int} {finished : List (List (Option Int))}
    {reading : List (Option Int)} {s : State} (h : s.engine = .compute r pilot finished reading) :
    Keeps s (readPilotSample r pilot finished reading s) := by
  unfold readPilotSample
  split
  · rename_i u v hu
    obtain rfl : (readPilot (pilotWordAt r.pages pilot.length) s).1 = u := congrArg Prod.fst hu
    exact reading_keeps h rfl (by simp) (by simp) (by simp) (by simp) (by simp) (by simp) (by simp)
  · rename_i u hu
    obtain rfl : (readPilot (pilotWordAt r.pages pilot.length) s).1 = u := congrArg Prod.fst hu
    have read : Keeps s (readPilot (pilotWordAt r.pages pilot.length) s).1 :=
      .of_same (by simp [SameWork])
    exact ((arbitrate_keeps _).after ((endPass_keeps .pilotDamaged _).after ((damagePilot_keeps r.pilot _).after read))).served

@[simp] theorem readPilotSample_device (r : PassRecord) (pilot : List Int) (finished : List (List (Option Int)))
    (reading : List (Option Int)) (s : State) : (readPilotSample r pilot finished reading s).device = s.device := by
  unfold readPilotSample
  split
  · rename_i u v hu
    obtain rfl : (readPilot (pilotWordAt r.pages pilot.length) s).1 = u := congrArg Prod.fst hu
    simp
  · rename_i u hu
    obtain rfl : (readPilot (pilotWordAt r.pages pilot.length) s).1 = u := congrArg Prod.fst hu
    simp

theorem readRawSample_keeps {r : PassRecord} {pilot : List Int} {finished : List (List (Option Int))}
    {reading : List (Option Int)} {s : State} (h : s.engine = .compute r pilot finished reading) :
    Keeps s (readRawSample r pilot finished reading s) := by
  obtain ⟨f', x', he⟩ : ∃ f' x', (readRawSample r pilot finished reading s).engine = .compute r pilot f' x' := by
    unfold readRawSample
    dsimp only [addReading]
    split <;> exact ⟨_, _, rfl⟩
  exact reading_keeps h he (by simp [readRawSample]) (by simp [readRawSample]) (by simp [readRawSample])
    (by simp [readRawSample]) (by simp [readRawSample]) (by simp [readRawSample]) (by simp [readRawSample])

/-- The job of a pass changes, but not its state. -/
theorem setJob_keeps {i : Fin 32} {j k : Job} {s : State} (hj : s.sched.jobs[i] = some j) (hk : k.state = j.state) :
    Keeps s (s.setJob i (some k)) := by
  refine .of_job rfl rfl rfl rfl rfl (fun n => ?_) (fun u n => ?_) .refl
    fun _ h => h.of_geometry rfl (.refl _) (fun _ => id)
  · simp only [setJob_frame, set_get]
    split
    · rename_i e
      subst e
      simp [hj, hk, -Fin.getElem_fin]
    · rfl
  · rw [u.jobs i] at hj
    cases hj

theorem countJob_state (o : EditOutcome) (j : Job) : (countJob o j).state = j.state := by cases o <;> rfl

theorem countInJob_keeps (i : Fin 32) (o : EditOutcome) (t : Trace) (s : State) : Keeps s (countInJob i o t s) := by
  unfold countInJob
  split
  · rename_i j hj
    exact setJob_keeps hj (countJob_state ..)
  · exact .refl s

theorem autoDrain_keeps (b : Fin 8) (s : State) : Keeps s (autoDrain b s) := by
  refine .of_stack (by simp) (by simp) (by simp) (by simp) (by simp) (by simp) (autoDrain_moves b s) fun hq hw => ?_
  unfold autoDrain
  split
  · rename_i r hr
    split
    · rename_i ho
      have draining : Keeps s (s.setBinRecord b (some { r with phase := .draining })) :=
        setBinRecord_keeps hr (.one (.drain s.stack b r _ hr rfl rfl ho.1 rfl)) rfl rfl
      exact (draining.trans (drainTest_keeps b _)).writer hq hw
    · exact hw
  · exact hw

theorem poison_geometry (r : BinRecord) (i : Nat) :
    (r.poison i).channelCount = r.channelCount ∧ (r.poison i).lags = r.lags := by
  unfold BinRecord.poison
  dsimp only
  split <;> exact ⟨rfl, rfl⟩

/-- A record of the same key set, phase and geometry. -/
structure SameBin (q r : BinRecord) : Prop where
  key : r.key = q.key
  mask : r.mask = q.mask
  phase : r.phase = q.phase
  channelCount : r.channelCount = q.channelCount
  lags : r.lags = q.lags

theorem SameBin.keeps {s : State} {b : Fin 8} {q r : BinRecord} (h : SameBin q r)
    (hq : s.stack.bins[b].record = some q) : Keeps s (s.setBinRecord b (some r)) :=
  setBinRecord_keeps hq (setBinRecord_moves hq h.key h.mask h.phase) h.channelCount h.lags

theorem SameBin.withChannel {q r : BinRecord} (h : SameBin q r) (i : Nat) (c : ChannelRecord) :
    SameBin q (r.withChannel i c) := ⟨h.key, h.mask, h.phase, h.channelCount, h.lags⟩

theorem SameBin.poison {q r : BinRecord} (h : SameBin q r) (i : Nat) : SameBin q (r.poison i) := by
  obtain ⟨hk, hm, hp, -⟩ := r.poison_keeps i
  obtain ⟨hc, hl⟩ := poison_geometry r i
  exact ⟨hk.trans h.key, hm.trans h.mask, hp.trans h.phase, hc.trans h.channelCount, hl.trans h.lags⟩

theorem acceptTrace_keeps {b : Fin 8} {q r : BinRecord} {s : State} (i : Fin 32) (n : Nat) (t : Trace)
    (hq : s.stack.bins[b].record = some q) (h : SameBin q r) : Keeps s (acceptTrace i b r n t s) := by
  have drained {r' : BinRecord} {u : State} (hr : SameBin q r') (o : EditOutcome) (hu : Keeps s u) (he : u.stack = s.stack) :
      Keeps s (autoDrain b (countInJob i o t (u.setBinRecord b (some r')))) :=
    ((hu.trans (hr.keeps (by rw [he]; exact hq))).trans (countInJob_keeps ..)).trans (autoDrain_keeps ..)
  unfold acceptTrace
  dsimp only
  split
  · rename_i u values hu
    obtain rfl : (readAccs (accAddress b.val n 0) r.lags s).1 = u := congrArg Prod.fst hu
    refine drained ?_ .accept
      (.of_same (by simp [SameWork])) (by simp)
    have := h.withChannel n (acceptChannel t (r.channel n))
    split
    · exact ⟨this.key, this.mask, this.phase, this.channelCount, this.lags⟩
    · exact this
  · rename_i u hu
    obtain rfl : (readAccs (accAddress b.val n 0) r.lags s).1 = u := congrArg Prod.fst hu
    have poisoned := drained ((h.withChannel n (countChannel .surplus (r.channel n))).poison n) .surplus
      (u := (readAccs (accAddress b.val n 0) r.lags s).1.countPoison)
      (.of_same (by simp [SameWork])) (by simp)
    exact poisoned

theorem applyTrace_keeps {b : Fin 8} {r : BinRecord} {s : State} (i : Fin 32) (t : Trace)
    (hr : s.stack.bins[b].record = some r) : Keeps s (applyTrace i b r t s) := by
  have same : SameBin r r := ⟨rfl, rfl, rfl, rfl, rfl⟩
  have counted (n : Nat) (c : ChannelRecord) (o : EditOutcome) :
      Keeps s (countInJob i o t (s.setBinRecord b (some (r.withChannel n c)))) :=
    ((same.withChannel n c).keeps hr).trans (countInJob_keeps ..)
  unfold applyTrace
  dsimp only
  split
  · exact acceptTrace_keeps i _ t hr (same.withChannel _ _)
  · split
    · exact (counted _ _ _).trans (raise_keeps _ _)
    · exact counted _ _ _
  all_goals exact counted _ _ _

theorem applyTrace_engine (i : Fin 32) (b : Fin 8) (r : BinRecord) (t : Trace) (s : State) :
    (applyTrace i b r t s).engine = s.engine ∧ (applyTrace i b r t s).store = s.store := ⟨by simp, by simp⟩

end Sys2Proof.Machine
end

section
/-! PROOFS. What the owners of the orders can do, and that they keep the agreement (O59). -/

namespace Sys2Proof.Machine

/-! ## What each owner can do

An owner that answers leaves the part as it was, or does the one thing that its order is for. -/

variable {b : Fin 64} {post : Byte} {body : List Byte} {s t : State} {a : Answer}

/-- A refusal changes nothing (R149). -/
theorem refuse_same {r : Reason} (h : refuse r s = some (t, a)) : t = s := by
  cases h
  rfl

theorem ownConfigure_does (h : ownConfigure b post body s = some (t, a)) :
    t = s ∨ s.device = .idle ∧ ∃ i e n c, t = startSession i e n c s := by
  unfold ownConfigure at h
  dsimp only at h
  split at h
  · exact .inl (refuse_same h)
  · rename_i hd
    split at h
    · exact .inl (refuse_same h)
    · split at h
      · exact .inl (refuse_same h)
      · cases h
        exact .inr ⟨Decidable.not_not.mp hd, _, _, _, _, rfl⟩

theorem ownEndRecording_does (h : ownEndRecording b post body s = some (t, a)) :
    t = s ∨ s.device = .recording ∧ (s.stack.allFree && s.sched.noJobs) = true ∧ t = endSession s := by
  unfold ownEndRecording at h
  split at h
  · exact .inl (refuse_same h)
  · rename_i hd
    split at h
    · exact .inl (refuse_same h)
    · rename_i hf
      cases h
      exact .inr ⟨Decidable.not_not.mp hd, by simpa using hf, rfl⟩

theorem ownLoadPilot_does (h : ownLoadPilot b post body s = some (t, a)) : t = s ∨ ∃ slot, t = startLoad slot s := by
  unfold ownLoadPilot at h
  dsimp only at h
  split at h
  · cases h
  iterate 5
    split at h
    · exact .inl (refuse_same h)
  cases h
  exact .inr ⟨_, rfl⟩

theorem ownDropPilot_does (h : ownDropPilot b post body s = some (t, a)) : t = s ∨ ∃ i, t = s.setEntry i none := by
  unfold ownDropPilot at h
  split at h
  · exact .inl (refuse_same h)
  · split at h
    · exact .inl (refuse_same h)
    · cases h
      exact .inr ⟨_, rfl⟩

/-- A free entry of the job table is free (R68). -/
theorem freeEntry_none {i : Fin 32} {sc : Scheduler} (h : sc.freeEntry = some i) : sc.jobs[i] = none := by
  simpa using List.find?_some h

theorem newJob_state (b : Fin 64) (post : Byte) (f : Fin 8) (p : Fin 16) (e : PilotEntry) (n : Fin 8) (r : BinRecord)
    (t0 : Nat) (x : Option Int) : (newJob b post f p e n r t0 x).state ≠ .active := by
  unfold newJob
  dsimp only
  split <;> split <;> simp

theorem ownSweep_does (h : ownSweep b post body s = some (t, a)) :
    t = s ∨ ∃ i j e r, s.sched.jobs[i] = none ∧ j.state ≠ .active ∧
      s.stack.bins[j.bin].record = some r ∧ t = enterJob i j e r s := by
  unfold ownSweep at h
  dsimp only at h
  split at h
  · exact .inl (refuse_same h)
  · split at h
    · split at h
      · exact .inl (refuse_same h)
      · split at h
        · exact .inl (refuse_same h)
        · split at h
          · exact .inl (refuse_same h)
          · split at h
            · exact .inl (refuse_same h)
            · split at h
              · exact .inl (refuse_same h)
              · rename_i hr
                split at h
                · exact .inl (refuse_same h)
                · unfold sweepInto at h
                  split at h
                  · exact .inl (refuse_same h)
                  · split at h
                    · cases h
                    · rename_i hi
                      cases h
                      exact .inr ⟨_, _, _, _, freeEntry_none hi, newJob_state _ _ _ _ _ _ _ _ _, hr, rfl⟩
    · exact .inl (refuse_same h)

theorem ownCancel_does (h : ownCancel b post body s = some (t, a)) : t = s ∨ ∃ n, t = (cancelJob n s).1 := by
  unfold ownCancel at h
  dsimp only at h
  split at h
  · exact .inl (refuse_same h)
  · split at h
    · cases h
      exact .inl rfl
    · split at h
      · exact .inl (refuse_same h)
      · exact .inr ⟨_, (congrArg Prod.fst (Option.some.inj h)).symm⟩

theorem ownFleetOrder_does (h : ownFleetOrder b post body s = some (t, a)) :
    t = s ∨ ∃ l m k, t = { s with sched := { s.sched with priority := l, mode := m, hold := k } } := by
  unfold ownFleetOrder at h
  dsimp only at h
  split at h
  · exact .inl (refuse_same h)
  · split at h
    · exact .inl (refuse_same h)
    · cases h
      exact .inr ⟨_, _, _, rfl⟩

/-- The lowest FREE bin is FREE (R110). -/
theorem lowestFree_none {n : Fin 8} {st : StackUnit} (h : st.lowestFree = some n) : st.bins[n].record = none := by
  simpa using List.find?_some h

theorem ownOpenBin_does (h : ownOpenBin b post body s = some (t, a)) :
    t = s ∨ s.device = .recording ∧ ∃ n r, s.stack.bins[n].record = none ∧ r.phase = .opened ∧ t = openBinAt n r s := by
  unfold ownOpenBin at h
  dsimp only at h
  split at h
  · exact .inl (refuse_same h)
  · rename_i hd
    iterate 3
      split at h
      · exact .inl (refuse_same h)
    split at h
    · exact .inl (refuse_same h)
    · rename_i hn
      cases h
      exact .inr ⟨Decidable.not_not.mp hd, _, _, lowestFree_none hn, rfl, rfl⟩

theorem ownCloseBin_does (h : ownCloseBin b post body s = some (t, a)) :
    t = s ∨ ∃ n q r, s.stack.bins[n].record = some q ∧ SameBin q r ∧ t = closeBinAt n r s := by
  unfold ownCloseBin at h
  dsimp only at h
  split at h
  · exact .inl (refuse_same h)
  · split at h
    · unfold closeNamed at h
      split at h
      · exact .inl (refuse_same h)
      · rename_i q hq
        split at h
        · exact .inl (refuse_same h)
        · split at h
          · exact .inl (refuse_same h)
          · cases h
            refine .inr ⟨_, q, _, hq, ?_, rfl⟩
            split <;> exact ⟨rfl, rfl, rfl, rfl, rfl⟩
    · exact .inl (refuse_same h)

theorem ownDiscardBin_does (h : ownDiscardBin b post body s = some (t, a)) :
    t = s ∨ ∃ n r, s.stack.bins[n].record = some r ∧ r.phase ≠ .exporting ∧ t = freeBin n r s := by
  unfold ownDiscardBin at h
  dsimp only at h
  split at h
  · exact .inl (refuse_same h)
  · split at h
    · unfold discardNamed at h
      split at h
      · exact .inl (refuse_same h)
      · rename_i r hr
        split at h
        · rename_i hp
          split at h
          · exact .inl (refuse_same h)
          · cases h
            exact .inr ⟨_, r, hr, by simp [hp], rfl⟩
        · exact .inl (refuse_same h)
        · exact .inl (refuse_same h)
        · rename_i hp
          cases h
          exact .inr ⟨_, r, hr, by simp [hp], rfl⟩
    · exact .inl (refuse_same h)

/-! ## The orders keep the agreement -/

/-- A session begins in IDLE, where no pass was in flight (R5). -/
theorem startSession_keeps {i e n : Nat} {c : Vector Nat 4} (hd : s.device = .idle) :
    Keeps s (startSession i e n c s) := by
  refine ⟨by simp, fun _ h => h.of_geometry (by simp) (by simpa using .refl _) (by simp), fun hs hp => ?_, fun _ _ => ?_⟩
  · have jobs := hs.jobs (by rw [hd]; exact nofun)
    have store : (startSession i e n c s).store.pin = none := by
      unfold startSession
      dsimp only
      split <;> rfl
    exact ⟨by simpa using hp.active, by simp [store, hp.noPass jobs]⟩
  · unfold startSession
    dsimp only
    split <;> exact .of_recording rfl rfl

/-- Every bin is FREE (R9). -/
theorem allFree_iff : s.stack.allFree = true ↔ ∀ n : Fin 8, s.stack.bins[n].record = none := by
  simp [StackUnit.allFree, Fin.forall_iff]

/-- The job table is empty (R9). -/
theorem noJobs_iff : s.sched.noJobs = true ↔ ∀ i : Fin 32, s.sched.jobs[i] = none := by
  simp [Scheduler.noJobs, Fin.forall_iff]

/-- A session ends with every bin FREE and the job table empty (R9, R10). -/
theorem endSession_keeps (hf : (s.stack.allFree && s.sched.noJobs) = true) : Keeps s (endSession s) := by
  obtain ⟨free, empty⟩ := Bool.and_eq_true_iff.mp hf
  rw [allFree_iff] at free
  rw [noJobs_iff] at empty
  have ended : (endSession s).device = .idle ∧ (endSession s).session = none ∧ (endSession s).store = .reset ∧
      (endSession s).ports = mapTable closePort s.ports := by
    unfold endSession
    dsimp only
    split <;> exact ⟨rfl, rfl, rfl, rfl⟩
  obtain ⟨device, session, store, ports⟩ := ended
  refine ⟨by simp, fun _ h => h.of_geometry (by simp) (by simpa using .refl _) (by simp), fun _ hp => ?_, fun _ _ => ?_⟩
  · exact ⟨by simpa using hp.active, by simp [store, SampleStore.reset, hp.noPass empty]⟩
  · exact .of_unworked (by rw [device, session]; simp) fun _ =>
      ⟨fun p => by simp [ports, closePort], store, by simpa using empty, by simpa using free⟩

theorem openBinAt_keeps {n : Fin 8} {r : BinRecord} (hd : s.device = .recording) (hn : s.stack.bins[n].record = none)
    (hr : r.phase = .opened) : Keeps s (openBinAt n r s) := by
  have bins (i : Fin 8) : (openBinAt n r s).stack.bins[i] =
      if n = i then { record := some r, lastExport := .none, heldFaultOffset := 0 } else s.stack.bins[i] := by
    simp only [openBinAt_frame, set_get]
  have other {w : Writer} (hq : QueueLawful s.stack) (hw : s.stack.writer = some w) : n ≠ w.bin := by
    rintro rfl
    obtain ⟨q, hq', -⟩ := (hq.exporting w.bin).mp (by rw [hq.writerHead hw]; exact List.mem_cons_self)
    rw [hn] at hq'
    cases hq'
  refine ⟨fun hq => ⟨hq.nodup, fun i => ?_, hq.head⟩, fun hq h w q hw hr' => ?_, fun _ h => h.of_eq rfl rfl rfl,
    fun _ h => .of_recording hd (h.recording.mp hd)⟩
  · rw [bins]
    split
    · rename_i e
      subst e
      refine iff_of_false (fun k => ?_) ?_
      · obtain ⟨q, hq', -⟩ := (hq.exporting n).mp k
        rw [hn] at hq'
        cases hq'
      · rintro ⟨_, ⟨⟩, hp⟩
        rw [hr] at hp
        cases hp
    · exact hq.exporting i
  · rw [bins, if_neg (other hq hw)] at hr'
    exact h w q hw hr'

theorem freeBin_keeps {n : Fin 8} {r : BinRecord} (hr : s.stack.bins[n].record = some r) (hp : r.phase ≠ .exporting) :
    Keeps s (freeBin n r s) :=
  .of_stack rfl rfl rfl rfl rfl rfl (freeBin_moves hr hp) fun _ h =>
    h.of_geometry rfl (.set (b := n) (x := { s.stack.bins[n] with record := none }) rfl fun _ k => by cases k) fun _ => id

theorem closeBinAt_keeps {n : Fin 8} {q r : BinRecord} (hq : s.stack.bins[n].record = some q) (h : SameBin q r) :
    Keeps s (closeBinAt n r s) := by
  refine .of_stack (by simp) (by simp) (by simp) (by simp) (by simp) (by simp)
    (closeBinAt_moves hq h.key h.mask h.phase) fun hl hw => ?_
  unfold closeBinAt
  split
  · rename_i ho
    have draining : Keeps s (s.setBinRecord n (some { r with phase := .draining })) :=
      setBinRecord_keeps hq (.one (.drain s.stack n q _ hq h.key h.mask (h.phase ▸ ho) rfl)) h.channelCount h.lags
    exact (draining.trans (drainTest_keeps n _)).writer hl hw
  · exact (h.keeps hq).writer hl hw
  · exact enterExporting_writer hq h.channelCount h.lags hl hw
  · exact hw

theorem cancelJob_keeps (n : Fin 64) : Keeps s (cancelJob n s).1 := by
  unfold cancelJob
  split
  · exact .refl s
  · rename_i i _
    split
    · exact .refl s
    · rename_i j hj
      split
      · exact setJob_keeps hj rfl
      · rename_i ha
        refine endJob_keeps _ _ fun hp k => ?_
        obtain ⟨q, hq, hact⟩ := (hp.active i).mp k
        rw [hj] at hq
        cases hq
        exact ha hact

theorem enterJob_keeps {i : Fin 32} {j : Job} {e : PilotEntry} {r : BinRecord}
    (hi : s.sched.jobs[i] = none) (hj : j.state ≠ .active) (hr : s.stack.bins[j.bin].record = some r) :
    Keeps s (enterJob i j e r s) := by
  refine .of_job (by simp) (by simp) (by simp) (by simp) (by simp) (fun k => ?_) (fun u => ?_) (enterJob_moves hr)
    fun _ h => h.of_geometry rfl (.set (b := j.bin) rfl ?_) fun _ => id
  · simp only [enterJob_frame, set_get]
    split
    · rename_i e
      subst e
      refine iff_of_false ?_ ?_
      · rintro ⟨_, ⟨⟩, h⟩
        exact hj h
      · rintro ⟨_, h, -⟩
        rw [hi] at h
        cases h
    · rfl
  · have := u.bins j.bin
    rw [hr] at this
    cases this
  · rintro _ ⟨⟩
    exact ⟨r, hr, rfl, rfl⟩

/-- What the take of an order keeps, if the owner and what follows its answer keep it (R148 to R150). -/
theorem takeOrder_keeps (kind : Option OrderKind) (owner : Fin 64 → Byte → List Byte → State → Verdict)
    (after : State → State) (post : Byte) (s : State)
    (ho : ∀ b body u t a, owner b post body u = some (t, a) → Keeps u t) (ha : ∀ u, Keeps u (after u)) :
    Keeps s (takeOrder kind owner after post s) := by
  have reported : Keeps s s.scannerReported := .of_same (by simp [SameWork])
  have next (u : State) : Keeps u (nextBox u) :=
    .of_same (by simp [SameWork])
  have counted (b : Fin 64) (u : State) : Keeps u (countTake b u) :=
    .of_same (by simp [SameWork])
  have recorded (b : Fin 64) (code : Byte) (a : Answer) (u : State) : Keeps u (recordTake b post code a u) :=
    .of_same (by simp [SameWork])
  obtain e | e | ⟨b, body, t, a, -, -, h, e⟩ := takeOrder_cases kind owner after post s <;> rw [e]
  · exact .refl s
  · exact (reported.trans (next _)).served
  · exact ((counted b _).after ((ha _).after ((recorded b _ a t).after ((ho _ _ _ _ _ h).after reported)))).served

end Sys2Proof.Machine
end

section
/-! PROOFS. The resets and the commands keep the agreement, and so does every step (O59). -/

namespace Sys2Proof.Machine

variable {s t : State}

/-! ## The resets -/

/-- A part without a session, without work and with a free Engine is lawful, whatever was before. -/
theorem Keeps.of_unworked (hd : t.device ≠ .recording) (hs : t.session = none) (he : t.engine = .noPass)
    (hk : t.stack = .reset) (hu : Unworked t) : Keeps s t :=
  ⟨fun _ => hk ▸ reset_queueLawful, fun _ _ => .of_none (by rw [hk]; rfl),
    fun _ _ => ⟨fun i => by rw [he, hu.jobs i]; simp [Engine.activeJob], by rw [he, hu.store]; simp [SampleStore.reset]⟩,
    fun _ _ => .of_unworked (by simp [hd, hs]) fun _ => hu⟩

theorem reset_unworked : Unworked State.reset := by
  refine ⟨?_, rfl, ?_, ?_⟩ <;> decide

theorem powerOn_keeps (s : State) : Keeps s (powerOn s) :=
  .of_unworked nofun rfl rfl rfl ⟨reset_unworked.ports, rfl, reset_unworked.jobs, reset_unworked.bins⟩

theorem fullReset_keeps (s : State) : Keeps s (fullReset s) :=
  .of_unworked nofun rfl rfl rfl
    ⟨fun p => by simp [fullReset, Port.afterReset, Port.reset], rfl, reset_unworked.jobs, reset_unworked.bins⟩

theorem workReset_keeps (s : State) : Keeps s (workReset s) :=
  .of_unworked nofun rfl rfl rfl
    ⟨fun p => by simp [workReset, Port.afterReset, Port.reset], rfl, reset_unworked.jobs, reset_unworked.bins⟩

theorem setEnables_keeps (v : Word) (s : State) : Keeps s (setEnables v s) :=
  .of_same (by simp [SameWork])

theorem controlWrite_keeps (v : Word) (s : State) : Keeps s (controlWrite v s) := by
  unfold controlWrite
  split
  · exact fullReset_keeps s
  · split
    · exact (workReset_keeps s).trans (setEnables_keeps v _)
    · exact setEnables_keeps v s

/-! ## The commands -/

/-- What a command answers keeps the agreement, and the device state is as it was. -/
def KeptBy (s : State) (o : Host.Outcome State Fault Refusal) : Prop :=
  ∀ t, o = .next t → Keeps s t ∧ t.device = s.device

theorem KeptBy.next (h : Keeps s t) (hd : t.device = s.device) : KeptBy s (.next t) := by
  rintro _ ⟨⟩
  exact ⟨h, hd⟩

theorem KeptBy.same (h : SameWork s t) : KeptBy s (.next t) := .next (.of_same h) h.1

/-- A report of the scanner: what the scanner does next is no part of the work, and is served. -/
theorem KeptBy.served (h : SameWork s t) : KeptBy s (.next (serveIssuePort t)) :=
  .next (Keeps.of_same h).served (by simpa using h.1)

theorem KeptBy.idle (s : State) : KeptBy s (.next s) := .next (.refl s) rfl

theorem upset_idle (us : List Upset) (s : State) : KeptBy s (.next (s.applyUpsets us)) :=
  .next (applyUpsets_keeps us s) (by simp)

theorem execWindowBaseWrite_kept (half : WordHalf) (v : Word) (s : State) : KeptBy s (execWindowBaseWrite half v s) := by
  unfold execWindowBaseWrite
  split <;> exact .same (by simp [SameWork])

/-- A window write is taken only while nothing is being exported, so no writer is at work when the queue may begin
(R176, R128). -/
theorem execWindowSizeWrite_kept (v : Word) (us : List Upset) (s : State) : KeptBy s (execWindowSizeWrite v us s) := by
  unfold execWindowSizeWrite
  dsimp only
  split
  · rename_i h
    have idle : s.stack.writer = none := by
      simp [State.windowWritable, State.moverBusy] at h
      exact h.2.2
    generalize hu : windowChanged (v != (s.applyUpsets us).regs.size)
      { s.applyUpsets us with regs := { (s.applyUpsets us).regs with size := v } } = u
    have changed : SameWork s u := by
      subst hu
      simp [SameWork]
    have begun : u.stack.writer = none → Keeps u (beginExport u.stack.exportQueue.length u) := fun hw =>
      .of_stack (by simp) (by simp) (by simp) (by simp) (by simp) (by simp) (beginExport_moves _ u)
        fun _ _ => beginExport_writer _ hw
    refine .next ((Keeps.of_same changed).trans (begun ?_)).served (by simpa using changed.1)
    obtain ⟨-, -, -, -, -, -, stack, -⟩ := changed
    rw [stack]
    exact idle
  · exact .same (by simp [SameWork])

theorem execScrubComplete_keeps (h : execScrubComplete s = .next t) : Keeps s t := by
  unfold execScrubComplete at h
  split at h
  · rename_i hd
    cases h
    refine ⟨id, fun _ h => h.of_geometry rfl (.refl _) fun _ => id, fun _ h => h.of_eq rfl rfl rfl, fun _ h => ?_⟩
    have none : s.session.isSome ≠ true := fun k => by
      have := h.recording.mpr k
      rw [hd] at this
      cases this
    have u := h.unworked (by rw [hd]; exact nofun)
    exact .of_unworked (iff_of_false nofun none) fun _ => ⟨u.ports, u.store, u.jobs, u.bins⟩
  · cases h
    exact .refl s

theorem execCarrierLoss_kept (p : Fin 4) (us : List Upset) (s : State) : KeptBy s (execCarrierLoss p us s) := by
  have lost := (applyUpsets_keeps us s).trans (loseCarrier_keeps p _)
  unfold execCarrierLoss
  dsimp only
  split
  · exact .next (lost.trans (settleEvent_keeps _)) (by simp)
  · exact .next lost (by simp)

theorem execPilotSampleRead_kept (us : List Upset) (s : State) : KeptBy s (execPilotSampleRead us s) := by
  unfold execPilotSampleRead
  dsimp only
  split
  · rename_i h
    split
    · exact .next ((applyUpsets_keeps us s).trans (readPilotSample_keeps h)) (by simp)
    · exact upset_idle us s
  · exact upset_idle us s

theorem execRawSampleRead_kept (us : List Upset) (s : State) : KeptBy s (execRawSampleRead us s) := by
  unfold execRawSampleRead
  dsimp only
  split
  · rename_i h
    split
    · exact .next ((applyUpsets_keeps us s).trans (readRawSample_keeps h)) (by simp)
    · exact upset_idle us s
  · exact upset_idle us s

/-- The pin is released when the computing ends (R97). -/
theorem execComputeEnd_kept (s : State) : KeptBy s (execComputeEnd s) := by
  unfold execComputeEnd
  split
  · rename_i h
    split
    · exact .next (.of_engine (by rw [h]; rfl) (fun _ => iff_of_false nofun nofun) (fun e => by rw [e]; rfl)
        rfl rfl rfl rfl rfl rfl) rfl
    · exact .idle s
  · exact .idle s

/-- In STACK the pin has been released before. -/
theorem PassLawful.unpinned {r : PassRecord} {traces : List Trace} (h : PassLawful s) (he : s.engine = .stack r traces) :
    s.store.pin = none := by
  have : ¬s.store.pin.isSome = true := fun k => by
    obtain ⟨_, _, _, _, hc⟩ := h.pin.mp k
    rw [he] at hc
    cases hc
  simpa using this

/-- The Engine goes on to the next trace, or the pass is completed and the arbiter acts (R97, R98). -/
theorem afterTrace_keeps {p : PassRecord} {x : List Trace} (rest : List Trace) (he : s.engine = .stack p x) :
    Keeps s (afterTrace p rest s) := by
  unfold afterTrace
  split
  · have released (h : PassLawful s) : { s with store := { s.store with pin := none } } = s := by
      rw [← h.unpinned he]
    have done := (endPass_keeps .completed s).trans (arbitrate_keeps _)
    exact ⟨fun hq => (arbitrate_moves _).queue trivial ((endPass_moves (Q := True) .completed s).queue trivial hq),
      fun hq hw => (arbitrate_keeps _).writer ((endPass_moves (Q := True) .completed s).queue trivial hq)
        (endPass_writer .completed hq hw),
      fun hs hp => released hp ▸ done.pass hs hp, fun hp hs => released hp ▸ done.session hp hs⟩
  · exact .of_engine (by rw [he]; rfl) (fun h => iff_of_false (by rw [h.unpinned he]; exact nofun) nofun) id
      rfl rfl rfl rfl rfl rfl

theorem execTraceApply_kept (us : List Upset) (s : State) : KeptBy s (execTraceApply us s) := by
  unfold execTraceApply
  dsimp only
  split
  · rename_i p t rest he
    split
    · rename_i r hr
      have applied := (applyUpsets_keeps us s).trans (applyTrace_keeps p.job t hr)
      exact .next (applied.trans (afterTrace_keeps rest ((applyTrace_engine ..).1.trans he))).served (by simp)
    · exact .next ((applyUpsets_keeps us s).trans (afterTrace_keeps rest he)).served (by simp)
  · exact upset_idle us s

theorem execBurstHandedOver_kept (s : State) : KeptBy s (execBurstHandedOver s) := by
  unfold execBurstHandedOver
  split
  · exact .served (by simp [SameWork])
  · exact .idle s

theorem failScannerRead_kept (s : State) : KeptBy s (.next (failScannerRead s)) := .served (by simp [SameWork])

theorem execReadCompletionTimeout_kept (r : Requester) (data : List Byte) (s : State) :
    KeptBy s (execReadCompletionTimeout r data s) := by
  unfold execReadCompletionTimeout
  split
  · split
    · exact failScannerRead_kept s
    · exact .idle s
  · exact .idle s
  · split
    · split
      · exact .served (by simp [SameWork])
      · exact .idle s
    · exact .idle s

theorem execHostPostReadDone_kept (post : Byte) (s : State) : KeptBy s (execHostPostReadDone post s) := by
  unfold execHostPostReadDone
  split
  · split
    · exact .served (by simp [SameWork])
    · exact .idle s
  · exact .idle s

theorem execBodyReadDone_kept (body : List Byte) (s : State) : KeptBy s (execBodyReadDone body s) := by
  unfold execBodyReadDone
  split
  · split
    · exact .served (by simp [SameWork])
    · exact .idle s
  · exact .idle s

theorem execTornRead_kept (cause : TornCause) (s : State) : KeptBy s (execTornRead cause s) := by
  unfold execTornRead
  split
  · split
    · exact .served (by simp [SameWork])
    · exact .idle s
  · split
    · exact failScannerRead_kept s
    · exact .idle s

theorem execBaselinePostRecheckDone_kept (post : Byte) (s : State) : KeptBy s (execBaselinePostRecheckDone post s) := by
  unfold execBaselinePostRecheckDone
  split
  · split
    · split <;> exact .served (by simp [SameWork])
    · exact .idle s
  · exact .idle s

theorem execAnswerFirstWriteDone_kept (s : State) : KeptBy s (execAnswerFirstWriteDone s) := by
  unfold execAnswerFirstWriteDone
  split
  · split
    · exact .served (by simp [SameWork])
    · exact .idle s
  · exact .idle s

theorem execAnswerSecondWriteDone_kept (s : State) : KeptBy s (execAnswerSecondWriteDone s) := by
  unfold execAnswerSecondWriteDone
  split
  · split
    · exact .served (by simp [SameWork])
    · exact .idle s
  · exact .idle s

theorem failAnswerWrite_kept (round : AnswerRound) (b : Fin 64) (s : State) :
    KeptBy s (.next (failAnswerWrite round b s)) := .served (by simp [SameWork])

theorem execAnswerWriteFault_kept (s : State) : KeptBy s (execAnswerWriteFault s) := by
  unfold execAnswerWriteFault
  split
  · split
    · exact failAnswerWrite_kept _ _ s
    · exact .idle s
  · split
    · exact failAnswerWrite_kept _ _ s
    · exact .idle s
  · exact .idle s

theorem execStatusPageWriteDone_kept (s : State) : KeptBy s (execStatusPageWriteDone s) := by
  unfold execStatusPageWriteDone
  split
  · exact .served (by simp [SameWork])
  · exact .idle s

theorem execStatusPageWriteFault_kept (s : State) : KeptBy s (execStatusPageWriteFault s) := by
  unfold execStatusPageWriteFault
  split
  · exact .served (by simp [SameWork])
  · exact .idle s

theorem execExportBurstDone_kept (us : List Upset) (s : State) : KeptBy s (execExportBurstDone us s) := by
  unfold execExportBurstDone
  dsimp only
  split
  · rename_i h
    exact .next ((applyUpsets_keeps us s).trans (exportBurstCompleted_keeps h)).served (by simp)
  · exact upset_idle us s

theorem execExportBurstFault_kept (us : List Upset) (s : State) : KeptBy s (execExportBurstFault us s) := by
  unfold execExportBurstFault
  dsimp only
  split
  · exact .next ((applyUpsets_keeps us s).trans (exportBurstFailed_keeps _ _)).served (by simp)
  · exact upset_idle us s

theorem execPilotBurstDone_kept (data : List Byte) (s : State) : KeptBy s (execPilotBurstDone data s) := by
  unfold execPilotBurstDone
  split
  · split
    · exact .served (by simp [SameWork])
    · exact .idle s
  · exact .idle s

theorem execPilotBurstFault_kept (data : List Byte) (s : State) : KeptBy s (execPilotBurstFault data s) := by
  unfold execPilotBurstFault
  split
  · exact .served (by simp [SameWork])
  · exact .idle s

/-! ## The orders -/

section orders
variable {b : Fin 64} {post : Byte} {body : List Byte} {a : Answer}

theorem ownConfigure_keeps (h : ownConfigure b post body s = some (t, a)) : Keeps s t := by
  obtain rfl | ⟨hd, _, _, _, _, rfl⟩ := ownConfigure_does h
  · exact .refl _
  · exact startSession_keeps hd

theorem ownEndRecording_keeps (h : ownEndRecording b post body s = some (t, a)) : Keeps s t := by
  obtain rfl | ⟨-, hf, rfl⟩ := ownEndRecording_does h
  · exact .refl _
  · exact endSession_keeps hf

theorem ownLoadPilot_keeps (h : ownLoadPilot b post body s = some (t, a)) :
    Keeps s t ∧ t.device = s.device := by
  obtain rfl | ⟨_, rfl⟩ := ownLoadPilot_does h
  · exact ⟨.refl _, rfl⟩
  · exact ⟨.of_same (by simp [SameWork]), by simp⟩

theorem ownDropPilot_keeps (h : ownDropPilot b post body s = some (t, a)) :
    Keeps s t ∧ t.device = s.device := by
  obtain rfl | ⟨_, rfl⟩ := ownDropPilot_does h
  · exact ⟨.refl _, rfl⟩
  · exact ⟨.of_same (by simp [SameWork]), by simp⟩

theorem ownSweep_keeps (h : ownSweep b post body s = some (t, a)) :
    Keeps s t ∧ t.device = s.device := by
  obtain rfl | ⟨_, _, _, _, hi, hj, hr, rfl⟩ := ownSweep_does h
  · exact ⟨.refl _, rfl⟩
  · exact ⟨enterJob_keeps hi hj hr, by simp⟩

theorem ownCancel_keeps (h : ownCancel b post body s = some (t, a)) :
    Keeps s t ∧ t.device = s.device := by
  obtain rfl | ⟨n, rfl⟩ := ownCancel_does h
  · exact ⟨.refl _, rfl⟩
  · exact ⟨cancelJob_keeps n, by simp⟩

theorem ownFleetOrder_keeps (h : ownFleetOrder b post body s = some (t, a)) :
    Keeps s t ∧ t.device = s.device := by
  obtain rfl | ⟨_, _, _, rfl⟩ := ownFleetOrder_does h
  · exact ⟨.refl _, rfl⟩
  · exact ⟨.of_same (by simp [SameWork]), by simp⟩

theorem ownOpenBin_keeps (h : ownOpenBin b post body s = some (t, a)) :
    Keeps s t ∧ t.device = s.device := by
  obtain rfl | ⟨hd, _, _, hn, hr, rfl⟩ := ownOpenBin_does h
  · exact ⟨.refl _, rfl⟩
  · exact ⟨openBinAt_keeps hd hn hr, by simp⟩

theorem ownCloseBin_keeps (h : ownCloseBin b post body s = some (t, a)) :
    Keeps s t ∧ t.device = s.device := by
  obtain rfl | ⟨_, _, _, hq, hr, rfl⟩ := ownCloseBin_does h
  · exact ⟨.refl _, rfl⟩
  · exact ⟨closeBinAt_keeps hq hr, by simp⟩

theorem ownDiscardBin_keeps (h : ownDiscardBin b post body s = some (t, a)) :
    Keeps s t ∧ t.device = s.device := by
  obtain rfl | ⟨_, _, hr, hp, rfl⟩ := ownDiscardBin_does h
  · exact ⟨.refl _, rfl⟩
  · exact ⟨freeBin_keeps hr hp, by simp⟩

end orders

/-- The take of an order keeps agreement and device state, if the owner and what follows its answer do. -/
theorem takeOrder_kept {kind : Option OrderKind} {owner : Fin 64 → Byte → List Byte → State → Verdict}
    {after : State → State} (post : Byte) {s u : State} (hu : Keeps s u ∧ u.device = s.device)
    (ho : ∀ b body u t a, owner b post body u = some (t, a) → Keeps u t ∧ t.device = u.device)
    (ha : ∀ u, Keeps u (after u) ∧ (after u).device = u.device) :
    KeptBy s (.next (takeOrder kind owner after post u)) := by
  refine .next (hu.1.trans (takeOrder_keeps kind owner after post u (fun b body u t a h => (ho b body u t a h).1)
    fun u => (ha u).1)) ?_
  obtain e | e | ⟨b, body, v, a, -, -, h, e⟩ := takeOrder_cases kind owner after post u
  · rw [e, hu.2]
  · rw [e]
    simpa using hu.2
  · rw [e]
    simpa [(ha _).2, (ho _ _ _ _ _ h).2] using hu.2

/-- The commands that can move the device state (chapter 1). -/
def movesDevice : Instr → Bool
  | .powerOnReset => true
  | .fullReset _ => true
  | .workReset _ => true
  | .scanEnIntEnWrite _ => true
  | .scrubComplete => true
  | .configure _ => true
  | .endRecording _ => true
  | _ => false

/-- Every command that cannot move the device state keeps it and the agreement. -/
theorem exec_kept {c : Instr} (hc : movesDevice c = false) (s : State) : KeptBy s (exec c s) := by
  have alone (u : State) : Keeps u (id u) ∧ (id u).device = u.device := ⟨.refl u, rfl⟩
  have arbitrated (u : State) : Keeps u (arbitrate u) ∧ (arbitrate u).device = u.device := ⟨arbitrate_keeps u, by simp⟩
  have upset (us : List Upset) (s : State) : Keeps s (s.applyUpsets us) ∧ (s.applyUpsets us).device = s.device :=
    ⟨applyUpsets_keeps us s, by simp⟩
  cases c with
  | powerOnReset => cases hc
  | fullReset v => cases hc
  | workReset v => cases hc
  | scanEnIntEnWrite v => cases hc
  | scrubComplete => cases hc
  | configure post => cases hc
  | endRecording post => cases hc
  | nudge v => exact .served (by simp [SameWork])
  | windowBaseWrite half v => exact execWindowBaseWrite_kept half v s
  | windowSizeWrite v us => exact execWindowSizeWrite_kept v us s
  | eventPendingWrite v => exact .same (by simp [SameWork])
  | eventMaskWrite v => exact .same (by simp [SameWork])
  | registerWriteIgnored => exact .idle s
  | scanTimerExpiry => exact .served (by simp [SameWork])
  | frameArrival p bytes us => exact .next ((applyUpsets_keeps us s).trans (arrival_keeps p bytes _)) (by simp)
  | carrierLoss p us => exact execCarrierLoss_kept p us s
  | carrierPresent p => exact .next (setPort_keeps fun h => h) (by simp)
  | pilotSampleRead us => exact execPilotSampleRead_kept us s
  | rawSampleRead us => exact execRawSampleRead_kept us s
  | computeEnd => exact execComputeEnd_kept s
  | traceApply us => exact execTraceApply_kept us s
  | burstHandedOver => exact execBurstHandedOver_kept s
  | readCompletionTimeout r data => exact execReadCompletionTimeout_kept r data s
  | hostPostReadDone post => exact execHostPostReadDone_kept post s
  | bodyReadDone body => exact execBodyReadDone_kept body s
  | tornRead cause => exact execTornRead_kept cause s
  | baselinePostRecheckDone post => exact execBaselinePostRecheckDone_kept post s
  | badKind post =>
    exact takeOrder_kept post ⟨.refl s, rfl⟩ (fun _ _ _ _ _ h => refuse_same h ▸ ⟨.refl _, rfl⟩) alone
  | loadPilot post =>
    exact takeOrder_kept post ⟨.refl s, rfl⟩ (fun _ _ _ _ _ => ownLoadPilot_keeps) alone
  | dropPilot post =>
    exact takeOrder_kept post ⟨.refl s, rfl⟩ (fun _ _ _ _ _ => ownDropPilot_keeps) alone
  | sweep post us =>
    exact takeOrder_kept post (upset us s) (fun _ _ _ _ _ => ownSweep_keeps) arbitrated
  | cancel post us =>
    exact takeOrder_kept post (upset us s) (fun _ _ _ _ _ => ownCancel_keeps) alone
  | fleetOrder post us =>
    exact takeOrder_kept post (upset us s) (fun _ _ _ _ _ => ownFleetOrder_keeps) arbitrated
  | openBin post =>
    exact takeOrder_kept post ⟨.refl s, rfl⟩ (fun _ _ _ _ _ => ownOpenBin_keeps) alone
  | closeBin post us =>
    exact takeOrder_kept post (upset us s) (fun _ _ _ _ _ => ownCloseBin_keeps) alone
  | discardBin post =>
    exact takeOrder_kept post ⟨.refl s, rfl⟩ (fun _ _ _ _ _ => ownDiscardBin_keeps) alone
  | answerFirstWriteDone => exact execAnswerFirstWriteDone_kept s
  | answerSecondWriteDone => exact execAnswerSecondWriteDone_kept s
  | answerWriteFault => exact execAnswerWriteFault_kept s
  | statusPageWriteDone => exact execStatusPageWriteDone_kept s
  | statusPageWriteFault => exact execStatusPageWriteFault_kept s
  | exportBurstDone us => exact execExportBurstDone_kept us s
  | exportBurstFault us => exact execExportBurstFault_kept us s
  | pilotBurstDone data => exact execPilotBurstDone_kept data s
  | pilotBurstFault data => exact execPilotBurstFault_kept data s

/-- Every command keeps the agreement. -/
theorem exec_keeps {c : Instr} (h : exec c s = .next t) : Keeps s t := by
  by_cases hc : movesDevice c = false
  · exact (exec_kept hc s t h).1
  · cases c with
    | powerOnReset => exact Host.Outcome.next.inj h ▸ powerOn_keeps s
    | fullReset v => exact Host.Outcome.next.inj h ▸ controlWrite_keeps v s
    | workReset v => exact Host.Outcome.next.inj h ▸ controlWrite_keeps v s
    | scanEnIntEnWrite v => exact Host.Outcome.next.inj h ▸ controlWrite_keeps v s
    | scrubComplete => exact execScrubComplete_keeps h
    | configure post =>
      exact Host.Outcome.next.inj h ▸ takeOrder_keeps _ _ _ _ _ (fun _ _ _ _ _ => ownConfigure_keeps) .refl
    | endRecording post =>
      exact Host.Outcome.next.inj h ▸ takeOrder_keeps _ _ _ _ _ (fun _ _ _ _ _ => ownEndRecording_keeps) .refl
    | _ => exact absurd rfl hc

/-- Every step keeps the agreement: it runs the front command on the part with the queue's rest, or idles. -/
theorem step_keeps (h : step s = .next t) : Keeps s t := by
  unfold step at h
  split at h
  · cases h
    exact .refl s
  · exact Keeps.trans (.of_same (by simp [SameWork])) (exec_keeps h)

/-- Settles O59: what every operation keeps, put together over the commands. -/
theorem workStaysLawful : Obligations.WorkStaysLawful := by
  intro s t hs h
  have k := step_keeps h
  exact ⟨⟨k.session hs.pass hs.session, k.pass hs.session hs.pass, k.queue hs.queue⟩, k.writer hs.queue⟩

end Sys2Proof.Machine
end

section
/-! PROOFS. The device state, the resets and the writes to CONTROL, the scrub, and the requests of board scans (O3, O5 to
O9, O14, O54). -/

namespace Sys2Proof.Machine

variable {s t : State}

/-! ## The device state -/

/-- A write to CONTROL moves the device state only by its RESET field (R11). -/
theorem controlWrite_device (v : Word) (s : State) :
    (controlWrite v s).device =
      if resetField v = 2 then .init else if resetField v = 1 ∧ s.device ≠ .init then .idle else s.device := by
  unfold controlWrite
  have e : controlReset v = resetField v := rfl
  rw [e]
  split
  · rfl
  · split
    · exact (setEnables_frame v (workReset s)).1
    · exact (setEnables_frame v s).1

/-- A CONTROL write that changes the device state has RESET 2 and leads to INIT, or has RESET 1 and leads from RECORDING
to IDLE (R11). -/
theorem controlWrite_moves {v : Word} (h : (controlWrite v s).device ≠ s.device) :
    (controlWrite v s).device = .init ∧ resetField v = 2 ∨
      s.device = .recording ∧ (controlWrite v s).device = .idle ∧ resetField v = 1 := by
  rw [controlWrite_device] at h ⊢
  split at h
  · rename_i h2
    exact .inl ⟨if_pos h2, h2⟩
  · rename_i h2
    split at h
    · rename_i h1
      rw [if_neg h2, if_pos h1]
      refine .inr ⟨?_, rfl, h1.1⟩
      cases hd : s.device with
      | init => exact absurd hd h1.2
      | idle => exact absurd hd.symm h
      | recording => rfl
    · exact absurd rfl h

/-- An order moves the device state only as its owner does. -/
theorem takeOrder_device {kind : Option OrderKind} {owner : Fin 64 → Byte → List Byte → State → Verdict}
    {after : State → State} (post : Byte) (ha : ∀ u, (after u).device = u.device) :
    (takeOrder kind owner after post s).device = s.device ∨ ∃ b body u a, owner b post body s.scannerReported = some (u, a) ∧
      (takeOrder kind owner after post s).device = u.device := by
  obtain e | e | ⟨b, body, u, a, -, -, h, e⟩ := takeOrder_cases kind owner after post s
  · exact .inl (by rw [e])
  · exact .inl (by rw [e]; simp)
  · exact .inr ⟨b, body, u, a, h, by rw [e]; simp [ha]⟩

/-- An order whose owner leaves the device state alone leaves it alone. -/
theorem takeOrder_sameDevice {kind : Option OrderKind} {owner : Fin 64 → Byte → List Byte → State → Verdict}
    {after : State → State} (post : Byte) (ha : ∀ u, (after u).device = u.device)
    (ho : ∀ b body u t a, owner b post body u = some (t, a) → t.device = u.device) :
    (takeOrder kind owner after post s).device = s.device := by
  obtain e | ⟨b, body, u, a, h, e⟩ := takeOrder_device post ha
  · exact e
  · rw [e, ho _ _ _ _ _ h]
    simp

/-- A session begins or ends: CONFIGURE moves IDLE to RECORDING, END_RECORDING RECORDING to IDLE (R5, R9). -/
theorem startSession_device (i e n : Nat) (c : Vector Nat 4) (s : State) :
    (startSession i e n c s).device = .recording := by
  unfold startSession
  dsimp only
  split <;> rfl

theorem endSession_device (s : State) : (endSession s).device = .idle := by
  unfold endSession
  dsimp only
  split <;> rfl

/-- Settles O3: the seven commands that can move the device state, each by what it does to it. -/
theorem deviceStateMoves : Obligations.DeviceStateMoves := by
  intro c s t h hne
  by_cases hc : movesDevice c = false
  · exact absurd (exec_kept hc s t h).2 hne
  have control {v : Word} (hv : t = controlWrite v s) :
      t.device = .init ∧ resetField v = 2 ∨ s.device = .recording ∧ t.device = .idle ∧ resetField v = 1 := by
    subst hv
    exact controlWrite_moves hne
  cases c with
  | powerOnReset =>
    cases h
    exact .inl ⟨rfl, .inl rfl⟩
  | fullReset v =>
    obtain ⟨hi, hv⟩ | ⟨hr, hi, hv⟩ := control (v := v) (Host.Outcome.next.inj h).symm
    · exact .inl ⟨hi, .inr ⟨v, hv, .inl rfl⟩⟩
    · exact .inr (.inr (.inl ⟨hr, hi, v, hv, .inl rfl⟩))
  | workReset v =>
    obtain ⟨hi, hv⟩ | ⟨hr, hi, hv⟩ := control (v := v) (Host.Outcome.next.inj h).symm
    · exact .inl ⟨hi, .inr ⟨v, hv, .inr (.inl rfl)⟩⟩
    · exact .inr (.inr (.inl ⟨hr, hi, v, hv, .inr (.inl rfl)⟩))
  | scanEnIntEnWrite v =>
    obtain ⟨hi, hv⟩ | ⟨hr, hi, hv⟩ := control (v := v) (Host.Outcome.next.inj h).symm
    · exact .inl ⟨hi, .inr ⟨v, hv, .inr (.inr rfl)⟩⟩
    · exact .inr (.inr (.inl ⟨hr, hi, v, hv, .inr (.inr rfl)⟩))
  | scrubComplete =>
    have h : execScrubComplete s = .next t := h
    unfold execScrubComplete at h
    split at h
    · rename_i hd
      cases h
      exact .inr (.inl ⟨hd, rfl, rfl⟩)
    · cases h
      exact absurd rfl hne
  | configure post =>
    obtain e | ⟨b, body, u, a, ho, e⟩ := takeOrder_device (s := s) (kind := some .configure) (owner := ownConfigure)
      (after := id) post fun _ => rfl
    · exact absurd (Host.Outcome.next.inj h ▸ e) hne
    · have ht : t.device = u.device := Host.Outcome.next.inj h ▸ e
      obtain rfl | ⟨hd, _, _, _, _, rfl⟩ := ownConfigure_does ho
      · exact absurd (by simpa using ht) hne
      · exact .inr (.inr (.inr (.inl ⟨by simpa using hd, ht.trans (startSession_device ..), post, rfl⟩)))
  | endRecording post =>
    obtain e | ⟨b, body, u, a, ho, e⟩ := takeOrder_device (s := s) (kind := some .endRecording)
      (owner := ownEndRecording) (after := id) post fun _ => rfl
    · exact absurd (Host.Outcome.next.inj h ▸ e) hne
    · have ht : t.device = u.device := Host.Outcome.next.inj h ▸ e
      obtain rfl | ⟨hd, -, rfl⟩ := ownEndRecording_does ho
      · exact absurd (by simpa using ht) hne
      · exact .inr (.inr (.inr (.inr ⟨by simpa using hd, ht.trans (endSession_device _), post, rfl⟩)))
  | _ => exact absurd rfl hc

/-! ## The resets -/

theorem finRange_eight : List.finRange 8 = [0, 1, 2, 3, 4, 5, 6, 7] := by decide

/-- Settles O5: the starting state, field by field. -/
theorem powerOnStartsOver : Obligations.PowerOnStartsOver := by
  intro s
  refine ⟨powerOn s, rfl, rfl, rfl, rfl, rfl, rfl, rfl, ?_, rfl, ?_, rfl, rfl, ?_, ?_, ?_, rfl, rfl, rfl, ?_, rfl, rfl, ?_,
    rfl, rfl, rfl, rfl, rfl, rfl, rfl, rfl⟩
  all_goals simp [powerOn, State.reset, Port.reset, PortCounts.zero, Library.reset, Scheduler.reset, StackUnit.reset, Bin.reset, Board.reset,
    BoxEntry.reset, finRange_eight]

/-- Settles O6: the full reset is the power-on with the window, the epoch, the port and local DRAM put back. -/
theorem fullResetKeepsTheWindow : Obligations.FullResetKeepsTheWindow := by
  intro v s hv
  have full : exec (.fullReset v) s = .next (fullReset s) := congrArg Host.Outcome.next (if_pos hv)
  refine ⟨fullReset s, powerOn s, full, rfl, rfl, fun p => ?_⟩
  simp [fullReset, Port.afterReset, powerOn, State.reset]

/-- The messages of a write that may raise INT_EN (R171). -/
theorem setEnables_messages (v : Word) (s : State) :
    (setEnables v s).events.pending = s.events.pending ∧ (setEnables v s).events.mask = s.events.mask ∧
      MessagesGo (if s.regs.intEn = false ∧ v.getLsbD 1 = true ∧ signalled s.events ≠ 0 then 1 else 0)
        s.events (setEnables v s).events := by
  refine ⟨by simp [setEnables], by simp [setEnables], ?_⟩
  have rises : (!s.regs.intEn && controlIntEn v && signalled s.events != 0) = true ↔
      s.regs.intEn = false ∧ v.getLsbD 1 = true ∧ signalled s.events ≠ 0 := by
    simp [controlIntEn, and_assoc]
  change MessagesGo _ _ (sendIf _ _)
  unfold sendIf
  by_cases h : s.regs.intEn = false ∧ v.getLsbD 1 = true ∧ signalled s.events ≠ 0
  · rw [if_pos h, if_pos (rises.mpr h)]
    exact sendMessage_goes s.events
  · rw [if_neg h, if_neg (mt rises.mp h)]
    exact ⟨rfl, by split <;> rfl⟩

/-- Settles O8: without a reset only the enables, the follow-up and the message are left. -/
theorem controlWriteWithoutReset : Obligations.ControlWriteWithoutReset := by
  intro v s h2 h1 c hc
  have enables : controlWrite v s = setEnables v s :=
    (if_neg h2).trans (if_neg fun k => k.2 (h1 k.1))
  refine ⟨setEnables v s, ?_, rfl, setEnables_messages v s⟩
  simp only [List.mem_cons, List.not_mem_nil, or_false] at hc
  obtain rfl | rfl := hc <;> exact congrArg Host.Outcome.next enables

/-- A box entry after a work reset (R13, R153). -/
theorem boxAfterWorkReset_eq (e : BoxEntry) : boxAfterWorkReset e =
    if finalOrNone e.answer = true then { e with baseline := e.baseline || !e.dirty }
    else { e with answer := some { outcome := .abandoned, reason := .workReset, words := [] }, dirty := true } := by
  unfold boxAfterWorkReset
  dsimp only
  split
  · rfl
  · simp [abandonedAnswer]

/-- Settles O7: the work reset, then what the write makes of the two enables. -/
theorem workResetKeepsPilotsAndBoxes : Obligations.WorkResetKeepsPilotsAndBoxes := by
  intro v s h1 hd
  have write : exec (.workReset v) s = .next (setEnables v (workReset s)) :=
    congrArg Host.Outcome.next ((if_neg (by rw [show controlReset v = 1 from h1]; decide)).trans (if_pos ⟨h1, hd⟩))
  obtain ⟨pending, mask, messages⟩ := setEnables_messages v (workReset s)
  refine ⟨setEnables v (workReset s), write, rfl, rfl, rfl, rfl, pending, mask, messages, fun p => ?_, rfl, fun i => ?_,
    rfl, rfl, ?_, ?_, ?_, rfl, rfl, rfl, ?_, rfl, rfl, fun b => ?_, rfl, rfl, rfl, rfl, rfl, rfl, rfl, rfl, rfl, rfl⟩
  · simp [workReset, Port.afterReset, Port.reset, PortCounts.zero]
  · simp only [setEnables_frame, workReset, mapTable_getElem, Fin.getElem_fin]
    rfl
  · simp [workReset, Scheduler.reset]
  · simp [workReset, Scheduler.reset]
  · simp [workReset, Scheduler.reset, finRange_eight]
  · simp [workReset, StackUnit.reset, Bin.reset]
  · simp only [setEnables_frame, workReset, boardAfterWorkReset, mapTable_getElem, Fin.getElem_fin]
    exact boxAfterWorkReset_eq _

/-! ## The scrub -/

/-- Settles O9: a scrubbed memory lists no word. -/
theorem scrubLeavesZeros : Obligations.ScrubLeavesZeros := by
  intro s
  by_cases hd : s.device = .init
  · exact ⟨{ s with device := .idle, dram := .scrubbed }, if_pos hd, fun h => absurd hd h,
      fun _ => ⟨rfl, fun _ => ⟨rfl, rfl, rfl, rfl, rfl, rfl⟩⟩⟩
  · exact ⟨s, if_neg hd, fun _ => rfl, fun h => absurd h hd⟩

end Sys2Proof.Machine
end

section
/-! PROOFS. The starting state is lawful (O54), and the requests of board scans (O14). -/

namespace Sys2Proof.Machine

/-! ## The starting state -/

theorem reset_bins (b : Fin 8) : State.reset.stack.bins[b].record = none := reset_unworked.bins b

/-- Settles O54: at reset nothing is listed, queued, waiting or in flight. -/
theorem resetIsLawful : Obligations.ResetIsLawful := by
  refine ⟨?_, .refl _, fun p => ?_, .inr ⟨rfl, rfl, rfl⟩, fun b c r q _ hr _ => ?_, ⟨?_, ?_, reset_queueLawful⟩, nofun,
    .of_none rfl, .nil, nofun, nofun⟩
  · obtain ⟨h1, h2, h3, h4, h5, h6⟩ := scrubbed_wf
    exact ⟨h1, h2, h3, h4, h5, h6, .nil⟩
  · have e : State.reset.ports[p] = Port.reset.afterReset := by simp [State.reset, Port.afterReset, Port.reset]
    rw [e]
    exact reset_lawful
  · rw [reset_bins] at hr
    cases hr
  · exact .of_unworked (iff_of_false nofun nofun) fun _ => reset_unworked
  · exact ⟨fun i => iff_of_false nofun (by rw [reset_unworked.jobs]; exact nofun), iff_of_false nofun nofun⟩

/-! ## Board scan requests -/

/-- The issue arbiter finds nothing to serve where no request waits before a free port (R159). -/
theorem serveIssuePort_of_served {s : State} (h : PortServed s) : serveIssuePort s = s := by
  unfold serveIssuePort
  split
  · rfl
  · rename_i hb
    obtain ⟨hs, he, hl⟩ := h.resolve_left hb
    split
    · rename_i hw
      rw [hw] at hs
      cases hs
    · rename_i hw _
      rw [hw] at he
      cases he
    · rename_i hw _ _
      rw [hw] at hl
      cases hl
    · rfl

/-- A request is dropped where no scan can run (R145). -/
theorem requestScan_dropped {s : State} (h : s.canScan = false) : requestScan s = s := by simp [requestScan, h]

/-- While a scan is in progress a request is the one follow-up (R145). -/
theorem requestScan_followUp {s : State} (h : s.canScan = true) (hb : s.board.phase ≠ .idle) :
    requestScan s = { s with board := { s.board with followUp := true } } := by
  simp [requestScan, h, State.scanBusy, hb]

/-- Else the scan begins (R145). -/
theorem requestScan_starts {s : State} (h : s.canScan = true) (hb : s.board.phase = .idle) :
    requestScan s = startScan s := by simp [requestScan, h, State.scanBusy, hb]

theorem canScan_iff {s : State} :
    s.canScan = true ↔ s.device ≠ .init ∧ s.regs.scanEn = true ∧ windowValid s.regs = true := by
  simp [State.canScan, and_assoc]

/-- What a scan that begins leaves, once the issue port has served its first read: nothing of the part but the scanner
and its slot differs, and the first box's post is read (R146, R147, R151). -/
theorem startScan_served (u : State) :
    let t := serveIssuePort (startScan u)
    let burst := { direction := .read, offset := 4096 + 256 * u.board.rotation.val, length := 1, data := [] }
    OnlyScanner u t ∧
      t.board =
        { u.board with
          phase := .hostPost u.board.rotation, examined := 0, taken := 0, lastTaken := none, faulted := []
          firstRound := (List.finRange 64).filter fun b => u.board.boxes[b].dirty } ∧
      t.counts = u.counts ∧
      t.bus.scanner =
        if u.bus.portBusy = true then .waiting burst
        else .issued burst (BitVec.ofNat 64 (u.regs.base + (4096 + 256 * u.board.rotation.val))) := by
  intro t burst
  by_cases hb : u.bus.portBusy = true
  · have e : t = startScan u := if_pos (by simpa using hb)
    rw [e, if_pos hb]
    exact ⟨by constructor <;> rfl, rfl, rfl, rfl⟩
  · have e : t = issueBurst .scanner burst (startScan u) := if_neg (by simpa using hb)
    rw [e, if_neg hb]
    exact ⟨by constructor <;> rfl, rfl, rfl, rfl⟩

/-- A request and the issue port's service of it, in the part `u` that the command makes of `s`. -/
theorem requestScan_served {u : State} (h : PortServed u) :
    let t := serveIssuePort (requestScan u)
    (u.device = .init ∨ u.regs.scanEn = false ∨ windowValid u.regs = false → t = u) ∧
      (u.canScan = true → u.board.phase ≠ .idle → t = { u with board := { u.board with followUp := true } }) ∧
      (u.canScan = true → u.board.phase = .idle → t = serveIssuePort (startScan u)) := by
  refine ⟨fun hn => ?_, fun hc hb => ?_, fun hc hb => by rw [requestScan_starts hc hb]⟩
  · rw [requestScan_dropped, serveIssuePort_of_served h]
    rw [← Bool.not_eq_true, canScan_iff]
    rintro ⟨hd, hs, hw⟩
    simp [hd, hs, hw] at hn
  · rw [requestScan_followUp hc hb]
    exact serveIssuePort_of_served h

/-- Settles O14: a request in the part as the command finds it, the timer's next interval started. -/
theorem scanRequests : Obligations.ScanRequests := by
  intro c s u hs hc
  have request : exec c s = .next (serveIssuePort (requestScan u)) ∧ PortServed u ∧ u.device = s.device ∧
      u.regs = s.regs ∧ u.bus = s.bus ∧ u.counts = s.counts ∧ u.board.phase = s.board.phase ∧
      u.board.rotation = s.board.rotation ∧ u.board.boxes = s.board.boxes := by
    obtain ⟨⟨v, rfl⟩, rfl⟩ | ⟨rfl, rfl⟩ := hc
    · exact ⟨rfl, hs, rfl, rfl, rfl, rfl, rfl, rfl, rfl⟩
    · exact ⟨rfl, hs, rfl, rfl, rfl, rfl, rfl, rfl, rfl⟩
  obtain ⟨he, hu, device, regs, bus, counts, phase, rotation, boxes⟩ := request
  obtain ⟨dropped, followUp, starts⟩ := requestScan_served hu
  rw [← device, ← regs, ← bus, ← counts, ← phase, ← rotation, ← boxes]
  refine ⟨_, he, dropped, fun hd hen hv => followUp (canScan_iff.mpr ⟨hd, hen, hv⟩), fun hd hen hv hb => ?_⟩
  rw [starts (canScan_iff.mpr ⟨hd, hen, hv⟩) hb]
  exact startScan_served u

end Sys2Proof.Machine
end

section
/-! PROOFS. The status page shows the part (R155, R178): each field stands at its offset in the list of its fields' bytes. -/

namespace Sys2Proof.Machine

/-! ## Fields in a list of chunks -/

theorem leNat_leBytes (n v : Nat) : leNat (leBytes n v) = v % 256 ^ n := by
  induction n generalizing v with
  | zero => simp [leBytes, leNat, Nat.mod_one]
  | succ n ih =>
    simp only [leBytes, leNat, ih, BitVec.toNat_ofNat, Nat.pow_succ' (n := n)]
    exact Nat.mod_mul.symm

section chunks
variable {chunks : List (List Byte)} {x : List Byte} {lens : List Nat} {k o i n v : Nat}

/-- Beyond the chunks before the `k`-th stands the `k`-th. -/
theorem drop_chunk (hc : chunks[k]? = some x) (hl : chunks.map List.length = lens) (ho : (lens.take k).sum = o) :
    chunks.flatten.drop o = x ++ (chunks.drop (k + 1)).flatten := by
  obtain ⟨hk, rfl⟩ := List.getElem?_eq_some_iff.mp hc
  have split : chunks.flatten = (chunks.take k).flatten ++ (chunks[k] ++ (chunks.drop (k + 1)).flatten) := by
    rw [← List.flatten_cons, List.getElem_cons_drop, ← List.flatten_append, List.take_append_drop]
  rw [split, ← ho, ← hl, ← List.map_take, ← List.length_flatten, List.drop_left]

theorem byte_of_chunk (hc : chunks[k]? = some x) (hl : chunks.map List.length = lens) (ho : (lens.take k).sum = o) (hi : i < x.length) :
    chunks.flatten[o + i]? = x[i]? := by
  rw [← List.getElem?_drop, drop_chunk hc hl ho, List.getElem?_append_left hi]

theorem fieldShows_nested (hc : chunks[k]? = some x) (hl : chunks.map List.length = lens) (ho : (lens.take k).sum = o)
    (hi : i + n ≤ x.length) (h : FieldShows x i n v) : FieldShows chunks.flatten (o + i) n v := by
  unfold FieldShows at h ⊢
  rw [← List.drop_drop, drop_chunk hc hl ho, List.drop_append_of_le_length (by omega), List.take_append_of_le_length, h]
  rw [List.length_drop]
  omega

/-- A chunk of `n` bytes of a number is a field. -/
theorem fieldShows_chunk (hc : chunks[k]? = some (leBytes n v)) (hl : chunks.map List.length = lens) (ho : (lens.take k).sum = o) :
    FieldShows chunks.flatten o n v := by
  refine fieldShows_nested (i := 0) hc hl ho (by rw [leBytes_length]; omega) ?_
  unfold FieldShows
  rw [List.drop_zero, List.take_of_length_le (leBytes_length n v).le, leNat_leBytes]

/-- A chunk of zero bytes is reserved. -/
theorem reserved_chunk {m j : Nat} (hc : chunks[k]? = some (zeroBytes m)) (hl : chunks.map List.length = lens) (ho : (lens.take k).sum = o)
    (hj : o ≤ j ∧ j < o + m) : chunks.flatten[j]? = some 0 := by
  obtain ⟨i, rfl⟩ := Nat.exists_eq_add_of_le hj.1
  rw [byte_of_chunk hc hl ho (by simp only [zeroBytes, List.length_replicate]; omega)]
  simp only [zeroBytes, List.getElem?_replicate]
  exact if_pos (by omega)

end chunks

/-- The `i`-th of some records of `m` bytes. -/
theorem record_slice {α : Type} {f : α → List Byte} {m : Nat} (hm : ∀ x, (f x).length = m) (l : List α) (rest : List Byte)
    {i : Nat} (hi : i < l.length) : (((l.map f).flatten ++ rest).drop (m * i)).take m = f l[i] := by
  have whole : (l.map f).flatten ++ rest = (l.map f ++ [rest]).flatten := by simp
  have hc : (l.map f ++ [rest])[i]? = some (f l[i]) := by simp [List.getElem?_append, hi]
  have before : (((l.map f ++ [rest]).map List.length).take i).sum = m * i := by
    rw [← List.map_take]
    rw [List.take_append_of_le_length (by simpa using hi.le)]
    simp [← List.map_take, Function.comp_def, hm, Nat.min_eq_left hi.le, Nat.mul_comm]
  rw [whole, drop_chunk hc rfl before, List.take_append_of_le_length (hm _).ge, List.take_of_length_le (hm _).le]

/-- The `i`-th record of a chunk of records of `m` bytes. -/
theorem record_of_chunk {α : Type} {f : α → List Byte} {m : Nat} (hm : ∀ x, (f x).length = m) {l : List α}
    {chunks : List (List Byte)} {lens : List Nat} {k o i : Nat} (hc : chunks[k]? = some (l.map f).flatten)
    (hl : chunks.map List.length = lens) (ho : (lens.take k).sum = o) (hi : i < l.length) :
    (chunks.flatten.drop (o + m * i)).take m = f l[i] := by
  rw [← List.drop_drop, drop_chunk hc hl ho, record_slice hm l _ hi]

/-- The record of the `i`-th entry of a table. -/
theorem record_of_table {α : Type} {f : α → List Byte} {m n : Nat} (hm : ∀ x, (f x).length = m) {v : Vector α n}
    {chunks : List (List Byte)} {lens : List Nat} {k o : Nat} (i : Fin n)
    (hc : chunks[k]? = some (v.toList.map f).flatten) (hl : chunks.map List.length = lens)
    (ho : (lens.take k).sum = o) : (chunks.flatten.drop (o + m * i.val)).take m = f v[i] := by
  rw [record_of_chunk (i := i.val) hm hc hl ho (by simp)]
  simp

/-- All the records together. -/
theorem records_length {α : Type} {f : α → List Byte} {m : Nat} (hm : ∀ x, (f x).length = m) (l : List α) :
    (l.map f).flatten.length = m * l.length := by
  simp [List.length_flatten, Function.comp_def, hm, Nat.mul_comm]

/-! ## The fields of the page -/

theorem flagByte_eq (p : Prop) [Decidable p] {b : Bool} (h : b = true ↔ p) : flagByte b = leBytes 1 (if p then 1 else 0) := by
  simp only [flagByte, h]

theorem index40_eq (x : Option Int) : index40 x = (x.getD (-1) % 2 ^ 40).toNat := by
  unfold index40 twos
  exact BitVec.toNat_ofInt (x.getD (-1))

/-- A chunk of an index's bytes is an index field. -/
theorem indexShows_chunk {chunks : List (List Byte)} {lens : List Nat} {k o : Nat} {x : Option Int} (hc : chunks[k]? = some (indexBytes x))
    (hl : chunks.map List.length = lens) (ho : (lens.take k).sum = o) : IndexShows chunks.flatten o x := by
  unfold IndexShows
  rw [← index40_eq]
  exact fieldShows_chunk hc hl ho

/-- The bytes 0 to 127 of the page, field by field (13.4). -/
def headerChunks (s : State) : List (List Byte) :=
  [leBytes 1 s.device.code, leBytes 1 s.resetEpoch.toNat, flagByte s.board.baselineFlag, zeroBytes 1,
    wordBytes s.counts.scan, indexBytes s.store.newest, indexBytes s.store.settled, indexBytes s.store.oldest,
    leBytes 1 ((s.sched.jobs.toList.filter (·.isSome)).length),
    leBytes 1 (match s.engine.activeJob with | some j => j.val | none => 0xFF),
    leBytes 1 s.sched.mode.code, leBytes 1 s.sched.hold.toNat,
    (s.sched.priority.map fun f => leBytes 1 f.val).flatten,
    leBytes 2 s.library.freePages.length, flagByte s.library.load.isSome,
    leBytes 1 (match s.library.load with | some slot => slot.id | none => 0),
    leBytes 4 s.counts.eccCorrected, leBytes 4 s.counts.pilotDamage, leBytes 4 s.counts.poison,
    leBytes 4 s.counts.discardedWrites, leBytes 4 s.bus.scannerFaults, leBytes 4 s.bus.exporterFaults,
    leBytes 4 s.bus.loaderFaults, zeroBytes 52]

theorem pageHeader_eq (s : State) : pageHeader s = (headerChunks s).flatten := by
  unfold pageHeader headerChunks
  cases s.engine.activeJob <;> cases s.library.load <;>
    simp only [List.flatten_cons, List.flatten_nil, List.append_assoc, List.append_nil]

/-- The bytes of a port record, field by field (13.4, R32). -/
def portChunks (x : Port) : List (List Byte) :=
  [leBytes 1 x.state.code, flagByte x.carrier, leBytes 1 x.errors, flagByte x.warn, leBytes 1 x.recovery,
    leBytes 1 x.syncRun, zeroBytes 2, indexBytes x.frontier, leBytes 4 x.counts.crc, leBytes 4 x.counts.format,
    leBytes 4 x.counts.sequence, leBytes 4 x.counts.time, leBytes 4 x.counts.gap, leBytes 4 x.counts.late,
    leBytes 4 x.counts.cutErrors, leBytes 4 x.counts.cutSignal, leBytes 4 x.counts.cutStall, zeroBytes 12]

theorem portBytes_eq (x : Port) : portBytes x = (portChunks x).flatten := by simp [portBytes, portChunks]

@[simp] theorem flagByte_length (b : Bool) : (flagByte b).length = 1 := leBytes_length ..

@[simp] theorem indexBytes_length (x : Option Int) : (indexBytes x).length = 8 := leBytes_length ..

@[simp] theorem wordBytes_length (w : Word) : (wordBytes w).length = 4 := leBytes_length ..

@[simp] theorem zeroBytes_length (n : Nat) : (zeroBytes n).length = n := List.length_replicate

/-- The lengths of the fields of a port record. -/
theorem portChunks_lengths (x : Port) :
    (portChunks x).map List.length = [1, 1, 1, 1, 1, 1, 2, 8, 4, 4, 4, 4, 4, 4, 4, 4, 4, 12] := by
  simp [portChunks, leBytes_length]

theorem portBytes_length (x : Port) : (portBytes x).length = 64 := by
  simp [portBytes_eq, portChunks, leBytes_length]

/-- A port record shows its port (R32). -/
theorem portBytes_shows (x : Port) : PortShows (portBytes x) x := by
  rw [portBytes_eq]
  have lengths := portChunks_lengths x
  exact
    { state := fieldShows_chunk (k := 0) rfl lengths rfl
      carrier := fieldShows_chunk (k := 1) rfl lengths rfl
      errors := fieldShows_chunk (k := 2) rfl lengths rfl
      warn := fieldShows_chunk (k := 3) (congrArg some (flagByte_eq _ decide_eq_true_iff)) lengths rfl
      recovery := fieldShows_chunk (k := 4) rfl lengths rfl
      syncRun := fieldShows_chunk (k := 5) rfl lengths rfl
      frontier := indexShows_chunk (k := 7) rfl lengths rfl
      crc := fieldShows_chunk (k := 8) rfl lengths rfl
      format := fieldShows_chunk (k := 9) rfl lengths rfl
      sequence := fieldShows_chunk (k := 10) rfl lengths rfl
      time := fieldShows_chunk (k := 11) rfl lengths rfl
      gap := fieldShows_chunk (k := 12) rfl lengths rfl
      late := fieldShows_chunk (k := 13) rfl lengths rfl
      cutErrors := fieldShows_chunk (k := 14) rfl lengths rfl
      cutSignal := fieldShows_chunk (k := 15) rfl lengths rfl
      cutStall := fieldShows_chunk (k := 16) rfl lengths rfl
      reserved := fun k hk => by
        rcases (by omega : 6 ≤ k ∧ k < 8 ∨ 52 ≤ k ∧ k < 64) with low | high
        · exact reserved_chunk (k := 6) rfl lengths rfl low
        · exact reserved_chunk (k := 17) rfl lengths rfl high }

/-- The bytes of a pilot summary, field by field (13.4). -/
def pilotChunks (e : PilotEntry) : List (List Byte) :=
  [leBytes 1 e.id, leBytes 1 e.state.code, zeroBytes 2, leBytes 2 e.length, leBytes 1 e.useCount, zeroBytes 1,
    wordBytes e.serial, zeroBytes 4]

theorem pilotBytes_some (e : PilotEntry) : pilotBytes (some e) = (pilotChunks e).flatten := by
  simp [pilotBytes, pilotChunks]

theorem pilotChunks_lengths (e : PilotEntry) : (pilotChunks e).map List.length = [1, 1, 2, 2, 1, 1, 4, 4] := by
  simp [pilotChunks, leBytes_length]

theorem pilotBytes_length (e : Option PilotEntry) : (pilotBytes e).length = 16 := by
  cases e <;> simp [pilotBytes, leBytes_length]

/-- A pilot summary shows its position (R51). -/
theorem pilotBytes_shows (e : Option PilotEntry) : PilotShows (pilotBytes e) e := by
  cases e with
  | none =>
    have zero (k : Nat) (hk : k < 16) : (zeroBytes 16)[k]? = some 0 := List.getElem?_replicate_of_lt hk
    exact
      { entry := fun _ h => nomatch h
        empty := fun _ => zero
        reserved := fun k _ => zero k (by omega) }
  | some e =>
    have lengths := pilotChunks_lengths e
    rw [pilotBytes_some]
    refine { entry := fun x hx => ?_, empty := nofun, reserved := fun k hk => ?_ }
    · cases hx
      exact ⟨fieldShows_chunk (k := 0) rfl lengths rfl, fieldShows_chunk (k := 1) rfl lengths rfl,
        fieldShows_chunk (k := 3) rfl lengths rfl, fieldShows_chunk (k := 4) rfl lengths rfl,
        fieldShows_chunk (k := 6) rfl lengths rfl⟩
    · rcases (by omega : 2 ≤ k ∧ k < 4 ∨ 7 ≤ k ∧ k < 8 ∨ 12 ≤ k ∧ k < 16) with low | mid | high
      · exact reserved_chunk (k := 2) rfl lengths rfl low
      · exact reserved_chunk (k := 5) rfl lengths rfl mid
      · exact reserved_chunk (k := 7) rfl lengths rfl high

/-- The bytes of the summary of a bin with a record, field by field (13.4). -/
def binChunks (b : Bin) (r : BinRecord) : List (List Byte) :=
  [leBytes 1 r.phase.code, leBytes 1 b.lastExport.code, leBytes 1 r.pendingJobs, zeroBytes 1, wordBytes r.key,
    wordBytes r.mask, leBytes 2 r.channelsAtTarget, leBytes 2 r.channelCount, leBytes 4 b.heldFaultOffset, zeroBytes 12]

/-- The bytes of the summary of a FREE bin, field by field (13.4). -/
def freeBinChunks (b : Bin) : List (List Byte) :=
  [zeroBytes 1, leBytes 1 b.lastExport.code, zeroBytes 14, leBytes 4 b.heldFaultOffset, zeroBytes 12]

theorem binBytes_some {b : Bin} {r : BinRecord} (h : b.record = some r) : binBytes b = (binChunks b r).flatten := by
  simp [binBytes, binChunks, h]

theorem binBytes_none {b : Bin} (h : b.record = none) : binBytes b = (freeBinChunks b).flatten := by
  simp [binBytes, freeBinChunks, h]

theorem binChunks_lengths (b : Bin) (r : BinRecord) :
    (binChunks b r).map List.length = [1, 1, 1, 1, 4, 4, 2, 2, 4, 12] := by
  simp [binChunks, leBytes_length]

theorem freeBinChunks_lengths (b : Bin) : (freeBinChunks b).map List.length = [1, 1, 14, 4, 12] := by
  simp [freeBinChunks, leBytes_length]

theorem binBytes_length (b : Bin) : (binBytes b).length = 32 := by
  unfold binBytes
  split <;> simp [leBytes_length]

/-- A bin summary shows its bin (R123, R138). -/
theorem binBytes_shows (b : Bin) : BinShows (binBytes b) b := by
  cases h : b.record with
  | none =>
    have lengths := freeBinChunks_lengths b
    rw [binBytes_none h]
    refine
      { bin := fun _ hx => by rw [h] at hx; cases hx
        free := fun _ k hk hne => ?_
        lastExport := fieldShows_chunk (k := 1) rfl lengths rfl
        heldFault := fieldShows_chunk (k := 3) rfl lengths rfl
        reserved := fun k hk => ?_ }
    · rcases (by omega : 0 ≤ k ∧ k < 1 ∨ 2 ≤ k ∧ k < 16) with low | high
      · exact reserved_chunk (k := 0) rfl lengths rfl low
      · exact reserved_chunk (k := 2) rfl lengths rfl high
    · rcases (by omega : 2 ≤ k ∧ k < 16 ∨ 20 ≤ k ∧ k < 32) with low | high
      · exact reserved_chunk (k := 2) rfl lengths rfl low
      · exact reserved_chunk (k := 4) rfl lengths rfl high
  | some r =>
    have lengths := binChunks_lengths b r
    rw [binBytes_some h]
    refine
      { bin := fun x hx => ?_
        free := fun hx => by rw [h] at hx; cases hx
        lastExport := fieldShows_chunk (k := 1) rfl lengths rfl
        heldFault := fieldShows_chunk (k := 8) rfl lengths rfl
        reserved := fun k hk => ?_ }
    · obtain rfl : r = x := Option.some.inj (h.symm.trans hx)
      exact ⟨fieldShows_chunk (k := 0) rfl lengths rfl, fieldShows_chunk (k := 2) rfl lengths rfl,
        fieldShows_chunk (k := 4) rfl lengths rfl, fieldShows_chunk (k := 5) rfl lengths rfl,
        fieldShows_chunk (k := 6) rfl lengths rfl, fieldShows_chunk (k := 7) rfl lengths rfl⟩
    · rcases (by omega : 3 ≤ k ∧ k < 4 ∨ 20 ≤ k ∧ k < 32) with low | high
      · exact reserved_chunk (k := 3) rfl lengths rfl low
      · exact reserved_chunk (k := 9) rfl lengths rfl high

/-! ## The page -/

/-- The bytes of the page: the fields of its first 128 bytes, then the records and the reserved bytes (13.4). -/
def pageChunks (s : State) : List (List Byte) :=
  headerChunks s ++
    [(s.ports.toList.map portBytes).flatten, (s.library.entries.toList.map pilotBytes).flatten,
      (s.stack.bins.toList.map binBytes).flatten, zeroBytes 3200]

theorem statusPage_eq (s : State) : statusPage s = (pageChunks s).flatten := by
  simp only [statusPage, pageHeader_eq, pageChunks, List.flatten_append, List.flatten_cons, List.flatten_nil,
    List.append_assoc, List.append_nil]

theorem pageChunks_lengths {s : State} (h : s.sched.priority.length = 8) :
    (pageChunks s).map List.length =
      [1, 1, 1, 1, 4, 8, 8, 8, 1, 1, 1, 1, 8, 2, 1, 1, 4, 4, 4, 4, 4, 4, 4, 52, 256, 256, 256, 3200] := by
  have list : (s.sched.priority.map fun f => leBytes 1 f.val).flatten.length = 8 := by
    rw [records_length fun _ => leBytes_length .., h]
  simp [pageChunks, headerChunks, leBytes_length, list, records_length portBytes_length, records_length pilotBytes_length,
    records_length binBytes_length]

/-- The entries of a table in the order of their numbers. -/
theorem toList_eq_map {α : Type} {n : Nat} (v : Vector α n) : v.toList = (List.finRange n).map fun i => v[i] :=
  List.ext_getElem (by simp) (by simp)

theorem jobs_counted (s : State) :
    (s.sched.jobs.toList.filter (·.isSome)).length = ((List.finRange 32).filter fun i => s.sched.jobs[i].isSome).length := by
  rw [toList_eq_map, List.filter_map, List.length_map]
  rfl

theorem baselineFlag_iff (b : Board) : b.baselineFlag = true ↔ ∃ x : Fin 64, b.boxes[x].baseline = true := by
  rw [Board.baselineFlag, toList_eq_map]
  simp

theorem statusPage_length {s : State} (h : s.sched.priority.length = 8) : (statusPage s).length = 4096 := by
  rw [statusPage_eq, List.length_flatten, pageChunks_lengths h]
  rfl

/-- The status page shows the part (R155, 13.4). -/
theorem statusPage_shows {s : State} (h : s.sched.priority.length = 8) : PageShows (statusPage s) s := by
  have lengths := pageChunks_lengths h
  rw [statusPage_eq]
  exact
    { device := fieldShows_chunk (k := 0) rfl lengths rfl
      resetEpoch := fieldShows_chunk (k := 1) rfl lengths rfl
      baseline := fieldShows_chunk (k := 2) (congrArg some (flagByte_eq _ (baselineFlag_iff _))) lengths rfl
      scan := fieldShows_chunk (k := 4) rfl lengths rfl
      newest := indexShows_chunk (k := 5) rfl lengths rfl
      settled := indexShows_chunk (k := 6) rfl lengths rfl
      oldest := indexShows_chunk (k := 7) rfl lengths rfl
      jobs := fieldShows_chunk (k := 8) (congrArg (fun n => some (leBytes 1 n)) (jobs_counted s)) lengths rfl
      active := fieldShows_chunk (k := 9) rfl lengths rfl
      mode := fieldShows_chunk (k := 10) rfl lengths rfl
      hold := fieldShows_chunk (k := 11) rfl lengths rfl
      priority := fun k hk => by
        have long : k < s.sched.priority.length := h.symm ▸ hk
        unfold FieldShows
        rw [← Nat.one_mul k, record_of_chunk (k := 12) (o := 36) (fun _ => leBytes_length ..) rfl lengths rfl long,
          leNat_leBytes, Nat.one_mul, List.getD_eq_getElem _ _ long]
      freePages := fieldShows_chunk (k := 13) rfl lengths rfl
      load := fieldShows_chunk (k := 14) rfl lengths rfl
      loadId := fieldShows_chunk (k := 15) rfl lengths rfl
      eccCorrected := fieldShows_chunk (k := 16) rfl lengths rfl
      pilotDamage := fieldShows_chunk (k := 17) rfl lengths rfl
      poison := fieldShows_chunk (k := 18) rfl lengths rfl
      discardedWrites := fieldShows_chunk (k := 19) rfl lengths rfl
      scannerFaults := fieldShows_chunk (k := 20) rfl lengths rfl
      exporterFaults := fieldShows_chunk (k := 21) rfl lengths rfl
      loaderFaults := fieldShows_chunk (k := 22) rfl lengths rfl
      ports := fun p => by
        rw [record_of_table (k := 24) (o := 128) portBytes_length p rfl lengths rfl]
        exact portBytes_shows _
      pilots := fun i => by
        rw [record_of_table (k := 25) (o := 384) pilotBytes_length i rfl lengths rfl]
        exact pilotBytes_shows _
      bins := fun b => by
        rw [record_of_table (k := 26) (o := 640) binBytes_length b rfl lengths rfl]
        exact binBytes_shows _
      reserved := fun k hk => by
        rcases (by omega : 3 ≤ k ∧ k < 4 ∨ 76 ≤ k ∧ k < 128 ∨ 896 ≤ k ∧ k < 4096) with low | mid | high
        · exact reserved_chunk (k := 3) rfl lengths rfl low
        · exact reserved_chunk (k := 23) rfl lengths rfl mid
        · exact reserved_chunk (k := 27) rfl lengths rfl high }

/-- The page of a status stage has 4,096 bytes and shows the part. -/
theorem pageWhole (u : State) : PageWhole u := fun h => ⟨statusPage_length h.length_eq, statusPage_shows h.length_eq⟩

end Sys2Proof.Machine
end

section
/-! PROOFS. The take of an order (R148 to R150), said once for every owner: left untaken, answered, or refused. The
owner works on the part with the scanner's report taken off its slot, `s.scannerReported`. -/

namespace Sys2Proof.Machine

section take
variable {kind : Option OrderKind} {owner : Fin 64 → Byte → List Byte → State → Verdict} {after : State → State}
  {b : Fin 64} {post : Byte} {body : List Byte} {r : Reason} {a : Answer} {s u v x t : State}

/-- The scanner's place in the scan, which no owner moves. -/
structure SameScan (s u : State) : Prop where
  followUp : u.board.followUp = s.board.followUp
  taken : u.board.taken = s.board.taken
  rotation : u.board.rotation = s.board.rotation
  examined : u.board.examined = s.board.examined

theorem SameScan.of_board (h : u.board = s.board) : SameScan s u := by constructor <;> rw [h]

/-- The second reading equals the first, so the order goes to its owner (R148). -/
theorem takeOrder_reached (h : OrderReached kind b post body s) :
    takeOrder kind owner after post s =
      match owner b post body s.scannerReported with
      | none => serveIssuePort (nextBox s.scannerReported)
      | some (u, a) => serveIssuePort (countTake b (after (recordTake b post (bodyKindCode body) a u))) := by
  have issued : (s.bus.scanner.issuedBurst).isSome = true := h.issued
  unfold takeOrder
  rw [h.phase]
  simp only [issued, h.kind, Bool.not_true, Bool.false_eq_true, ne_eq, not_true_eq_false, if_false]
  rfl

/-- An order that its owner leaves is skipped (R148). -/
theorem takeOrder_skips (h : OrderReached kind b post body s) (ho : owner b post body s.scannerReported = none) :
    BoxSkipped s (takeOrder kind owner after post s) := by
  rw [takeOrder_reached h, ho]
  exact nextBox_skips s pageWhole

/-- An order that its owner answers is counted, with the part as the take's effects leave it (R149, R150). -/
theorem takeOrder_counts (h : OrderReached kind b post body s)
    (ho : owner b post body s.scannerReported = some (v, a))
    (hx : after (recordTake b post (bodyKindCode body) a v) = x.scannerReported) (hs : SameScan s x) :
    OrderCounted b s x (takeOrder kind owner after post s) := by
  rw [takeOrder_reached h, ho]
  dsimp only
  rw [hx]
  exact countTake_counts b s x hs.followUp hs.taken hs.rotation hs.examined pageWhole

/-- An order that its owner answers, in a row that does nothing beyond the owner. -/
theorem takeOrder_answers (h : OrderReached kind b post body s)
    (ho : owner b post body s.scannerReported = some (u.scannerReported, a)) (hs : SameScan s u) :
    OrderAnswered b post body a s u (takeOrder kind owner id post s) :=
  takeOrder_counts (x := answeredBox b post body a u) h ho rfl ⟨hs.followUp, hs.taken, hs.rotation, hs.examined⟩

/-- An order that its owner refuses, in a row that does nothing beyond the owner. -/
theorem takeOrder_refuses (h : OrderReached kind b post body s)
    (ho : owner b post body s.scannerReported = refuse r s.scannerReported) :
    OrderRefused b post body r s s (takeOrder kind owner id post s) :=
  takeOrder_answers h ho (.of_board rfl)

/-- The errors that have arisen in local DRAM do not matter to what has been reached. -/
theorem OrderReached.upset (h : OrderReached kind b post body s) (us : List Upset) :
    OrderReached kind b post body (s.applyUpsets us) :=
  ⟨by simpa using h.phase, by simpa [State.scannerIssued] using h.issued, h.kind⟩

/-- The scan an order is counted in is known by the scanner's own record. -/
theorem OrderCounted.of_board (hb : v.board = s.board) (h : OrderCounted b v u t) : OrderCounted b s u t := by
  obtain ⟨only, boxes, followUp, taken, lastTaken, passed, rotation⟩ := h
  rw [hb] at followUp taken passed rotation
  exact ⟨only, boxes, followUp, taken, lastTaken, ⟨fun h => by rw [← hb]; exact passed.goesOn h, passed.ends⟩, rotation⟩

/-- An order answered after errors have arisen in local DRAM. -/
theorem takeOrder_answersUpset (us : List Upset) (h : OrderReached kind b post body s)
    (ho : owner b post body (s.applyUpsets us).scannerReported = some (u.scannerReported, a)) (hs : SameScan s u) :
    OrderAnswered b post body a s u (takeOrder kind owner id post (s.applyUpsets us)) :=
  .of_board (v := s.applyUpsets us) rfl (takeOrder_answers (h.upset us) ho ⟨hs.followUp, hs.taken, hs.rotation, hs.examined⟩)

/-- An order refused after errors have arisen in local DRAM. -/
theorem takeOrder_refusesUpset (us : List Upset) (h : OrderReached kind b post body s)
    (ho : owner b post body (s.applyUpsets us).scannerReported = refuse r (s.applyUpsets us).scannerReported) :
    OrderRefused b post body r s (s.applyUpsets us) (takeOrder kind owner id post (s.applyUpsets us)) :=
  takeOrder_answersUpset us h ho ⟨rfl, rfl, rfl, rfl⟩

end take

/-! ## DISCARD_BIN (R122) -/

section discardBin
variable {b : Fin 64} {post : Byte} {body : List Byte} {s : State} {n : Fin 8}

/-- A bin number in range names its bin. -/
theorem ownDiscardBin_named (hd : s.device = .recording) (hn : bodyField body 4 1 = n.val) :
    ownDiscardBin b post body s = discardNamed n s := by
  have hlt : bodyField body 4 1 < 8 := hn ▸ n.isLt
  unfold ownDiscardBin
  dsimp only
  rw [if_neg (not_not.mpr hd), dif_pos hlt]
  exact congrArg (discardNamed · s) (Fin.ext hn)

/-- A bin number out of range is refused. -/
theorem ownDiscardBin_beyond (hd : s.device = .recording) (hr : 7 < bodyField body 4 1) :
    ownDiscardBin b post body s = refuse .badValue s := by
  unfold ownDiscardBin
  dsimp only
  rw [if_neg (not_not.mpr hd), dif_neg (by omega)]

/-- Settles O52: the owner's checks one by one, each for the bin that the order names. -/
theorem discardBinFreesBin : Obligations.DiscardBinFreesBin := by
  intro b post body s h
  refine ⟨_, rfl, fun hd => takeOrder_refuses h ?_, fun hd hr => takeOrder_refuses h ?_, fun n hd hn => ?_⟩
  · exact if_pos hd
  · exact ownDiscardBin_beyond hd hr
  have named : ownDiscardBin b post body s.scannerReported = discardNamed n s.scannerReported := ownDiscardBin_named hd hn
  have bin : s.scannerReported.stack.bins[n] = s.stack.bins[n] := rfl
  refine ⟨fun hr => takeOrder_refuses h ?_, fun r hr => ⟨fun hp => ?_, fun hp => ?_, fun hp => ?_⟩⟩
  · rw [named, discardNamed, bin, hr]
  · refine takeOrder_refuses h ?_
    rw [named, discardNamed, bin, hr]
    simp only [hp]
  · refine takeOrder_refuses h ?_
    rw [named, discardNamed, bin, hr]
    rcases hp with hp | ⟨hp, pending⟩
    · simp only [hp]
    · simp only [hp, if_pos pending]
  · refine takeOrder_answers h ?_ ⟨rfl, rfl, rfl, rfl⟩
    rw [named, discardNamed, bin, hr]
    rcases hp with hp | ⟨hp, none⟩
    · simp only [hp]
      rfl
    · simp only [hp, none, lt_irrefl, if_false]
      rfl

end discardBin

/-! ## END_RECORDING (R9, R10) -/

section endRecording
variable {b : Fin 64} {post : Byte} {body : List Byte} {s : State}

/-- The two result words of an index are the halves of its 40-bit form. -/
theorem indexWords_eq (x : Option Int) :
    indexWords x = [resultWord ((x.getD (-1) % 2 ^ 40).toNat % 2 ^ 32), resultWord ((x.getD (-1) % 2 ^ 40).toNat / 2 ^ 32)] := by
  rw [indexWords, index40_eq]
  rfl

/-- A session can end exactly when every bin is FREE and no job is in the table (R9). -/
theorem free_iff_not_busy : (s.stack.allFree && s.sched.noJobs) = true ↔
    ¬((∃ n : Fin 8, s.stack.bins[n].record ≠ none) ∨ ∃ i : Fin 32, s.sched.jobs[i] ≠ none) := by
  rw [Bool.and_eq_true, allFree_iff, noJobs_iff]
  push Not
  rfl

/-- The end of a session, field by field (R8, R10). -/
theorem endSession_eq (s : State) : endSession s =
    { s with
      device := .idle, session := none, ports := (endSession s).ports, events := (endSession s).events
      store := { newest := none, settled := none, marks := [], pin := none }
      board := { s.board with period := 1000 } } := by
  unfold endSession
  dsimp only
  split <;> rfl

theorem endSession_ports (s : State) : (endSession s).ports = mapTable closePort s.ports := by
  unfold endSession
  dsimp only
  split <;> rfl

/-- LINK is raised if some port was not DOWN (R30). -/
theorem endSession_link (h : ∃ p : Fin 4, s.ports[p].state ≠ .down) : isPending .link (endSession s) := by
  have changed : (s.ports.toList.any fun x => x.state != .down) = true := by
    rw [toList_eq_map]
    simpa using h
  unfold endSession
  dsimp only
  rw [if_pos changed]
  exact raise_pending ..

theorem endSession_quiet (h : ∀ p : Fin 4, s.ports[p].state = .down) : (endSession s).events = s.events := by
  have same : ¬(s.ports.toList.any fun x => x.state != .down) = true := by
    rw [toList_eq_map]
    simpa using h
  unfold endSession
  dsimp only
  rw [if_neg same]

theorem endSession_scannerReported (s : State) : (endSession s).scannerReported = endSession s.scannerReported := by
  unfold endSession
  dsimp only [State.scannerReported, State.setSlot]
  split <;> rfl

/-- An END_RECORDING while a bin is not FREE or a job is in the table (R9). -/
theorem ownEndRecording_busy (hd : s.device = .recording) (h : ¬(s.stack.allFree && s.sched.noJobs) = true) :
    ownEndRecording b post body s = refuse .busy s := by
  unfold ownEndRecording
  rw [if_neg (not_not.mpr hd), if_pos ((Bool.not_eq_true' _).mpr (Bool.eq_false_iff.mpr h))]

/-- An END_RECORDING that ends the session (R9, R10). -/
theorem ownEndRecording_ends (hd : s.device = .recording) (h : (s.stack.allFree && s.sched.noJobs) = true) :
    ownEndRecording b post body s =
      some (endSession s, doneAnswer (indexWords s.store.newest ++ indexWords s.store.settled)) := by
  unfold ownEndRecording
  rw [if_neg (not_not.mpr hd), if_neg (by simpa using h)]

/-- Settles O44: the owner's checks one by one, and then the end of the session field by field. -/
theorem endRecordingEndsSession : Obligations.EndRecordingEndsSession := by
  intro b post body s h
  refine ⟨_, rfl, fun hd => takeOrder_refuses h (if_pos hd), fun hd busy => takeOrder_refuses h ?_, fun hd free => ?_⟩
  · exact ownEndRecording_busy hd fun k => free_iff_not_busy.mp k busy
  · refine ⟨endSession s, takeOrder_answers h ?_ (by constructor <;> simp), endSession_eq s, fun p => ?_,
      (endSession_grows (cs := [.link]) (by simp) s).events, endSession_link, endSession_quiet⟩
    · rw [endSession_scannerReported,
        ownEndRecording_ends (s := s.scannerReported) hd (free_iff_not_busy.mpr free), indexWords_eq, indexWords_eq]
      rfl
    · simp [endSession_ports, closePort]

end endRecording

/-! ## CONFIGURE (R5 to R8, R48) -/

section configure
variable {b : Fin 64} {post : Byte} {body : List Byte} {s : State} {interval epoch period : Nat} {counts : Vector Nat 4}

/-- The beginning of a session, field by field (R6, R7, R48). -/
theorem startSession_eq (interval epoch period : Nat) (counts : Vector Nat 4) (s : State) :
    startSession interval epoch period counts s =
      { s with
        device := .recording
        session := some { interval := interval, epoch := epoch, counts := counts }
        ports := (startSession interval epoch period counts s).ports
        store := { newest := some ((epoch : Int) - 1), settled := some ((epoch : Int) - 1), marks := [], pin := none }
        library := { s.library with entries := (startSession interval epoch period counts s).library.entries }
        board := { s.board with period := period }
        events := (startSession interval epoch period counts s).events } := by
  unfold startSession
  dsimp only
  split <;> rfl

theorem startSession_port (p : Fin 4) :
    (startSession interval epoch period counts s).ports[p] = configurePort epoch counts[p] s.ports[p] := by
  unfold startSession
  dsimp only
  split <;> simp

theorem startSession_entry (i : Fin 16) :
    (startSession interval epoch period counts s).library.entries[i] = configureEntry interval s.library.entries[i] := by
  unfold startSession
  dsimp only
  split <;> simp

/-- LINK is raised if some port has channels (R30). -/
theorem startSession_link (h : ∃ p : Fin 4, counts[p] ≠ 0) :
    isPending .link (startSession interval epoch period counts s) := by
  have some : ¬(counts.toList.all (· == 0)) = true := by
    rw [toList_eq_map]
    simpa using h
  unfold startSession
  dsimp only
  rw [if_neg some]
  exact raise_pending ..

theorem startSession_quiet (h : ∀ p : Fin 4, counts[p] = 0) :
    (startSession interval epoch period counts s).events = s.events := by
  have none : (counts.toList.all (· == 0)) = true := by
    rw [toList_eq_map]
    simpa using h
  unfold startSession
  dsimp only
  rw [if_pos none]

theorem startSession_scannerReported :
    (startSession interval epoch period counts s).scannerReported =
      startSession interval epoch period counts s.scannerReported := by
  unfold startSession
  dsimp only [State.scannerReported, State.setSlot]
  split <;> rfl

/-- A CONFIGURE in IDLE with a field out of range (R5). -/
theorem ownConfigure_badValue (hd : s.device = .idle) (h : 3 < bodyField body 4 1 ∨ 2 ^ 39 < bodyField body 8 5) :
    ownConfigure b post body s = refuse .badValue s := by
  unfold ownConfigure
  dsimp only
  rw [if_neg (not_not.mpr hd)]
  by_cases hi : 3 < bodyField body 4 1
  · rw [if_pos hi]
  · rw [if_neg hi, if_pos (h.resolve_left hi)]

/-- A CONFIGURE that begins a session (R5). -/
theorem ownConfigure_starts (hd : s.device = .idle) (hi : bodyField body 4 1 ≤ 3) (he : bodyField body 8 5 ≤ 2 ^ 39) :
    ownConfigure b post body s =
      some
        (startSession (bodyField body 4 1) (bodyField body 8 5) (clampPeriod (bodyField body 24 4)) (configureCounts body) s,
          doneAnswer ((configureCounts body).toList.map resultWord ++ [resultWord (clampPeriod (bodyField body 24 4))])) := by
  unfold ownConfigure
  dsimp only
  rw [if_neg (not_not.mpr hd), if_neg (not_lt.mpr hi), if_neg (not_lt.mpr he)]

/-- Settles O43: the owner's checks one by one, and then the beginning of the session field by field. -/
theorem configureBeginsSession : Obligations.ConfigureBeginsSession := by
  intro b post body s h
  refine ⟨_, rfl, fun hd => takeOrder_refuses h (if_pos hd), fun hd bad => takeOrder_refuses h ?_, fun hd hi he => ?_⟩
  · exact ownConfigure_badValue hd bad
  · have count (p : Fin 4) : (configureCounts body)[p] = min 512 (bodyField body (16 + 2 * p.val) 2) := by
      simp [configureCounts]
    refine ⟨startSession (bodyField body 4 1) (bodyField body 8 5) (clampPeriod (bodyField body 24 4))
      (configureCounts body) s, takeOrder_answers h ?_ (by constructor <;> simp), startSession_eq .., fun p => ?_,
      fun i => ?_, (startSession_grows (cs := [.link]) (by simp) ..).events, fun some => ?_, fun none => ?_⟩
    · rw [startSession_scannerReported, ownConfigure_starts (s := s.scannerReported) hd hi he]
      rfl
    · rw [startSession_port, count]
      rfl
    · rw [startSession_entry]
      rfl
    · exact startSession_link (by simpa only [count] using some)
    · exact startSession_quiet (by simpa only [count] using none)

end configure

end Sys2Proof.Machine
end

section
/-! PROOFS. SWEEP (O47): the row lets the arbiter act after a refusal too. -/

namespace Sys2Proof.Machine

/-- A SWEEP that names fleet 8. -/
def fleetEightBody : List Byte := [0x05, 0, 0, 8]

/-- A READY job of fleet 0, on pilot position 0 and bin 0. -/
def waitingJob : Job :=
  { box := 1, post := 1, fleet := 0, pilot := 0, bin := 0, t0 := 0, needFirst := 0, needLast := 63
    blocksTotal := 1, nextBlock := 0, state := .ready, cancelPending := false, blocksDone := 0, accepted := 0
    noise := 0, gapped := 0, clipped := 0, surplus := 0, totalMissing := 0 }

/-- That job's pilot. -/
def waitingPilot : PilotEntry :=
  { id := 1, state := .ready, length := 64, shift := 0, interval := 0, pages := [0], useCount := 1, serial := 0 }

/-- That job's bin. -/
def waitingBin : BinRecord :=
  { phase := .opened, key := 0, mask := 0, box := 2, post := 1, firstChannel := 0, channelCount := 1
    lagFirst := 0, lagLast := 0, targetFold := 1, ratio8 := 8, hyst8 := 0, ceiling := 0, tripCount := 1
    missLimit := 0, fillCode := 0, exportOffset := 0, pendingJobs := 1, channelsAtTarget := 0, channels := [.zero] }

/-- RECORDING with the SWEEP in box 0 at its second post reading, while the Engine is free and the READY job stands in
its fleet's queue. -/
def refusedBesideReadyJob : State :=
  { State.reset with
    device := .recording
    library := { State.reset.library with entries := State.reset.library.entries.set 0 (some waitingPilot) }
    sched :=
      { State.reset.sched with
        jobs := State.reset.sched.jobs.set 0 (some waitingJob)
        queues := State.reset.sched.queues.set 0 [0] }
    stack :=
      { State.reset.stack with
        bins := State.reset.stack.bins.set 0 { State.reset.stack.bins[0] with record := some waitingBin } }
    board := { State.reset.board with phase := .secondPost 0 1 fleetEightBody }
    bus := { State.reset.bus with scanner := .issued (readBurst 4096 1) 0 } }

theorem refusedBesideReadyJob_reached :
    OrderReached (some .sweep) 0 1 fleetEightBody refusedBesideReadyJob := ⟨rfl, rfl, by decide⟩

/-- The refused SWEEP starts the READY job's pass. -/
theorem refusedBesideReadyJob_starts :
    (takeOrder (some .sweep) ownSweep arbitrate 1 refusedBesideReadyJob).engine.isFree = false := by
  decide

/-- Refutes O47: a SWEEP that is refused is followed by the arbiter all the same, and where a READY job waits while the
Engine is free its pass starts, so that the refusal does not leave the Engine as it was. The statement has no hypothesis
that the arbiter has nothing left to choose, which R73 keeps between steps. -/
theorem not_sweepEntersJob : ¬ Obligations.SweepEntersJob := by
  intro h
  obtain ⟨t, taken, -, badValue, -⟩ := h 0 1 fleetEightBody [] _ refusedBesideReadyJob_reached
  have engine : t.engine = .noPass := (badValue rfl (by decide)).only.engine
  have started : t.engine.isFree = false := Host.Outcome.next.inj taken ▸ refusedBesideReadyJob_starts
  rw [engine] at started
  cases started

end Sys2Proof.Machine
end

section
/-! PROOFS. OPEN_BIN (R107 to R110): what an overlap of key sets is, what zeroing a bin's accumulators does to each of
them, and the order. -/

namespace Sys2Proof.Machine

/-! ## Key sets (R106, R107) -/

/-- A key lies in a key set if it agrees with the set's key wherever the mask has a 0 (R106). -/
theorem keyInSet_iff (k m key : Word) :
    keyInSet k m key = true ↔ ∀ i < 32, m.getLsbD i = false → k.getLsbD i = key.getLsbD i := by
  rw [keyInSet, beq_iff_eq, BitVec.eq_of_getLsbD_eq_iff]
  refine forall₂_congr fun i hi => ?_
  cases hm : m.getLsbD i <;> simp [hi, hm, -BitVec.getLsbD_eq_getElem]

/-- Two key sets overlap if their keys agree wherever both masks have a 0 (R107). -/
theorem keysOverlap_iff (k m k' m' : Word) :
    keysOverlap k m k' m' = true ↔
      ∀ i < 32, m.getLsbD i = false → m'.getLsbD i = false → k.getLsbD i = k'.getLsbD i := by
  rw [keysOverlap, beq_iff_eq, BitVec.eq_of_getLsbD_eq_iff]
  refine forall₂_congr fun i hi => ?_
  cases hm : m.getLsbD i <;> cases hm' : m'.getLsbD i <;> simp [hi, hm, hm', -BitVec.getLsbD_eq_getElem]

/-- The key that takes each bit from the set that fixes it, from the first if both do. -/
def sharedKey (k m k' : Word) : Word := (k &&& ~~~m) ||| (k' &&& m)

theorem sharedKey_bit (k m k' : Word) {i : Nat} (hi : i < 32) :
    (sharedKey k m k').getLsbD i = if m.getLsbD i = true then k'.getLsbD i else k.getLsbD i := by
  cases hm : m.getLsbD i <;> simp [sharedKey, hi, hm, -BitVec.getLsbD_eq_getElem]

/-- Two key sets overlap exactly when some key lies in both. -/
theorem keysOverlap_iff_shared (k m k' m' : Word) :
    keysOverlap k m k' m' = true ↔ ∃ key, keyInSet k m key = true ∧ keyInSet k' m' key = true := by
  simp only [keysOverlap_iff, keyInSet_iff]
  constructor
  · intro agree
    refine ⟨sharedKey k m k', fun i hi hm => ?_, fun i hi hm' => ?_⟩
    · simp [sharedKey_bit _ _ _ hi, hm]
    · rw [sharedKey_bit _ _ _ hi]
      cases hm : m.getLsbD i with
      | false => exact (agree i hi hm hm').symm
      | true => rfl
  · rintro ⟨key, first, second⟩ i hi hm hm'
    exact (first i hi hm).trans (second i hi hm').symm

/-- Some bin's key set overlaps a key set (R107, R109). -/
theorem overlaps_iff {st : StackUnit} {key mask : Word} :
    st.overlaps key mask = true ↔ ∃ (n : Fin 8) (q : BinRecord), st.bins[n].record = some q ∧
      ∀ i < 32, mask.getLsbD i = false → q.mask.getLsbD i = false → key.getLsbD i = q.key.getLsbD i := by
  rw [StackUnit.overlaps, toList_eq_map, List.any_map, List.any_eq_true]
  simp only [List.mem_finRange, true_and, Function.comp_apply]
  refine exists_congr fun n => ?_
  cases st.bins[n].record <;> simp [keysOverlap_iff]

/-! ## The lowest FREE bin (R110) -/

theorem lowestFree_eq {st : StackUnit} {n : Fin 8} (hn : st.bins[n].record = none)
    (below : ∀ k < n, st.bins[k].record ≠ none) : st.lowestFree = some n := by
  rw [StackUnit.lowestFree, ← Fin.find?_eq_find?_finRange, Fin.find?_eq_some_iff]
  exact ⟨by rw [hn]; rfl, fun k hk => by simpa [Option.isSome_iff_ne_none] using below k hk⟩

theorem lowestFree_eq_none {st : StackUnit} (h : ∀ n : Fin 8, st.bins[n].record ≠ none) : st.lowestFree = none := by
  rw [StackUnit.lowestFree, List.find?_eq_none]
  exact fun n _ => by simpa using h n

/-! ## The accumulators (R103, R110) -/

/-- A cleared word reads `d`, whatever the memory lists. -/
theorem cellRead_clear {α : Type} (d : α) (p : Nat → Bool) (m : List (Nat × α)) (a : Nat) :
    cellRead d (cellsClear p m) a = if p a then d else cellRead d m a := by
  induction m with
  | nil => simp [cellsClear, cellRead]
  | cons c rest ih =>
    obtain ⟨k, v⟩ := c
    unfold cellsClear at ih ⊢
    rw [List.filter_cons]
    cases hk : p k with
    | true =>
      have other : k = a → p a = true := fun e => e ▸ hk
      by_cases e : k = a <;> simp [cellRead, ih, e, other]
    | false =>
      by_cases e : k = a
      · subst e
        simp [cellRead, hk]
      · simp [cellRead, ih, e]

/-- The words of a bin's channels and lags are those of its accumulators. -/
theorem accOfBin_address (b : Fin 8) (channels lags m : Nat) {position lag : Nat} (hp : position < 2048)
    (hl : lag < 16384) :
    accOfBin b channels lags (accAddress m position lag) = true ↔ m = b.val ∧ position < channels ∧ lag < lags := by
  have bin : accAddress m position lag / (2048 * 16384) = m := by unfold accAddress; omega
  have channel : accAddress m position lag / 16384 % 2048 = position := by unfold accAddress; omega
  have index : accAddress m position lag % 16384 = lag := by unfold accAddress; omega
  simp [accOfBin, bin, channel, index, and_assoc]

/-- Opening a bin zeroes the accumulators of its channels and lags, and no other (R110). -/
theorem openBinAt_acc (n : Fin 8) (r : BinRecord) (s : State) (m : Nat) {position lag : Nat} (hp : position < 2048)
    (hl : lag < 16384) :
    cellRead 0 (openBinAt n r s).dram.acc (accAddress m position lag) =
      if m = n.val ∧ position < r.channelCount ∧ lag < r.lags then 0
      else cellRead 0 s.dram.acc (accAddress m position lag) := by
  simp only [← accOfBin_address n r.channelCount r.lags m hp hl]
  exact cellRead_clear ..

/-- Opening a bin gives the accumulators of its channels and lags clean check bits, and no other (R110). -/
theorem openBinAt_accErrors (n : Fin 8) (r : BinRecord) (s : State) (m : Nat) {position lag : Nat}
    (hp : position < 2048) (hl : lag < 16384) :
    cellRead .clean (openBinAt n r s).dram.accErrors (accAddress m position lag) =
      if m = n.val ∧ position < r.channelCount ∧ lag < r.lags then .clean
      else cellRead .clean s.dram.accErrors (accAddress m position lag) := by
  simp only [← accOfBin_address n r.channelCount r.lags m hp hl]
  exact cellRead_clear ..

/-! ## The order -/

section openBin
variable {b : Fin 64} {post : Byte} {body : List Byte} {s : State} {n : Fin 8}

/-- The clamps leave some channels (R108). -/
def SomeChannels (b : Fin 64) (post : Byte) (body : List Byte) : Prop := (openedRecord b post body).channelCount ≠ 0

/-- The area that the clamped bin is exported to lies in the buffer area (R109, R141). -/
def ExtentFits (b : Fin 64) (post : Byte) (body : List Byte) (s : State) : Prop :=
  inBuffer s.regs (openedRecord b post body).exportOffset
    (extentLength (openedRecord b post body).channelCount (openedRecord b post body).lags) = true

/-- The key set of the order overlaps a non-FREE bin's (R109). -/
def KeyTaken (body : List Byte) (s : State) : Prop := s.stack.overlaps (bodyWord body 4) (bodyWord body 8) = true

theorem ownOpenBin_noChannels (hd : s.device = .recording) (hc : ¬SomeChannels b post body) :
    ownOpenBin b post body s = refuse .badValue s := by
  have none : (openedRecord b post body).channelCount = 0 := not_not.mp hc
  simp [ownOpenBin, hd, none]

theorem ownOpenBin_misfit (hd : s.device = .recording) (hc : SomeChannels b post body) (hf : ¬ExtentFits b post body s) :
    ownOpenBin b post body s = refuse .badExtent s := by
  unfold SomeChannels ExtentFits at *
  simp [ownOpenBin, hd, hc, hf]

theorem ownOpenBin_taken (hd : s.device = .recording) (hc : SomeChannels b post body) (hf : ExtentFits b post body s)
    (ho : KeyTaken body s) : ownOpenBin b post body s = refuse .keyOverlap s := by
  have taken : s.stack.overlaps (openedRecord b post body).key (openedRecord b post body).mask = true := ho
  unfold SomeChannels ExtentFits at *
  simp [ownOpenBin, hd, hc, hf, taken]

/-- An OPEN_BIN that passes its checks opens the lowest FREE bin, if there is one (R110). -/
theorem ownOpenBin_passes (hd : s.device = .recording) (hc : SomeChannels b post body) (hf : ExtentFits b post body s)
    (ho : ¬KeyTaken body s) :
    (s.stack.lowestFree = none → ownOpenBin b post body s = refuse .noBinFree s) ∧
      (s.stack.lowestFree = some n → ownOpenBin b post body s =
        some (openBinAt n (openedRecord b post body) s, openedAnswer n (openedRecord b post body))) := by
  have free : ¬s.stack.overlaps (openedRecord b post body).key (openedRecord b post body).mask = true := ho
  unfold SomeChannels ExtentFits at *
  constructor <;> intro hn <;> simp [ownOpenBin, hd, hc, hf, free, hn]

/-- Settles O50: the owner's checks one by one, the opened bin field by field, and what an overlap is. -/
theorem openBinOpensLowestFree : Obligations.OpenBinOpensLowestFree := by
  refine ⟨fun b post body s h => ⟨_, rfl, fun hd => takeOrder_refuses h (if_pos hd), fun hd hc => ?_, fun hd hc hf => ?_,
    fun hd hc hf ho => ?_, fun hd hc hf ho full => ?_, fun n hd hc hf ho hn below => ?_⟩, keysOverlap_iff_shared⟩
  · exact takeOrder_refuses h (ownOpenBin_noChannels hd (not_not.mpr hc))
  · exact takeOrder_refuses h (ownOpenBin_misfit hd hc (Bool.eq_false_iff.mp hf))
  · exact takeOrder_refuses h (ownOpenBin_taken hd hc hf (overlaps_iff.mpr ho))
  · exact takeOrder_refuses h
      ((ownOpenBin_passes (s := s.scannerReported) (n := 0) hd hc hf fun k => ho (overlaps_iff.mp k)).1 (lowestFree_eq_none full))
  · refine ⟨openBinAt n (openedRecord b post body) s, takeOrder_answers h ?_ ⟨rfl, rfl, rfl, rfl⟩, rfl,
      fun m position lag hp hl => ⟨openBinAt_acc _ _ s m hp hl, openBinAt_accErrors _ _ s m hp hl⟩⟩
    exact (ownOpenBin_passes (s := s.scannerReported) hd hc hf fun k => ho (overlaps_iff.mp k)).2
      (lowestFree_eq hn below)

end openBin

end Sys2Proof.Machine
end

section
/-! PROOFS. CLOSE_BIN (R125 to R127, R136): where the bin goes, and the order. -/

namespace Sys2Proof.Machine

/-! ## Entering EXPORTING (R127, R128, R135) -/

section exporting
variable {n : Fin 8} {r : BinRecord} {s : State}

/-- The part with bin `n` at the back of the queue of EXPORTING bins. -/
def atQueueBack (n : Fin 8) (r : BinRecord) (s : State) : State :=
  { s with
    stack :=
      { s.stack with
        bins := s.stack.bins.set n { s.stack.bins[n] with record := some { r with phase := .exporting } }
        exportQueue := s.stack.exportQueue ++ [n] } }

theorem atQueueBack_bin (n : Fin 8) (r : BinRecord) (s : State) :
    (atQueueBack n r s).stack.bins[n].record = some { r with phase := .exporting } := by
  simp [atQueueBack]

/-- The part with a bin that does not fit HELD as its turn comes (R135). -/
def heldUnfit (n : Fin 8) (r : BinRecord) (s : State) : State :=
  { s with
    events := raiseCause s.regs.intEn .bin s.events
    stack :=
      { s.stack with
        writer := none
        bins := s.stack.bins.set n
          { record := some { r with phase := .held }, lastExport := .writeFault, heldFaultOffset := r.exportOffset } } }

/-- A bin that joins others, or finds no valid window, waits in the queue. -/
theorem enterExporting_waits (h : s.stack.exportQueue ≠ [] ∨ windowValid s.regs = false) :
    enterExporting n r s = atQueueBack n r s := by
  cases hq : s.stack.exportQueue with
  | cons b rest => simp [enterExporting, atQueueBack, State.setBinRecord, State.setBin, hq]
  | nil =>
    have invalid : windowValid s.regs = false := h.resolve_left (not_not.mpr hq)
    simp [enterExporting, atQueueBack, State.setBinRecord, State.setBin, hq, beginExport, invalid]

/-- At an empty queue and with a valid window the bin comes to the head at once. -/
theorem enterExporting_head (hq : s.stack.exportQueue = []) (hv : windowValid s.regs = true) :
    enterExporting n r s =
      if inBuffer s.regs r.exportOffset (extentLength r.channelCount r.lags) = true then
        withExportBurst (Writer.start n) { r with phase := .exporting } (atQueueBack n r s)
      else heldUnfit n r s := by
  have entered : enterExporting n r s = beginExport 1 (atQueueBack n r s) := by
    simp [enterExporting, atQueueBack, State.setBinRecord, State.setBin, hq]
  have queue : (atQueueBack n r s).stack.exportQueue = [n] := by simp [atQueueBack, hq]
  have valid : windowValid (atQueueBack n r s).regs = true := hv
  rw [entered]
  simp only [beginExport, queue, valid, atQueueBack_bin, Bool.not_true, Bool.false_eq_true, if_false]
  rw [postExportBurst_eq (w := Writer.start n) (atQueueBack_bin n r s)]
  refine if_congr Iff.rfl rfl ?_
  simp [holdHead_eq, heldAtStart, heldUnfit, atQueueBack, hq]

end exporting

/-! ## Where a closed bin goes (R126, R127) -/

section closeBin
variable {b : Fin 64} {post : Byte} {body : List Byte} {n : Fin 8} {r : BinRecord} {offset : Nat} {s : State}

/-- The bin's record exported to the order's offset; 0 keeps the old one (R125). -/
def movedRecord (offset : Nat) (r : BinRecord) : BinRecord :=
  { r with exportOffset := if offset = 0 then r.exportOffset else offset }

theorem movedRecord_eq (offset : Nat) (r : BinRecord) :
    movedRecord offset r = if offset = 0 then r else { r with exportOffset := offset } := by
  unfold movedRecord
  split <;> rfl

/-- An OPEN bin that jobs name becomes DRAINING. -/
theorem closeBinAt_drains (ho : r.phase = .opened) (hp : 0 < r.pendingJobs) :
    closeBinAt n r s = s.setBinRecord n (some { r with phase := .draining }) := by
  simp [closeBinAt, ho, drainTest, State.setBinRecord, State.setBin, hp.ne']

/-- A DRAINING bin only takes the new record. -/
theorem closeBinAt_draining (hd : r.phase = .draining) : closeBinAt n r s = s.setBinRecord n (some r) := by
  simp [closeBinAt, hd]

/-- An OPEN bin without jobs and a HELD bin enter EXPORTING. -/
theorem closeBinAt_leaves (h : r.phase = .held ∨ r.phase = .opened ∧ r.pendingJobs = 0) :
    closeBinAt n r s = enterExporting n r s := by
  rcases h with hh | ⟨ho, hp⟩
  · simp [closeBinAt, hh]
  · simp [closeBinAt, ho, drainTest, enterExporting, State.setBinRecord, State.setBin, hp]

/-- A bin number in range names its bin. -/
theorem ownCloseBin_named (hd : s.device = .recording) (hn : bodyField body 4 1 = n.val) :
    ownCloseBin b post body s = closeNamed n (bodyField body 8 4) s := by
  have hlt : bodyField body 4 1 < 8 := hn ▸ n.isLt
  unfold ownCloseBin
  dsimp only
  rw [if_neg (not_not.mpr hd), dif_pos hlt]
  exact congrArg (closeNamed · (bodyField body 8 4) s) (Fin.ext hn)

/-- A bin number out of range is refused. -/
theorem ownCloseBin_beyond (hd : s.device = .recording) (hr : 7 < bodyField body 4 1) :
    ownCloseBin b post body s = refuse .badValue s := by
  unfold ownCloseBin
  dsimp only
  rw [if_neg (not_not.mpr hd), dif_neg (by omega)]

/-- A new offset at which the bin's extent does not lie in the buffer area (R125, R141). -/
def Misfit (offset : Nat) (r : BinRecord) (s : State) : Prop :=
  offset ≠ 0 ∧ inBuffer s.regs offset (extentLength r.channelCount r.lags) = false

theorem closeNamed_free (hr : s.stack.bins[n].record = none) : closeNamed n offset s = refuse .binState s := by
  simp only [closeNamed, hr]

theorem closeNamed_exporting (hr : s.stack.bins[n].record = some r) (he : r.phase = .exporting) :
    closeNamed n offset s = refuse .binState s := by
  simp only [closeNamed, hr, he, if_true]

theorem closeNamed_misfit (hr : s.stack.bins[n].record = some r) (he : r.phase ≠ .exporting) (hm : Misfit offset r s) :
    closeNamed n offset s = refuse .badExtent s := by
  obtain ⟨given, unfit⟩ := hm
  simp only [closeNamed, hr, if_neg he]
  exact if_pos ⟨given, by rw [unfit]; rfl⟩

/-- A CLOSE_BIN that passes its checks moves the bin (R126). -/
theorem closeNamed_moves (hr : s.stack.bins[n].record = some r) (he : r.phase ≠ .exporting) (hm : ¬Misfit offset r s) :
    closeNamed n offset s =
      some
        (closeBinAt n (movedRecord offset r) s,
          doneAnswer [resultWord n.val, resultWord r.phase.code, resultWord (movedRecord offset r).exportOffset]) := by
  have fits : ¬(offset ≠ 0 ∧ (!inBuffer s.regs offset (extentLength r.channelCount r.lags)) = true) := by
    simpa [Misfit] using hm
  simp only [closeNamed, hr, if_neg he, if_neg fits, ← movedRecord_eq]

/-- What the owner makes of a CLOSE_BIN that passes its checks, with the bin moved as a lemma on `closeBinAt` says. -/
theorem ownCloseBin_moves {u : State} (hd : s.device = .recording) (hn : bodyField body 4 1 = n.val)
    (hr : s.stack.bins[n].record = some r) (he : r.phase ≠ .exporting) (hm : ¬Misfit (bodyField body 8 4) r s)
    (hu : closeBinAt n (movedRecord (bodyField body 8 4) r) s = u) :
    ownCloseBin b post body s =
      some (u, doneAnswer [resultWord n.val, resultWord r.phase.code,
        resultWord (movedRecord (bodyField body 8 4) r).exportOffset]) := by
  rw [ownCloseBin_named hd hn, closeNamed_moves hr he hm, hu]

/-- The first burst of a bin keeps the bin in EXPORTING at its offset, and touches no other bin. -/
theorem withExportBurst_bins (w : Writer) (r : BinRecord) (s : State) :
    (∃ q, (withExportBurst w r s).stack.bins[w.bin].record = some q ∧ q.phase = r.phase ∧
      q.exportOffset = r.exportOffset) ∧
      ∀ m : Fin 8, m ≠ w.bin → (withExportBurst w r s).stack.bins[m] = s.stack.bins[m] := by
  constructor
  · exact ⟨_, congrArg Bin.record (set_get_self ..), rfl, rfl⟩
  · exact fun m hm => set_get_other _ _ (Ne.symm hm)

/-- Settles O51: the owner's checks one by one, and then each place where the bin may go. -/
theorem closeBinMovesBin : Obligations.CloseBinMovesBin := by
  intro b post body us s h
  let v := (s.applyUpsets us).scannerReported
  refine ⟨_, rfl, fun hd => takeOrder_refusesUpset us h (if_pos hd),
    fun hd hn => takeOrder_refusesUpset us h (ownCloseBin_beyond hd hn), fun n hd hn => ?_⟩
  have named : ownCloseBin b post body v = closeNamed n (bodyField body 8 4) v := ownCloseBin_named hd hn
  refine ⟨fun hr => takeOrder_refusesUpset us h (named.trans (closeNamed_free hr)), fun r hr => ?_⟩
  let r' := movedRecord (bodyField body 8 4) r
  have moves {u : State} (he : r.phase ≠ .exporting) (hm : ¬Misfit (bodyField body 8 4) r s)
      (hu : closeBinAt n r' v = u.scannerReported) (hs : SameScan s u) :=
    takeOrder_answersUpset (kind := some .closeBin) us h
      (ownCloseBin_moves (b := b) (post := post) (s := v) hd hn hr he hm hu) hs
  have leaving (hl : r.phase = .held ∨ r.phase = .opened ∧ r.pendingJobs = 0) : r.phase ≠ .exporting := by
    rcases hl with hp | ⟨hp, -⟩ <;> rw [hp] <;> exact nofun
  refine ⟨fun he => ?_, fun he hm => ?_, fun ho hp hm => ?_, fun hp hm => ?_, fun hl hm hw => ?_,
    fun hl hm hq hv hf => ?_, fun hl hm hq hv hf => ?_⟩
  · exact takeOrder_refusesUpset us h (named.trans (closeNamed_exporting hr he))
  · exact takeOrder_refusesUpset us h (named.trans (closeNamed_misfit hr he hm))
  · exact moves (by rw [ho]; exact nofun) hm (closeBinAt_drains (r := r') ho hp) (.of_board rfl)
  · exact moves (by rw [hp]; exact nofun) hm (closeBinAt_draining (r := r') hp) (.of_board rfl)
  · exact moves (leaving hl) hm ((closeBinAt_leaves (r := r') hl).trans (enterExporting_waits hw)) (.of_board rfl)
  · let u := withExportBurst (Writer.start n) { r' with phase := .exporting } (atQueueBack n r' (s.applyUpsets us))
    have bins := withExportBurst_bins (Writer.start n) { r' with phase := .exporting }
      (atQueueBack n r' (s.applyUpsets us))
    refine ⟨u, moves (leaving hl) hm ((closeBinAt_leaves (r := r') hl).trans ?_) (.of_board rfl), rfl, ?_, ⟨_, rfl, rfl, rfl⟩,
      bins.1, fun m hm => ?_, rfl, rfl⟩
    · exact (enterExporting_head (s := v) (r := r') hq hv).trans (if_pos hf)
    · exact congrArg (· ++ [n]) hq
    · exact (bins.2 m hm).trans (set_get_other _ _ (Ne.symm hm))
  · let u := heldUnfit n r' (s.applyUpsets us)
    refine ⟨u, moves (leaving hl) hm ((closeBinAt_leaves (r := r') hl).trans ?_) (.of_board rfl), rfl, ?_, ?_⟩
    · exact (enterExporting_head (s := v) (r := r') hq hv).trans (if_neg (Bool.eq_false_iff.mp hf))
    · exact raise_pending .bin s
    · exact (raise_grows (List.mem_singleton_self Cause.bin) s).events

end closeBin

end Sys2Proof.Machine
end

section
/-! PROOFS. What each command raises and whether it touches the ports: one case split over the commands, from which
lawful ports (O57), the pending causes (O4) and the settled index (O60) follow. -/

namespace Sys2Proof.Machine

variable {cs : List Cause} {s t u : State}

/-! ## Quiet commands

A command is quiet when it leaves the ports, W and the settled index alone and does no more to the Event Unit than
raise causes. -/

/-- Ports, W and settled index are as they were. -/
def SameLinks (s t : State) : Prop :=
  t.ports = s.ports ∧ t.store.newest = s.store.newest ∧ t.store.settled = s.store.settled

theorem SameLinks.trans (h : SameLinks s t) (k : SameLinks t u) : SameLinks s u :=
  ⟨k.1.trans h.1, k.2.1.trans h.2.1, k.2.2.trans h.2.2⟩

/-- Causes at most have been raised, and only those of `cs`. -/
structure Raises (cs : List Cause) (s t : State) : Prop where
  events : EventsGrow s.regs.intEn s.events t.events
  causes : ∀ c, isPending c t → isPending c s ∨ c ∈ cs

theorem Grows.raises (h : Grows cs s t) : Raises cs s t := ⟨h.events, h.causes⟩

/-- What a command answers raises no cause beyond `cs` and leaves the ports alone. -/
def Quiet (cs : List Cause) (s : State) (o : Host.Outcome State Fault Refusal) : Prop :=
  ∀ t, o = .next t → Raises cs s t ∧ SameLinks s t

theorem Quiet.next (h : Raises cs s t) (l : SameLinks s t) : Quiet cs s (.next t) := by
  rintro _ ⟨⟩
  exact ⟨h, l⟩

/-- Neither the Event Unit nor the ports change. -/
theorem Quiet.same (h : t.events = s.events ∧ SameLinks s t) : Quiet cs s (.next t) :=
  .next ⟨h.1 ▸ .refl _ _, fun c k => .inl (by unfold isPending at *; rwa [h.1] at k)⟩ h.2

theorem Quiet.idle (s : State) : Quiet cs s (.next s) := .same ⟨rfl, rfl, rfl, rfl⟩

/-- Errors that arise in local DRAM are no business of the ports. -/
theorem Quiet.upset (us : List Upset) (s : State) : Quiet cs s (.next (s.applyUpsets us)) :=
  .same (by simp [SameLinks])

/-- Causes are raised, and then the issue port is served. -/
theorem Quiet.served (h : Grows cs s t) (l : SameLinks s t) : Quiet cs s (.next (serveIssuePort t)) :=
  .next (h.trans (.of_eq (by simp) (by simp))).raises (l.trans (by simp [SameLinks]))

/-! ## The registers and the bus -/

theorem execWindowBaseWrite_quiet (half : WordHalf) (v : Word) (s : State) : Quiet cs s (execWindowBaseWrite half v s) := by
  unfold execWindowBaseWrite
  split <;> exact .same (by simp [SameLinks])

/-- The window's new size leaves INT_EN alone, so what waits for the window begins under the same messages (R128, R176). -/
theorem execWindowSizeWrite_quiet (hb : Cause.bin ∈ cs) (v : Word) (us : List Upset) (s : State) :
    Quiet cs s (execWindowSizeWrite v us s) := by
  unfold execWindowSizeWrite
  dsimp only
  split
  · generalize hu : windowChanged (v != (s.applyUpsets us).regs.size)
      { s.applyUpsets us with regs := { (s.applyUpsets us).regs with size := v } } = u
    have same : u.regs.intEn = s.regs.intEn ∧ u.events = s.events ∧ SameLinks s u := by
      subst hu
      simp [SameLinks]
    obtain ⟨enabled, events, links⟩ := same
    obtain ⟨grown, causes⟩ := (beginExport_grows hb u.stack.exportQueue.length u).raises
    refine .next ⟨?_, fun c h => ?_⟩ (links.trans (by simp [SameLinks]))
    · simpa [enabled, events] using grown
    · simpa [isPending, events] using causes c (by simpa [isPending] using h)
  · exact .same (by simp [SameLinks])

theorem execScrubComplete_quiet (s : State) : Quiet cs s (execScrubComplete s) := by
  unfold execScrubComplete
  split <;> exact .same (by simp [SameLinks])

theorem execBurstHandedOver_quiet (s : State) : Quiet cs s (execBurstHandedOver s) := by
  unfold execBurstHandedOver
  split
  · exact .same (by simp [SameLinks])
  · exact .idle s

theorem failScannerRead_quiet (hf : Cause.fault ∈ cs) (s : State) : Quiet cs s (.next (failScannerRead s)) :=
  .next (failScannerRead_grows hf s).raises (by simp [SameLinks])

theorem execReadCompletionTimeout_quiet (hf : Cause.fault ∈ cs) (r : Requester) (data : List Byte) (s : State) :
    Quiet cs s (execReadCompletionTimeout r data s) := by
  unfold execReadCompletionTimeout
  split
  · split
    · exact failScannerRead_quiet hf s
    · exact .idle s
  · exact .idle s
  · split
    · split
      · exact .served (failLoaderBurst_grows hf _ _ _) (by simp [SameLinks])
      · exact .idle s
    · exact .idle s

/-! ## The pass in flight -/

theorem abandonDamaged_grows (hb : Cause.bin ∈ cs) (r : PassRecord) (s : State) : Grows cs s (abandonDamaged r s) := by
  unfold abandonDamaged
  exact (endPass_grows hb .pilotDamaged _).start (by simp) (by simp)

theorem readPilotSample_quiet (hb : Cause.bin ∈ cs) (r : PassRecord) (pilot : List Int)
    (finished : List (List (Option Int))) (reading : List (Option Int)) (s : State) :
    Grows cs s (readPilotSample r pilot finished reading s) ∧ SameLinks s (readPilotSample r pilot finished reading s) := by
  unfold readPilotSample
  split
  · rename_i u v hu
    obtain rfl : (readPilot (pilotWordAt r.pages pilot.length) s).1 = u := congrArg Prod.fst hu
    exact ⟨.of_eq (by simp) (by simp), by simp [SameLinks]⟩
  · rename_i u hu
    obtain rfl : (readPilot (pilotWordAt r.pages pilot.length) s).1 = u := congrArg Prod.fst hu
    have abandoned : Grows cs s (abandonDamaged r (readPilot (pilotWordAt r.pages pilot.length) s).1) :=
      (abandonDamaged_grows hb r _).start (by simp) (by simp)
    have unsettled : SameLinks s (abandonDamaged r (readPilot (pilotWordAt r.pages pilot.length) s).1) := by
      simp [SameLinks, abandonDamaged]
    exact ⟨(abandoned.trans (arbitrate_grows hb _)).trans (.of_eq (by simp) (by simp)),
      unsettled.trans (by simp [SameLinks])⟩

theorem execPilotSampleRead_quiet (hb : Cause.bin ∈ cs) (us : List Upset) (s : State) :
    Quiet cs s (execPilotSampleRead us s) := by
  unfold execPilotSampleRead
  dsimp only
  split
  · rename_i r pilot finished reading _
    split
    · obtain ⟨grown, links⟩ := readPilotSample_quiet hb r pilot finished reading (s.applyUpsets us)
      exact .next (grown.start (by simp) (by simp)).raises (.trans (by simp [SameLinks]) links)
    · exact .upset us s
  · exact .upset us s

theorem execRawSampleRead_quiet (us : List Upset) (s : State) : Quiet cs s (execRawSampleRead us s) := by
  unfold execRawSampleRead
  dsimp only
  split
  · split
    · exact .same (by simp [SameLinks])
    · exact .upset us s
  · exact .upset us s

theorem execComputeEnd_quiet (s : State) : Quiet cs s (execComputeEnd s) := by
  unfold execComputeEnd
  split
  · split
    · exact .same (by simp [SameLinks])
    · exact .idle s
  · exact .idle s

theorem execTraceApply_quiet (hn : Cause.channel ∈ cs) (hb : Cause.bin ∈ cs) (us : List Upset) (s : State) :
    Quiet cs s (execTraceApply us s) := by
  unfold execTraceApply
  dsimp only
  have upset : Grows cs s (s.applyUpsets us) := .of_eq (by simp) (by simp)
  split
  · split
    · exact .served (upset.trans ((applyTrace_grows hn hb _ _ _ _ _).trans (afterTrace_grows hb _ _ _))) (by simp [SameLinks])
    · exact .served (upset.trans (afterTrace_grows hb _ _ _)) (by simp [SameLinks])
  · exact .upset us s

/-! ## The board scan -/

theorem execHostPostReadDone_quiet (post : Byte) (s : State) : Quiet cs s (execHostPostReadDone post s) := by
  unfold execHostPostReadDone
  split
  · split
    · exact .same (by simp [SameLinks])
    · exact .idle s
  · exact .idle s

theorem execBodyReadDone_quiet (body : List Byte) (s : State) : Quiet cs s (execBodyReadDone body s) := by
  unfold execBodyReadDone
  split
  · split
    · exact .same (by simp [SameLinks])
    · exact .idle s
  · exact .idle s

theorem execTornRead_quiet (hf : Cause.fault ∈ cs) (cause : TornCause) (s : State) : Quiet cs s (execTornRead cause s) := by
  unfold execTornRead
  split
  · split
    · exact .same (by simp [SameLinks])
    · exact .idle s
  · split
    · exact failScannerRead_quiet hf s
    · exact .idle s

theorem execBaselinePostRecheckDone_quiet (post : Byte) (s : State) : Quiet cs s (execBaselinePostRecheckDone post s) := by
  unfold execBaselinePostRecheckDone
  split
  · split
    · split <;> exact .same (by simp [SameLinks])
    · exact .idle s
  · exact .idle s

theorem execAnswerFirstWriteDone_quiet (s : State) : Quiet cs s (execAnswerFirstWriteDone s) := by
  unfold execAnswerFirstWriteDone
  split
  · split
    · exact .same (by simp [SameLinks])
    · exact .idle s
  · exact .idle s

theorem execAnswerSecondWriteDone_quiet (hx : Cause.box ∈ cs) (s : State) : Quiet cs s (execAnswerSecondWriteDone s) := by
  unfold execAnswerSecondWriteDone
  split
  · rename_i round b sent _
    split
    · have written : Grows cs s (answerWritten b sent s.scannerReported) :=
        (answerWritten_grows hx b sent _).start (by simp) (by simp)
      exact .served (written.trans (.of_eq (by simp) (by simp))) (by simp [SameLinks])
    · exact .idle s
  · exact .idle s

theorem failAnswerWrite_quiet (hf : Cause.fault ∈ cs) (round : AnswerRound) (b : Fin 64) (s : State) :
    Quiet cs s (.next (failAnswerWrite round b s)) :=
  .next (failAnswerWrite_grows hf round b s).raises (by simp [SameLinks])

theorem execAnswerWriteFault_quiet (hf : Cause.fault ∈ cs) (s : State) : Quiet cs s (execAnswerWriteFault s) := by
  unfold execAnswerWriteFault
  split
  · split
    · exact failAnswerWrite_quiet hf _ _ s
    · exact .idle s
  · split
    · exact failAnswerWrite_quiet hf _ _ s
    · exact .idle s
  · exact .idle s

theorem execStatusPageWriteDone_quiet (s : State) : Quiet cs s (execStatusPageWriteDone s) := by
  unfold execStatusPageWriteDone
  split
  · exact .same (by simp [SameLinks])
  · exact .idle s

theorem execStatusPageWriteFault_quiet (hf : Cause.fault ∈ cs) (s : State) : Quiet cs s (execStatusPageWriteFault s) := by
  unfold execStatusPageWriteFault
  split
  · have faulted : Grows cs s (s.scannerReported.busFault .scanner) :=
      (busFault_grows hf .scanner _).start (by simp) (by simp)
    exact .served (faulted.trans (.of_eq (by simp) (by simp))) (by simp [SameLinks])
  · exact .idle s

/-! ## The mover -/

theorem execExportBurstDone_quiet (hb : Cause.bin ∈ cs) (us : List Upset) (s : State) :
    Quiet cs s (execExportBurstDone us s) := by
  unfold execExportBurstDone
  dsimp only
  split
  · exact .served ((exportBurstCompleted_grows hb _ _).start (by simp) (by simp)) (by simp [SameLinks])
  · exact .upset us s

theorem execExportBurstFault_quiet (hf : Cause.fault ∈ cs) (hb : Cause.bin ∈ cs) (us : List Upset) (s : State) :
    Quiet cs s (execExportBurstFault us s) := by
  unfold execExportBurstFault
  dsimp only
  split
  · exact .served ((exportBurstFailed_grows hf hb _ _).start (by simp) (by simp)) (by simp [SameLinks])
  · exact .upset us s

theorem execPilotBurstDone_quiet (data : List Byte) (s : State) : Quiet cs s (execPilotBurstDone data s) := by
  unfold execPilotBurstDone
  split
  · split
    · exact .same (by simp [SameLinks])
    · exact .idle s
  · exact .idle s

theorem execPilotBurstFault_quiet (hf : Cause.fault ∈ cs) (data : List Byte) (s : State) :
    Quiet cs s (execPilotBurstFault data s) := by
  unfold execPilotBurstFault
  split
  · exact .served (failLoaderBurst_grows hf _ _ _) (by simp [SameLinks])
  · exact .idle s

/-! ## The orders -/

/-- The take of an order is quiet, if its owner and what follows its answer are (R148 to R150). -/
theorem takeOrder_quiet {kind : Option OrderKind} {owner : Fin 64 → Byte → List Byte → State → Verdict}
    {after : State → State} (post : Byte) (s : State)
    (ho : ∀ b body u t a, owner b post body u = some (t, a) → Grows cs u t ∧ SameLinks u t)
    (ha : ∀ u, Grows cs u (after u) ∧ SameLinks u (after u)) :
    Grows cs s (takeOrder kind owner after post s) ∧ SameLinks s (takeOrder kind owner after post s) := by
  refine ⟨takeOrder_grows _ _ _ _ _ (fun b body u t a h => (ho b body u t a h).1) fun u => (ha u).1, ?_⟩
  obtain e | e | ⟨b, body, t, a, -, -, h, e⟩ := takeOrder_cases kind owner after post s <;> rw [e]
  · exact ⟨rfl, rfl, rfl⟩
  · simp [SameLinks]
  · have taken : SameLinks s t := .trans (by simp [SameLinks]) (ho b body _ t a h).2
    have followed := (ha (recordTake b post (bodyKindCode body) a t)).2
    exact (taken.trans (.trans (by simp [SameLinks]) followed)).trans (by simp [SameLinks])

theorem takeOrder_upset {kind : Option OrderKind} {owner : Fin 64 → Byte → List Byte → State → Verdict}
    {after : State → State} (post : Byte) (us : List Upset) (s : State)
    (ho : ∀ b body u t a, owner b post body u = some (t, a) → Grows cs u t ∧ SameLinks u t)
    (ha : ∀ u, Grows cs u (after u) ∧ SameLinks u (after u)) :
    Quiet cs s (.next (takeOrder kind owner after post (s.applyUpsets us))) := by
  obtain ⟨grown, links⟩ := takeOrder_quiet (kind := kind) post (s.applyUpsets us) ho ha
  exact .next (grown.start (by simp) (by simp)).raises (.trans (by simp [SameLinks]) links)

section owners
variable {b : Fin 64} {post : Byte} {body : List Byte} {a : Answer}

/-- An owner that leaves the part as it is, or raises nothing. -/
theorem quiet_of_same (h : t.regs = s.regs ∧ t.events = s.events ∧ SameLinks s t) : Grows cs s t ∧ SameLinks s t :=
  ⟨.of_eq h.1 h.2.1, h.2.2⟩

theorem quiet_refl (s : State) : Grows cs s s ∧ SameLinks s s := quiet_of_same ⟨rfl, rfl, rfl, rfl, rfl⟩

theorem arbitrate_quiet (hb : Cause.bin ∈ cs) (u : State) : Grows cs u (arbitrate u) ∧ SameLinks u (arbitrate u) :=
  ⟨arbitrate_grows hb u, by simp [SameLinks]⟩

theorem ownLoadPilot_quiet (h : ownLoadPilot b post body s = some (t, a)) : Grows cs s t ∧ SameLinks s t := by
  obtain rfl | ⟨_, rfl⟩ := ownLoadPilot_does h
  · exact quiet_refl _
  · exact quiet_of_same (by simp [SameLinks])

theorem ownDropPilot_quiet (h : ownDropPilot b post body s = some (t, a)) : Grows cs s t ∧ SameLinks s t := by
  obtain rfl | ⟨_, rfl⟩ := ownDropPilot_does h
  · exact quiet_refl _
  · exact quiet_of_same (by simp [SameLinks])

theorem ownSweep_quiet (h : ownSweep b post body s = some (t, a)) : Grows cs s t ∧ SameLinks s t := by
  obtain rfl | ⟨_, _, _, _, _, _, _, rfl⟩ := ownSweep_does h
  · exact quiet_refl _
  · exact quiet_of_same (by simp [SameLinks])

theorem ownCancel_quiet (hb : Cause.bin ∈ cs) (h : ownCancel b post body s = some (t, a)) :
    Grows cs s t ∧ SameLinks s t := by
  obtain rfl | ⟨n, rfl⟩ := ownCancel_does h
  · exact quiet_refl _
  · exact ⟨cancelJob_grows hb n s, by simp [SameLinks]⟩

theorem ownFleetOrder_quiet (h : ownFleetOrder b post body s = some (t, a)) : Grows cs s t ∧ SameLinks s t := by
  obtain rfl | ⟨_, _, _, rfl⟩ := ownFleetOrder_does h
  · exact quiet_refl _
  · exact quiet_of_same (by simp [SameLinks])

theorem ownOpenBin_quiet (h : ownOpenBin b post body s = some (t, a)) : Grows cs s t ∧ SameLinks s t := by
  obtain rfl | ⟨_, _, _, _, _, rfl⟩ := ownOpenBin_does h
  · exact quiet_refl _
  · exact quiet_of_same (by simp [SameLinks])

theorem ownCloseBin_quiet (hb : Cause.bin ∈ cs) (h : ownCloseBin b post body s = some (t, a)) :
    Grows cs s t ∧ SameLinks s t := by
  obtain rfl | ⟨n, _, r, _, _, rfl⟩ := ownCloseBin_does h
  · exact quiet_refl _
  · exact ⟨closeBinAt_grows hb n r s, by simp [SameLinks]⟩

theorem ownDiscardBin_quiet (h : ownDiscardBin b post body s = some (t, a)) : Grows cs s t ∧ SameLinks s t := by
  obtain rfl | ⟨_, _, _, _, rfl⟩ := ownDiscardBin_does h
  · exact quiet_refl _
  · exact quiet_of_same (by simp [SameLinks])

end owners

/-! ## All commands -/

/-- The commands that write the event registers, reset or change a port. -/
def touchesLinks : Instr → Bool
  | .powerOnReset => true
  | .fullReset _ => true
  | .workReset _ => true
  | .scanEnIntEnWrite _ => true
  | .eventPendingWrite _ => true
  | .eventMaskWrite _ => true
  | .frameArrival _ _ _ => true
  | .carrierLoss _ _ => true
  | .carrierPresent _ => true
  | .configure _ => true
  | .endRecording _ => true
  | _ => false

/-- Every other command raises at most the causes that 11.1 has it raise, and leaves the ports alone. -/
theorem exec_quiet {c : Instr} (hc : touchesLinks c = false) (s : State) : Quiet (mayRaise c) s (exec c s) := by
  have bin : Cause.bin ∈ [Cause.bin] := List.mem_singleton_self _
  have fault : Cause.fault ∈ [Cause.fault] := List.mem_singleton_self _
  have order {kind : Option OrderKind} {owner : Fin 64 → Byte → List Byte → State → Verdict} {cs : List Cause}
      (post : Byte) (ho : ∀ b body u t a, owner b post body u = some (t, a) → Grows cs u t ∧ SameLinks u t) :
      Quiet cs s (.next (takeOrder kind owner id post s)) :=
    .next (takeOrder_quiet post s ho quiet_refl).1.raises (takeOrder_quiet (cs := cs) post s ho quiet_refl).2
  cases c with
  | powerOnReset => cases hc
  | fullReset v => cases hc
  | workReset v => cases hc
  | scanEnIntEnWrite v => cases hc
  | eventPendingWrite v => cases hc
  | eventMaskWrite v => cases hc
  | frameArrival p bytes us => cases hc
  | carrierLoss p us => cases hc
  | carrierPresent p => cases hc
  | configure post => cases hc
  | endRecording post => cases hc
  | nudge v => exact .same (by simp [SameLinks])
  | windowBaseWrite half v => exact execWindowBaseWrite_quiet half v s
  | windowSizeWrite v us => exact execWindowSizeWrite_quiet bin v us s
  | registerWriteIgnored => exact .idle s
  | scrubComplete => exact execScrubComplete_quiet s
  | scanTimerExpiry => exact .same (by simp [SameLinks])
  | pilotSampleRead us => exact execPilotSampleRead_quiet bin us s
  | rawSampleRead us => exact execRawSampleRead_quiet us s
  | computeEnd => exact execComputeEnd_quiet s
  | traceApply us => exact execTraceApply_quiet (by simp [mayRaise]) (by simp [mayRaise]) us s
  | burstHandedOver => exact execBurstHandedOver_quiet s
  | readCompletionTimeout r data => exact execReadCompletionTimeout_quiet fault r data s
  | hostPostReadDone post => exact execHostPostReadDone_quiet post s
  | bodyReadDone body => exact execBodyReadDone_quiet body s
  | tornRead cause => exact execTornRead_quiet fault cause s
  | baselinePostRecheckDone post => exact execBaselinePostRecheckDone_quiet post s
  | badKind post => exact order post fun _ _ _ _ _ h => refuse_same h ▸ quiet_refl _
  | loadPilot post => exact order post fun _ _ _ _ _ => ownLoadPilot_quiet
  | dropPilot post => exact order post fun _ _ _ _ _ => ownDropPilot_quiet
  | sweep post us => exact takeOrder_upset post us s (fun _ _ _ _ _ => ownSweep_quiet) (arbitrate_quiet bin)
  | cancel post us => exact takeOrder_upset post us s (fun _ _ _ _ _ => ownCancel_quiet bin) quiet_refl
  | fleetOrder post us => exact takeOrder_upset post us s (fun _ _ _ _ _ => ownFleetOrder_quiet) (arbitrate_quiet bin)
  | openBin post => exact order post fun _ _ _ _ _ => ownOpenBin_quiet
  | closeBin post us => exact takeOrder_upset post us s (fun _ _ _ _ _ => ownCloseBin_quiet bin) quiet_refl
  | discardBin post => exact order post fun _ _ _ _ _ => ownDiscardBin_quiet
  | answerFirstWriteDone => exact execAnswerFirstWriteDone_quiet s
  | answerSecondWriteDone => exact execAnswerSecondWriteDone_quiet (List.mem_singleton_self _) s
  | answerWriteFault => exact execAnswerWriteFault_quiet fault s
  | statusPageWriteDone => exact execStatusPageWriteDone_quiet s
  | statusPageWriteFault => exact execStatusPageWriteFault_quiet fault s
  | exportBurstDone us => exact execExportBurstDone_quiet bin us s
  | exportBurstFault us => exact execExportBurstFault_quiet (by simp [mayRaise]) (by simp [mayRaise]) us s
  | pilotBurstDone data => exact execPilotBurstDone_quiet data s
  | pilotBurstFault data => exact execPilotBurstFault_quiet fault data s

end Sys2Proof.Machine
end

section
/-! PROOFS. Every step keeps the ports lawful (O57). -/

namespace Sys2Proof.Machine

variable {s t : State}

theorem mapTable_lawful {f : Port → Port} (hf : ∀ x, PortLawful (f x)) (e : t.ports = mapTable f s.ports) : PortsLawful t := by
  intro p
  rw [e]
  simpa using hf s.ports[p]

theorem powerOn_lawful (s : State) : PortsLawful (powerOn s) := by
  obtain ⟨-, -, ports, -⟩ := resetIsLawful
  exact lawful_congr rfl ports

theorem controlWrite_lawful (v : Word) (h : PortsLawful s) : PortsLawful (controlWrite v s) := by
  unfold controlWrite
  split
  · exact mapTable_lawful (f := Port.afterReset) (s := s) (fun _ => reset_lawful) rfl
  · split
    · exact mapTable_lawful (f := Port.afterReset) (s := s) (fun _ => reset_lawful) rfl
    · exact lawful_congr rfl h

/-- A session's begin: every port as its channel count has it (R7). -/
theorem startSession_lawful (i e n : Nat) (c : Vector Nat 4) (h : PortsLawful s) : PortsLawful (startSession i e n c s) := by
  intro p
  rw [startSession_port]
  exact configure_lawful (h p)

/-- The ports after the take of an order that ends or begins a session are those its owner leaves. -/
theorem takeOrder_lawful {kind : Option OrderKind} {owner : Fin 64 → Byte → List Byte → State → Verdict} (post : Byte)
    (ho : ∀ b body u t a, owner b post body u = some (t, a) → PortsLawful u → PortsLawful t) (h : PortsLawful s) :
    PortsLawful (takeOrder kind owner id post s) := by
  obtain e | e | ⟨b, body, t, a, -, -, taken, e⟩ := takeOrder_cases kind owner id post s <;> rw [e]
  · exact h
  · exact lawful_congr (by simp) h
  · exact lawful_congr (s := t) (by simp) (ho b body _ t a taken (lawful_congr (by simp) h))

theorem execCarrierLoss_lawful {p : Fin 4} {us : List Upset} (h : PortsLawful s) (e : execCarrierLoss p us s = .next t) :
    PortsLawful t := by
  have lost : PortsLawful (loseCarrier p (s.applyUpsets us)) := loseCarrier_lawful (lawful_congr (by simp) h)
  unfold execCarrierLoss at e
  dsimp only at e
  split at e
  · cases e
    exact lawful_congr (by simp) lost
  · cases e
    exact lost

/-- Every command keeps the ports lawful. -/
theorem exec_lawful {c : Instr} (h : PortsLawful s) (e : exec c s = .next t) : PortsLawful t := by
  by_cases hc : touchesLinks c = false
  · exact lawful_congr (exec_quiet hc s t e).2.1 h
  · cases c with
    | powerOnReset => exact Host.Outcome.next.inj e ▸ powerOn_lawful s
    | fullReset v => exact Host.Outcome.next.inj e ▸ controlWrite_lawful v h
    | workReset v => exact Host.Outcome.next.inj e ▸ controlWrite_lawful v h
    | scanEnIntEnWrite v => exact Host.Outcome.next.inj e ▸ controlWrite_lawful v h
    | eventPendingWrite v => exact Host.Outcome.next.inj e ▸ lawful_congr rfl h
    | eventMaskWrite v => exact Host.Outcome.next.inj e ▸ lawful_congr rfl h
    | frameArrival p bytes us =>
      exact Host.Outcome.next.inj e ▸ arrival_lawful (lawful_congr (by simp) h)
    | carrierLoss p us => exact execCarrierLoss_lawful h e
    | carrierPresent p => exact Host.Outcome.next.inj e ▸ setPort_lawful h (carrier_lawful (h p))
    | configure post =>
      refine Host.Outcome.next.inj e ▸ takeOrder_lawful post (fun b body u t a taken hu => ?_) h
      obtain rfl | ⟨-, _, _, _, _, rfl⟩ := ownConfigure_does taken
      · exact hu
      · exact startSession_lawful _ _ _ _ hu
    | endRecording post =>
      refine Host.Outcome.next.inj e ▸ takeOrder_lawful post (fun b body u t a taken hu => ?_) h
      obtain rfl | ⟨-, -, rfl⟩ := ownEndRecording_does taken
      · exact hu
      · exact mapTable_lawful (fun _ => close_lawful) (endSession_ports _)
    | _ => exact absurd rfl hc

/-- Settles O57: a quiet command leaves the ports alone, and every other one is looked at. -/
theorem portsStayLawful : Obligations.PortsStayLawful := by
  intro s t h e
  unfold step at e
  split at e
  · cases e
    exact h
  · have waiting (rest : List Instr) : PortsLawful { s with pending := rest } := lawful_congr rfl h
    exact exec_lawful (waiting _) e

end Sys2Proof.Machine
end

section
/-! PROOFS. No command takes back a pending cause, and each raises only its own (O4). -/

namespace Sys2Proof.Machine

variable {cs : List Cause} {s t : State}

/-- What O4 says of a command that raises at most the causes `cs`. -/
theorem Raises.keeps (h : Raises cs s t) : t.events.mask = s.events.mask ∧
    (∀ cause, isPending cause s → isPending cause t) ∧ (∀ cause, isPending cause t → isPending cause s ∨ cause ∈ cs) ∧
      MessagesGo (if s.regs.intEn = true ∧ signalled s.events = 0 ∧ signalled t.events ≠ 0 then 1 else 0) s.events t.events :=
  ⟨h.events.mask, fun _ => h.events.keeps, h.causes, h.events.messages⟩

/-- The orders that begin and end a session raise LINK alone (R30). -/
theorem takeOrder_raises {kind : Option OrderKind} {owner : Fin 64 → Byte → List Byte → State → Verdict} (post : Byte)
    (s : State) (ho : ∀ b body u t a, owner b post body u = some (t, a) → Grows cs u t) :
    Raises cs s (takeOrder kind owner id post s) := (takeOrder_grows kind owner id post s ho .refl).raises

theorem execCarrierLoss_raises (hl : Cause.link ∈ cs) (hb : Cause.bin ∈ cs) {p : Fin 4} {us : List Upset}
    (e : execCarrierLoss p us s = .next t) : Raises cs s t := by
  have lost : Grows cs s (loseCarrier p (s.applyUpsets us)) :=
    (loseCarrier_grows hl p _).start (by simp) (by simp)
  unfold execCarrierLoss at e
  dsimp only at e
  split at e
  · cases e
    exact (lost.trans (settleEvent_grows hb _)).raises
  · cases e
    exact lost.raises

/-- Every command but the resets and the writes to the event registers and CONTROL only raises causes. -/
theorem exec_raises {c : Instr} (hp : c ≠ .powerOnReset)
    (hw : ∀ v, c ≠ .eventPendingWrite v ∧ c ≠ .eventMaskWrite v ∧ c ≠ .fullReset v ∧ c ≠ .workReset v ∧
      c ≠ .scanEnIntEnWrite v) (e : exec c s = .next t) : Raises (mayRaise c) s t := by
  by_cases hc : touchesLinks c = false
  · exact (exec_quiet hc s t e).1
  · have link : Cause.link ∈ [Cause.link, Cause.bin] := List.mem_cons_self
    have bin : Cause.bin ∈ [Cause.link, Cause.bin] := by simp
    have linkAlone : Cause.link ∈ [Cause.link] := List.mem_singleton_self _
    cases c with
    | powerOnReset => exact absurd rfl hp
    | eventPendingWrite v => exact absurd rfl (hw v).1
    | eventMaskWrite v => exact absurd rfl (hw v).2.1
    | fullReset v => exact absurd rfl (hw v).2.2.1
    | workReset v => exact absurd rfl (hw v).2.2.2.1
    | scanEnIntEnWrite v => exact absurd rfl (hw v).2.2.2.2
    | frameArrival p bytes us =>
      exact Host.Outcome.next.inj e ▸ ((arrival_grows link bin p bytes _).start (by simp) (by simp)).raises
    | carrierLoss p us => exact execCarrierLoss_raises link bin e
    | carrierPresent p => exact Host.Outcome.next.inj e ▸ (Grows.of_eq (by simp) (by simp)).raises
    | configure post =>
      refine Host.Outcome.next.inj e ▸ takeOrder_raises post s fun b body u t a taken => ?_
      obtain rfl | ⟨-, _, _, _, _, rfl⟩ := ownConfigure_does taken
      · exact .refl _
      · exact startSession_grows linkAlone _ _ _ _ _
    | endRecording post =>
      refine Host.Outcome.next.inj e ▸ takeOrder_raises post s fun b body u t a taken => ?_
      obtain rfl | ⟨-, -, rfl⟩ := ownEndRecording_does taken
      · exact .refl _
      · exact endSession_grows linkAlone _
    | _ => exact absurd rfl hc

/-- A write to CONTROL that is no full reset leaves mask and pending set as they are (R13, R175). -/
theorem controlWrite_causes {v : Word} (hv : resetField v ≠ 2) (s : State) :
    (controlWrite v s).events.mask = s.events.mask ∧ (controlWrite v s).events.pending = s.events.pending := by
  unfold controlWrite
  rw [if_neg (show controlReset v ≠ 2 from hv)]
  split <;> simp [setEnables, workReset]

/-- Where mask and pending set are kept, so is every pending cause, and none is raised. -/
theorem causes_kept {cs : List Cause} (h : t.events.pending = s.events.pending) :
    (∀ cause, isPending cause s → isPending cause t) ∧ ∀ cause, isPending cause t → isPending cause s ∨ cause ∈ cs := by
  unfold isPending
  rw [h]
  exact ⟨fun _ => id, fun _ => .inl⟩

/-- A cause that is pending after a write to EVENT_PENDING was pending before (R172). -/
theorem isPending_of_clearCauses {i : Bool} {v : Word} {c : Cause} (hs : t.events = clearCauses i v s.events)
    (h : isPending c t) : isPending c s := by
  unfold isPending at *
  rw [hs] at h
  simp only [clearCauses, sendIf_keeps] at h
  rw [← h, BitVec.and_assoc, ← BitVec.and_assoc, BitVec.and_self]

/-- Settles O4. -/
theorem pendingCausesStay : Obligations.PendingCausesStay := by
  intro c s t e hp hf
  have control {v : Word} (hv : resetField v ≠ 2) (e : t = controlWrite v s) {cs : List Cause} :
      t.events.mask = s.events.mask ∧ (∀ cause, isPending cause s → isPending cause t) ∧
        ∀ cause, isPending cause t → isPending cause s ∨ cause ∈ cs := by
    subst e
    exact ⟨(controlWrite_causes hv s).1, causes_kept (controlWrite_causes hv s).2⟩
  cases c with
  | fullReset v =>
    obtain ⟨mask, kept, raised⟩ := control (v := v) (cs := mayRaise (.fullReset v)) (fun h => (hf v h).1 rfl) (Host.Outcome.next.inj e).symm
    exact ⟨fun _ => mask, fun _ => kept, raised, fun h => absurd rfl (h v).2.2.1⟩
  | workReset v =>
    obtain ⟨mask, kept, raised⟩ := control (v := v) (cs := mayRaise (.workReset v)) (fun h => (hf v h).2.1 rfl) (Host.Outcome.next.inj e).symm
    exact ⟨fun _ => mask, fun _ => kept, raised, fun h => absurd rfl (h v).2.2.2.1⟩
  | scanEnIntEnWrite v =>
    obtain ⟨mask, kept, raised⟩ := control (v := v) (cs := mayRaise (.scanEnIntEnWrite v)) (fun h => (hf v h).2.2 rfl) (Host.Outcome.next.inj e).symm
    exact ⟨fun _ => mask, fun _ => kept, raised, fun h => absurd rfl (h v).2.2.2.2⟩
  | eventPendingWrite v =>
    cases e
    exact ⟨fun _ => by simp [clearCauses], fun h => absurd rfl (h v), fun _ h => .inl (isPending_of_clearCauses rfl h),
      fun h => absurd rfl (h v).1⟩
  | eventMaskWrite v =>
    cases e
    obtain ⟨kept, raised⟩ := causes_kept (t := { s with events := replaceMask s.regs.intEn v s.events }) (s := s)
      (cs := mayRaise (.eventMaskWrite v)) (by simp [replaceMask])
    exact ⟨fun h => absurd rfl (h v), fun _ => kept, raised, fun h => absurd rfl (h v).2.1⟩
  | _ =>
    obtain ⟨mask, kept, raised, messages⟩ := (exec_raises hp (by simp) e).keeps
    exact ⟨fun _ => mask, fun _ => kept, raised, fun _ => messages⟩

end Sys2Proof.Machine
end

section
/-! PROOFS. Burst lengths, free pages and the status page (O32), and the reading of a raw sample (O24). -/

namespace Sys2Proof.Machine

/-! ## Bursts and pages -/

/-- A burst ends at the next boundary or at the end of its extent (R158). -/
theorem burstLength_bounds {offset stop : Nat} (h : offset < stop) :
    1 ≤ burstLength offset stop ∧ burstLength offset stop ≤ 4096 ∧ offset + burstLength offset stop ≤ stop ∧
    (offset + burstLength offset stop - 1) / 4096 = offset / 4096 ∧
    ((offset + burstLength offset stop) % 4096 = 0 ∨ offset + burstLength offset stop = stop) := by
  unfold burstLength
  rcases Nat.le_total (4096 - offset % 4096) (stop - offset) with boundary | last
  · rw [Nat.min_eq_left boundary]
    omega
  · rw [Nat.min_eq_right last]
    omega

/-- The owned pages are those of the entries and of the load slot (R52). -/
theorem mem_owned {l : Library} {page : Fin 256} : page ∈ l.owned ↔
    (∃ (i : Fin 16) (e : PilotEntry), l.entries[i] = some e ∧ page ∈ e.pages) ∨
      ∃ slot, l.load = some slot ∧ page ∈ slot.pages := by
  unfold Library.owned
  rw [List.mem_append, toList_eq_map, List.map_map, List.mem_flatten]
  refine or_congr ⟨?_, ?_⟩ ?_
  · rintro ⟨pages, listed, h⟩
    obtain ⟨i, -, rfl⟩ := List.mem_map.mp listed
    dsimp only [Function.comp] at h
    split at h
    · exact ⟨i, _, ‹_›, h⟩
    · cases h
  · rintro ⟨i, e, he, h⟩
    refine ⟨e.pages, List.mem_map.mpr ⟨i, List.mem_finRange i, ?_⟩, h⟩
    simp only [Function.comp, he]
  · split <;> simp_all

/-- The free pages stand in ascending order, and are those that nothing owns (R52). -/
theorem freePages_spec (l : Library) : l.freePages.Pairwise (· < ·) ∧ ∀ page : Fin 256, page ∈ l.freePages ↔
    (∀ (i : Fin 16) (e : PilotEntry), l.entries[i] = some e → page ∉ e.pages) ∧
      ∀ slot, l.load = some slot → page ∉ slot.pages := by
  have ascending : ((List.finRange 256).filter fun p => !l.owned.contains p).Pairwise (· < ·) :=
    (List.pairwise_lt_finRange 256).filter _
  refine ⟨ascending, fun page => ?_⟩
  have unowned : page ∈ l.freePages ↔ page ∉ l.owned := by simp [Library.freePages]
  rw [unowned, mem_owned]
  push Not
  rfl

/-- Settles O32. -/
theorem burstsEndAtBoundaries : Obligations.BurstsEndAtBoundaries :=
  ⟨fun _ _ => burstLength_bounds, fun _ h => ⟨statusPage_length h, statusPage_shows h⟩, freePages_spec⟩

/-! ## Reading a raw sample -/

/-- A read stops before local DRAM unless the position is configured, the index lies in O..W and the mark is set (R42). -/
theorem readStops_iff {channel i : Nat} {p : Fin 4} {s : State} {w : Int} (hp : channel / 512 = p.val)
    (hw : s.store.newest = some w) : readStops channel i s = true ↔
      ¬(channel % 512 < configured s p ∧ w - 65535 ≤ (i : Int) ∧ (i : Int) ≤ w ∧
        cellRead false s.store.marks (markAddress p.val (i % 65536)) = true) := by
  have port : (⟨channel / 512, hp ▸ p.isLt⟩ : Fin 4) = p := Fin.ext hp
  have slot : slotOf i = i % 65536 := by unfold slotOf; omega
  unfold readStops
  rw [hw]
  dsimp only
  rw [dif_pos (hp ▸ p.isLt), port, hp, slot]
  cases cellRead false s.store.marks (markAddress p.val (i % 65536)) with
  | false => simp
  | true =>
    simp
    omega

/-- A read that is stopped gives nothing and counts nothing (R42). -/
theorem readSample_stopped {channel i : Nat} {s : State} (h : readStops channel i s = true) :
    readSample channel i s = (s, none) := by
  unfold readSample
  rw [if_pos h]

/-- A read that reaches local DRAM gives the word's value, as far as its check bits allow (R43, R44). -/
theorem readSample_reaches {channel i : Nat} {s : State} (h : ¬readStops channel i s = true) :
    readSample channel i s = ((readRaw (rawAddress channel (slotOf i)) s).1,
      (readRaw (rawAddress channel (slotOf i)) s).2.map BitVec.toInt) := by
  unfold readSample
  rw [if_neg h]
  split <;> simp_all

/-- Errors that arise change no value (R166). -/
theorem upsets_raw (us : List Upset) (d : Dram) : (us.foldl upsetWord d).raw = d.raw := by
  induction us generalizing d with
  | nil => rfl
  | cons u rest ih =>
    rw [List.foldl_cons, ih]
    unfold upsetWord
    split <;> rfl

/-- A reading is added to the channel being read, which it may finish (R89). -/
theorem addReading_cases {r : PassRecord} {pilot : List Int} {finished : List (List (Option Int))}
    {reading : List (Option Int)} {x : Option Int} :
    (reading.length + 1 < r.needLast + 1 - r.needFirst →
      addReading r pilot finished reading x = .compute r pilot finished (reading ++ [x])) ∧
    (r.needLast + 1 - r.needFirst ≤ reading.length + 1 →
      addReading r pilot finished reading x = .compute r pilot (finished ++ [reading ++ [x]]) []) :=
  ⟨fun h => if_neg (Nat.not_le_of_lt h), fun h => if_pos h⟩

/-- Settles O24: the read is stopped, or reaches the word, where the check bits decide. -/
theorem rawSampleIsRead : Obligations.RawSampleIsRead := by
  intro us s r pilot finished reading p w he hl hf hp hw channel index word ecc held
  have stops : readStops channel index (s.applyUpsets us) = true ↔ ¬held := readStops_iff hp hw
  have runs {u : State} {x : Option Int} (read : readSample channel index (s.applyUpsets us) = (u, x)) :
      exec (.rawSampleRead us) s = .next { u with engine := addReading r pilot finished reading x } := by
    show execRawSampleRead us s = _
    unfold execRawSampleRead readRawSample
    simp only [applyUpsets_frame, he]
    rw [if_pos ⟨hl, hf⟩, read]
  by_cases hh : held
  · have read : readSample channel index (s.applyUpsets us) =
        ((eccRead ecc (cellRead 0 s.dram.raw word) (s.applyUpsets us)).1,
          (eccRead ecc (cellRead 0 s.dram.raw word) (s.applyUpsets us)).2.map BitVec.toInt) := by
      have slot : slotOf index = index % 65536 := by unfold slotOf; omega
      rw [readSample_reaches (fun k => stops.mp k hh), slot, ← upsets_raw us s.dram]
      rfl
    cases he : ecc with
    | clean =>
      rw [he] at read
      exact ⟨_, _, runs read, rfl, fun _ _ => rfl, by simp [hh], by simp, fun _ => rfl,
        addReading_cases⟩
    | single =>
      rw [he] at read
      exact ⟨_, _, runs read, rfl, fun _ _ => rfl, by simp [hh], fun _ => rfl,
        by simp [hh], addReading_cases⟩
    | uncorrectable =>
      rw [he] at read
      exact ⟨_, _, runs read, rfl, fun _ h => absurd rfl h, fun _ => rfl, by simp, fun _ => rfl,
        addReading_cases⟩
  · have read : readSample channel index (s.applyUpsets us) = (s.applyUpsets us, none) :=
      readSample_stopped (stops.mpr hh)
    exact ⟨_, none, runs read, rfl, fun h => absurd h hh, fun _ => rfl, fun h => absurd h.1 hh, fun _ => rfl,
      addReading_cases⟩

end Sys2Proof.Machine
end

section
/-! PROOFS. Frames at DOWN and CUT ports (O15), and at SYNCING ports that do not join (O16). -/

namespace Sys2Proof.Machine

variable {p : Fin 4} {bytes : List Byte} {us : List Upset} {s : State}

/-! ## One port alone changes -/

theorem setPort_alone (p : Fin 4) (x : Port) (s : State) : s.setPort p x =
    { s with ports := s.ports.set p (s.setPort p x).ports[p], events := (s.setPort p x).events } := by
  simp only [setPort_frame]
  rw [set_get_self]
  rfl

theorem raisePort_alone (p : Fin 4) (x : Port) (c : Cause) (s : State) : (s.setPort p x).raise c =
    { s with ports := s.ports.set p ((s.setPort p x).raise c).ports[p], events := ((s.setPort p x).raise c).events } := by
  simp only [raise_frame, setPort_frame]
  rw [set_get_self]
  rfl

/-! ## CUT -/

/-- A frame at a CUT port, for each way it can go (R28, R29). -/
theorem cutArrival_bad {c : BadClass} (h : lineClass (configured s p) p bytes = some c) :
    cutArrival p bytes s = s.setPort p { s.ports[p] with counts := s.ports[p].counts.addBad c } := by
  unfold cutArrival
  dsimp only
  rw [h]

theorem cutArrival_good (h : lineClass (configured s p) p bytes = none) :
    cutArrival p bytes s =
      if s.ports[p].recovery + 1 < 128 then s.setPort p { s.ports[p] with recovery := s.ports[p].recovery + 1 }
      else (s.setPort p { s.ports[p] with state := .syncing, recovery := 0, syncRun := 0, syncTag := none }).raise .link := by
  unfold cutArrival
  dsimp only
  rw [h]
  by_cases below : s.ports[p].recovery + 1 < 128
  · rw [if_pos below, if_neg (Nat.not_le_of_lt below)]
  · rw [if_neg below, if_pos (Nat.le_of_not_lt below)]

/-- Settles O15: each way a frame can go at a CUT port changes that port alone. -/
theorem framesOutsideTheSession : Obligations.FramesOutsideTheSession := by
  intro p bytes us s
  refine ⟨fun h => ?_, fun h => ⟨cutArrival p bytes (s.applyUpsets us), ?_, ?_⟩⟩
  · show Host.Outcome.next (arrival p bytes (s.applyUpsets us)) = _
    unfold arrival
    simp only [applyUpsets_frame, h]
  · show Host.Outcome.next (arrival p bytes (s.applyUpsets us)) = _
    unfold arrival
    simp only [applyUpsets_frame, h]
  · have configs : configured (s.applyUpsets us) p = configured s p := rfl
    cases hc : lineClass (configured s p) p bytes with
    | some c =>
      rw [cutArrival_bad (configs ▸ hc)]
      exact ⟨setPort_alone .., .refl _ _, set_get_self .., rfl⟩
    | none =>
      rw [cutArrival_good (configs ▸ hc)]
      by_cases below : s.ports[p].recovery + 1 < 128
      · simp only [applyUpsets_frame, if_pos below]
        exact ⟨setPort_alone .., .refl _ _, set_get_self .., rfl⟩
      · simp only [applyUpsets_frame, if_neg below]
        have raised := raise_grows (List.mem_singleton_self Cause.link) ((s.applyUpsets us).setPort p
          { s.ports[p] with state := .syncing, recovery := 0, syncRun := 0, syncTag := none })
        exact ⟨raisePort_alone .., raised.events, set_get_self .., raise_pending .link _⟩

/-! ## SYNCING -/

/-- A tag is at or below an index, or more than 16,384 beyond it, as the numbers say (R16, R20). -/
theorem atOrBelow_iff {x : Int} {tag : Nat} : atOrBelow (some x) tag = true ↔ (tag : Int) ≤ x := decide_eq_true_iff

theorem beyondReach_iff {x : Int} {tag : Nat} : beyondReach (some x) tag = true ↔ x + 16384 < (tag : Int) :=
  decide_eq_true_iff

theorem otherCounted_iff : otherCounted p s = true ↔ ∃ q : Fin 4, q ≠ p ∧ s.ports[q].counted = true := by
  simp [otherCounted, -Fin.getElem_fin]

/-- The run grows by a tag that follows the sync tag, and else starts again at 1 (R19). -/
theorem buildRun_eq (tag : Nat) : buildRun p tag s = s.setPort p
    { s.ports[p] with
      syncTag := some tag
      syncRun :=
        if s.ports[p].syncTag.isSome = true ∧ tag = s.ports[p].syncTag.getD 0 + 1 then s.ports[p].syncRun + 1 else 1 } := by
  have follows : s.ports[p].syncTag.map (· + 1) = some tag ↔
      s.ports[p].syncTag.isSome = true ∧ tag = s.ports[p].syncTag.getD 0 + 1 := by
    cases s.ports[p].syncTag with
    | none => simp
    | some x => simp [eq_comm]
  unfold buildRun
  simp only [follows]

/-- Settles O16. -/
theorem syncRunBuilds : Obligations.SyncRunBuilds := by
  intro p bytes us s hs
  have arrives : exec (.frameArrival p bytes us) s = .next (syncArrival p bytes (s.applyUpsets us)) := by
    show Host.Outcome.next (arrival p bytes (s.applyUpsets us)) = _
    unfold arrival
    simp only [applyUpsets_frame, hs]
  have configs : configured (s.applyUpsets us) p = configured s p := rfl
  rw [arrives]
  unfold syncArrival
  dsimp only
  rw [configs]
  simp only [applyUpsets_frame]
  refine ⟨fun c hc => ?_, fun hc hr => ?_, fun x hc hr hx ht => ?_, fun x hc hr hx ht ho => ?_⟩ <;> simp only [hc]
  · rfl
  · rw [if_pos hr, buildRun_eq]
    rfl
  · rw [if_neg (Nat.not_lt_of_le hr), hx, if_pos (atOrBelow_iff.mpr ht)]
    rfl
  · have beyond : ¬atOrBelow (some x) (frameTag bytes) = true := fun h => by
      have := atOrBelow_iff.mp h
      omega
    have late : (otherCounted p (s.applyUpsets us) && beyondReach (some x) (frameTag bytes)) = true :=
      Bool.and_eq_true_iff.mpr ⟨otherCounted_iff.mpr ho, beyondReach_iff.mpr ht⟩
    rw [if_neg (Nat.not_lt_of_le hr), hx, if_neg beyond, if_pos late]
    rfl

end Sys2Proof.Machine
end

section
/-! PROOFS. What a frame leaves of every port and of the store, said once for each operation of the link ports (R17, R22,
R23, R26, R36, R37). -/

namespace Sys2Proof.Machine

variable {s : State} {p q : Fin 4} {w f : Int} {tag : Nat} {xs : List (BitVec 32)}

/-! ## The stall tests -/

theorem stallTest_port (hw : s.store.newest = some w) :
    (stallTest p s).ports[q] = if p = q then afterStall w s.ports[q] else s.ports[q] := by
  by_cases e : p = q
  · subst e
    unfold stallTest afterStall
    simp only [hw, if_true]
    split
    · exact set_get_self ..
    · rfl
  · rw [if_neg e, stallTest_other e]

/-- The stall tests look at every port against the same W, whatever their order (R37 step 6). -/
theorem foldl_stallTest_port (ps : List (Fin 4)) (hd : ps.Nodup) (hw : s.store.newest = some w) :
    (ps.foldl (fun s p => stallTest p s) s).ports[q] = if q ∈ ps then afterStall w s.ports[q] else s.ports[q] := by
  induction ps generalizing s with
  | nil => rfl
  | cons p ps ih =>
    obtain ⟨fresh, rest⟩ := List.nodup_cons.mp hd
    rw [List.foldl_cons, ih rest (by simpa using hw), stallTest_port hw]
    by_cases e : p = q
    · subst e
      simp [fresh]
    · simp [e, Ne.symm e]

theorem stallTests_port (hw : s.store.newest = some w) : (stallTests s).ports[q] = afterStall w s.ports[q] := by
  unfold stallTests
  rw [foldl_stallTest_port _ (List.nodup_finRange 4) hw, if_pos (List.mem_finRange q)]

/-- A port at W stands. -/
theorem afterStall_at {x : Port} (hf : x.frontier = some w) : afterStall w x = x := by
  unfold afterStall stalled
  rw [hf]
  cases x.state <;> simp [stallLimit]

/-! ## The store -/

/-- The part when W has advanced to a tag, before the pin and the ports are tested (R37 steps 1 to 4). -/
def advanced (p : Fin 4) (w : Int) (tag : Nat) (xs : List (BitVec 32)) (s : State) : State :=
  setFrontier p tag (writeFrame p tag xs { s with store := { clearMarks (w + 1) tag s.store with newest := some (tag : Int) } })

theorem storeFrame_below (hw : s.store.newest = some w) (h : (tag : Int) ≤ w) :
    storeFrame p tag xs s = setFrontier p tag (writeFrame p tag xs s) := by
  unfold storeFrame
  simp only [hw]
  exact if_pos h

theorem storeFrame_beyond (hw : s.store.newest = some w) (h : ¬(tag : Int) ≤ w) :
    storeFrame p tag xs s = stallTests (pinTest (advanced p w tag xs s)) := by
  unfold storeFrame
  simp only [hw]
  exact if_neg h

/-- The frame's port moves to the tag, and the others are tested against the new W if there is one (R36, R37). -/
theorem storeFrame_port (hw : s.store.newest = some w) : (storeFrame p tag xs s).ports[q] =
    if p = q then { s.ports[p] with frontier := some (tag : Int) } else otherAfter w tag s.ports[q] := by
  unfold otherAfter
  by_cases h : (tag : Int) ≤ w
  · simp only [storeFrame_below hw h, setFrontier_frame, writeFrame_frame, set_get, if_pos h]
  · have moved : (pinTest (advanced p w tag xs s)).ports[q] =
        if p = q then { s.ports[p] with frontier := some (tag : Int) } else s.ports[q] := by
      simp only [pinTest_frame, advanced, setFrontier_frame, writeFrame_frame, set_get]
    rw [storeFrame_beyond hw h, stallTests_port (w := tag) (by simp [advanced, setMark]), moved, if_neg h]
    split
    · exact afterStall_at rfl
    · rfl

/-- W covers the tag. -/
theorem storeFrame_newest (hw : s.store.newest = some w) : (storeFrame p tag xs s).store.newest = some (max w tag) := by
  by_cases h : (tag : Int) ≤ w
  · simp [storeFrame_below hw h, setMark, hw, h]
  · simp [storeFrame_beyond hw h, advanced, setMark, (not_le.mp h).le]

/-- The marks that W has passed are cleared before the frame's own is set (R36, R37). -/
theorem storeFrame_marks (hw : s.store.newest = some w) : (storeFrame p tag xs s).store.marks =
    cellWrite false (markAddress p.val (slotOf tag)) true
      (if (tag : Int) ≤ w then s.store.marks
      else cellsClear (fun k => slotInRange (w + 1) tag (k % 65536)) s.store.marks) := by
  by_cases h : (tag : Int) ≤ w
  · simp [storeFrame_below hw h, setMark, h]
  · simp [storeFrame_beyond hw h, advanced, setMark, clearMarks, h]

theorem storeFrame_dram (hw : s.store.newest = some w) : (storeFrame p tag xs s).dram =
    writeSamples (slotOf tag) (p.val * 512) (xs.take (configured s p)) s.dram := by
  by_cases h : (tag : Int) ≤ w
  · simp [storeFrame_below hw h]
  · simp [storeFrame_beyond hw h, advanced, configured]

/-! ## The error count -/

/-- A LIVE or DEGRADED port whose count rises by 8 and stays below 256, at a frontier `f` under W (R23, R26). -/
def bumpedPort (w f : Int) (x : Port) : Port :=
  if x.state = .live ∧ 128 ≤ x.errors + 8 then
    if f < w - 1024 then x.afterCut .stall else { x with state := .degraded, errors := x.errors + 8 }
  else { x with errors := x.errors + 8 }

/-- A DEGRADED port is cut if it lies more than 1,024 below W (R26). -/
theorem afterStall_degraded {x : Port} (hf : x.frontier = some f) (hs : x.state = .degraded) :
    afterStall w x = if f < w - 1024 then x.afterCut .stall else x := by
  unfold afterStall stalled
  simp [hf, hs, stallLimit]

theorem degradeTest_port (hw : s.store.newest = some w) {x : Port} (hf : x.frontier = some f) :
    (degradeTest p (s.setPort p { x with errors := x.errors + 8 })).ports[q] =
      if p = q then bumpedPort w f x else s.ports[q] := by
  have own : (s.setPort p { x with errors := x.errors + 8 }).ports[p] = { x with errors := x.errors + 8 } := set_get_self ..
  unfold degradeTest bumpedPort
  rw [own]
  by_cases h : x.state = .live ∧ 128 ≤ x.errors + 8
  · rw [if_pos h, if_pos h, stallTest_port (w := w) (by simpa using hw)]
    by_cases e : p = q
    · subst e
      have set : (((s.setPort p { x with errors := x.errors + 8 }).setPort p
          { x with errors := x.errors + 8, state := .degraded }).raise .link).ports[p] =
          { x with errors := x.errors + 8, state := .degraded } := set_get_self ..
      rw [if_pos rfl, if_pos rfl, set]
      exact afterStall_degraded (x := { x with state := .degraded, errors := x.errors + 8 }) hf rfl
    · rw [if_neg e, if_neg e]
      exact (set_get_other _ _ e).trans (set_get_other _ _ e)
  · rw [if_neg h, if_neg h]
    exact set_get ..

/-- The error count of a port falls by 1, and a DEGRADED port whose count is then 127 or less is LIVE (R22, R24). -/
def recoveredPort (x : Port) : Port :=
  { x with errors := x.errors - 1, state := if x.state = .degraded ∧ x.errors - 1 ≤ 127 then .live else x.state }

theorem recoverTest_port {x : Port} : (recoverTest p (s.setPort p { x with errors := x.errors - 1 })).ports[q] =
    if p = q then recoveredPort x else s.ports[q] := by
  have own : (s.setPort p { x with errors := x.errors - 1 }).ports[p] = { x with errors := x.errors - 1 } := set_get_self ..
  unfold recoverTest recoveredPort
  rw [own]
  by_cases h : x.state = .degraded ∧ x.errors - 1 ≤ 127
  · rw [if_pos h, if_pos h]
    by_cases e : p = q
    · subst e
      exact (set_get_self ..).trans (if_pos rfl).symm
    · exact ((set_get_other _ _ e).trans (set_get_other _ _ e)).trans (if_neg e).symm
  · rw [if_neg h, if_neg h]
    exact set_get ..

/-! ## The frames at a LIVE or DEGRADED port -/

/-- A bad frame changes its port alone: the count rises, and the port may be cut or DEGRADED (R23, R25). -/
theorem badFrame_port (c : BadClass) (hw : s.store.newest = some w) (hf : s.ports[p].frontier = some f) :
    (badFrame p c s).ports[q] =
      if p = q then
        if 256 ≤ s.ports[p].errors + 8 then { s.ports[p] with counts := s.ports[p].counts.addBad c }.afterCut .errors
        else bumpedPort w f { s.ports[p] with counts := s.ports[p].counts.addBad c }
      else s.ports[q] := by
  unfold badFrame
  dsimp only
  by_cases h : 256 ≤ s.ports[p].errors + 8
  · rw [if_pos h, if_pos h]
    simp only [cutPort_frame, setPort_frame, set_get]
    by_cases e : p = q <;> simp [e]
  · rw [if_neg h, if_neg h]
    exact degradeTest_port (x := { s.ports[p] with counts := s.ports[p].counts.addBad c }) hw hf

/-- A port's GAP count rises by 1 (R31). -/
def gapCounted (x : Port) : Port := { x with counts := { x.counts with gap := satInc32 x.counts.gap } }

/-- A GAP frame at the 256th error is discarded with its port (R23). -/
theorem gapFrame_discarded (h : 256 ≤ s.ports[p].errors + 8) :
    gapFrame p tag xs s = cutPort p .errors (s.setPort p (gapCounted s.ports[p])) := by
  unfold gapFrame
  exact if_pos h

/-- What a GAP frame leaves in the store, before its port's count is raised. -/
def gapStored (p : Fin 4) (tag : Nat) (xs : List (BitVec 32)) (s : State) : State :=
  storeFrame p tag xs (s.setPort p (gapCounted s.ports[p]))

theorem gapStored_port (hw : s.store.newest = some w) : (gapStored p tag xs s).ports[q] =
    if p = q then { gapCounted s.ports[p] with frontier := some (tag : Int) } else otherAfter w tag s.ports[q] := by
  have own : (s.setPort p (gapCounted s.ports[p])).ports[p] = gapCounted s.ports[p] := set_get_self ..
  unfold gapStored
  rw [storeFrame_port (s := s.setPort p (gapCounted s.ports[p])) hw, own]
  split
  · rfl
  · exact congrArg (otherAfter w tag) (set_get_other _ _ ‹_›)

theorem gapStored_own (hw : s.store.newest = some w) :
    (gapStored p tag xs s).ports[p] = { gapCounted s.ports[p] with frontier := some (tag : Int) } := by
  rw [gapStored_port hw, if_pos rfl]

/-- Another GAP frame is stored, and raises its port's count (R17, R23). -/
theorem gapFrame_stored (h : s.ports[p].errors + 8 < 256) (hw : s.store.newest = some w) :
    gapFrame p tag xs s = degradeTest p ((gapStored p tag xs s).setPort p
      { (gapStored p tag xs s).ports[p] with errors := (gapStored p tag xs s).ports[p].errors + 8 }) := by
  have errors : (gapStored p tag xs s).ports[p].errors = s.ports[p].errors := by rw [gapStored_own hw]; rfl
  rw [errors]
  unfold gapFrame
  exact if_neg (Nat.not_le_of_lt h)

theorem gapFrame_port (h : s.ports[p].errors + 8 < 256) (hw : s.store.newest = some w) : (gapFrame p tag xs s).ports[q] =
    if p = q then bumpedPort (max w tag) tag { gapCounted s.ports[p] with frontier := some (tag : Int) }
    else otherAfter w tag s.ports[q] := by
  have own := gapStored_own (p := p) (tag := tag) (xs := xs) hw
  have newest : (gapStored p tag xs s).store.newest = some (max w (tag : Int)) :=
    storeFrame_newest (s := s.setPort p (gapCounted s.ports[p])) hw
  rw [gapFrame_stored h hw, degradeTest_port newest (congrArg Port.frontier own), own, gapStored_port hw]
  split <;> rfl

/-- A frame in sequence is stored, and lowers its port's count (R22). -/
theorem goodFrame_port (hw : s.store.newest = some w) : (goodFrame p tag xs s).ports[q] =
    if p = q then recoveredPort { s.ports[p] with frontier := some (tag : Int) } else otherAfter w tag s.ports[q] := by
  unfold goodFrame
  dsimp only
  rw [recoverTest_port, storeFrame_port hw, storeFrame_port hw, if_pos rfl]
  split <;> rfl

/-- A port at which a frame of each class arrives (R16). -/
theorem liveArrival_bad {bytes : List Byte} {c : BadClass} (hc : frameClass s p bytes = some c) :
    liveArrival p bytes s = badFrame p c s := by
  unfold frameClass at hc
  unfold liveArrival
  dsimp only
  split at hc
  · simp_all
  · split at hc
    · simp_all
    · split at hc
      · simp_all
      · cases hc

theorem liveArrival_good {bytes : List Byte} (hc : frameClass s p bytes = none) :
    liveArrival p bytes s =
      if isNext s.ports[p].frontier (frameTag bytes) = true then goodFrame p (frameTag bytes) (frameSamples bytes) s
      else gapFrame p (frameTag bytes) (frameSamples bytes) s := by
  unfold frameClass at hc
  unfold liveArrival
  dsimp only
  split at hc
  · cases hc
  · split at hc
    · cases hc
    · split at hc
      · cases hc
      · simp_all

/-! ## Joins -/

/-- A port that has joined, before its frame is stored (R20). -/
def joinedPort (x : Port) : Port := { x with state := .live, errors := 0, syncRun := 0, syncTag := none }

/-- A join: its frame is stored, and without another port LIVE or DEGRADED the skipped marks are cleared (R20, R40). -/
theorem joinPort_eq (p : Fin 4) (tag : Nat) (xs : List (BitVec 32)) (s : State) : joinPort p tag xs s =
    if otherCounted p s = true then storeFrame p tag xs ((s.setPort p (joinedPort s.ports[p])).raise .link)
    else clearSkipped s.store.settled tag (storeFrame p tag xs ((s.setPort p (joinedPort s.ports[p])).raise .link)) := by
  unfold joinPort
  cases otherCounted p s <;> rfl

theorem joinPort_port (hw : s.store.newest = some w) : (joinPort p tag xs s).ports[q] =
    if p = q then { joinedPort s.ports[p] with frontier := some (tag : Int) } else otherAfter w tag s.ports[q] := by
  have own : ((s.setPort p (joinedPort s.ports[p])).raise .link).ports[p] = joinedPort s.ports[p] := set_get_self ..
  have stored : (storeFrame p tag xs ((s.setPort p (joinedPort s.ports[p])).raise .link)).ports[q] =
      if p = q then { joinedPort s.ports[p] with frontier := some (tag : Int) } else otherAfter w tag s.ports[q] := by
    rw [storeFrame_port (s := (s.setPort p (joinedPort s.ports[p])).raise .link) hw, own]
    split
    · rfl
    · exact congrArg (otherAfter w tag) (set_get_other _ _ ‹_›)
  rw [joinPort_eq]
  split
  · exact stored
  · simpa only [clearSkipped_frame] using stored

end Sys2Proof.Machine
end

section
/-! PROOFS. The settled index as the least frontier, and what the Scheduler makes of a new one (R39, R41, R71, R73). -/

namespace Sys2Proof.Machine

/-! ## The least frontier -/

/-- What a port gives to the settled index: its frontier while it is LIVE or DEGRADED (R39). -/
def settling (x : Port) : Option Int := if x.counted then x.frontier else none

theorem settling_eq_some {x : Port} {f : Int} : settling x = some f ↔ x.counted = true ∧ x.frontier = some f := by
  unfold settling
  split <;> simp_all

/-- What is not above the lesser of two indices is above neither. -/
theorem le_minIndex {a b : Option Int} {x : Int} : (∀ y, minIndex a b = some y → x ≤ y) ↔
    (∀ y, a = some y → x ≤ y) ∧ ∀ y, b = some y → x ≤ y := by
  cases a <;> cases b <;> simp [minIndex]

/-- The lesser of two indices is one of them, and not above either. -/
theorem minIndex_eq_some {a b : Option Int} {x : Int} : minIndex a b = some x ↔
    (a = some x ∨ b = some x) ∧ (∀ y, a = some y → x ≤ y) ∧ ∀ y, b = some y → x ≤ y := by
  cases a with
  | none => cases b with
    | none => simp [minIndex]
    | some b => simp [minIndex]; grind
  | some a =>
    cases b with
    | none => simp [minIndex]; grind
    | some b => simp [minIndex]; grind

theorem minIndex_eq_none {a b : Option Int} : minIndex a b = none ↔ a = none ∧ b = none := by
  cases a <;> cases b <;> simp [minIndex]

/-- The least of a list of indices, from a first one on. -/
theorem foldl_minIndex_eq_some (l : List (Option Int)) (m : Option Int) (x : Int) : l.foldl minIndex m = some x ↔
    (m = some x ∨ some x ∈ l) ∧ (∀ y, m = some y → x ≤ y) ∧ ∀ y, some y ∈ l → x ≤ y := by
  induction l generalizing m with
  | nil => simp; grind
  | cons a l ih =>
    rw [List.foldl_cons, ih, le_minIndex, minIndex_eq_some]
    simp only [List.mem_cons]
    grind

theorem foldl_minIndex_eq_none (l : List (Option Int)) (m : Option Int) :
    l.foldl minIndex m = none ↔ m = none ∧ ∀ a ∈ l, a = none := by
  induction l generalizing m with
  | nil => simp
  | cons a l ih => simp [ih, minIndex_eq_none, and_assoc]

theorem minFrontier_eq (ports : Vector Port 4) :
    minFrontier ports = ((List.finRange 4).map fun p => settling ports[p]).foldl minIndex none := by
  unfold minFrontier
  rw [List.foldl_map]
  congr 1
  funext m p
  unfold settling
  split
  · rfl
  · cases m <;> rfl

/-- The settled index that the ports give is the least frontier of those LIVE or DEGRADED (R39). -/
theorem minFrontier_eq_some {ports : Vector Port 4} {x : Int} : minFrontier ports = some x ↔
    (∃ q : Fin 4, ports[q].counted = true ∧ ports[q].frontier = some x) ∧
      ∀ (q : Fin 4) (g : Int), ports[q].counted = true → ports[q].frontier = some g → x ≤ g := by
  have least : (∀ y, ∀ q : Fin 4, ports[q].counted = true → ports[q].frontier = some y → x ≤ y) ↔
      ∀ (q : Fin 4) (g : Int), ports[q].counted = true → ports[q].frontier = some g → x ≤ g :=
    ⟨fun h q g => h g q, fun h g q => h q g⟩
  rw [minFrontier_eq, foldl_minIndex_eq_some, ← least]
  simp [settling_eq_some, -Fin.getElem_fin]

theorem minFrontier_eq_none {ports : Vector Port 4} : minFrontier ports = none ↔
    ∀ q : Fin 4, ports[q].counted = true → ports[q].frontier = none := by
  rw [minFrontier_eq, foldl_minIndex_eq_none]
  simp [settling, -Fin.getElem_fin]

/-! ## The pass in flight -/

/-- What an arrival leaves of the pass in flight and of the job table: both as they were, or the pass is broken, which
ends its job alone (R47, R96). -/
def PassLeft (s t : State) : Prop :=
  (t.engine = s.engine ∧ t.sched.jobs = s.sched.jobs) ∨
    ∃ k : Fin 32, s.engine.activeJob = some k ∧ t.engine = .noPass ∧ t.sched.jobs[k] = none ∧
      ∀ i : Fin 32, i ≠ k → t.sched.jobs[i] = s.sched.jobs[i]

/-- Only engine and job table matter. -/
theorem PassLeft.congr {s s' t t' : State} (h : PassLeft s t) (he : s'.engine = s.engine)
    (hj : s'.sched.jobs = s.sched.jobs) (he' : t'.engine = t.engine) (hj' : t'.sched.jobs = t.sched.jobs) :
    PassLeft s' t' := by
  unfold PassLeft at *
  rw [he, hj, he', hj']
  exact h

theorem PassLeft.of_eq {s t : State} (he : t.engine = s.engine) (hj : t.sched.jobs = s.sched.jobs) : PassLeft s t :=
  .inl ⟨he, hj⟩

/-- A job of no pass is as it was. -/
theorem PassLeft.other {s t : State} (h : PassLeft s t) {i : Fin 32} (hi : s.engine.activeJob ≠ some i) :
    t.sched.jobs[i] = s.sched.jobs[i] := by
  obtain ⟨-, hj⟩ | ⟨k, hk, -, -, others⟩ := h
  · rw [hj]
  · exact others i fun e => hi (e ▸ hk)

theorem endPass_left {kind : PassEnd} (hk : kind ≠ .completed) (s : State) : PassLeft s (endPass kind s) := by
  obtain ⟨-, e⟩ | ⟨k, active, free, -, ended⟩ := endPass_jobs 0 kind s
  · exact .of_eq (by rw [e]) (by rw [e])
  · refine .inr ⟨k, active, free, ended hk, fun i hi => ?_⟩
    obtain ⟨idle, -⟩ | ⟨k', active', -, others, -⟩ := endPass_jobs i kind s
    · rw [idle] at active
      cases active
    · obtain rfl : k' = k := Option.some.inj (active'.symm.trans active)
      exact others hi.symm

theorem pinTest_left (s : State) : PassLeft s (pinTest s) := by
  unfold pinTest
  split
  · split
    · exact (endPass_left (by decide) { s with store := { s.store with pin := none } }).congr rfl rfl rfl rfl
    · exact .of_eq rfl rfl
  · exact .of_eq rfl rfl

theorem storeFrame_left (p : Fin 4) (tag : Nat) (xs : List (BitVec 32)) (s : State) :
    PassLeft s (storeFrame p tag xs s) := by
  cases hw : s.store.newest with
  | none =>
    refine .of_eq ?_ ?_ <;> (unfold storeFrame; simp only [hw])
  | some w =>
    by_cases h : (tag : Int) ≤ w
    · rw [storeFrame_below hw h]
      exact .of_eq (by simp) (by simp)
    · rw [storeFrame_beyond hw h]
      exact (pinTest_left (advanced p w tag xs s)).congr (by simp [advanced]) (by simp [advanced]) (by simp) (by simp)

theorem goodFrame_left (p : Fin 4) (tag : Nat) (xs : List (BitVec 32)) (s : State) : PassLeft s (goodFrame p tag xs s) :=
  (storeFrame_left p tag xs s).congr rfl rfl (by simp [goodFrame]) (by simp [goodFrame])

theorem gapFrame_left (p : Fin 4) (tag : Nat) (xs : List (BitVec 32)) (s : State) : PassLeft s (gapFrame p tag xs s) := by
  by_cases h : 256 ≤ s.ports[p].errors + 8
  · rw [gapFrame_discarded h]
    exact .of_eq (by simp) (by simp)
  · have stored := storeFrame_left p tag xs (s.setPort p (gapCounted s.ports[p]))
    unfold gapFrame
    dsimp only
    rw [if_neg h]
    exact stored.congr rfl rfl (by simp; rfl) (by simp; rfl)

theorem liveArrival_left (p : Fin 4) (bytes : List Byte) (s : State) : PassLeft s (liveArrival p bytes s) := by
  cases hc : frameClass s p bytes with
  | some c =>
    rw [liveArrival_bad hc]
    exact .of_eq (by simp) (by simp)
  | none =>
    rw [liveArrival_good hc]
    split
    · exact goodFrame_left ..
    · exact gapFrame_left ..

theorem joinPort_left (p : Fin 4) (tag : Nat) (xs : List (BitVec 32)) (s : State) : PassLeft s (joinPort p tag xs s) := by
  have stored := storeFrame_left p tag xs ((s.setPort p (joinedPort s.ports[p])).raise .link)
  rw [joinPort_eq]
  split
  · exact stored.congr (by simp) (by simp) rfl rfl
  · exact stored.congr (by simp) (by simp) (by simp) (by simp)

/-! ## The arbiter -/

/-- The arbiter acts on READY jobs alone (R73). -/
theorem arbitrate_unready {s : State} {k : Fin 32} {j : Job} (hj : s.sched.jobs[k] = some j) (hr : j.state ≠ .ready) :
    (arbitrate s).sched.jobs[k] = some j := by
  obtain same | ⟨j', hj', ready, -⟩ := (arbitrate_jobs k s).1
  · exact same.trans hj
  · rw [hj] at hj'
    cases hj'
    exact absurd ready hr

/-- A pass that the arbiter starts is of a job in the table. -/
theorem arbitrateLoop_active (n : Nat) (s : State) : (arbitrateLoop n s).engine = s.engine ∨
    ∃ k, (arbitrateLoop n s).engine.activeJob = some k ∧ s.sched.jobs[k] ≠ none := by
  induction n generalizing s with
  | zero => exact .inl rfl
  | succ n ih =>
    have ended (i : Fin 32) (o : OrderOutcome) (x : Reason) : (arbitrateLoop n (endJob i o x s)).engine = s.engine ∨
        ∃ k, (arbitrateLoop n (endJob i o x s)).engine.activeJob = some k ∧ s.sched.jobs[k] ≠ none := by
      refine (ih (endJob i o x s)).imp (fun h => h.trans (by simp)) fun ⟨k, active, held⟩ => ⟨k, active, fun e => held ?_⟩
      rw [endJob_jobs, e]
      split <;> rfl
    unfold arbitrateLoop
    split
    · exact .inl rfl
    · rename_i i _
      split
      · exact .inl rfl
      · rename_i j hj
        split
        · split
          · exact ended ..
          · split
            · exact ended ..
            · exact .inr ⟨i, rfl, by rw [hj]; exact nofun⟩
        · exact .inl rfl

theorem arbitrate_active {s : State} {k : Fin 32} (hk : (arbitrate s).engine.activeJob = some k)
    (hs : s.engine.activeJob = none) : s.sched.jobs[k] ≠ none := by
  unfold arbitrate at hk
  split at hk
  · obtain same | ⟨i, active, held⟩ := arbitrateLoop_active 33 s
    · rw [same, hs] at hk
      cases hk
    · rw [active] at hk
      cases hk
      exact held
  · rw [hs] at hk
    cases hk

/-! ## The settled-index notice -/

variable {s u : State} {x : Int}

/-- The settled index is recomputed: it stays, or takes a new value with one notice (R39, R41). -/
theorem recomputeSettled_cases (u : State) :
    (recomputeSettled u = u ∧ ∀ x, minFrontier u.ports = some x → u.store.settled = some x) ∨
      ∃ x, minFrontier u.ports = some x ∧ u.store.settled ≠ some x ∧
        recomputeSettled u = noticeSettled x { u with store := { u.store with settled := some x } } := by
  unfold recomputeSettled
  split
  · rename_i h
    exact .inl ⟨rfl, fun x hx => by rw [h] at hx; cases hx⟩
  · rename_i m h
    split
    · rename_i e
      exact .inl ⟨rfl, fun x hx => by rw [e, ← hx, h]⟩
    · exact .inr ⟨m, h, ‹_›, rfl⟩

/-- What a notice makes of a WAITING job, and of a job that is not WAITING (R71). -/
theorem noticeJob_eq (x : Int) (j : Job) : noticeJob x (some j) =
    some (if j.state = .waiting ∧ (j.needLast : Int) ≤ x then { j with state := .ready } else j) := by
  unfold noticeJob
  split
  · rename_i e
    cases e
    split <;> rfl
  · rename_i e
    cases e

/-- After a notice and the arbiter's act the jobs are as R41, R71 and R73 say. -/
theorem jobsNoticed (left : PassLeft s u) {v t : State} (he : v.engine = u.engine)
    (hj : ∀ i : Fin 32, v.sched.jobs[i] = noticeJob x u.sched.jobs[i])
    (te : t.engine = (arbitrate v).engine) (tj : t.sched.jobs = (arbitrate v).sched.jobs) : JobsNoticed x s t := by
  have noticed {i : Fin 32} {j : Job} (h : s.sched.jobs[i] = some j) (hi : s.engine.activeJob ≠ some i) :
      v.sched.jobs[i] = noticeJob x (some j) := by rw [hj, left.other hi, h]
  refine ⟨fun i j h waiting => ?_, fun i j h waiting settled hi => ?_, fun i j h waiting later hi => ?_⟩
  · rw [tj] at h
    obtain same | ⟨_, -, -, ended | ⟨active, -⟩⟩ := (arbitrate_jobs i v).1
    · rw [same, hj] at h
      cases hu : u.sched.jobs[i] with
      | none =>
        rw [hu] at h
        cases h
      | some j' =>
        rw [hu, noticeJob_eq] at h
        obtain rfl := Option.some.inj h
        by_cases settled : j'.state = .waiting ∧ (j'.needLast : Int) ≤ x
        · rw [if_pos settled] at waiting
          cases waiting
        · rw [if_neg settled] at waiting ⊢
          exact not_le.mp fun e => settled ⟨waiting, e⟩
    · rw [ended] at h
      cases h
    · rw [active] at h
      obtain rfl := Option.some.inj h
      cases waiting
  · have ready : v.sched.jobs[i] = some { j with state := .ready } := by
      rw [noticed h hi, noticeJob_eq, if_pos ⟨waiting, settled⟩]
    rw [tj, te]
    obtain ⟨acted, busy⟩ := arbitrate_jobs i v
    by_cases idle : v.engine.activeJob = none
    · obtain same | ⟨j', hj', -, acted⟩ := acted
      · exact .inl (same.trans ready)
      · obtain rfl := Option.some.inj (ready.symm.trans hj')
        refine .inr ⟨?_, acted.symm⟩
        obtain ⟨same, -⟩ | ⟨k, active, -, gone, -⟩ := left
        · exact .inl (by rw [← same, ← he, idle])
        · refine .inr fun e => arbitrate_active (e.trans active) idle ?_
          rw [hj, gone]
          rfl
    · rw [busy idle]
      exact .inl ready
  · rw [tj]
    refine arbitrate_unready ?_ (by rw [waiting]; exact nofun)
    rw [noticed h hi, noticeJob_eq, if_neg (by omega)]

/-- After an arrival or a cut the settled index follows the ports, and the Scheduler the settled index (R39, R41). -/
theorem settleEvent_follows (hs : u.store.settled = s.store.settled) (left : PassLeft s u)
    (hf : (∃ q : Fin 4, u.ports[q].counted = true) → ∃ q : Fin 4, u.ports[q].counted = true ∧ u.ports[q].frontier ≠ none) :
    SettledFollows s (settleEvent u) := by
  have engine : (settleEvent u).engine = (arbitrate (recomputeSettled u)).engine := by simp [settleEvent]
  have jobs : (settleEvent u).sched.jobs = (arbitrate (recomputeSettled u)).sched.jobs := by simp [settleEvent]
  have index : (settleEvent u).store.settled = (recomputeSettled u).store.settled := by simp [settleEvent]
  have ports : (settleEvent u).ports = u.ports := by simp
  have noticed (x : Int) (e : recomputeSettled u = noticeSettled x { u with store := { u.store with settled := some x } }) :
      JobsNoticed x s (settleEvent u) :=
    jobsNoticed left (v := recomputeSettled u) (by rw [e]; rfl)
      (fun i => by rw [e]; exact mapTable_getElem ..) engine jobs
  refine ⟨fun h => ?_, fun h => ?_, fun h i j hj waiting hi => ?_⟩
  · rw [ports] at h
    have none : minFrontier u.ports = none := minFrontier_eq_none.mpr fun q hq => by rw [h q] at hq; cases hq
    obtain ⟨same, -⟩ | ⟨x, hx, -⟩ := recomputeSettled_cases u
    · rw [index, same, hs]
    · rw [none] at hx
      cases hx
  · rw [ports] at h ⊢
    obtain ⟨q, hq, held⟩ := hf h
    obtain ⟨x, hx⟩ : ∃ x, minFrontier u.ports = some x :=
      Option.ne_none_iff_exists'.mp fun e => held (minFrontier_eq_none.mp e q hq)
    obtain ⟨least, lower⟩ := minFrontier_eq_some.mp hx
    obtain ⟨same, kept⟩ | ⟨x', hx', -, e⟩ := recomputeSettled_cases u
    · have settled := kept x hx
      exact ⟨x, by rw [index, same, settled], least, lower, fun new => absurd (hs ▸ settled) new⟩
    · obtain rfl : x' = x := Option.some.inj (hx'.symm.trans hx)
      exact ⟨x', by rw [index, e]; rfl, least, lower, fun _ => noticed x' e⟩
  · rw [jobs]
    obtain ⟨same, -⟩ | ⟨x, -, new, e⟩ := recomputeSettled_cases u
    · rw [same]
      exact arbitrate_unready ((left.other hi).trans hj) (by rw [waiting]; exact nofun)
    · rw [index, e, ← hs] at h
      exact absurd h.symm new

end Sys2Proof.Machine
end

section
/-! PROOFS. Frames and losses of carrier at LIVE and DEGRADED ports (O18, O19, O22). -/

namespace Sys2Proof.Machine

variable {p q : Fin 4} {bytes : List Byte} {us : List Upset} {s t u : State} {w f : Int}

/-! ## What every arrival has in common -/

/-- An operation whose parts are those of an arrival touches the work alone. -/
theorem arrival_onlyWork (p : Fin 4) (bytes : List Byte) (us : List Upset) (s : State) :
    OnlyWork s (arrival p bytes (s.applyUpsets us)) := by
  have grown : Grows [.link, .bin] (s.applyUpsets us) (arrival p bytes (s.applyUpsets us)) :=
    arrival_grows (by simp) (by simp) p bytes _
  constructor <;> first | exact grown.events.mask | simp

/-- A frame at a LIVE or DEGRADED port is taken, and the settled index recomputed (R16, R39). -/
theorem arrival_counted (h : s.ports[p].counted = true) : arrival p bytes s = settleEvent (liveArrival p bytes s) := by
  unfold arrival
  cases e : s.ports[p].state with
  | down => simp [Port.counted, e, -Fin.getElem_fin] at h
  | syncing => simp [Port.counted, e, -Fin.getElem_fin] at h
  | live => rfl
  | degraded => rfl
  | cut => simp [Port.counted, e, -Fin.getElem_fin] at h

theorem exec_counted (h : s.ports[p].counted = true) : exec (.frameArrival p bytes us) s =
    .next (settleEvent (liveArrival p bytes (s.applyUpsets us))) :=
  congrArg Host.Outcome.next (arrival_counted (s := s.applyUpsets us) h)

/-- What a frame at a LIVE or DEGRADED port leaves alone, and what it tells the host (R30, R171). -/
theorem counted_frame (h : s.ports[p].counted = true) (bytes : List Byte) (us : List Upset) :
    OnlyWork s (settleEvent (liveArrival p bytes (s.applyUpsets us))) ∧
      LinkTells s (settleEvent (liveArrival p bytes (s.applyUpsets us))) ∧
        EventsGrow s.regs.intEn s.events (settleEvent (liveArrival p bytes (s.applyUpsets us))).events := by
  have only := arrival_onlyWork p bytes us s
  have grown : Grows [.link, .bin] (s.applyUpsets us) (arrival p bytes (s.applyUpsets us)) :=
    arrival_grows (by simp) (by simp) p bytes _
  rw [arrival_counted (s := s.applyUpsets us) h] at only grown
  exact ⟨only, (liveArrival_tells (s := s.applyUpsets us) bytes h).settle, grown.events⟩

/-- What the settled index and the arbiter leave of ports and store. -/
theorem settleEvent_store (u : State) : (settleEvent u).ports = u.ports ∧ (settleEvent u).store.newest = u.store.newest ∧
    (settleEvent u).store.marks = u.store.marks ∧ (settleEvent u).dram = u.dram := by simp

/-! ## Bad frames -/

/-- Settles O18: the port's record is what `badFrame_port` says, and nothing else of ports and store changes. -/
theorem badFrameRaisesErrors : Obligations.BadFrameRaisesErrors := by
  intro p bytes us s c w f hs hc hw hf
  obtain ⟨only, tells, grows⟩ := counted_frame hs bytes us
  have bad : liveArrival p bytes (s.applyUpsets us) = badFrame p c (s.applyUpsets us) := liveArrival_bad hc
  rw [bad] at only tells grows
  obtain ⟨ports, newest, marks, dram⟩ := settleEvent_store (badFrame p c (s.applyUpsets us))
  have port (q : Fin 4) := badFrame_port (s := s.applyUpsets us) (p := p) (q := q) c hw hf
  refine ⟨_, (exec_counted hs).trans (congrArg _ (congrArg settleEvent bad)), only, ?_, fun q hq => ?_, tells, grows, ?_, ?_, ?_⟩
  · rw [ports, port p, if_pos rfl]
    rfl
  · rw [ports, port q, if_neg hq.symm]
    rfl
  · rw [newest]
    simp
  · rw [marks]
    simp
  · rw [dram]
    simp

/-! ## Good frames -/

theorem isNext_iff {x : Int} {tag : Nat} : isNext (some x) tag = true ↔ (tag : Int) = x + 1 := decide_eq_true_iff

/-- A frame of no bad class, in sequence or a GAP frame (R17, R22). -/
theorem liveArrival_next (hc : frameClass s p bytes = none) (hf : s.ports[p].frontier = some f)
    (h : (frameTag bytes : Int) = f + 1) : liveArrival p bytes s = goodFrame p (frameTag bytes) (frameSamples bytes) s := by
  rw [liveArrival_good hc, hf, if_pos (isNext_iff.mpr h)]

theorem liveArrival_gap (hc : frameClass s p bytes = none) (hf : s.ports[p].frontier = some f)
    (h : (frameTag bytes : Int) ≠ f + 1) : liveArrival p bytes s = gapFrame p (frameTag bytes) (frameSamples bytes) s := by
  rw [liveArrival_good hc, hf, if_neg fun k => h (isNext_iff.mp k)]

/-- Settles O19. -/
theorem goodFrameMovesFrontier : Obligations.GoodFrameMovesFrontier := by
  intro p bytes us s w f hs hc hw hf
  obtain ⟨only, tells, grows⟩ := counted_frame hs bytes us
  obtain ⟨ports, newest, marks, dram⟩ := settleEvent_store (liveArrival p bytes (s.applyUpsets us))
  refine ⟨_, exec_counted hs, only, grows, tells, fun next => ?_, fun gap => ⟨fun cut => ?_, fun stays => ?_⟩⟩
  · have port (q : Fin 4) := goodFrame_port (s := s.applyUpsets us) (p := p) (q := q) (tag := frameTag bytes)
      (xs := frameSamples bytes) hw
    rw [ports, liveArrival_next (s := s.applyUpsets us) hc hf next]
    refine ⟨?_, fun q hq => ?_⟩
    · rw [port p, if_pos rfl]
      rfl
    · rw [port q, if_neg hq.symm]
      rfl
  · have gapped := liveArrival_gap (s := s.applyUpsets us) hc hf (by omega)
    rw [gapFrame_discarded (s := s.applyUpsets us) cut] at gapped
    rw [ports, newest, marks, dram, gapped]
    simp only [cutPort_frame, setPort_frame, set_get]
    exact ⟨rfl, fun q hq => by simp only [if_neg hq.symm]; rfl, by simp⟩
  · have port (q : Fin 4) := gapFrame_port (s := s.applyUpsets us) (p := p) (q := q) (tag := frameTag bytes)
      (xs := frameSamples bytes) stays hw
    rw [ports, liveArrival_gap (s := s.applyUpsets us) hc hf (by omega)]
    refine ⟨?_, fun q hq => ?_⟩
    · rw [port p, if_pos rfl]
      rfl
    · rw [port q, if_neg hq.symm]
      rfl

/-! ## Carrier -/

/-- The record of a port that loses its carrier (R27). -/
def carrierLost (x : Port) : Port :=
  match x.state with
  | .down => { x with carrier := false }
  | .cut => { x with carrier := false, recovery := 0 }
  | _ => { x with carrier := false }.afterCut .signal

theorem carrierLost_down {x : Port} (h : x.state = .down) : carrierLost x = { x with carrier := false } := by
  simp only [carrierLost, h]

theorem carrierLost_cut {x : Port} (h : x.state = .cut) : carrierLost x = { x with carrier := false, recovery := 0 } := by
  simp only [carrierLost, h]

theorem carrierLost_other {x : Port} (hd : x.state ≠ .down) (hc : x.state ≠ .cut) :
    carrierLost x = { x with carrier := false }.afterCut .signal := by
  cases e : x.state with
  | down => exact absurd e hd
  | cut => exact absurd e hc
  | syncing => simp only [carrierLost, e]
  | live => simp only [carrierLost, e]
  | degraded => simp only [carrierLost, e]

theorem cutPort_port {x : Port} {c : CutCause} :
    (cutPort p c (s.setPort p x)).ports[q] = if p = q then x.afterCut c else s.ports[q] := by
  by_cases e : p = q
  · subst e
    simp only [cutPort_frame, setPort_frame, set_get_self, if_true]
  · rw [if_neg e]
    exact (set_get_other _ _ e).trans (set_get_other _ _ e)

theorem loseCarrier_port (p : Fin 4) (s : State) :
    (loseCarrier p s).ports[q] = if p = q then carrierLost s.ports[p] else s.ports[q] := by
  unfold loseCarrier carrierLost
  dsimp only
  cases s.ports[p].state with
  | down => exact set_get ..
  | cut =>
    by_cases e : p = q
    · rw [if_pos e, ← e]
      exact set_get_self ..
    · rw [if_neg e]
      exact (set_get_other _ _ e).trans (set_get_other _ _ e)
  | syncing => exact cutPort_port
  | live => exact cutPort_port
  | degraded => exact cutPort_port

/-- A port that loses its carrier takes no part in the settled index. -/
theorem carrierLost_uncounted (x : Port) : (carrierLost x).counted = false := by
  unfold carrierLost
  split <;> simp [Port.counted, Port.afterCut, *]

/-- A loss at a port that takes no part in the settled index changes that port alone, and perhaps raises LINK (R27). -/
theorem loseCarrier_alone (p : Fin 4) (s : State) :
    loseCarrier p s = { s with ports := (loseCarrier p s).ports, events := (loseCarrier p s).events } := by
  unfold loseCarrier
  dsimp only
  split <;> rfl

/-- What a report of loss answers: at a port that was LIVE or DEGRADED the settled index is recomputed (R27, R39). -/
def afterLoss (p : Fin 4) (us : List Upset) (s : State) : State :=
  if s.ports[p].counted = true then settleEvent (loseCarrier p (s.applyUpsets us)) else loseCarrier p (s.applyUpsets us)

theorem afterLoss_counted (h : s.ports[p].counted = true) :
    afterLoss p us s = settleEvent (loseCarrier p (s.applyUpsets us)) := if_pos h

theorem afterLoss_uncounted (h : s.ports[p].counted = false) : afterLoss p us s = loseCarrier p (s.applyUpsets us) :=
  if_neg (by rw [h]; exact Bool.false_ne_true)

theorem afterLoss_or : afterLoss p us s = loseCarrier p (s.applyUpsets us) ∨
    afterLoss p us s = settleEvent (loseCarrier p (s.applyUpsets us)) :=
  (Bool.eq_false_or_eq_true s.ports[p].counted).symm.imp afterLoss_uncounted afterLoss_counted

theorem exec_carrierLoss (p : Fin 4) (us : List Upset) (s : State) : exec (.carrierLoss p us) s = .next (afterLoss p us s) := by
  show execCarrierLoss p us s = _
  unfold execCarrierLoss afterLoss
  dsimp only
  by_cases h : s.ports[p].counted = true
  · rw [if_pos h]
    exact if_pos h
  · rw [if_neg h]
    exact if_neg h

/-- What a loss leaves alone, and the ports it leaves. -/
theorem afterLoss_frame (p : Fin 4) (us : List Upset) (s : State) : OnlyWork s (afterLoss p us s) ∧
    EventsGrow s.regs.intEn s.events (afterLoss p us s).events ∧
      (∀ q : Fin 4, (afterLoss p us s).ports[q] = if p = q then carrierLost s.ports[p] else s.ports[q]) ∧
        (afterLoss p us s).store.newest = s.store.newest ∧ (afterLoss p us s).store.marks = s.store.marks ∧
          (afterLoss p us s).dram = (s.applyUpsets us).dram := by
  have lost : Grows [.link, .bin] s (loseCarrier p (s.applyUpsets us)) :=
    (loseCarrier_grows (by simp) p _).start (by simp) (by simp)
  have settled := lost.trans (settleEvent_grows (by simp) _)
  have ports (q : Fin 4) : (loseCarrier p (s.applyUpsets us)).ports[q] =
      if p = q then carrierLost s.ports[p] else s.ports[q] := loseCarrier_port p (s.applyUpsets us)
  obtain e | e := afterLoss_or (p := p) (us := us) (s := s) <;> rw [e]
  · refine ⟨?_, lost.events, ports, by simp, by simp, by simp⟩
    constructor <;> first | exact lost.events.mask | simp
  · refine ⟨?_, settled.events, fun q => ?_, by simp, by simp, by simp⟩
    · constructor <;> first | exact settled.events.mask | simp
    · simpa only [settleEvent_frame] using ports q

/-- A loss cuts a port that is neither DOWN nor CUT, with LINK raised, and tells nothing of another (R27, R30). -/
theorem loseCarrier_link (h : s.ports[p].state ≠ .down ∧ s.ports[p].state ≠ .cut) : isPending .link (loseCarrier p s) := by
  unfold loseCarrier
  dsimp only
  cases e : s.ports[p].state with
  | down => exact absurd e h.1
  | cut => exact absurd e h.2
  | syncing => exact raise_pending .link _
  | live => exact raise_pending .link _
  | degraded => exact raise_pending .link _

theorem loseCarrier_quiet (h : s.ports[p].state = .down ∨ s.ports[p].state = .cut) : (loseCarrier p s).events = s.events := by
  unfold loseCarrier
  dsimp only
  obtain e | e := h <;> rw [e] <;> rfl

/-- After the loss of a LIVE or DEGRADED port the settled index follows the ports that are left (R39, R41). -/
theorem carrierLoss_follows (hf : ∀ q : Fin 4, s.ports[q].counted = true → s.ports[q].frontier ≠ none) :
    SettledFollows s (settleEvent (loseCarrier p (s.applyUpsets us))) := by
  refine settleEvent_follows (by simp) (.of_eq (by simp) (by simp)) fun ⟨q, hq⟩ => ⟨q, hq, ?_⟩
  rw [loseCarrier_port] at hq ⊢
  split at hq
  · rw [carrierLost_uncounted] at hq
    cases hq
  · rw [if_neg ‹_›]
    exact hf q hq

theorem afterLoss_link (h : s.ports[p].state ≠ .down ∧ s.ports[p].state ≠ .cut) : isPending .link (afterLoss p us s) := by
  have cut : isPending .link (loseCarrier p (s.applyUpsets us)) := loseCarrier_link h
  obtain e | e := afterLoss_or (p := p) (us := us) (s := s) <;> rw [e]
  · exact cut
  · exact (settleEvent_grows (List.mem_singleton_self Cause.bin) _).events.keeps cut

theorem afterLoss_quiet (h : s.ports[p].state = .down ∨ s.ports[p].state = .cut) : (afterLoss p us s).events = s.events := by
  rw [afterLoss_uncounted (by obtain e | e := h <;> simp [Port.counted, e, -Fin.getElem_fin])]
  exact loseCarrier_quiet (s := s.applyUpsets us) h

/-- Settles O22: the port's record is what `carrierLost` says. -/
theorem carrierReports : Obligations.CarrierReports := by
  refine ⟨fun p s => rfl, fun p us s => ⟨_, exec_carrierLoss p us s, ?_⟩⟩
  obtain ⟨only, grows, port, newest, marks, dram⟩ := afterLoss_frame p us s
  refine ⟨fun q hq => by rw [port q, if_neg hq.symm], grows, only, fun h => ?_, newest, marks, dram, fun h hf => ?_, ?_⟩
  · rw [afterLoss_uncounted h]
    exact loseCarrier_alone p _
  · rw [afterLoss_counted h]
    exact carrierLoss_follows hf
  · rw [port p, if_pos rfl]
    split
    · rename_i e
      exact ⟨carrierLost_down e, afterLoss_quiet (.inl e)⟩
    · rename_i e
      exact ⟨carrierLost_cut e, afterLoss_quiet (.inr e)⟩
    · rename_i notDown notCut
      exact ⟨afterLoss_link ⟨notDown, notCut⟩, carrierLost_other notDown notCut⟩

end Sys2Proof.Machine
end

section
/-! PROOFS. What a stored frame leaves in the raw ring and in the scan map (O20). -/

namespace Sys2Proof.Machine

variable {p q : Fin 4} {bytes : List Byte} {us : List Upset} {s t u : State} {w f x : Int} {tag : Nat} {xs : List (BitVec 32)}

/-! ## The samples -/

/-- Two raw words are one if channel and slot are (R34). -/
theorem rawAddress_inj {c c' slot slot' : Nat} (h : slot < 65536) (h' : slot' < 65536) :
    rawAddress c slot = rawAddress c' slot' ↔ c = c' ∧ slot = slot' := by
  unfold rawAddress
  omega

theorem slotOf_lt (i : Int) : slotOf i < 65536 := by
  unfold slotOf
  omega

/-- Samples written into a slot from a channel on, read back (R34, R36). -/
theorem writeSamples_reads {slot : Nat} (hs : slot < 65536) (vs : List (BitVec 32)) (first : Nat) (d : Dram) (hd : DramWf d)
    (channel place : Nat) (hp : place < 65536) :
    cellRead 0 (writeSamples slot first vs d).raw (rawAddress channel place) =
        (if place = slot ∧ first ≤ channel ∧ channel < first + vs.length then vs.getD (channel - first) 0
        else cellRead 0 d.raw (rawAddress channel place)) ∧
      cellRead .clean (writeSamples slot first vs d).rawErrors (rawAddress channel place) =
        if place = slot ∧ first ≤ channel ∧ channel < first + vs.length then .clean
        else cellRead .clean d.rawErrors (rawAddress channel place) := by
  induction vs generalizing first d with
  | nil =>
    have none : ¬(place = slot ∧ first ≤ channel ∧ channel < first + ([] : List (BitVec 32)).length) := fun h => by
      simp at h
      omega
    rw [if_neg none, if_neg none]
    exact ⟨rfl, rfl⟩
  | cons v vs ih =>
    obtain ⟨values, checks⟩ := ih (first + 1) (writeRaw (rawAddress first slot) v d) (writeRaw_wf _ v hd)
    obtain ⟨value, check⟩ := writeRaw_reads d hd (rawAddress first slot) (rawAddress channel place) v
    have here : rawAddress channel place = rawAddress first slot ↔ channel = first ∧ place = slot := rawAddress_inj hp hs
    have spans : (place = slot ∧ first ≤ channel ∧ channel < first + (v :: vs).length) ↔
        (channel = first ∧ place = slot) ∨ (place = slot ∧ first + 1 ≤ channel ∧ channel < first + 1 + vs.length) := by
      simp only [List.length_cons]
      omega
    simp only [here] at value check
    simp only [writeSamples, values, checks, value, check, spans]
    by_cases own : channel = first ∧ place = slot
    · have past : ¬(place = slot ∧ first + 1 ≤ channel ∧ channel < first + 1 + vs.length) := by omega
      have start : channel - first = 0 := by omega
      simp only [if_neg past, if_pos own, if_pos (Or.inl own), start, List.getD_cons_zero, and_self]
    · by_cases later : place = slot ∧ first + 1 ≤ channel ∧ channel < first + 1 + vs.length
      · have next : channel - first = channel - (first + 1) + 1 := by omega
        simp only [if_pos later, if_pos (Or.inr later), next, List.getD_cons_succ, and_self]
      · simp only [if_neg later, if_neg own, if_neg (not_or.mpr ⟨own, later⟩), and_self]

/-- The stores beside the raw ring are not written (R36). -/
theorem writeSamples_others (slot first : Nat) (vs : List (BitVec 32)) (d : Dram) : writeSamples slot first vs d =
    { d with raw := (writeSamples slot first vs d).raw, rawErrors := (writeSamples slot first vs d).rawErrors } := by
  induction vs generalizing first d with
  | nil => rfl
  | cons v vs ih => exact (ih (first + 1) (writeRaw (rawAddress first slot) v d))

/-- Three bytes make a sample (R14). -/
theorem samplesOf_length (bs : List Byte) : (samplesOf bs).length = bs.length / 3 := by
  induction bs using samplesOf.induct with
  | case1 b0 b1 b2 rest ih =>
    simp only [samplesOf, List.length_cons, ih]
    omega
  | case2 bs short =>
    match bs, short with
    | [], _ => rfl
    | [_], _ => simp [samplesOf]
    | [_, _], _ => simp [samplesOf]
    | b0 :: b1 :: b2 :: rest, short => exact absurd rfl (short b0 b1 b2 rest)

/-- A frame that passes both tests carries a sample for every configured channel (R15, R16). -/
theorem frameSamples_length {n : Nat} (h : lineClass n p bytes = none) : (frameSamples bytes).length = n := by
  unfold lineClass at h
  split at h
  · cases h
  · rename_i crc
    split at h
    · cases h
    · rename_i format
      simp only [crcPasses, formatPasses, Bool.not_eq_true', Bool.not_eq_false, Bool.and_eq_true, decide_eq_true_eq,
        beq_iff_eq] at crc format
      obtain ⟨long, -⟩ := crc
      obtain ⟨⟨-, count⟩, size⟩ := format
      unfold frameSamples
      rw [samplesOf_length, List.length_drop, List.length_take]
      omega

/-- The samples of a frame, written where R36 has them, are stored. -/
theorem samplesStored (h : lineClass (configured s p) p bytes = none) (hd : DramWf s.dram)
    (ht : t.dram = writeSamples (slotOf (frameTag bytes)) (p.val * 512) ((frameSamples bytes).take (configured s p)) s.dram) :
    SamplesStored p bytes s t := by
  have all : (frameSamples bytes).take (configured s p) = frameSamples bytes :=
    List.take_of_length_le (frameSamples_length h).le
  rw [all] at ht
  have reads := writeSamples_reads (slotOf_lt (frameTag bytes)) (frameSamples bytes) (p.val * 512) s.dram hd
  rw [← ht, frameSamples_length h] at reads
  exact ⟨by rw [ht]; exact writeSamples_others .., fun c slot hs => (reads c slot hs).1, fun c slot hs => (reads c slot hs).2⟩

/-! ## The marks -/

/-- A word that is written with a listed value reads it, whatever the memory lists. -/
theorem cellRead_cellWrite_listed {α : Type} [DecidableEq α] {d v : α} (hv : v ≠ d) (a : Nat) (m : List (Nat × α)) :
    cellRead d (cellWrite d a v m) a = v := by
  induction m with
  | nil => simp [cellWrite, hv, cellRead]
  | cons c m ih =>
    obtain ⟨k, e⟩ := c
    unfold cellWrite
    rw [if_neg hv, if_neg hv]
    split
    · simp [cellRead]
    · split
      · simp [cellRead]
      · simp only [cellRead]
        rw [if_neg (Ne.symm ‹_›), ih]

/-- Two marks are one if port and slot are (R35). -/
theorem markAddress_inj {p q : Nat} {slot slot' : Nat} (h : slot < 65536) (h' : slot' < 65536) :
    markAddress p slot = markAddress q slot' ↔ p = q ∧ slot = slot' := by
  unfold markAddress
  omega

theorem markAddress_mod (q : Nat) (i : Int) : markAddress q (slotOf i) % 65536 = slotOf i := by
  have := slotOf_lt i
  unfold markAddress
  omega

/-- A slot lies in a range of indices, told by any index of the slot (R37, R40). -/
theorem slotInRange_slotOf (a b i : Int) : slotInRange a b (slotOf i) = true ↔ (i - a) % 65536 ≤ b - a := by
  unfold slotInRange slotOf
  rw [decide_eq_true_iff]
  omega

/-- A mark after a good frame: the frame's own is set, and those that W has passed are clear (R36, R37). -/
theorem storeFrame_mark (hw : s.store.newest = some w) (q : Fin 4) (i : Int) :
    cellRead false (storeFrame p tag xs s).store.marks (markAddress q.val (slotOf i)) =
      if q = p ∧ slotOf i = slotOf tag then true
      else if w < tag ∧ (i - (w + 1)) % 65536 ≤ tag - (w + 1) then false
      else cellRead false s.store.marks (markAddress q.val (slotOf i)) := by
  rw [storeFrame_marks hw]
  by_cases own : q = p ∧ slotOf i = slotOf tag
  · rw [if_pos own, own.1, own.2]
    exact cellRead_cellWrite_listed (by decide) ..
  · have other : markAddress q.val (slotOf i) ≠ markAddress p.val (slotOf tag) := fun e =>
      own (by simpa [markAddress_inj (slotOf_lt _) (slotOf_lt _), Fin.ext_iff] using e)
    rw [if_neg own, cellRead_cellWrite_other other]
    by_cases h : (tag : Int) ≤ w
    · rw [if_pos h, if_neg (by omega)]
    · rw [if_neg h, cellRead_clear, markAddress_mod]
      simp only [slotInRange_slotOf, not_le.mp h, true_and]

/-- The same for an index that the ring holds: its slot is the frame's, or passed by W, only as its number says. -/
theorem storeFrame_ringMark (hw : s.store.newest = some w) (ht : w - 65535 ≤ tag) (q : Fin 4) {i : Int}
    (hl : max w tag - 65536 < i) (hu : i ≤ max w tag) :
    cellRead false (storeFrame p tag xs s).store.marks (markAddress q.val (slotOf i)) =
      if q = p ∧ i = tag then true
      else if w < i then false
      else cellRead false s.store.marks (markAddress q.val (slotOf i)) := by
  have slot : slotOf i = slotOf tag ↔ i = tag := by
    unfold slotOf
    omega
  have passed : (w < (tag : Int) ∧ (i - (w + 1)) % 65536 ≤ tag - (w + 1)) ↔ w < i := by omega
  rw [storeFrame_mark hw]
  simp only [slot, passed]

/-! ## A good frame is stored (O20) -/

theorem MemoryCanonical.dram (h : MemoryCanonical s) (us : List Upset) : DramWf (s.applyUpsets us).dram := by
  obtain ⟨h1, h2, h3, h4, h5, h6, -⟩ := h
  exact upsets_wf us ⟨h1, h2, h3, h4, h5, h6⟩

/-- A frame of no bad class passes the tests of the line. -/
theorem lineClass_of_good (h : frameClass s p bytes = none) : lineClass (configured s p) p bytes = none := by
  unfold frameClass at h
  split at h
  · cases h
  · assumption

/-- What `storeFrame` leaves in the store is what a good frame leaves there. -/
theorem liveArrival_stores (hc : frameClass s p bytes = none) (hw : s.store.newest = some w) (hf : s.ports[p].frontier = some f)
    (h : (frameTag bytes : Int) = f + 1 ∨ s.ports[p].errors + 8 < 256) :
    (liveArrival p bytes s).store.newest = some (max w (frameTag bytes)) ∧
      (liveArrival p bytes s).store.marks = (storeFrame p (frameTag bytes) (frameSamples bytes) s).store.marks ∧
      (liveArrival p bytes s).dram = (storeFrame p (frameTag bytes) (frameSamples bytes) s).dram := by
  by_cases next : (frameTag bytes : Int) = f + 1
  · rw [liveArrival_next hc hf next]
    simp [goodFrame, storeFrame_newest hw]
  · rw [liveArrival_gap hc hf next, gapFrame_stored (h.resolve_left next) hw]
    simp only [degradeTest_frame, setPort_frame]
    let counted := s.setPort p (gapCounted s.ports[p])
    refine ⟨storeFrame_newest (s := counted) hw, ?_, ?_⟩
    · exact (storeFrame_marks (s := counted) hw).trans (storeFrame_marks hw).symm
    · exact (storeFrame_dram (s := counted) hw).trans (storeFrame_dram hw).symm

/-- Settles O20: the store is what `storeFrame` leaves, its marks read by `storeFrame_ringMark`, its samples by
`samplesStored`. -/
theorem goodFrameIsStored : Obligations.GoodFrameIsStored := by
  intro p bytes us s w f hs hc hw hf kept ht hm
  obtain ⟨newest, marks, dram⟩ := liveArrival_stores (s := s.applyUpsets us) hc hw hf kept
  obtain ⟨-, newest', marks', dram'⟩ := settleEvent_store (liveArrival p bytes (s.applyUpsets us))
  refine ⟨_, exec_counted hs, newest'.trans newest, ?_, fun q i hl hu => ?_⟩
  · exact samplesStored (s := s.applyUpsets us) (lineClass_of_good hc) (hm.dram us)
      ((dram'.trans dram).trans (storeFrame_dram (s := s.applyUpsets us) hw))
  · rw [marks', marks]
    exact storeFrame_ringMark (s := s.applyUpsets us) hw ht q hl hu

end Sys2Proof.Machine
end

section
/-! PROOFS. A waiting port joins (O17). -/

namespace Sys2Proof.Machine

variable {p q : Fin 4} {bytes : List Byte} {us : List Upset} {s : State} {w x : Int} {tag : Nat} {xs : List (BitVec 32)}

/-- No other port is LIVE or DEGRADED (R20, R40). -/
abbrev alone (p : Fin 4) (s : State) : Prop := ∀ q : Fin 4, q ≠ p → s.ports[q].counted = false

theorem alone_iff : alone p s ↔ ¬otherCounted p s = true := by
  rw [otherCounted_iff]
  simp [alone, -Fin.getElem_fin]

/-- A port that is not LIVE or DEGRADED has no stall limit (R26). -/
theorem afterStall_uncounted {x : Port} (h : x.counted = false) : afterStall w x = x := by
  unfold afterStall stalled
  cases e : x.state <;> simp [stallLimit, Port.counted, e] at h ⊢

theorem otherAfter_uncounted {x : Port} (h : x.counted = false) : otherAfter w tag x = x := by
  unfold otherAfter
  rw [afterStall_uncounted h, ite_self]

/-! ## The store after a join -/

/-- Both the W that a join leaves and the samples are those of its frame (R36, R37). -/
theorem joinPort_newest (hw : s.store.newest = some w) :
    (joinPort p tag xs s).store.newest = some (max w tag) := by
  have stored := storeFrame_newest (s := (s.setPort p (joinedPort s.ports[p])).raise .link) (p := p) (tag := tag)
    (xs := xs) hw
  rw [joinPort_eq]
  split
  · exact stored
  · simp only [clearSkipped_frame]
    exact stored

theorem joinPort_dram (hw : s.store.newest = some w) : (joinPort p tag xs s).dram =
    writeSamples (slotOf tag) (p.val * 512) (xs.take (configured s p)) s.dram := by
  have stored := storeFrame_dram (s := (s.setPort p (joinedPort s.ports[p])).raise .link) (p := p) (tag := tag)
    (xs := xs) hw
  rw [joinPort_eq]
  split
  · exact stored
  · simp only [clearSkipped_frame]
    exact stored

/-- The indices that the settled index skips: above its last value and held by the ring (R40). -/
def skippedFrom (x w : Int) (tag : Nat) : Int := max (x + 1) (max w tag - 65535)

/-- A port that joins beside another marks as a good frame does; a port alone clears the skipped marks too (R40). -/
theorem joinPort_mark (hw : s.store.newest = some w) (hx : s.store.settled = some x) (q : Fin 4) (i : Int) :
    cellRead false (joinPort p tag xs s).store.marks (markAddress q.val (slotOf i)) =
      if alone p s ∧ (i - skippedFrom x w tag) % 65536 ≤ tag - 1 - skippedFrom x w tag then false
      else cellRead false (storeFrame p tag xs s).store.marks (markAddress q.val (slotOf i)) := by
  have stored : (storeFrame p tag xs ((s.setPort p (joinedPort s.ports[p])).raise .link)).store.marks =
      (storeFrame p tag xs s).store.marks :=
    (storeFrame_marks (s := (s.setPort p (joinedPort s.ports[p])).raise .link) hw).trans (storeFrame_marks hw).symm
  have newest := storeFrame_newest (s := (s.setPort p (joinedPort s.ports[p])).raise .link) (p := p) (tag := tag)
    (xs := xs) hw
  rw [joinPort_eq]
  by_cases beside : otherCounted p s = true
  · rw [if_pos beside, stored, if_neg fun h => alone_iff.mp h.1 beside]
  · have within : alone p s ∧ (i - skippedFrom x w tag) % 65536 ≤ tag - 1 - skippedFrom x w tag ↔
        (i - skippedFrom x w tag) % 65536 ≤ tag - 1 - skippedFrom x w tag := and_iff_right (alone_iff.mpr beside)
    simp only [within]
    simp only [if_neg beside, clearSkipped, hx, SampleStore.oldest, newest, Option.map_some, clearMarks, cellRead_clear,
      markAddress_mod, slotInRange_slotOf, stored, skippedFrom]
    congr

/-- The frame's own mark is not among the skipped. -/
theorem joinPort_ownMark (hw : s.store.newest = some w) (hx : s.store.settled = some x) :
    cellRead false (joinPort p tag xs s).store.marks (markAddress p.val (slotOf tag)) = true := by
  have kept : ¬((tag : Int) - skippedFrom x w tag) % 65536 ≤ tag - 1 - skippedFrom x w tag := by
    unfold skippedFrom
    omega
  rw [joinPort_mark hw hx, if_neg fun h => kept h.2, storeFrame_mark hw, if_pos ⟨rfl, rfl⟩]

/-- The skipped marks are clear when a port joins alone (R40). -/
theorem joinPort_skipped (hw : s.store.newest = some w) (hx : s.store.settled = some x) (only : alone p s) (q : Fin 4)
    {i : Int} (above : x < i) (below : i < tag) (held : max w tag - 65535 ≤ i) :
    cellRead false (joinPort p tag xs s).store.marks (markAddress q.val (slotOf i)) = false := by
  have skipped : (i - skippedFrom x w tag) % 65536 ≤ tag - 1 - skippedFrom x w tag := by
    unfold skippedFrom
    omega
  rw [joinPort_mark hw hx, if_pos ⟨only, skipped⟩]

/-- A mark of an index that the ring holds, after a join. -/
theorem joinPort_ringMark (hw : s.store.newest = some w) (hx : s.store.settled = some x) (hxt : x < tag)
    (ht : w - 65535 ≤ tag) (q : Fin 4) {i : Int} (hl : max w tag - 65536 < i) (hu : i ≤ max w tag) :
    cellRead false (joinPort p tag xs s).store.marks (markAddress q.val (slotOf i)) =
      if q = p ∧ i = tag then true
      else if w < i then false
      else if alone p s ∧ x < i ∧ i < tag then false
      else cellRead false s.store.marks (markAddress q.val (slotOf i)) := by
  have skipped : (i - skippedFrom x w tag) % 65536 ≤ tag - 1 - skippedFrom x w tag ↔ x < i ∧ i < tag := by
    unfold skippedFrom
    omega
  rw [joinPort_mark hw hx, storeFrame_ringMark hw ht q hl hu]
  simp only [skipped]
  by_cases own : q = p ∧ i = tag
  · have kept : ¬(alone p s ∧ x < i ∧ i < tag) := fun h => by omega
    rw [if_pos own, if_neg kept, if_pos own]
  · rw [if_neg own, if_neg own]
    split <;> split <;> rfl

/-! ## The ports and LINK after a join -/

theorem joinPort_link (p : Fin 4) (tag : Nat) (xs : List (BitVec 32)) (s : State) : isPending .link (joinPort p tag xs s) := by
  have raised : isPending .link ((s.setPort p (joinedPort s.ports[p])).raise .link) := raise_pending ..
  have stored := (storeFrame_grows (cs := [.link, .bin]) (by simp) (by simp) p tag xs _).events.keeps raised
  rw [joinPort_eq]
  split
  · exact stored
  · exact (clearSkipped_grows (cs := []) _ _ _).events.keeps stored

theorem joinPort_own (hw : s.store.newest = some w) :
    (joinPort p tag xs s).ports[p] = { joinedPort s.ports[p] with frontier := some (tag : Int) } := by
  rw [joinPort_port hw, if_pos rfl]

theorem joinPort_other (hw : s.store.newest = some w) (h : q ≠ p) :
    (joinPort p tag xs s).ports[q] = otherAfter w tag s.ports[q] := by
  rw [joinPort_port hw, if_neg h.symm]

/-- A port that joins is LIVE at its frontier. -/
theorem joinPort_counted (hw : s.store.newest = some w) : (joinPort p tag xs s).ports[p].counted = true := by
  rw [joinPort_own hw]
  rfl

/-- The settled index is recomputed after a join (R39). -/
theorem join_follows (hw : s.store.newest = some w) :
    SettledFollows s (settleEvent (joinPort p tag xs (s.applyUpsets us))) :=
  settleEvent_follows (by simp) ((joinPort_left p tag xs (s.applyUpsets us)).congr rfl rfl rfl rfl)
    fun _ => ⟨p, joinPort_counted (s := s.applyUpsets us) hw, by rw [joinPort_own (s := s.applyUpsets us) hw]; simp⟩

/-- After the join of a port alone the settled index is its frontier. -/
theorem join_settled (hw : s.store.newest = some w) (only : alone p s) :
    (settleEvent (joinPort p tag xs (s.applyUpsets us))).store.settled = some (tag : Int) := by
  let u := s.applyUpsets us
  have ports := (settleEvent_store (joinPort p tag xs u)).1
  obtain ⟨y, settled, ⟨q, counted, frontier⟩, -⟩ := (join_follows (xs := xs) (tag := tag) hw).least
    ⟨p, by rw [ports]; exact joinPort_counted (s := u) hw⟩
  rw [ports] at counted frontier
  by_cases h : q = p
  · subst h
    rw [joinPort_own (s := u) hw] at frontier
    rw [settled, ← frontier]
  · have idle : u.ports[q].counted = false := only q h
    rw [joinPort_other (s := u) hw h, otherAfter_uncounted idle, idle] at counted
    cases counted

/-! ## The command -/

/-- A waiting port joins on a good frame beyond the settled index and within reach of it (R20). -/
theorem exec_joins (hs : s.ports[p].state = .syncing) (hr : 16 ≤ s.ports[p].syncRun)
    (hc : lineClass (configured s p) p bytes = none) (hx : s.store.settled = some x) (ht : x < frameTag bytes)
    (reach : (∃ q : Fin 4, q ≠ p ∧ s.ports[q].counted = true) → (frameTag bytes : Int) ≤ x + 16384) :
    arrival p bytes (s.applyUpsets us) =
      settleEvent (joinPort p (frameTag bytes) (frameSamples bytes) (s.applyUpsets us)) := by
  have configs : configured (s.applyUpsets us) p = configured s p := rfl
  have beyond : ¬atOrBelow (some x) (frameTag bytes) = true := fun h => by
    have := atOrBelow_iff.mp h
    omega
  have near : ¬(otherCounted p (s.applyUpsets us) && beyondReach (some x) (frameTag bytes)) = true := fun h => by
    obtain ⟨other, far⟩ := Bool.and_eq_true_iff.mp h
    have := beyondReach_iff.mp far
    have := reach (otherCounted_iff.mp other)
    omega
  unfold arrival
  simp only [applyUpsets_frame, hs]
  unfold syncArrival
  dsimp only
  rw [configs, hc]
  simp only [applyUpsets_frame, hx]
  rw [if_neg (Nat.not_lt_of_le hr), if_neg beyond, if_neg near]

/-- Settles O17: ports, store and marks are what `joinPort` leaves, and the settled index follows from them. -/
theorem waitingPortJoins : Obligations.WaitingPortJoins := by
  intro p bytes us s x w hs hr hc hw hx ht reach
  let u := s.applyUpsets us
  have joins := exec_joins (us := us) hs hr hc hx ht reach
  have only := arrival_onlyWork p bytes us s
  have grows : Grows [.link, .bin] u (arrival p bytes u) := arrival_grows (by simp) (by simp) p bytes _
  obtain ⟨ports, newest, marks, dram⟩ := settleEvent_store (joinPort p (frameTag bytes) (frameSamples bytes) u)
  rw [joins] at only grows
  refine ⟨_, congrArg Host.Outcome.next joins, only, ?_, fun q hq => ?_, ?_, grows.events, ?_, ?_, fun single => ⟨?_, ?_⟩,
    join_follows hw, fun hm => ⟨?_, fun held q i hl hu => ?_⟩⟩
  · rw [ports, joinPort_own (s := u) hw]
    rfl
  · rw [ports, joinPort_other (s := u) hw hq]
    rfl
  · exact (settleEvent_grows (cs := [.bin]) (by simp) _).events.keeps (joinPort_link ..)
  · rw [newest, joinPort_newest (s := u) hw]
  · rw [marks, joinPort_ownMark (s := u) hw hx]
  · exact join_settled hw single
  · intro q i above below held
    rw [marks, joinPort_skipped (s := u) hw hx single q above below held]
  · exact samplesStored (s := u) hc (hm.dram us) (dram.trans (joinPort_dram (s := u) hw))
  · rw [marks, joinPort_ringMark (s := u) hw hx ht held q hl hu]
    rfl

end Sys2Proof.Machine
end

section
/-! PROOFS. Every step keeps the settled index the least frontier, and neither it nor W falls within a session (O60). -/

namespace Sys2Proof.Machine

variable {p q : Fin 4} {bytes : List Byte} {us : List Upset} {s t u : State} {w w' x f : Int} {tag : Nat}
  {xs : List (BitVec 32)}

/-! ## One port against the settled index and W -/

/-- A port takes part in the settled index only between the index and W, and within its stall limit (R26, R38). -/
def Within (w x : Int) (y : Port) : Prop :=
  y.counted = true → ∃ f : Int, y.frontier = some f ∧ x ≤ f ∧ f ≤ w ∧ w - stallDepth y ≤ f

theorem Within.of_uncounted {y : Port} (h : y.counted = false) : Within w x y := fun k => by rw [h] at k; cases k

theorem afterCut_uncounted (c : CutCause) (y : Port) : (y.afterCut c).counted = false := rfl

theorem stallDepth_le (y : Port) : stallDepth y ≤ 8192 := by
  unfold stallDepth
  split <;> decide

/-- A LIVE or DEGRADED port stalls below its limit (R26). -/
theorem stalled_iff {y : Port} (h : y.counted = true) (hf : y.frontier = some f) :
    stalled w y = true ↔ f < w - stallDepth y := by
  unfold stalled stallDepth
  cases e : y.state <;> simp [stallLimit, Port.counted, e, hf] at h ⊢

/-- Another port after W has advanced to a tag: cut, or still within its limit (R26, R37). -/
theorem Within.other {y : Port} (h : Within w x y) : Within (max w tag) x (otherAfter w tag y) := by
  unfold otherAfter
  by_cases below : (tag : Int) ≤ w
  · rw [if_pos below, max_eq_left below]
    exact h
  · rw [if_neg below, max_eq_right (not_le.mp below).le]
    unfold afterStall
    split
    · exact .of_uncounted (afterCut_uncounted _ _)
    · rename_i stays
      intro counted
      obtain ⟨f, hf, hx, hw, -⟩ := h counted
      rw [stalled_iff counted hf] at stays
      exact ⟨f, hf, hx, by omega, by omega⟩

/-- A LIVE or DEGRADED port whose frontier moves to a tag beyond it (R17). -/
theorem Within.moved {y : Port} (h : Within w x y) (hf : y.frontier = some f) (beyond : f < tag) :
    Within (max w tag) x { y with frontier := some (tag : Int) } := by
  intro counted
  obtain ⟨g, hg, hx, hw, depth⟩ := h counted
  obtain rfl : f = g := Option.some.inj (hf.symm.trans hg)
  have limit : 0 ≤ stallDepth y := by
    unfold stallDepth
    split <;> decide
  exact ⟨tag, rfl, by omega, by omega, show max w tag - stallDepth y ≤ tag by omega⟩

/-- A port whose count rises: cut, or DEGRADED only within the DEGRADED limit (R23, R26). -/
theorem Within.bumped {y : Port} (h : Within w x y) (hf : y.frontier = some f) : Within w x (bumpedPort w f y) := by
  unfold bumpedPort
  split
  · rename_i degrades
    split
    · exact .of_uncounted (afterCut_uncounted _ _)
    · intro _
      obtain ⟨g, hg, hx, hw, -⟩ := h (by simp [Port.counted, degrades.1])
      obtain rfl : f = g := Option.some.inj (hf.symm.trans hg)
      exact ⟨f, hf, hx, hw, not_lt.mp ‹_›⟩
  · exact h

/-- A port that returns to LIVE has the wider limit (R22, R26). -/
theorem Within.recovered {y : Port} (h : Within w x y) : Within w x (recoveredPort y) := by
  unfold recoveredPort
  intro counted
  split at counted
  · rename_i returns
    obtain ⟨f, hf, hx, hw, depth⟩ := h (by simp [Port.counted, returns.1])
    have narrow := stallDepth_le y
    rw [if_pos returns]
    exact ⟨f, hf, hx, hw, show w - 8192 ≤ f by omega⟩
  · rename_i stays
    rw [if_neg stays]
    exact h counted

/-! ## The store and the ports together -/

/-- W is `w` and the settled index `x`, as they stand while RECORDING. -/
structure StoreAt (w x : Int) (s : State) : Prop where
  newest : s.store.newest = some w
  settled : s.store.settled = some x
  order : x ≤ w
  near : w - 8192 ≤ x
  within : ∀ q : Fin 4, Within w x s.ports[q]
  least : (∃ q : Fin 4, s.ports[q].counted = true) → ∃ q : Fin 4, s.ports[q].counted = true ∧ s.ports[q].frontier = some x

theorem storeLawful_iff : StoreLawful s ↔ (s.device = .recording → ∃ w x, StoreAt w x s) :=
  ⟨fun h hd => by
    obtain ⟨w, x, newest, settled, order, near, within, least⟩ := h hd
    exact ⟨w, x, newest, settled, order, near, within, least⟩,
  fun h hd => by
    obtain ⟨w, x, newest, settled, order, near, within, least⟩ := h hd
    exact ⟨w, x, newest, settled, order, near, within, least⟩⟩

/-- The same before the settled index is recomputed: it may lie below the least frontier, and more than 8,192 below W
while a port takes part. -/
structure Unsettled (w x : Int) (s : State) : Prop where
  newest : s.store.newest = some w
  settled : s.store.settled = some x
  order : x ≤ w
  near : (∀ q : Fin 4, s.ports[q].counted = false) → w - 8192 ≤ x
  within : ∀ q : Fin 4, Within w x s.ports[q]

/-- The settled index is recomputed: it is the least frontier again, and has not fallen (R39). -/
theorem Unsettled.settles (h : Unsettled w x u) : ∃ x', StoreAt w x' (settleEvent u) ∧ x ≤ x' := by
  obtain ⟨ports, newest, -, -⟩ := settleEvent_store u
  have takesPart : (∃ q : Fin 4, u.ports[q].counted = true) →
      ∃ q : Fin 4, u.ports[q].counted = true ∧ u.ports[q].frontier ≠ none := fun ⟨q, hq⟩ => by
    obtain ⟨f, hf, -⟩ := h.within q hq
    exact ⟨q, hq, by simp [-Fin.getElem_fin, hf]⟩
  obtain ⟨kept, least, -⟩ := settleEvent_follows rfl (.of_eq rfl rfl : PassLeft u u) takesPart
  rw [ports] at kept least
  by_cases part : ∃ q : Fin 4, u.ports[q].counted = true
  · obtain ⟨x', settled, ⟨q, counted, frontier⟩, lower, -⟩ := least part
    obtain ⟨f, hf, above, below, depth⟩ := h.within q counted
    obtain rfl : x' = f := Option.some.inj (frontier.symm.trans hf)
    have narrow := stallDepth_le u.ports[q]
    refine ⟨x', ⟨newest.trans h.newest, settled, below, by omega, fun r => ?_, fun _ => ⟨q, ?_⟩⟩, above⟩
    · rw [ports]
      intro hr
      obtain ⟨g, hg, -, high, deep⟩ := h.within r hr
      exact ⟨g, hg, lower r g hr hg, high, deep⟩
    · rw [ports]
      exact ⟨counted, frontier⟩
  · have none (q : Fin 4) : u.ports[q].counted = false := Bool.eq_false_iff.mpr fun k => part ⟨q, k⟩
    refine ⟨x, ⟨newest.trans h.newest, (kept none).trans h.settled, h.order, h.near none, fun q => ?_, ?_⟩, le_refl x⟩
    · rw [ports]
      exact h.within q
    · rw [ports]
      exact fun k => absurd k part

/-- A command leaves the store lawful, and neither W nor the settled index below its value. -/
def Rises (s t : State) : Prop :=
  ∀ w x, StoreAt w x s → ∃ w' x', StoreAt w' x' t ∧ w ≤ w' ∧ x ≤ x'

/-- Whatever moves the ports so that W does not fall and each stays within, and then recomputes the settled index. -/
theorem Rises.settling (h : ∀ w x, StoreAt w x s → ∃ w', Unsettled w' x u ∧ w ≤ w') : Rises s (settleEvent u) := by
  intro w x hs
  obtain ⟨w', hu, hw⟩ := h w x hs
  obtain ⟨x', ht, hx⟩ := hu.settles
  exact ⟨w', x', ht, hw, hx⟩

/-- A port's part in the settled index is as it was: state and frontier are, or it takes none before and after. -/
def SamePart (y z : Port) : Prop :=
  z.state = y.state ∧ z.frontier = y.frontier ∨ y.counted = false ∧ z.counted = false

theorem SamePart.counted {y z : Port} (h : SamePart y z) : z.counted = y.counted := by
  obtain ⟨e, -⟩ | ⟨hy, hz⟩ := h
  · unfold Port.counted
    rw [e]
  · rw [hy, hz]

theorem SamePart.frontier {y z : Port} (h : SamePart y z) (hc : y.counted = true) :
    z.frontier = y.frontier ∧ stallDepth z = stallDepth y := by
  obtain ⟨e, hf⟩ | ⟨hy, -⟩ := h
  · exact ⟨hf, by unfold stallDepth; rw [e]⟩
  · rw [hy] at hc
    cases hc

/-- What moves neither W nor the settled index, nor a port's part in it. -/
theorem Rises.of_parts (newest : t.store.newest = s.store.newest) (settled : t.store.settled = s.store.settled)
    (parts : ∀ q : Fin 4, SamePart s.ports[q] t.ports[q]) : Rises s t := by
  intro w x h
  refine ⟨w, x, ⟨newest.trans h.newest, settled.trans h.settled, h.order, h.near, fun q counted => ?_, fun ⟨q, hq⟩ => ?_⟩,
    le_refl w, le_refl x⟩
  · have before : s.ports[q].counted = true := (parts q).counted ▸ counted
    obtain ⟨frontier, depth⟩ := (parts q).frontier before
    rw [frontier, depth]
    exact h.within q before
  · obtain ⟨r, hr, frontier⟩ := h.least ⟨q, (parts q).counted ▸ hq⟩
    exact ⟨r, (parts r).counted.trans hr, ((parts r).frontier hr).1.trans frontier⟩

theorem Rises.of_same (h : SameLinks s t) : Rises s t := by
  obtain ⟨ports, newest, settled⟩ := h
  exact .of_parts newest settled fun q => .inl (by rw [ports]; exact ⟨rfl, rfl⟩)

/-- One port's record is replaced by one that takes the same part. -/
theorem Rises.of_port {y : Port} (ports : t.ports = s.ports.set p y) (newest : t.store.newest = s.store.newest)
    (settled : t.store.settled = s.store.settled) (part : SamePart s.ports[p] y) : Rises s t := by
  refine .of_parts newest settled fun q => ?_
  rw [ports, set_get]
  split
  · subst_vars
    exact part
  · exact .inl ⟨rfl, rfl⟩

/-! ## Frames -/

/-- A frame of no bad class lies beyond its port's frontier (R16). -/
theorem frameClass_beyond (h : frameClass s p bytes = none) (hf : s.ports[p].frontier = some f) : f < frameTag bytes := by
  unfold frameClass at h
  split at h
  · cases h
  · split at h
    · cases h
    · rename_i above
      rw [hf, atOrBelow_iff] at above
      exact not_le.mp above

/-- A port is cut, and the others are as they were. -/
theorem StoreAt.cut (h : StoreAt w x s) (newest : t.store.newest = s.store.newest)
    (settled : t.store.settled = s.store.settled)
    (ports : ∀ q : Fin 4, t.ports[q].counted = false ∨ t.ports[q] = s.ports[q]) : Unsettled w x t :=
  ⟨newest.trans h.newest, settled.trans h.settled, h.order, fun _ => h.near, fun q =>
    (ports q).elim .of_uncounted fun e => by rw [e]; exact h.within q⟩

theorem badFrame_unsettled {c : BadClass} (h : StoreAt w x s) (hf : s.ports[p].frontier = some f) :
    Unsettled w x (badFrame p c s) := by
  refine ⟨by simp [h.newest], by simp [h.settled], h.order, fun _ => h.near, fun q => ?_⟩
  rw [badFrame_port c h.newest hf]
  split
  · split
    · exact .of_uncounted (afterCut_uncounted _ _)
    · exact Within.bumped (y := { s.ports[p] with counts := s.ports[p].counts.addBad c }) (h.within p) hf
  · exact h.within q

theorem recoveredPort_counted {y : Port} (h : y.counted = true) : (recoveredPort y).counted = true := by
  unfold recoveredPort
  split
  · rfl
  · exact h

/-- A port within the DEGRADED limit is not cut at once. -/
theorem bumpedPort_counted {y : Port} (h : y.counted = true) (near : w - 1024 ≤ f) : (bumpedPort w f y).counted = true := by
  unfold bumpedPort
  rw [if_neg (not_lt.mpr near)]
  split
  · rfl
  · exact h

theorem goodFrame_unsettled (h : StoreAt w x s) (counted : s.ports[p].counted = true) (hf : s.ports[p].frontier = some f)
    (beyond : f < tag) : Unsettled (max w tag) x (goodFrame p tag xs s) := by
  have port (q : Fin 4) := goodFrame_port (p := p) (q := q) (tag := tag) (xs := xs) h.newest
  have own : (goodFrame p tag xs s).ports[p].counted = true := by
    rw [port p, if_pos rfl]
    exact recoveredPort_counted counted
  refine ⟨by simp [goodFrame, storeFrame_newest h.newest], by simp [h.settled], le_max_of_le_left h.order, fun none => ?_,
    fun q => ?_⟩
  · rw [none p] at own
    cases own
  · rw [port q]
    split
    · exact ((h.within p).moved hf beyond).recovered
    · exact (h.within q).other

theorem gapFrame_newest (h : s.ports[p].errors + 8 < 256) (hw : s.store.newest = some w) :
    (gapFrame p tag xs s).store.newest = some (max w tag) := by
  rw [gapFrame_stored h hw]
  simp only [degradeTest_frame, setPort_frame]
  exact storeFrame_newest (s := s.setPort p (gapCounted s.ports[p])) hw

theorem gapFrame_unsettled (h : StoreAt w x s) (counted : s.ports[p].counted = true) (hf : s.ports[p].frontier = some f)
    (beyond : f < tag) (stays : s.ports[p].errors + 8 < 256) : Unsettled (max w tag) x (gapFrame p tag xs s) := by
  have port (q : Fin 4) := gapFrame_port (p := p) (q := q) (tag := tag) (xs := xs) stays h.newest
  refine ⟨gapFrame_newest stays h.newest, by simp [h.settled], le_max_of_le_left h.order, fun none => ?_, fun q => ?_⟩
  · have near := h.near
    by_cases below : (tag : Int) ≤ w
    · omega
    · have own : (gapFrame p tag xs s).ports[p].counted = true := by
        rw [port p, if_pos rfl]
        exact bumpedPort_counted counted (by omega)
      rw [none p] at own
      cases own
  · rw [port q]
    split
    · exact Within.bumped (y := { gapCounted s.ports[p] with frontier := some (tag : Int) })
        (Within.moved (y := gapCounted s.ports[p]) (h.within p) hf beyond) rfl
    · exact (h.within q).other

/-- A GAP frame that is discarded cuts its port (R23). -/
theorem gapFrame_discarded_unsettled (h : StoreAt w x s) (cut : 256 ≤ s.ports[p].errors + 8) :
    Unsettled w x (gapFrame p tag xs s) := by
  rw [gapFrame_discarded cut]
  refine h.cut (by simp) (by simp) fun q => ?_
  rw [cutPort_port]
  split
  · exact .inl (afterCut_uncounted _ _)
  · exact .inr rfl

/-- A frame of any class at a LIVE or DEGRADED port. -/
theorem liveArrival_unsettled (h : StoreAt w x s) (counted : s.ports[p].counted = true) :
    ∃ w', Unsettled w' x (liveArrival p bytes s) ∧ w ≤ w' := by
  obtain ⟨f, hf, -⟩ := h.within p counted
  cases hc : frameClass s p bytes with
  | some c =>
    rw [liveArrival_bad hc]
    exact ⟨w, badFrame_unsettled h hf, le_refl w⟩
  | none =>
    have beyond := frameClass_beyond hc hf
    by_cases next : (frameTag bytes : Int) = f + 1
    · rw [liveArrival_next hc hf next]
      exact ⟨_, goodFrame_unsettled h counted hf beyond, le_max_left ..⟩
    · rw [liveArrival_gap hc hf next]
      by_cases cut : 256 ≤ s.ports[p].errors + 8
      · exact ⟨w, gapFrame_discarded_unsettled h cut, le_refl w⟩
      · exact ⟨_, gapFrame_unsettled h counted hf beyond (not_le.mp cut), le_max_left ..⟩

/-- A port that joins lies beyond the settled index, and so within 8,192 of W (R20). -/
theorem joinPort_unsettled (h : StoreAt w x s) (beyond : x < tag) : Unsettled (max w tag) x (joinPort p tag xs s) := by
  have near := h.near
  refine ⟨joinPort_newest h.newest, by simp [h.settled], le_max_of_le_left h.order, fun none => ?_, fun q => ?_⟩
  · have own := joinPort_counted (p := p) (tag := tag) (xs := xs) h.newest
    rw [none p] at own
    cases own
  · rw [joinPort_port h.newest]
    split
    · exact fun _ => ⟨tag, rfl, beyond.le, le_max_right .., show max w tag - 8192 ≤ tag by omega⟩
    · exact (h.within q).other

/-- A frame at a SYNCING port joins it, or changes the port's run and counts at most (R19, R20). -/
theorem syncArrival_cases (hx : s.store.settled = some x) :
    (syncArrival p bytes s = settleEvent (joinPort p (frameTag bytes) (frameSamples bytes) s) ∧ x < frameTag bytes) ∨
      ∃ y : Port, syncArrival p bytes s = s.setPort p y ∧ y.state = s.ports[p].state := by
  unfold syncArrival
  dsimp only
  split
  · exact .inr ⟨_, rfl, rfl⟩
  · split
    · exact .inr ⟨_, buildRun_eq _, rfl⟩
    · split
      · exact .inr ⟨_, rfl, rfl⟩
      · rename_i above
        split
        · exact .inr ⟨_, rfl, rfl⟩
        · rw [hx, atOrBelow_iff] at above
          exact .inl ⟨rfl, not_le.mp above⟩

/-- A frame at a CUT port leaves it CUT or SYNCING (R28). -/
theorem cutArrival_port (h : s.ports[p].state = .cut) : ∃ y : Port, y.counted = false ∧
    (cutArrival p bytes s).ports = s.ports.set p y := by
  have idle : s.ports[p].counted = false := by simp [Port.counted, h, -Fin.getElem_fin]
  cases hc : lineClass (configured s p) p bytes with
  | some c =>
    rw [cutArrival_bad hc]
    exact ⟨{ s.ports[p] with counts := s.ports[p].counts.addBad c }, idle, rfl⟩
  | none =>
    rw [cutArrival_good hc]
    split
    · exact ⟨{ s.ports[p] with recovery := s.ports[p].recovery + 1 }, idle, rfl⟩
    · exact ⟨{ s.ports[p] with state := .syncing, recovery := 0, syncRun := 0, syncTag := none }, rfl, rfl⟩

/-- A frame at a port in any state. -/
theorem arrival_rises (p : Fin 4) (bytes : List Byte) (s : State) : Rises s (arrival p bytes s) := by
  unfold arrival
  split
  · exact .of_same ⟨rfl, rfl, rfl⟩
  · rename_i syncing
    intro w x h
    obtain ⟨joins, beyond⟩ | ⟨y, same, hy⟩ := syncArrival_cases (p := p) (bytes := bytes) h.settled
    · obtain ⟨x', ht, hx⟩ := (joinPort_unsettled (p := p) (xs := frameSamples bytes) h beyond).settles
      rw [joins]
      exact ⟨_, x', ht, le_max_left .., hx⟩
    · rw [same]
      have idle : s.ports[p].counted = false := by simp [Port.counted, syncing, -Fin.getElem_fin]
      have part : SamePart s.ports[p] y := .inr ⟨idle, by simp [Port.counted, hy, syncing, -Fin.getElem_fin]⟩
      exact Rises.of_port (t := s.setPort p y) rfl rfl rfl part w x h
  · rename_i live
    exact .settling fun w x h => liveArrival_unsettled h (by simp [Port.counted, live, -Fin.getElem_fin])
  · rename_i degraded
    exact .settling fun w x h => liveArrival_unsettled h (by simp [Port.counted, degraded, -Fin.getElem_fin])
  · rename_i cut
    obtain ⟨y, hy, ports⟩ := cutArrival_port (bytes := bytes) cut
    exact .of_port ports (by simp) (by simp) (.inr ⟨by simp [Port.counted, cut, -Fin.getElem_fin], hy⟩)

/-! ## Carrier -/

theorem carrierLoss_rises (p : Fin 4) (us : List Upset) (s : State) : Rises s (afterLoss p us s) := by
  have port (q : Fin 4) : (loseCarrier p (s.applyUpsets us)).ports[q] =
      if p = q then carrierLost s.ports[p] else s.ports[q] := loseCarrier_port p (s.applyUpsets us)
  by_cases counted : s.ports[p].counted = true
  · rw [afterLoss_counted counted]
    refine .settling fun w x h => ⟨w, h.cut (by simp) (by simp) fun q => ?_, le_refl w⟩
    rw [port q]
    split
    · exact .inl (carrierLost_uncounted _)
    · exact .inr rfl
  · have idle := Bool.eq_false_iff.mpr counted
    rw [afterLoss_uncounted idle]
    refine .of_parts (by simp) (by simp) fun q => ?_
    rw [port q]
    split
    · subst_vars
      exact .inr ⟨idle, carrierLost_uncounted _⟩
    · exact .inl ⟨rfl, rfl⟩

/-! ## Orders and resets -/

/-- The take of an order moves nothing beyond what its owner does. -/
theorem takeOrder_links {kind : Option OrderKind} {owner : Fin 64 → Byte → List Byte → State → Verdict} (post : Byte)
    (s : State) :
    SameLinks s (takeOrder kind owner id post s) ∧ (takeOrder kind owner id post s).device = s.device ∨
      ∃ b body u a, owner b post body s.scannerReported = some (u, a) ∧ SameLinks u (takeOrder kind owner id post s) ∧
        (takeOrder kind owner id post s).device = u.device := by
  obtain e | e | ⟨b, body, u, a, -, -, taken, e⟩ := takeOrder_cases kind owner id post s <;> rw [e]
  · exact .inl ⟨⟨rfl, rfl, rfl⟩, rfl⟩
  · exact .inl ⟨by simp [SameLinks], by simp⟩
  · exact .inr ⟨b, body, u, a, taken, by simp [SameLinks], by simp⟩

theorem scannerReported_links (s : State) : SameLinks s s.scannerReported := ⟨rfl, rfl, rfl⟩

/-- A CONFIGURE outside IDLE moves nothing (R5). -/
theorem configure_rises (post : Byte) (hd : s.device = .recording) :
    Rises s (takeOrder (some .configure) ownConfigure id post s) := by
  obtain ⟨same, -⟩ | ⟨b, body, u, a, taken, same, -⟩ := takeOrder_links (kind := some .configure) (owner := ownConfigure) post s
  · exact .of_same same
  · obtain rfl | ⟨idle, -⟩ := ownConfigure_does taken
    · exact .of_same ((scannerReported_links s).trans same)
    · exact absurd (hd.symm.trans idle) nofun

/-- An END_RECORDING that does not end the session moves nothing (R9). -/
theorem endRecording_rises (post : Byte)
    (hd : (takeOrder (some .endRecording) ownEndRecording id post s).device = .recording) :
    Rises s (takeOrder (some .endRecording) ownEndRecording id post s) := by
  obtain ⟨same, -⟩ | ⟨b, body, u, a, taken, same, device⟩ :=
    takeOrder_links (kind := some .endRecording) (owner := ownEndRecording) post s
  · exact .of_same same
  · obtain rfl | ⟨-, -, rfl⟩ := ownEndRecording_does taken
    · exact .of_same ((scannerReported_links s).trans same)
    · rw [device, endSession_device] at hd
      cases hd

/-- A write to CONTROL after which the session goes on has reset nothing (R11 to R13). -/
theorem controlWrite_rises (v : Word) (hd : (controlWrite v s).device = .recording) : Rises s (controlWrite v s) := by
  have field : controlReset v = resetField v := rfl
  rw [controlWrite_device] at hd
  unfold controlWrite
  rw [field]
  split at hd
  · cases hd
  · rename_i notFull
    split at hd
    · cases hd
    · rename_i notWork
      rw [if_neg notFull, if_neg notWork]
      exact .of_same (by simp [SameLinks])

/-! ## The commands -/

/-- Every command within a session. -/
theorem exec_rises {c : Instr} (h : exec c s = .next t) (hs : s.device = .recording) (ht : t.device = .recording) :
    Rises s t := by
  by_cases hc : touchesLinks c = false
  · exact .of_same (exec_quiet hc s t h).2
  have control {v : Word} (e : exec c s = .next (controlWrite v s)) : Rises s t := by
    obtain rfl := Host.Outcome.next.inj (h.symm.trans e)
    exact controlWrite_rises v ht
  cases c with
  | powerOnReset =>
    cases h
    cases ht
  | fullReset v => exact control (v := v) rfl
  | workReset v => exact control (v := v) rfl
  | scanEnIntEnWrite v => exact control (v := v) rfl
  | eventPendingWrite v => exact Host.Outcome.next.inj h ▸ .of_same ⟨rfl, rfl, rfl⟩
  | eventMaskWrite v => exact Host.Outcome.next.inj h ▸ .of_same ⟨rfl, rfl, rfl⟩
  | frameArrival p bytes us =>
    obtain rfl := Host.Outcome.next.inj h
    intro w x store
    exact arrival_rises p bytes (s.applyUpsets us) w x ⟨store.newest, store.settled, store.order, store.near, store.within,
      store.least⟩
  | carrierLoss p us =>
    obtain rfl := Host.Outcome.next.inj ((exec_carrierLoss p us s).symm.trans h)
    exact carrierLoss_rises p us s
  | carrierPresent p =>
    obtain rfl := Host.Outcome.next.inj h
    exact .of_port (p := p) (y := { s.ports[p] with carrier := true }) rfl rfl rfl (.inl ⟨rfl, rfl⟩)
  | configure post =>
    obtain rfl := Host.Outcome.next.inj h
    exact configure_rises post hs
  | endRecording post =>
    obtain rfl := Host.Outcome.next.inj h
    exact endRecording_rises post ht
  | _ => exact absurd rfl hc

/-- At its begin a session has no port LIVE or DEGRADED, and W and the settled index are one (R7, R38, R39). -/
theorem startSession_storeAt {interval epoch period : Nat} {counts : Vector Nat 4}
    (down : ∀ p : Fin 4, s.ports[p].state = .down) :
    StoreAt ((epoch : Int) - 1) ((epoch : Int) - 1) (startSession interval epoch period counts s) := by
  have none (q : Fin 4) : (startSession interval epoch period counts s).ports[q].counted = false := by
    rw [startSession_port]
    unfold configurePort
    split
    · simp [Port.counted, down q, -Fin.getElem_fin]
    · rfl
  have store := congrArg State.store (startSession_eq interval epoch period counts s)
  refine ⟨by rw [store], by rw [store], le_refl _, by omega, fun q => .of_uncounted (none q), fun ⟨q, hq⟩ => ?_⟩
  rw [none q] at hq
  cases hq

/-- What has the same ports, W and settled index as a lawful store. -/
theorem StoreAt.of_same (h : StoreAt w x s) (same : SameLinks s t) : ∃ w x, StoreAt w x t := by
  obtain ⟨w', x', lawful, -⟩ := Rises.of_same same w x h
  exact ⟨w', x', lawful⟩

/-- A command that begins a session is a CONFIGURE (R5). -/
theorem exec_begins {c : Instr} (down : ∀ p : Fin 4, s.ports[p].state = .down) (h : exec c s = .next t)
    (hs : s.device ≠ .recording) (ht : t.device = .recording) : ∃ w x, StoreAt w x t := by
  have moved : t.device ≠ s.device := fun e => hs (e ▸ ht)
  obtain ⟨e, -⟩ | ⟨-, e, -⟩ | ⟨-, e, -⟩ | ⟨-, -, post, rfl⟩ | ⟨-, e, -⟩ := deviceStateMoves c s t h moved
  case inr.inr.inr.inl =>
    obtain rfl := Host.Outcome.next.inj h
    obtain ⟨-, device⟩ | ⟨b, body, u, a, taken, same, device⟩ :=
      takeOrder_links (kind := some .configure) (owner := ownConfigure) post s
    · exact absurd device moved
    · obtain rfl | ⟨-, i, e, n, c, rfl⟩ := ownConfigure_does taken
      · exact absurd device moved
      · exact (startSession_storeAt (s := s.scannerReported) down).of_same same
  all_goals exact absurd (ht.symm.trans e) nofun

/-- The rest of the queue is no part of the store. -/
theorem StoreAt.waiting (h : StoreAt w x s) (rest : List Instr) : StoreAt w x { s with pending := rest } :=
  ⟨h.newest, h.settled, h.order, h.near, h.within, h.least⟩

/-- A step within a session. -/
theorem step_rises (h : step s = .next t) (hs : s.device = .recording) (ht : t.device = .recording) : Rises s t := by
  unfold step at h
  split at h
  · cases h
    exact .of_same ⟨rfl, rfl, rfl⟩
  · intro w x store
    exact exec_rises h hs ht w x (store.waiting _)

/-- A step that begins a session. -/
theorem step_begins (down : ∀ p : Fin 4, s.ports[p].state = .down) (h : step s = .next t)
    (hs : s.device ≠ .recording) (ht : t.device = .recording) : ∃ w x, StoreAt w x t := by
  unfold step at h
  split at h
  · cases h
    exact absurd ht hs
  · rename_i rest _
    exact exec_begins (s := { s with pending := rest }) down h hs ht

/-- Settles O60: within a session by `step_rises`, and at its begin by `step_begins`. -/
theorem settledIndexStaysLawful : Obligations.SettledIndexStaysLawful := by
  intro s t work lawful h
  rw [storeLawful_iff] at lawful ⊢
  refine ⟨fun ht => ?_, fun hs ht w w' x x' newest newest' settled settled' => ?_⟩
  · by_cases hs : s.device = .recording
    · obtain ⟨w, x, store⟩ := lawful hs
      obtain ⟨w', x', store', -⟩ := step_rises h hs ht w x store
      exact ⟨w', x', store'⟩
    · exact step_begins (work.session.ports hs) h hs ht
  · obtain ⟨v, y, store⟩ := lawful hs
    obtain ⟨v', y', store', rises⟩ := step_rises h hs ht v y store
    obtain rfl : w = v := Option.some.inj (newest.symm.trans store.newest)
    obtain rfl : w' = v' := Option.some.inj (newest'.symm.trans store'.newest)
    obtain rfl : x = y := Option.some.inj (settled.symm.trans store.settled)
    obtain rfl : x' = y' := Option.some.inj (settled'.symm.trans store'.settled)
    exact rises

end Sys2Proof.Machine
end

section
/-! PROOFS. Every step keeps local DRAM, its check bits and the scan map in canonical form (O55). -/

namespace Sys2Proof.Machine

variable {s t u : State}

/-! ## What an operation keeps -/

/-- An operation leaves local DRAM and the scan map in the form if it finds them so. -/
structure KeepsForm (s t : State) : Prop where
  dram : DramWf s.dram → DramWf t.dram
  marks : CellsWf false s.store.marks → CellsWf false t.store.marks

theorem KeepsForm.refl (s : State) : KeepsForm s s := ⟨id, id⟩

theorem KeepsForm.trans (h : KeepsForm s t) (k : KeepsForm t u) : KeepsForm s u := ⟨k.dram ∘ h.dram, k.marks ∘ h.marks⟩

/-- Local DRAM and the scan map are as they were. -/
def SameMemory (s t : State) : Prop := t.dram = s.dram ∧ t.store.marks = s.store.marks

theorem KeepsForm.of_same (h : SameMemory s t) : KeepsForm s t := ⟨fun k => h.1 ▸ k, fun k => h.2 ▸ k⟩

/-- Local DRAM alone is written. -/
theorem KeepsForm.of_dram (h : DramWf s.dram → DramWf t.dram) (marks : t.store.marks = s.store.marks) : KeepsForm s t :=
  ⟨h, fun k => marks ▸ k⟩

/-- The scan map is emptied. -/
theorem KeepsForm.unmarked (dram : t.dram = s.dram) (marks : t.store.marks = []) : KeepsForm s t :=
  ⟨fun k => dram ▸ k, fun _ => marks ▸ .nil⟩

/-- What the issue port takes up is no part of the memories. -/
theorem KeepsForm.served (h : KeepsForm s t) : KeepsForm s (serveIssuePort t) := h.trans (.of_same (by simp [SameMemory]))

/-- The two parts are all that the canonical form is about. -/
theorem MemoryCanonical.kept (h : MemoryCanonical s) (k : KeepsForm s t) : MemoryCanonical t := by
  obtain ⟨h1, h2, h3, h4, h5, h6, marked⟩ := h
  obtain ⟨k1, k2, k3, k4, k5, k6⟩ := k.dram ⟨h1, h2, h3, h4, h5, h6⟩
  exact ⟨k1, k2, k3, k4, k5, k6, k.marks marked⟩

/-- Errors that arise in local DRAM are listed in order (R166). -/
theorem applyUpsets_form (us : List Upset) (s : State) : KeepsForm s (s.applyUpsets us) := .of_dram (upsets_wf us) rfl

/-- What a command answers is in the form if the part was. -/
def FormKept (s : State) (o : Host.Outcome State Fault Refusal) : Prop := ∀ t, o = .next t → KeepsForm s t

theorem FormKept.next (h : KeepsForm s t) : FormKept s (.next t) := by
  rintro _ ⟨⟩
  exact h

theorem FormKept.same (h : SameMemory s t) : FormKept s (.next t) := .next (.of_same h)

theorem FormKept.idle (s : State) : FormKept s (.next s) := .next (.refl s)

/-- Errors have arisen, and nothing is written. -/
theorem FormKept.upset {us : List Upset} (h : SameMemory (s.applyUpsets us) t) : FormKept s (.next t) :=
  .next ((applyUpsets_form us s).trans (.of_same h))

/-! ## Registers and resets -/

/-- A reset empties the scan map, and leaves local DRAM as it is or as the scrub does (R2, R12, R49). -/
theorem controlWrite_form (v : Word) (s : State) : KeepsForm s (controlWrite v s) := by
  unfold controlWrite
  split
  · exact .unmarked rfl rfl
  · split
    · exact .unmarked rfl rfl
    · exact .of_same (by simp [SameMemory])

theorem powerOn_form (s : State) : KeepsForm s (powerOn s) := ⟨fun _ => scrubbed_wf, fun _ => .nil⟩

theorem execScrubComplete_form (s : State) : FormKept s (execScrubComplete s) := by
  unfold execScrubComplete
  split
  · exact .next (.of_dram (fun _ => scrubbed_wf) rfl)
  · exact .idle s

theorem execWindowBaseWrite_form (half : WordHalf) (v : Word) (s : State) : FormKept s (execWindowBaseWrite half v s) := by
  unfold execWindowBaseWrite
  split <;> exact .same (by simp [SameMemory])

theorem execWindowSizeWrite_form (v : Word) (us : List Upset) (s : State) : FormKept s (execWindowSizeWrite v us s) := by
  unfold execWindowSizeWrite
  dsimp only
  split <;> exact .upset (us := us) (by simp [SameMemory])

/-! ## Frames -/

/-- A good frame is written in order, samples and mark, after the marks that W has passed are cleared (R36, R37). -/
theorem storeFrame_form (p : Fin 4) (tag : Nat) (xs : List (BitVec 32)) (s : State) :
    KeepsForm s (storeFrame p tag xs s) := by
  cases hw : s.store.newest with
  | none => exact .of_same (by unfold storeFrame; simp only [hw]; exact ⟨rfl, rfl⟩)
  | some w =>
    refine ⟨fun dram => ?_, fun marks => ?_⟩
    · rw [storeFrame_dram hw]
      exact writeSamples_wf _ _ _ dram
    · rw [storeFrame_marks hw]
      refine cellWrite_wf ?_
      split
      · exact marks
      · exact cellsClear_wf marks

theorem liveArrival_form (p : Fin 4) (bytes : List Byte) (s : State) : KeepsForm s (liveArrival p bytes s) := by
  have good (tag : Nat) (xs : List (BitVec 32)) : KeepsForm s (goodFrame p tag xs s) :=
    (storeFrame_form p tag xs s).trans (.of_same (by simp [SameMemory, goodFrame]))
  have gap (tag : Nat) (xs : List (BitVec 32)) : KeepsForm s (gapFrame p tag xs s) := by
    unfold gapFrame
    dsimp only
    split
    · exact .of_same (by simp [SameMemory])
    · have counted : KeepsForm s (s.setPort p (gapCounted s.ports[p])) := .of_same ⟨rfl, rfl⟩
      have stored := counted.trans (storeFrame_form p tag xs _)
      exact stored.trans (.of_same ⟨by simp; rfl, by simp; rfl⟩)
  cases hc : frameClass s p bytes with
  | some c =>
    rw [liveArrival_bad hc]
    exact .of_same (by simp [SameMemory])
  | none =>
    rw [liveArrival_good hc]
    split
    · exact good ..
    · exact gap ..

theorem joinPort_form (p : Fin 4) (tag : Nat) (xs : List (BitVec 32)) (s : State) : KeepsForm s (joinPort p tag xs s) := by
  have joined : KeepsForm s ((s.setPort p (joinedPort s.ports[p])).raise .link) := .of_same ⟨rfl, rfl⟩
  have stored := joined.trans (storeFrame_form p tag xs _)
  have skipped (x : Option Int) (u : State) : KeepsForm u (clearSkipped x tag u) := by
    unfold clearSkipped
    split
    · exact ⟨id, clearMarks_wf _ _⟩
    · exact .refl u
  rw [joinPort_eq]
  split
  · exact stored
  · exact stored.trans (skipped _ _)

theorem settleEvent_form (s : State) : KeepsForm s (settleEvent s) := .of_same (by simp [SameMemory])

theorem arrival_form (p : Fin 4) (bytes : List Byte) (s : State) : KeepsForm s (arrival p bytes s) := by
  have sync : KeepsForm s (syncArrival p bytes s) := by
    unfold syncArrival
    dsimp only
    split
    · exact .of_same (by simp [SameMemory])
    · split
      · exact .of_same (by simp [SameMemory])
      · split
        · exact .of_same (by simp [SameMemory])
        · split
          · exact .of_same (by simp [SameMemory])
          · exact (joinPort_form ..).trans (settleEvent_form _)
  unfold arrival
  split
  · exact .refl s
  · exact sync
  · exact (liveArrival_form ..).trans (settleEvent_form _)
  · exact (liveArrival_form ..).trans (settleEvent_form _)
  · exact .of_same (by simp [SameMemory])

theorem execCarrierLoss_form (p : Fin 4) (us : List Upset) (s : State) : FormKept s (execCarrierLoss p us s) := by
  unfold execCarrierLoss
  dsimp only
  split <;> exact .upset (us := us) (by simp [SameMemory])

/-! ## Passes and traces -/

theorem execPilotSampleRead_form (us : List Upset) (s : State) : FormKept s (execPilotSampleRead us s) := by
  have read (r : PassRecord) (pilot : List Int) (finished : List (List (Option Int))) (reading : List (Option Int))
      (u : State) : SameMemory u (readPilotSample r pilot finished reading u) := by
    have frame := readPilot_frame (pilotWordAt r.pages pilot.length) u
    unfold readPilotSample
    split <;> simp_all [SameMemory]
  unfold execPilotSampleRead
  dsimp only
  split
  · split
    · exact .upset (read ..)
    · exact .upset ⟨rfl, rfl⟩
  · exact .upset ⟨rfl, rfl⟩

theorem execRawSampleRead_form (us : List Upset) (s : State) : FormKept s (execRawSampleRead us s) := by
  unfold execRawSampleRead
  dsimp only
  split
  · split <;> exact .upset (us := us) (by simp [SameMemory])
  · exact .upset ⟨rfl, rfl⟩

theorem execComputeEnd_form (s : State) : FormKept s (execComputeEnd s) := by
  unfold execComputeEnd
  split
  · split <;> exact .same ⟨rfl, rfl⟩
  · exact .idle s

/-- An admitted trace is added to accumulators that stand in order (R117). -/
theorem applyTrace_form (i : Fin 32) (b : Fin 8) (r : BinRecord) (t : Trace) (s : State) :
    KeepsForm s (applyTrace i b r t s) := by
  have accepted (r : BinRecord) (n : Nat) : KeepsForm s (acceptTrace i b r n t s) := by
    unfold acceptTrace
    dsimp only
    split
    · rename_i u _ read
      obtain rfl : (readAccs (accAddress b.val n 0) r.lags s).1 = u := congrArg Prod.fst read
      refine .of_dram (fun h => ?_) (by simp)
      simpa using writeAccs_wf _ _ h
    · rename_i u read
      obtain rfl : (readAccs (accAddress b.val n 0) r.lags s).1 = u := congrArg Prod.fst read
      exact .of_same (by simp [SameMemory])
  unfold applyTrace
  dsimp only
  split
  · exact accepted ..
  · split <;> exact .of_same (by simp [SameMemory])
  all_goals exact .of_same (by simp [SameMemory])

theorem execTraceApply_form (us : List Upset) (s : State) : FormKept s (execTraceApply us s) := by
  have handed (p : PassRecord) (rest : List Trace) (u : State) : KeepsForm u (serveIssuePort (afterTrace p rest u)) :=
    .of_same (by simp [SameMemory])
  unfold execTraceApply
  dsimp only
  split
  · split
    · exact .next (((applyUpsets_form us s).trans (applyTrace_form ..)).trans (handed ..))
    · exact .next ((applyUpsets_form us s).trans (handed ..))
  · exact .upset ⟨rfl, rfl⟩

/-! ## Bursts of the copy -/

/-- The samples of a burst of the copy are written in order (R57). -/
theorem acceptImage_form (slot : LoadSlot) (data : List Byte) (s : State) : KeepsForm s (acceptImage slot data s) :=
  .of_dram (writePilotSamples_wf _ _ _) rfl

theorem failLoaderBurst_form (b : Burst) (data : List Byte) (s : State) :
    KeepsForm s (failLoaderBurst b data s) := by
  have faulted : KeepsForm s ((s.setSlot .loader .empty).busFault .loader) := .of_same (by simp [SameMemory])
  unfold failLoaderBurst
  split
  · exact faulted
  · rename_i slot _
    exact (faulted.trans (acceptImage_form slot (data.take b.length) _)).trans (.of_same (by simp [SameMemory]))

theorem execPilotBurstDone_form (data : List Byte) (s : State) : FormKept s (execPilotBurstDone data s) := by
  have completed (slot : LoadSlot) : KeepsForm s (loaderBurstCompleted slot data s) := by
    have reported : KeepsForm s (s.setSlot .loader .empty) := .of_same ⟨rfl, rfl⟩
    have accepted := reported.trans (acceptImage_form slot data _)
    unfold loaderBurstCompleted
    dsimp only
    split
    · split <;> exact accepted.trans (.of_same (by simp [SameMemory]))
    · exact accepted
  unfold execPilotBurstDone
  split
  · split
    · exact .next (completed _).served
    · exact .idle s
  · exact .idle s

theorem execPilotBurstFault_form (data : List Byte) (s : State) : FormKept s (execPilotBurstFault data s) := by
  unfold execPilotBurstFault
  split
  · exact .next (failLoaderBurst_form ..).served
  · exact .idle s

theorem execReadCompletionTimeout_form (r : Requester) (data : List Byte) (s : State) :
    FormKept s (execReadCompletionTimeout r data s) := by
  unfold execReadCompletionTimeout
  split
  · split <;> exact .same (by simp [SameMemory])
  · exact .idle s
  · split
    · split
      · exact .next (failLoaderBurst_form ..).served
      · exact .idle s
    · exact .idle s

/-! ## Exports -/

theorem execExportBurstDone_form (us : List Upset) (s : State) : FormKept s (execExportBurstDone us s) := by
  unfold execExportBurstDone
  dsimp only
  split <;> exact .upset (us := us) (by simp [SameMemory])

theorem execExportBurstFault_form (us : List Upset) (s : State) : FormKept s (execExportBurstFault us s) := by
  unfold execExportBurstFault
  dsimp only
  split <;> exact .upset (us := us) (by simp [SameMemory])

/-! ## The board scan -/

theorem execBurstHandedOver_form (s : State) : FormKept s (execBurstHandedOver s) := by
  unfold execBurstHandedOver
  split <;> exact .same (by simp [SameMemory])

theorem execHostPostReadDone_form (post : Byte) (s : State) : FormKept s (execHostPostReadDone post s) := by
  unfold execHostPostReadDone
  split
  · split <;> exact .same (by simp [SameMemory])
  · exact .idle s

theorem execBodyReadDone_form (body : List Byte) (s : State) : FormKept s (execBodyReadDone body s) := by
  unfold execBodyReadDone
  split
  · split <;> exact .same (by simp [SameMemory])
  · exact .idle s

theorem execTornRead_form (cause : TornCause) (s : State) : FormKept s (execTornRead cause s) := by
  unfold execTornRead
  split
  · split <;> exact .same (by simp [SameMemory])
  · split <;> exact .same (by simp [SameMemory])

theorem execBaselinePostRecheckDone_form (post : Byte) (s : State) : FormKept s (execBaselinePostRecheckDone post s) := by
  unfold execBaselinePostRecheckDone
  split
  · split
    · split <;> exact .same (by simp [SameMemory])
    · exact .idle s
  · exact .idle s

theorem execAnswerFirstWriteDone_form (s : State) : FormKept s (execAnswerFirstWriteDone s) := by
  unfold execAnswerFirstWriteDone
  split
  · split <;> exact .same (by simp [SameMemory])
  · exact .idle s

theorem execAnswerSecondWriteDone_form (s : State) : FormKept s (execAnswerSecondWriteDone s) := by
  unfold execAnswerSecondWriteDone
  split
  · split <;> exact .same (by simp [SameMemory])
  · exact .idle s

theorem execAnswerWriteFault_form (s : State) : FormKept s (execAnswerWriteFault s) := by
  unfold execAnswerWriteFault
  split
  · split <;> exact .same (by simp [SameMemory])
  · split <;> exact .same (by simp [SameMemory])
  · exact .idle s

theorem execStatusPageWriteDone_form (s : State) : FormKept s (execStatusPageWriteDone s) := by
  unfold execStatusPageWriteDone
  split <;> exact .same (by simp [SameMemory])

theorem execStatusPageWriteFault_form (s : State) : FormKept s (execStatusPageWriteFault s) := by
  unfold execStatusPageWriteFault
  split <;> exact .same (by simp [SameMemory])

/-! ## The orders -/

/-- The take of an order writes what its owner writes, and nothing else (R148 to R150). -/
theorem takeOrder_form {kind : Option OrderKind} {owner : Fin 64 → Byte → List Byte → State → Verdict}
    {after : State → State} {post : Byte}
    (own : ∀ b body u t a, owner b post body u = some (t, a) → KeepsForm u t)
    (following : ∀ u, SameMemory u (after u)) (s : State) :
    KeepsForm s (takeOrder kind owner after post s) := by
  have reported : KeepsForm s s.scannerReported := .of_same ⟨rfl, rfl⟩
  obtain e | e | ⟨b, body, t, a, -, -, taken, e⟩ := takeOrder_cases kind owner after post s <;> rw [e]
  · exact .refl s
  · exact .of_same (by simp [SameMemory])
  · obtain ⟨dram, marks⟩ := following (recordTake b post (bodyKindCode body) a t)
    exact (reported.trans (own _ _ _ _ _ taken)).trans (.of_same ⟨by simpa using dram, by simpa using marks⟩)

section owners
variable {b : Fin 64} {post : Byte} {body : List Byte} {a : Answer}

/-- A session begins with an empty scan map (R48), and local DRAM is kept. -/
theorem ownConfigure_form (h : ownConfigure b post body s = some (t, a)) : KeepsForm s t := by
  obtain rfl | ⟨-, i, e, n, c, rfl⟩ := ownConfigure_does h
  · exact .refl _
  · exact .unmarked (by simp) (by rw [startSession_eq])

/-- A session's end empties the scan map (R49). -/
theorem ownEndRecording_form (h : ownEndRecording b post body s = some (t, a)) : KeepsForm s t := by
  obtain rfl | ⟨-, -, rfl⟩ := ownEndRecording_does h
  · exact .refl _
  · exact .unmarked (by simp) (by rw [endSession_eq])

theorem ownLoadPilot_form (h : ownLoadPilot b post body s = some (t, a)) : KeepsForm s t := by
  obtain rfl | ⟨_, rfl⟩ := ownLoadPilot_does h
  · exact .refl _
  · exact .of_same (by simp [SameMemory])

theorem ownDropPilot_form (h : ownDropPilot b post body s = some (t, a)) : KeepsForm s t := by
  obtain rfl | ⟨_, rfl⟩ := ownDropPilot_does h
  · exact .refl _
  · exact .of_same ⟨rfl, rfl⟩

theorem ownSweep_form (h : ownSweep b post body s = some (t, a)) : KeepsForm s t := by
  obtain rfl | ⟨_, _, _, _, -, -, -, rfl⟩ := ownSweep_does h
  · exact .refl _
  · exact .of_same ⟨rfl, rfl⟩

theorem ownCancel_form (h : ownCancel b post body s = some (t, a)) : KeepsForm s t := by
  obtain rfl | ⟨_, rfl⟩ := ownCancel_does h
  · exact .refl _
  · exact .of_same (by simp [SameMemory])

theorem ownFleetOrder_form (h : ownFleetOrder b post body s = some (t, a)) : KeepsForm s t := by
  obtain rfl | ⟨_, _, _, rfl⟩ := ownFleetOrder_does h
  · exact .refl _
  · exact .of_same ⟨rfl, rfl⟩

/-- A bin's accumulators are zeroed, which takes them out of the list (R110). -/
theorem ownOpenBin_form (h : ownOpenBin b post body s = some (t, a)) : KeepsForm s t := by
  obtain rfl | ⟨-, _, _, -, -, rfl⟩ := ownOpenBin_does h
  · exact .refl _
  · exact .of_dram (zeroAccumulators_wf _ _ _) rfl

theorem ownCloseBin_form (h : ownCloseBin b post body s = some (t, a)) : KeepsForm s t := by
  obtain rfl | ⟨_, _, _, -, -, rfl⟩ := ownCloseBin_does h
  · exact .refl _
  · exact .of_same (by simp [SameMemory])

theorem ownDiscardBin_form (h : ownDiscardBin b post body s = some (t, a)) : KeepsForm s t := by
  obtain rfl | ⟨_, _, -, -, rfl⟩ := ownDiscardBin_does h
  · exact .refl _
  · exact .of_same ⟨rfl, rfl⟩

end owners

/-! ## All commands -/

/-- Every command leaves the memories in the form. -/
theorem exec_form (c : Instr) (s : State) : FormKept s (exec c s) := by
  have nothing (u : State) : SameMemory u (id u) := ⟨rfl, rfl⟩
  have arbitrated (u : State) : SameMemory u (arbitrate u) := by simp [SameMemory]
  cases c with
  | powerOnReset => exact .next (powerOn_form s)
  | fullReset v => exact .next (controlWrite_form v s)
  | workReset v => exact .next (controlWrite_form v s)
  | scanEnIntEnWrite v => exact .next (controlWrite_form v s)
  | nudge v => exact .same (by simp [SameMemory])
  | windowBaseWrite half v => exact execWindowBaseWrite_form half v s
  | windowSizeWrite v us => exact execWindowSizeWrite_form v us s
  | eventPendingWrite v => exact .same ⟨rfl, rfl⟩
  | eventMaskWrite v => exact .same ⟨rfl, rfl⟩
  | registerWriteIgnored => exact .idle s
  | scrubComplete => exact execScrubComplete_form s
  | scanTimerExpiry => exact .same (by simp [SameMemory])
  | frameArrival p bytes us => exact .next ((applyUpsets_form us s).trans (arrival_form p bytes _))
  | carrierLoss p us => exact execCarrierLoss_form p us s
  | carrierPresent p => exact .same ⟨rfl, rfl⟩
  | pilotSampleRead us => exact execPilotSampleRead_form us s
  | rawSampleRead us => exact execRawSampleRead_form us s
  | computeEnd => exact execComputeEnd_form s
  | traceApply us => exact execTraceApply_form us s
  | burstHandedOver => exact execBurstHandedOver_form s
  | readCompletionTimeout r data => exact execReadCompletionTimeout_form r data s
  | hostPostReadDone post => exact execHostPostReadDone_form post s
  | bodyReadDone body => exact execBodyReadDone_form body s
  | tornRead cause => exact execTornRead_form cause s
  | baselinePostRecheckDone post => exact execBaselinePostRecheckDone_form post s
  | badKind post =>
    exact .next (takeOrder_form (owner := fun _ _ _ u => refuse .badKind u) (fun _ _ _ _ _ h => refuse_same h ▸ .refl _) nothing s)
  | configure post => exact .next (takeOrder_form (fun _ _ _ _ _ => ownConfigure_form) nothing s)
  | endRecording post => exact .next (takeOrder_form (fun _ _ _ _ _ => ownEndRecording_form) nothing s)
  | loadPilot post => exact .next (takeOrder_form (fun _ _ _ _ _ => ownLoadPilot_form) nothing s)
  | dropPilot post => exact .next (takeOrder_form (fun _ _ _ _ _ => ownDropPilot_form) nothing s)
  | sweep post us =>
    exact .next ((applyUpsets_form us s).trans (takeOrder_form (fun _ _ _ _ _ => ownSweep_form) arbitrated _))
  | cancel post us =>
    exact .next ((applyUpsets_form us s).trans (takeOrder_form (fun _ _ _ _ _ => ownCancel_form) nothing _))
  | fleetOrder post us =>
    exact .next ((applyUpsets_form us s).trans (takeOrder_form (fun _ _ _ _ _ => ownFleetOrder_form) arbitrated _))
  | openBin post => exact .next (takeOrder_form (fun _ _ _ _ _ => ownOpenBin_form) nothing s)
  | closeBin post us =>
    exact .next ((applyUpsets_form us s).trans (takeOrder_form (fun _ _ _ _ _ => ownCloseBin_form) nothing _))
  | discardBin post => exact .next (takeOrder_form (fun _ _ _ _ _ => ownDiscardBin_form) nothing s)
  | answerFirstWriteDone => exact execAnswerFirstWriteDone_form s
  | answerSecondWriteDone => exact execAnswerSecondWriteDone_form s
  | answerWriteFault => exact execAnswerWriteFault_form s
  | statusPageWriteDone => exact execStatusPageWriteDone_form s
  | statusPageWriteFault => exact execStatusPageWriteFault_form s
  | exportBurstDone us => exact execExportBurstDone_form us s
  | exportBurstFault us => exact execExportBurstFault_form us s
  | pilotBurstDone data => exact execPilotBurstDone_form data s
  | pilotBurstFault data => exact execPilotBurstFault_form data s

/-- Settles O55: each command by `exec_form`; the queue is no part of the form. -/
theorem memoryStaysCanonical : Obligations.MemoryStaysCanonical := by
  intro s t form h
  unfold step at h
  split at h
  · cases h
    exact form
  · rename_i c rest _
    exact MemoryCanonical.kept (s := { s with pending := rest }) form (exec_form c _ t h)

end Sys2Proof.Machine
end

section
/-! PROOFS. After a frame at a LIVE or DEGRADED port the settled index is the least frontier (O21). -/

namespace Sys2Proof.Machine

variable {p : Fin 4} {s : State} {w f : Int} {tag : Nat} {x : Port}

/-! ## Every LIVE or DEGRADED port has a frontier -/

/-- A port that gives its frontier to the settled index has one (R17, R39). -/
def Located (x : Port) : Prop := x.counted = true → x.frontier ≠ none

theorem Located.of_frontier (h : x.frontier ≠ none) : Located x := fun _ => h

/-- A cut port gives nothing. -/
theorem afterCut_located {c : CutCause} {x : Port} : Located (x.afterCut c) := fun h => by
  rw [afterCut_uncounted] at h
  cases h

theorem Located.otherAfter (h : Located x) : Located (otherAfter w tag x) := by
  unfold Machine.otherAfter afterStall
  split
  · exact h
  · split
    · exact afterCut_located
    · exact h

/-- A rise of the error count leaves the frontier alone, or cuts the port (R23, R26). -/
theorem bumpedPort_located (h : x.frontier ≠ none) : Located (bumpedPort w f x) := by
  unfold bumpedPort
  split
  · split
    · exact afterCut_located
    · exact .of_frontier h
  · exact .of_frontier h

theorem liveArrival_located (hw : s.store.newest = some w) (hf : s.ports[p].frontier = some f)
    (h : ∀ q : Fin 4, Located s.ports[q]) (bytes : List Byte) (q : Fin 4) : Located (liveArrival p bytes s).ports[q] := by
  cases hc : frameClass s p bytes with
  | some c =>
    rw [liveArrival_bad hc, badFrame_port c hw hf]
    split
    · split
      · exact afterCut_located
      · exact bumpedPort_located (by rw [hf]; exact nofun)
    · exact h q
  | none =>
    rw [liveArrival_good hc]
    split
    · rw [goodFrame_port hw]
      split
      · exact .of_frontier nofun
      · exact (h q).otherAfter
    · by_cases errors : s.ports[p].errors + 8 < 256
      · rw [gapFrame_port errors hw]
        split
        · exact bumpedPort_located nofun
        · exact (h q).otherAfter
      · rw [gapFrame_discarded (Nat.le_of_not_lt errors)]
        simp only [cutPort_frame, setPort_frame, set_get]
        split
        · exact afterCut_located
        · exact h q

/-- Settles O21: the settled index follows the ports that the frame leaves (`settleEvent_follows`). -/
theorem settledIndexIsLeastFrontier : Obligations.SettledIndexIsLeastFrontier := by
  intro p bytes us s counted newest located
  obtain ⟨w, hw⟩ := Option.ne_none_iff_exists'.mp newest
  obtain ⟨f, hf⟩ := Option.ne_none_iff_exists'.mp (located p counted)
  have ports := liveArrival_located (s := s.applyUpsets us) hw hf located bytes
  have left : PassLeft s (liveArrival p bytes (s.applyUpsets us)) := liveArrival_left p bytes (s.applyUpsets us)
  exact ⟨_, exec_counted counted, settleEvent_follows (by simp) left fun ⟨q, hq⟩ => ⟨q, hq, ports q hq⟩⟩

end Sys2Proof.Machine
end

section
/-! PROOFS. The end of the read-and-compute stage forms the traces of the block (O25). -/

namespace Sys2Proof.Machine

/-! ## The correlation sum (R90) -/

/-- A sum of products of two lists, position by position: what one list lacks contributes 0. -/
theorem sum_zipWith_mul (xs ys : List Int) :
    (List.zipWith (· * ·) xs ys).sum = ∑ n ∈ Finset.range xs.length, xs.getD n 0 * ys.getD n 0 := by
  induction xs generalizing ys with
  | nil => simp
  | cons x xs ih =>
    cases ys with
    | nil => simp
    | cons y ys => simp [Finset.sum_range_succ', ih ys, add_comm]

theorem correlationSum_eq (pilot samples : List Int) (j : Nat) : correlationSum pilot samples j =
    ∑ n ∈ Finset.range pilot.length, pilot.getD n 0 * samples.getD (j + n) 0 := by
  unfold correlationSum
  rw [sum_zipWith_mul]
  simp [List.getD_eq_getElem?_getD]

/-! ## Clamping and figures (R92 to R94) -/

theorem clamp32_eq (v : Int) : clamp32 v = max (-2147483648) (min 2147483647 v) := by
  unfold clamp32
  split
  · omega
  · split <;> omega

theorem outside32_iff (v : Int) : outside32 v = true ↔ v < -2147483648 ∨ 2147483647 < v := by
  simp [outside32, or_comm]

/-- The scaled value at a lag of the window (R90, R91). -/
theorem scaledValues_eq (r : PassRecord) (pilot : List Int) (reading : List (Option Int)) :
    scaledValues r pilot reading = (List.range r.lags).map fun j => scaleSum r.shift
      (∑ n ∈ Finset.range pilot.length, pilot.getD n 0 * (reading.map (·.getD 0)).getD (j + n) 0) := by
  simp only [scaledValues, correlationSum_eq]

/-- A value at a lag of the window. -/
theorem getD_map_range {α : Type} {n j : Nat} (f : Nat → α) (d : α) (h : j < n) : ((List.range n).map f).getD j d = f j := by
  simp [h]

/-- How many values over a window pass a test. -/
theorem length_filter_map_range {α : Type} (n : Nat) (f : Nat → α) (test : α → Bool) :
    (((List.range n).map f).filter test).length = ((Finset.range n).filter fun j => test (f j) = true).card := by
  have decided : test ∘ f = fun j => decide (test (f j) = true) := funext fun _ => Bool.decide_eq_true.symm
  rw [List.filter_map, List.length_map, decided]
  rfl

/-- The mean magnitude over a window (R94). -/
theorem measureOf_eq (n : Nat) (f : Nat → Int) :
    measureOf ((List.range n).map f) n = (∑ j ∈ Finset.range n, (f j).natAbs) / n := by
  unfold measureOf
  rw [List.map_map]
  rfl

/-! ## The trace of a channel -/

/-- A trace has its channel's figures (R90 to R94). -/
theorem traceOf_eq (r : PassRecord) (pilot : List Int) (channel : Nat) (reading : List (Option Int)) :
    let scaled := fun j => scaleSum r.shift
      (∑ n ∈ Finset.range pilot.length, pilot.getD n 0 * (reading.map (·.getD 0)).getD (j + n) 0)
    traceOf r pilot channel reading =
      { channel := channel
        values := (List.range r.lags).map fun j => max (-2147483648) (min 2147483647 (scaled j))
        measure := (∑ j ∈ Finset.range r.lags, (max (-2147483648) (min 2147483647 (scaled j))).natAbs) / r.lags
        missing := reading.count none
        saturations := ((Finset.range r.lags).filter fun j => scaled j < -2147483648 ∨ 2147483647 < scaled j).card } := by
  intro scaled
  have missing : (reading.filter (·.isNone)).length = reading.count none := by
    rw [← List.countP_eq_length_filter, List.count]
    congr 1
    funext x
    cases x <;> rfl
  have values : (scaledValues r pilot reading).map clamp32 =
      (List.range r.lags).map fun j => max (-2147483648) (min 2147483647 (scaled j)) := by
    simp only [scaledValues_eq, List.map_map, Function.comp_def, clamp32_eq]
    rfl
  have outside : ((scaledValues r pilot reading).filter outside32).length =
      ((Finset.range r.lags).filter fun j => scaled j < -2147483648 ∨ 2147483647 < scaled j).card := by
    simp only [scaledValues_eq, length_filter_map_range, outside32_iff]
    rfl
  unfold traceOf
  simp only [values, measureOf_eq, missing, outside]

/-- Settles O25: the traces of the block, each as `traceOf_eq` says. -/
theorem computeEndFormsTraces : Obligations.ComputeEndFormsTraces := by
  intro s r pilot finished reading he read whole
  refine ⟨blockTraces r pilot finished, ?_, by simp [blockTraces, PassRecord.channelCount], fun c t ht => ?_⟩
  · show execComputeEnd s = _
    unfold execComputeEnd
    rw [he]
    exact if_pos ⟨read, whole⟩
  · intro samples scaled
    obtain ⟨c', hc', rfl⟩ : ∃ c', (List.range r.channelCount)[c]? = some c' ∧
        traceOf r pilot (r.firstChannel + c') (finished.getD c' []) = t := by
      simpa only [blockTraces, List.getElem?_map, Option.map_eq_some_iff] using ht
    obtain rfl : c = c' := by
      obtain ⟨h, e⟩ := List.getElem?_eq_some_iff.mp hc'
      simpa using e
    rw [traceOf_eq]
    have value (j : Nat) (h : j < r.lags) :=
      getD_map_range (fun j => max (-2147483648) (min 2147483647 (scaled j))) 0 h
    refine ⟨rfl, by simp, value, ?_, rfl, rfl⟩
    refine congrArg (· / r.lags) (Finset.sum_congr rfl fun j hj => ?_)
    exact congrArg Int.natAbs (value j (Finset.mem_range.mp hj)).symm

end Sys2Proof.Machine
end

section
/-! PROOFS. The arbiter's choice, the pass-start checks and the pass it starts (O29). -/

namespace Sys2Proof.Machine

variable {sc : Scheduler} {s : State} {i : Fin 32} {j : Job}

/-! ## The choice within a fleet (R73 step 3) -/

/-- No READY job among some entries starts before `t`. -/
def NoneBefore (sc : Scheduler) (t : Nat) (ks : List (Fin 32)) : Prop :=
  ∀ k ∈ ks, ∀ x, sc.readyJob k = some x → t ≤ x.t0

/-- Every READY job among some entries starts after `t`. -/
def AllAfter (sc : Scheduler) (t : Nat) (ks : List (Fin 32)) : Prop :=
  ∀ k ∈ ks, ∀ x, sc.readyJob k = some x → t < x.t0

theorem NoneBefore.cons {t : Nat} {k : Fin 32} {ks : List (Fin 32)} (hk : ∀ x, sc.readyJob k = some x → t ≤ x.t0)
    (h : NoneBefore sc t ks) : NoneBefore sc t (k :: ks) := List.forall_mem_cons.mpr ⟨hk, h⟩

theorem AllAfter.cons {t : Nat} {k : Fin 32} {ks : List (Fin 32)} (hk : ∀ x, sc.readyJob k = some x → t < x.t0)
    (h : AllAfter sc t ks) : AllAfter sc t (k :: ks) := List.forall_mem_cons.mpr ⟨hk, h⟩

/-- Entry `i` stands in a queue with the smallest t0 of its READY jobs, `t`, and before every other of that t0. -/
def StandsFirst (sc : Scheduler) (queue : List (Fin 32)) (i : Fin 32) (t : Nat) : Prop :=
  ∃ before after j, queue = before ++ i :: after ∧ sc.readyJob i = some j ∧ j.t0 = t ∧ AllAfter sc t before ∧
    NoneBefore sc t after

theorem StandsFirst.head {k : Fin 32} {ks : List (Fin 32)} (hk : sc.readyJob k = some j) (h : NoneBefore sc j.t0 ks) :
    StandsFirst sc (k :: ks) k j.t0 := ⟨[], ks, j, rfl, hk, rfl, fun _ h => (List.not_mem_nil h).elim, h⟩

theorem StandsFirst.cons {t : Nat} {k : Fin 32} {ks : List (Fin 32)} (hk : ∀ x, sc.readyJob k = some x → t < x.t0)
    (h : StandsFirst sc ks i t) : StandsFirst sc (k :: ks) i t := by
  obtain ⟨before, after, j, rfl, ready, start, first, rest⟩ := h
  exact ⟨k :: before, after, j, rfl, ready, start, first.cons hk, rest⟩

/-- The best of a queue is the best so far, which no job of the queue beats, or a job of the queue that beats it and
stands first. -/
theorem bestOf_spec (queue : List (Fin 32)) (best : Option (Fin 32 × Nat)) {t : Nat} (h : bestOf sc queue best = some (i, t)) :
    (best = some (i, t) ∧ NoneBefore sc t queue) ∨
      (∀ k u, best = some (k, u) → t < u) ∧ StandsFirst sc queue i t := by
  induction queue generalizing best with
  | nil => exact .inl ⟨h, fun _ h => (List.not_mem_nil h).elim⟩
  | cons k queue ih =>
    unfold bestOf at h
    split at h
    · rename_i j k' u hj
      have own {y : Job} (hy : sc.readyJob k = some y) : y = j := Option.some.inj (hy.symm.trans hj)
      split at h
      · rename_i less
        obtain ⟨e, none⟩ | ⟨beats, first⟩ := ih _ h
        · cases e
          exact .inr ⟨fun _ _ e => by cases e; exact less, .head hj none⟩
        · have lower : t < j.t0 := beats _ _ rfl
          exact .inr ⟨fun _ _ e => by cases e; omega, first.cons fun x hx => own hx ▸ lower⟩
      · rename_i notLess
        obtain ⟨e, none⟩ | ⟨beats, first⟩ := ih _ h
        · cases e
          exact .inl ⟨rfl, none.cons fun x hx => own hx ▸ Nat.le_of_not_lt notLess⟩
        · have lower : t < u := beats _ _ rfl
          exact .inr ⟨fun _ _ e => by cases e; exact lower, first.cons fun x hx => by rw [own hx]; omega⟩
    · rename_i j hj
      have own {y : Job} (hy : sc.readyJob k = some y) : y = j := Option.some.inj (hy.symm.trans hj)
      obtain ⟨e, none⟩ | ⟨beats, first⟩ := ih _ h
      · cases e
        exact .inr ⟨nofun, .head hj none⟩
      · exact .inr ⟨nofun, first.cons fun x hx => own hx ▸ beats _ _ rfl⟩
    · rename_i idle
      have never {P : Job → Prop} (x : Job) (hx : sc.readyJob k = some x) : P x := by
        rw [idle] at hx
        cases hx
      obtain ⟨e, none⟩ | ⟨beats, first⟩ := ih _ h
      · exact .inl ⟨e, none.cons never⟩
      · exact .inr ⟨beats, first.cons never⟩

/-- There is a best unless there was none so far and no job of the queue is READY. -/
theorem bestOf_none {queue : List (Fin 32)} {best : Option (Fin 32 × Nat)} (h : bestOf sc queue best = none) :
    best = none ∧ ∀ k ∈ queue, sc.readyJob k = none := by
  induction queue generalizing best with
  | nil => exact ⟨h, fun _ h => (List.not_mem_nil h).elim⟩
  | cons k queue ih =>
    unfold bestOf at h
    split at h
    · split at h
      · exact absurd (ih h).1 nofun
      · exact absurd (ih h).1 nofun
    · exact absurd (ih h).1 nofun
    · rename_i idle
      obtain ⟨e, rest⟩ := ih h
      exact ⟨e, List.forall_mem_cons.mpr ⟨idle, rest⟩⟩

/-! ## The choice among the fleets (R72, R73) -/

/-- A fleet that the arbiter passes over: it is held, or no job of its queue is READY. -/
def PassedOver (sc : Scheduler) (f : Fin 8) : Prop :=
  sc.hold.getLsbD f.val = true ∨ ∀ k ∈ sc.queues[f], sc.readyJob k = none

theorem chooseFrom_spec {fleets : List (Fin 8)} (h : chooseFrom sc fleets = some i) : ∃ above f below t,
    fleets = above ++ f :: below ∧ sc.hold.getLsbD f.val = false ∧ StandsFirst sc sc.queues[f] i t ∧
      ∀ g ∈ above, PassedOver sc g := by
  induction fleets with
  | nil => cases h
  | cons f fleets ih =>
    have later (skipped : PassedOver sc f) (h : chooseFrom sc fleets = some i) : ∃ above g below t,
        f :: fleets = above ++ g :: below ∧ sc.hold.getLsbD g.val = false ∧ StandsFirst sc sc.queues[g] i t ∧
          ∀ g ∈ above, PassedOver sc g := by
      obtain ⟨above, g, below, t, rfl, free, first, passed⟩ := ih h
      exact ⟨f :: above, g, below, t, rfl, free, first, List.forall_mem_cons.mpr ⟨skipped, passed⟩⟩
    unfold chooseFrom at h
    split at h
    · rename_i held
      exact later (.inl held) h
    · rename_i free
      split at h
      · rename_i k t best
        obtain rfl := Option.some.inj h
        obtain ⟨e, -⟩ | ⟨-, first⟩ := bestOf_spec _ _ best
        · cases e
        · exact ⟨[], f, fleets, t, rfl, by simpa [Scheduler.isHeld] using free, first, fun _ h => (List.not_mem_nil h).elim⟩
      · rename_i best
        exact later (.inr (bestOf_none best).2) h

theorem chooseFrom_none {fleets : List (Fin 8)} (h : chooseFrom sc fleets = none) : ∀ f ∈ fleets, PassedOver sc f := by
  induction fleets with
  | nil => exact fun _ h => (List.not_mem_nil h).elim
  | cons f fleets ih =>
    unfold chooseFrom at h
    split at h
    · rename_i held
      exact List.forall_mem_cons.mpr ⟨.inl held, ih h⟩
    · split at h
      · cases h
      · rename_i best
        exact List.forall_mem_cons.mpr ⟨.inr (bestOf_none best).2, ih h⟩

/-! ## The loop has choices enough -/

/-- How many entries of the job table hold a job. -/
def tableSize (s : State) : Nat := (Finset.univ.filter fun i : Fin 32 => s.sched.jobs[i].isSome = true).card

theorem tableSize_le (s : State) : tableSize s ≤ 32 := Finset.card_filter_le _ _

/-- A job that ends leaves one less in the table (R79). -/
theorem tableSize_endJob (hj : s.sched.jobs[i] = some j) (o : OrderOutcome) (x : Reason) :
    tableSize (endJob i o x s) < tableSize s := by
  refine Finset.card_lt_card (Finset.ssubset_iff_of_subset (fun k hk => ?_) |>.mpr ⟨i, ?_, ?_⟩)
  · rw [Finset.mem_filter] at hk ⊢
    rw [endJob_jobs] at hk
    split at hk
    · cases hk.2
    · exact hk
  · rw [Finset.mem_filter, hj]
    exact ⟨Finset.mem_univ i, rfl⟩
  · rw [Finset.mem_filter, endJob_jobs, if_pos rfl]
    exact fun h => nomatch h.2

/-- A choice that finds a job in the table (R73, R74). -/
theorem arbitrateLoop_chosen {e : PilotEntry} {r : BinRecord} (n : Nat) (hc : chooseJob s.sched = some i)
    (hj : s.sched.jobs[i] = some j) (he : s.library.entries[j.pilot] = some e) (hr : s.stack.bins[j.bin].record = some r) :
    arbitrateLoop (n + 1) s =
      if e.state = .damaged then arbitrateLoop n (endJob i .faulted .pilotDamaged s)
      else if belowOldest s.store j.needFirst then arbitrateLoop n (endJob i .overrun .spanLost s)
      else startPass i j e r s := by
  rw [arbitrateLoop]
  simp only [hc, hj, he, hr]

/-- The loop leaves the part as it is, or has a choice with its pilot and its bin. -/
theorem arbitrateLoop_idle_or_chosen (s : State) : (∀ n, arbitrateLoop n s = s) ∨
    ∃ (i : Fin 32) (j : Job) (e : PilotEntry) (r : BinRecord), chooseJob s.sched = some i ∧ s.sched.jobs[i] = some j ∧
      s.library.entries[j.pilot] = some e ∧ s.stack.bins[j.bin].record = some r := by
  have idle (h : ∀ n, arbitrateLoop (n + 1) s = s) (n : Nat) : arbitrateLoop n s = s := by
    cases n with
    | zero => rfl
    | succ n => exact h n
  cases hc : chooseJob s.sched with
  | none => exact .inl (idle fun n => by rw [arbitrateLoop, hc])
  | some i =>
    cases hj : s.sched.jobs[i] with
    | none => exact .inl (idle fun n => by rw [arbitrateLoop]; simp only [hc, hj])
    | some j =>
      cases he : s.library.entries[j.pilot] with
      | none => exact .inl (idle fun n => by rw [arbitrateLoop]; simp only [hc, hj, he])
      | some e =>
        cases hr : s.stack.bins[j.bin].record with
        | none => exact .inl (idle fun n => by rw [arbitrateLoop]; simp only [hc, hj, he, hr])
        | some r => exact .inr ⟨i, j, e, r, rfl, hj, he, hr⟩

/-- More choices than there are jobs make no difference: each that does not start a pass ends a job. -/
theorem arbitrateLoop_enough {n : Nat} (h : tableSize s ≤ n) : arbitrateLoop (n + 1) s = arbitrateLoop n s := by
  induction n generalizing s with
  | zero =>
    obtain idle | ⟨i, j, -, -, -, hj, -, -⟩ := arbitrateLoop_idle_or_chosen s
    · rw [idle, idle]
    · have := tableSize_endJob hj .faulted .pilotDamaged
      omega
  | succ n ih =>
    obtain idle | ⟨i, j, e, r, hc, hj, he, hr⟩ := arbitrateLoop_idle_or_chosen s
    · rw [idle, idle]
    · have ended (o : OrderOutcome) (x : Reason) :
          arbitrateLoop (n + 1) (endJob i o x s) = arbitrateLoop n (endJob i o x s) := by
        have := tableSize_endJob hj o x
        exact ih (by omega)
      rw [arbitrateLoop_chosen _ hc hj he hr, arbitrateLoop_chosen _ hc hj he hr, ended, ended]

/-! ## The arbiter acts (R73, R74) -/

theorem belowOldest_iff {st : SampleStore} {n : Int} :
    belowOldest st n = true ↔ ∃ w : Int, st.newest = some w ∧ n < w - 65535 := by
  unfold belowOldest SampleStore.oldest
  cases st.newest <;> simp

/-- With a pass in flight, or nothing to choose, the arbiter does nothing. -/
theorem arbitrate_idle (h : s.engine ≠ .noPass ∨ chooseJob s.sched = none) : arbitrate s = s := by
  unfold arbitrate
  split
  · rename_i free
    rw [arbitrateLoop, h.resolve_left (not_not.mpr (isFree_iff.mp free))]
  · rfl

/-- With the Engine free a choice fails at a pass-start check and the arbiter acts again, or its pass starts. -/
theorem arbitrate_chosen {e : PilotEntry} {r : BinRecord} (free : s.engine = .noPass) (hc : chooseJob s.sched = some i)
    (hj : s.sched.jobs[i] = some j) (he : s.library.entries[j.pilot] = some e) (hr : s.stack.bins[j.bin].record = some r) :
    arbitrate s =
      if e.state = .damaged then arbitrate (endJob i .faulted .pilotDamaged s)
      else if belowOldest s.store j.needFirst then arbitrate (endJob i .overrun .spanLost s)
      else startPass i j e r s := by
  have loop {u : State} (hu : u.engine = .noPass) : arbitrate u = arbitrateLoop 33 u := if_pos (isFree_iff.mpr hu)
  have again (o : OrderOutcome) (x : Reason) : arbitrate (endJob i o x s) = arbitrateLoop 32 (endJob i o x s) := by
    rw [loop (by simp [free]), arbitrateLoop_enough (tableSize_le _)]
  rw [loop free, arbitrateLoop_chosen _ hc hj he hr, again, again]

/-- Settles O29. -/
theorem arbiterChoosesBySmallestStart : Obligations.ArbiterChoosesBySmallestStart := by
  refine ⟨fun sc => ⟨fun i h => ?_, chooseFrom_none⟩, fun s => arbitrate_idle, fun s i j e r free hc hj he hr => ?_⟩
  · obtain ⟨above, f, below, t, list, unheld, ⟨before, after, j, queue, ready, rfl, earlier, later⟩, passed⟩ :=
      chooseFrom_spec h
    exact ⟨above, f, below, before, after, j, list, unheld, queue, ready, passed, earlier, later⟩
  · intro lost
    have acts := arbitrate_chosen free hc hj he hr
    refine ⟨fun damaged => ?_, fun sound isLost => ?_, fun sound kept => ?_⟩
    · rw [acts, if_pos damaged]
    · rw [acts, if_neg sound, if_pos (belowOldest_iff.mpr isLost)]
    · rw [acts, if_neg sound, if_neg fun h => kept (belowOldest_iff.mp h)]
      rfl

end Sys2Proof.Machine
end

section
/-! PROOFS. PILOT_SAMPLE_READ: the value read, or the entry DAMAGED and its job ended (O23). -/

namespace Sys2Proof.Machine

variable {s t u : State} {i : Fin 32} {j : Job}

/-! ## What ends of jobs leave -/

/-- The pin is held exactly while the Engine is not free, as it is before and after the arbiter acts (R45). -/
def PinFollows (s : State) : Prop := s.store.pin = none ↔ s.engine = .noPass

/-- Jobs at most end or start a pass: those in the table keep their boxes, no queue gains an entry, a pilot entry changes
in its use count alone, the box of no job is as it was, and the pin follows the Engine (R45, R73, R79). -/
structure OnlyEnds (s t : State) : Prop where
  jobs : ∀ (k : Fin 32) (q : Job), t.sched.jobs[k] = some q → ∃ q', s.sched.jobs[k] = some q' ∧ q'.box = q.box
  queues : ∀ (f : Fin 8) (k : Fin 32), k ∈ t.sched.queues[f] → k ∈ s.sched.queues[f]
  entries : ∀ (p : Fin 16) (e : PilotEntry), s.library.entries[p] = some e →
    ∃ n, t.library.entries[p] = some { e with useCount := n }
  boxes : ∀ b : Fin 64, (∀ (k : Fin 32) (q : Job), s.sched.jobs[k] = some q → q.box ≠ b) →
    t.board.boxes[b] = s.board.boxes[b]
  pin : PinFollows s → PinFollows t

theorem OnlyEnds.refl (s : State) : OnlyEnds s s :=
  ⟨fun _ q h => ⟨q, h, rfl⟩, fun _ _ => id, fun _ e h => ⟨e.useCount, h⟩, fun _ _ => rfl, id⟩

theorem OnlyEnds.trans (h : OnlyEnds s t) (k : OnlyEnds t u) : OnlyEnds s u := by
  refine ⟨fun n q hq => ?_, fun f n hn => h.queues f n (k.queues f n hn), fun p e he => ?_, fun b hb => ?_, k.pin ∘ h.pin⟩
  · obtain ⟨q', hq', same⟩ := k.jobs n q hq
    obtain ⟨q'', hq'', same'⟩ := h.jobs n q' hq'
    exact ⟨q'', hq'', same'.trans same⟩
  · obtain ⟨n, hn⟩ := h.entries p e he
    obtain ⟨n', hn'⟩ := k.entries p _ hn
    exact ⟨n', hn'⟩
  · refine (k.boxes b fun n q hq => ?_).trans (h.boxes b hb)
    obtain ⟨q', hq', same⟩ := h.jobs n q hq
    exact same ▸ hb n q' hq'

theorem endJob_eq (hj : s.sched.jobs[i] = some j) (o : OrderOutcome) (x : Reason) :
    endJob i o x s = drainTest j.bin (dropJob i j o x s) := by
  unfold endJob
  simp only [hj]

/-- The queue, the pilot entry and the box of a job that ends (R63, R79). -/
theorem endJob_parts (hj : s.sched.jobs[i] = some j) (o : OrderOutcome) (x : Reason) :
    (endJob i o x s).sched.queues = s.sched.queues.set j.fleet (s.sched.queues[j.fleet].filter (· != i)) ∧
      (endJob i o x s).library.entries = s.library.entries.set j.pilot (releaseUse s.library.entries[j.pilot]) ∧
      (endJob i o x s).board.boxes = s.board.boxes.set j.box
        { s.board.boxes[j.box] with answer := some { outcome := o, reason := x, words := jobWords j }, dirty := true } := by
  rw [endJob_eq hj]
  simp

theorem endJob_onlyEnds (i : Fin 32) (o : OrderOutcome) (x : Reason) (s : State) : OnlyEnds s (endJob i o x s) := by
  cases hj : s.sched.jobs[i] with
  | none =>
    have same : endJob i o x s = s := by
      unfold endJob
      simp only [hj]
    rw [same]
    exact .refl s
  | some j =>
    obtain ⟨queues, entries, boxes⟩ := endJob_parts hj o x
    refine ⟨fun k q hq => ?_, fun f k hk => ?_, fun p e he => ?_, fun b hb => ?_, by simp [PinFollows]⟩
    · rw [endJob_jobs] at hq
      split at hq
      · cases hq
      · exact ⟨q, hq, rfl⟩
    · rw [queues, set_get] at hk
      split at hk
      · subst_vars
        exact List.mem_of_mem_filter hk
      · exact hk
    · rw [entries, set_get]
      split
      · subst_vars
        rw [he]
        exact ⟨_, rfl⟩
      · exact ⟨e.useCount, he⟩
    · rw [boxes, set_get_other _ _ (hb i j hj)]

/-- A pass that starts leaves its job in the table, and its box alone. -/
theorem startPass_onlyEnds {e : PilotEntry} {r : BinRecord} (hj : s.sched.jobs[i] = some j) :
    OnlyEnds s (startPass i j e r s) := by
  refine ⟨fun k q hq => ?_, fun _ _ => id, fun _ e h => ⟨e.useCount, h⟩, fun _ _ => rfl, fun _ => iff_of_false nofun nofun⟩
  simp only [startPass_frame, set_get] at hq
  split at hq
  · subst_vars
    cases hq
    exact ⟨j, hj, rfl⟩
  · exact ⟨q, hq, rfl⟩

theorem arbitrateLoop_onlyEnds (n : Nat) (s : State) : OnlyEnds s (arbitrateLoop n s) := by
  induction n generalizing s with
  | zero => exact .refl s
  | succ n ih =>
    obtain idle | ⟨i, j, e, r, hc, hj, he, hr⟩ := arbitrateLoop_idle_or_chosen s
    · rw [idle]
      exact .refl s
    · have ended (o : OrderOutcome) (x : Reason) := (endJob_onlyEnds i o x s).trans (ih (endJob i o x s))
      rw [arbitrateLoop_chosen n hc hj he hr]
      split
      · exact ended ..
      · split
        · exact ended ..
        · exact startPass_onlyEnds hj

theorem arbitrate_onlyEnds (s : State) : OnlyEnds s (arbitrate s) := by
  unfold arbitrate
  split
  · exact arbitrateLoop_onlyEnds 33 s
  · exact .refl s

/-! ## A pilot that is damaged (R65, R95) -/

/-- How the job of a pass ends whose pilot is damaged (R77, R83). -/
def damagedOutcome (j : Job) : OrderOutcome := if j.cancelPending = true then .cancelled else .faulted

def damagedReason (j : Job) : Reason := if j.cancelPending = true then .none else .pilotDamaged

/-- The part when a pass of a fleet is given up for its pilot: the entry is DAMAGED and counted, the pin released, the
Engine free and the list turned (R46, R65, R76). -/
def pilotGivenUp (r : PassRecord) (f : Fin 8) (s : State) : State :=
  let d := damagePilot r.pilot s
  turnList f { d with store := { d.store with pin := none }, engine := .noPass }

theorem abandonDamaged_eq {r : PassRecord} (active : s.engine.activeJob = some r.job) (hj : s.sched.jobs[r.job] = some j) :
    abandonDamaged r s = endJob r.job (damagedOutcome j) (damagedReason j) (pilotGivenUp r j.fleet s) := by
  have same : (damagePilot r.pilot s).engine.activeJob = some r.job ∧ (damagePilot r.pilot s).sched.jobs[r.job] = some j := by
    simp [active, hj]
  unfold abandonDamaged endPass
  dsimp only
  simp only [same, settleJob, damagedOutcome, damagedReason]
  split <;> rfl

theorem pilotGivenUp_priority (r : PassRecord) (f : Fin 8) (s : State) : (pilotGivenUp r f s).sched.priority =
    if s.sched.mode = .rotate then s.sched.priority.filter (· != f) ++ [f] else s.sched.priority := by
  have mode : (damagePilot r.pilot s).sched = s.sched := by simp
  unfold pilotGivenUp turnList
  dsimp only
  rw [mode]
  cases e : s.sched.mode <;> simp [moveToBottom]

theorem pilotGivenUp_entry {r : PassRecord} {f : Fin 8} {e : PilotEntry} (h : s.library.entries[r.pilot] = some e) :
    (pilotGivenUp r f s).library.entries[r.pilot] = some { e with state := .damaged } := by
  simp only [pilotGivenUp, turnList_frame, damagePilot, setEntry_frame, set_get_self, h, Option.map_some]

theorem pilotGivenUp_damage (r : PassRecord) (f : Fin 8) (s : State) :
    (pilotGivenUp r f s).counts.pilotDamage = min (s.counts.pilotDamage + 1) 4294967295 := by
  simp only [pilotGivenUp, turnList_frame]
  rfl

/-- The job of the damaged pilot is gone, with its queue entry, and its box holds the final answer (R65, R79). -/
theorem abandonDamaged_ends {r : PassRecord} (active : s.engine.activeJob = some r.job)
    (hj : s.sched.jobs[r.job] = some j) :
    (abandonDamaged r s).sched.jobs[r.job] = none ∧ r.job ∉ (abandonDamaged r s).sched.queues[j.fleet] ∧
      (abandonDamaged r s).board.boxes[j.box] =
        { s.board.boxes[j.box] with
          dirty := true
          answer := some { outcome := damagedOutcome j, reason := damagedReason j, words := jobWords j } } := by
  have job : (pilotGivenUp r j.fleet s).sched.jobs[r.job] = some j := by simp [pilotGivenUp, hj]
  have boxes : (pilotGivenUp r j.fleet s).board.boxes = s.board.boxes := by simp [pilotGivenUp]
  obtain ⟨queues, -, answered⟩ := endJob_parts job (damagedOutcome j) (damagedReason j)
  rw [abandonDamaged_eq active hj]
  refine ⟨by rw [endJob_jobs, if_pos rfl], ?_, ?_⟩
  · rw [queues, set_get_self]
    simp
  · rw [answered, set_get_self, boxes]

/-- The fleet's turn is over, the damage is counted, and pin and Engine are free (R46, R65, R76). -/
theorem abandonDamaged_leaves {r : PassRecord} (active : s.engine.activeJob = some r.job)
    (hj : s.sched.jobs[r.job] = some j) :
    (abandonDamaged r s).sched.priority =
        (if s.sched.mode = .rotate then s.sched.priority.filter (· != j.fleet) ++ [j.fleet] else s.sched.priority) ∧
      (abandonDamaged r s).counts.pilotDamage = min (s.counts.pilotDamage + 1) 4294967295 ∧
      PinFollows (abandonDamaged r s) := by
  rw [abandonDamaged_eq active hj]
  refine ⟨?_, ?_, iff_of_true ?_ ?_⟩
  · rw [← pilotGivenUp_priority r j.fleet s]
    simp
  · rw [← pilotGivenUp_damage r j.fleet s]
    simp
  · simp [pilotGivenUp]
  · simp [pilotGivenUp]

/-- The other jobs keep their boxes. -/
theorem abandonDamaged_boxes {r : PassRecord} (active : s.engine.activeJob = some r.job)
    (hj : s.sched.jobs[r.job] = some j)
    (alone : ∀ (i : Fin 32) (k : Job), i ≠ r.job → s.sched.jobs[i] = some k → k.box ≠ j.box) (k : Fin 32) (q : Job)
    (hq : (abandonDamaged r s).sched.jobs[k] = some q) : q.box ≠ j.box := by
  rw [abandonDamaged_eq active hj, endJob_jobs] at hq
  split at hq
  · cases hq
  · rename_i other
    exact alone k q (Ne.symm other) (by simpa [pilotGivenUp] using hq)

/-- The entry of the damaged pilot is DAMAGED, with its pages (R65). -/
theorem abandonDamaged_entry {r : PassRecord} {e : PilotEntry} (active : s.engine.activeJob = some r.job)
    (hj : s.sched.jobs[r.job] = some j) (he : s.library.entries[r.pilot] = some e) :
    ∃ n, (abandonDamaged r s).library.entries[r.pilot] = some { e with state := .damaged, useCount := n } := by
  rw [abandonDamaged_eq active hj]
  exact (endJob_onlyEnds _ _ _ _).entries r.pilot _ (pilotGivenUp_entry he)

/-! ## The reading -/

/-- Errors that arise change no pilot sample (R166). -/
theorem upsets_pilot (us : List Upset) (d : Dram) : (us.foldl upsetWord d).pilot = d.pilot := by
  induction us generalizing d with
  | nil => rfl
  | cons u rest ih =>
    rw [List.foldl_cons, ih]
    unfold upsetWord
    split <;> rfl

theorem execPilotSampleRead_reads {us : List Upset} {r : PassRecord} {pilot : List Int}
    {finished : List (List (Option Int))} {reading : List (Option Int)} (he : s.engine = .compute r pilot finished reading)
    (hl : pilot.length < r.length) :
    exec (.pilotSampleRead us) s = .next (readPilotSample r pilot finished reading (s.applyUpsets us)) := by
  show execPilotSampleRead us s = _
  unfold execPilotSampleRead
  simp only [applyUpsets_frame, he]
  exact if_pos hl

/-- A word that can be corrected gives its value (R88, R166). -/
theorem readPilotSample_value (r : PassRecord) (pilot : List Int) (finished : List (List (Option Int)))
    (reading : List (Option Int)) (h : cellRead .clean s.dram.pilotErrors (pilotWordAt r.pages pilot.length) ≠ .uncorrectable) :
    readPilotSample r pilot finished reading s = { s with
      engine := .compute r (pilot ++ [(cellRead 0 s.dram.pilot (pilotWordAt r.pages pilot.length)).toInt]) finished reading
      counts :=
        if cellRead .clean s.dram.pilotErrors (pilotWordAt r.pages pilot.length) = .single then
          { s.counts with eccCorrected := min (s.counts.eccCorrected + 1) 4294967295 }
        else s.counts } := by
  unfold readPilotSample readPilot
  cases e : cellRead Ecc.clean s.dram.pilotErrors (pilotWordAt r.pages pilot.length) with
  | clean => rfl
  | single => rfl
  | uncorrectable => exact absurd e h

/-- A word that cannot be corrected ends the pass, and the arbiter acts (R65, R73, R95). -/
theorem readPilotSample_damage (r : PassRecord) (pilot : List Int) (finished : List (List (Option Int)))
    (reading : List (Option Int)) (h : cellRead .clean s.dram.pilotErrors (pilotWordAt r.pages pilot.length) = .uncorrectable) :
    readPilotSample r pilot finished reading s = serveIssuePort (arbitrate (abandonDamaged r s)) := by
  unfold readPilotSample readPilot
  rw [h]
  rfl

/-- Settles O23: what the reading leaves, then what the arbiter leaves of that (`arbitrate_onlyEnds`). -/
theorem pilotSampleIsRead : Obligations.PilotSampleIsRead := by
  intro us s r pilot finished reading computing left word ecc
  have reads := execPilotSampleRead_reads (us := us) computing left
  refine ⟨fun correctable => ?_, fun e j broken he hj alone => ?_⟩
  · have value : (s.applyUpsets us).dram.pilot = s.dram.pilot := upsets_pilot us s.dram
    rw [reads, readPilotSample_value r pilot finished reading correctable, value]
    rfl
  · have active : (s.applyUpsets us).engine.activeJob = some r.job := by simp [computing, Engine.activeJob]
    rw [readPilotSample_damage r pilot finished reading broken] at reads
    obtain ⟨raised, ports, -, -⟩ := execPilotSampleRead_quiet (List.mem_singleton_self Cause.bin) us s _ reads
    obtain ⟨ended, unqueued, answered⟩ := abandonDamaged_ends active hj
    obtain ⟨turned, counted, released⟩ := abandonDamaged_leaves active hj
    obtain ⟨n, damaged⟩ := abandonDamaged_entry active hj he
    have acts := arbitrate_onlyEnds (abandonDamaged r (s.applyUpsets us))
    obtain ⟨n', kept⟩ := acts.entries r.pilot _ damaged
    have gone : (arbitrate (abandonDamaged r (s.applyUpsets us))).sched.jobs[r.job] = none := by
      obtain same | ⟨_, held, -⟩ := (arbitrate_jobs r.job (abandonDamaged r (s.applyUpsets us))).1
      · exact same.trans ended
      · rw [ended] at held
        cases held
    have box := acts.boxes j.box (abandonDamaged_boxes active hj alone)
    refine ⟨_, reads, ?_, raised.events, ports, by simp,
      ⟨{ e with state := .damaged, useCount := n' }, by simpa using kept, rfl, rfl, rfl⟩, ?_, ?_, ?_, ?_, ?_, ?_⟩
    · constructor
      case mask => exact raised.events.mask
      all_goals simp
    · simpa using counted
    · simpa using gone
    · simpa using fun h => unqueued (acts.queues j.fleet r.job h)
    · simpa using turned
    · simpa [PinFollows] using acts.pin released
    · have served : (serveIssuePort (arbitrate (abandonDamaged r (s.applyUpsets us)))).board.boxes =
          (arbitrate (abandonDamaged r (s.applyUpsets us))).board.boxes := by simp
      rw [served]
      exact box.trans answered

end Sys2Proof.Machine
end

section
/-! PROOFS. The orders of the Pilot Library: DROP_PILOT (O46) and LOAD_PILOT (O45). -/

namespace Sys2Proof.Machine

section orders
variable {b : Fin 64} {post : Byte} {body : List Byte} {s : State} {l : Library} {i : Fin 16} {e : PilotEntry}
  {slot : LoadSlot}

/-! ## Lookups -/

theorem useCount_eq (he : l.entries[i] = some e) : l.useCount i = e.useCount := by simp only [Library.useCount, he]

theorem pagesAt_eq (he : l.entries[i] = some e) : pagesAt l i = e.pages.length := by simp only [pagesAt, he]

/-- The lowest empty position is the first that no entry stands at (R56). -/
theorem lowestEmpty_eq_some : l.lowestEmpty = some i ↔ l.entries[i] = none ∧ ∀ k < i, l.entries[k] ≠ none := by
  rw [Library.lowestEmpty, ← Fin.find?_eq_find?_finRange, Fin.find?_eq_some_iff]
  simp [Option.isSome_iff_ne_none]

theorem lowestEmpty_eq_none : l.lowestEmpty = none ↔ ∀ i : Fin 16, l.entries[i] ≠ none := by
  simp [Library.lowestEmpty]

/-! ## DROP_PILOT (R62) -/

/-- An id that no entry carries (R62). -/
theorem ownDropPilot_unknown (found : s.library.lookup (bodyField body 4 1) = none) :
    ownDropPilot b post body s = refuse .noPilot s := by
  simp only [ownDropPilot, found]

/-- An entry in use stays (R62). -/
theorem ownDropPilot_inUse (found : s.library.lookup (bodyField body 4 1) = some i) (he : s.library.entries[i] = some e)
    (used : 0 < e.useCount) : ownDropPilot b post body s = refuse .pilotInUse s := by
  simp only [ownDropPilot, found, useCount_eq he, if_pos used]

/-- Any other entry goes (R62). -/
theorem ownDropPilot_drops (found : s.library.lookup (bodyField body 4 1) = some i) (he : s.library.entries[i] = some e)
    (unused : e.useCount = 0) :
    ownDropPilot b post body s =
      some (s.setEntry i none,
        doneAnswer [resultWord e.pages.length, resultWord (s.setEntry i none).library.freePages.length]) := by
  simp only [ownDropPilot, found, useCount_eq he, pagesAt_eq he, unused, lt_irrefl, if_false]

/-- Settles O46: the owner's checks one by one, for the entry that the order names. -/
theorem dropPilotFreesEntry : Obligations.DropPilotFreesEntry := by
  intro b post body s h
  refine ⟨_, rfl, fun found => takeOrder_refuses h ?_, fun i e found he => ⟨fun used => takeOrder_refuses h ?_, fun unused => ?_⟩⟩
  · exact ownDropPilot_unknown found
  · exact ownDropPilot_inUse (s := s.scannerReported) found he used
  · exact takeOrder_answers h (ownDropPilot_drops (s := s.scannerReported) found he unused) (.of_board rfl)

/-! ## LOAD_PILOT (R54 to R57) -/

/-- A field of the order is out of range (R55). -/
abbrev LoadSlot.Misstated (slot : LoadSlot) : Prop :=
  slot.id = 0 ∨ slot.length < 64 ∨ 32768 < slot.length ∨ 47 < slot.shift ∨ 3 < slot.interval

/-- The pilot is of another interval than the session (R55). -/
def LoadSlot.Disagrees (slot : LoadSlot) (s : State) : Prop := ∃ c, s.session = some c ∧ c.interval ≠ slot.interval

/-- The image lies in the buffer area (R55, R141). -/
def LoadSlot.Fits (slot : LoadSlot) (s : State) : Prop := inBuffer s.regs slot.imageOffset (2 * slot.length) = true

/-- A job holds the entry that carries the load's id (R55, R59). -/
def LoadSlot.InUse (slot : LoadSlot) (l : Library) : Prop :=
  ∃ i e, l.lookup slot.id = some i ∧ l.entries[i] = some e ∧ 0 < e.useCount

/-- Pages are wanting, or a position for a new id (R55). -/
def LoadSlot.Unhoused (slot : LoadSlot) (l : Library) : Prop :=
  l.freePages.length < pagesNeeded slot.length ∨ l.lookup slot.id = none ∧ ∀ i : Fin 16, l.entries[i] ≠ none

theorem wrongInterval_iff : wrongInterval slot.interval s.session = true ↔ slot.Disagrees s := by
  unfold LoadSlot.Disagrees wrongInterval
  cases s.session <;> simp

theorem loadTargetInUse_iff : loadTargetInUse slot l = true ↔ slot.InUse l := by
  unfold LoadSlot.InUse loadTargetInUse
  cases found : l.lookup slot.id with
  | none => simp
  | some i =>
    cases he : l.entries[i] with
    | none => exact iff_of_false (by simp [Library.useCount, he]) (by rintro ⟨_, e, ⟨⟩, hi, -⟩; simp [he] at hi)
    | some e =>
      simp only [useCount_eq he, decide_eq_true_iff]
      exact ⟨fun used => ⟨i, e, rfl, he, used⟩, fun ⟨_, _, same, hi, used⟩ => by cases same; cases he.symm.trans hi; exact used⟩

theorem unhoused_iff : slot.Unhoused l ↔
    l.freePages.length < pagesNeeded slot.length ∨ (l.lookup slot.id).isNone = true ∧ l.lowestEmpty.isNone = true := by
  rw [Option.isNone_iff_eq_none, Option.isNone_iff_eq_none, lowestEmpty_eq_none]
  rfl

/-- An order that finds a load in flight is left untaken (R54). -/
theorem ownLoadPilot_waits (busy : s.library.load ≠ none) : ownLoadPilot b post body s = none := by
  unfold ownLoadPilot
  exact if_pos (Option.isSome_iff_ne_none.mpr busy)

section checks
variable (free : s.library.load = none)
include free

theorem ownLoadPilot_misstated (bad : (loadSlotOf b post body s).Misstated) :
    ownLoadPilot b post body s = refuse .badValue s := by
  unfold ownLoadPilot
  rw [if_neg (by simp [free]), if_pos bad]

variable (sound : ¬(loadSlotOf b post body s).Misstated)
include sound

theorem ownLoadPilot_disagrees (wrong : (loadSlotOf b post body s).Disagrees s) :
    ownLoadPilot b post body s = refuse .wrongInterval s := by
  unfold ownLoadPilot
  rw [if_neg (by simp [free]), if_neg sound, if_pos (wrongInterval_iff.mpr wrong)]

variable (agrees : ¬(loadSlotOf b post body s).Disagrees s)
include agrees

theorem ownLoadPilot_misfit (unfit : ¬(loadSlotOf b post body s).Fits s) :
    ownLoadPilot b post body s = refuse .badExtent s := by
  unfold ownLoadPilot
  rw [if_neg (by simp [free]), if_neg sound, if_neg (wrongInterval_iff.not.mpr agrees), if_pos]
  simpa [LoadSlot.Fits] using unfit

variable (fits : (loadSlotOf b post body s).Fits s)
include fits

/-- The checks of the library alone are left (R55). -/
theorem ownLoadPilot_fits : ownLoadPilot b post body s =
    if loadTargetInUse (loadSlotOf b post body s) s.library then refuse .pilotInUse s
    else if s.library.freePages.length < pagesNeeded (loadSlotOf b post body s).length ∨
      (s.library.lookup (loadSlotOf b post body s).id).isNone ∧ s.library.lowestEmpty.isNone then refuse .noRoom s
    else some (startLoad (loadSlotOf b post body s) s, takenAnswer []) := by
  unfold ownLoadPilot
  rw [if_neg (by simp [free]), if_neg sound, if_neg (wrongInterval_iff.not.mpr agrees), if_neg]
  simpa [LoadSlot.Fits] using fits

theorem ownLoadPilot_inUse (used : (loadSlotOf b post body s).InUse s.library) :
    ownLoadPilot b post body s = refuse .pilotInUse s := by
  rw [ownLoadPilot_fits free sound agrees fits, if_pos (loadTargetInUse_iff.mpr used)]

variable (unused : ¬(loadSlotOf b post body s).InUse s.library)
include unused

theorem ownLoadPilot_unhoused (full : (loadSlotOf b post body s).Unhoused s.library) :
    ownLoadPilot b post body s = refuse .noRoom s := by
  rw [ownLoadPilot_fits free sound agrees fits, if_neg (loadTargetInUse_iff.not.mpr unused), if_pos (unhoused_iff.mp full)]

/-- A LOAD_PILOT that passes its checks is taken (R56). -/
theorem ownLoadPilot_starts (room : ¬(loadSlotOf b post body s).Unhoused s.library) :
    ownLoadPilot b post body s = some (startLoad (loadSlotOf b post body s) s, takenAnswer []) := by
  rw [ownLoadPilot_fits free sound agrees fits, if_neg (loadTargetInUse_iff.not.mpr unused),
    if_neg (unhoused_iff.not.mp room)]

end checks

/-- An id that an entry carries takes no position (R56). -/
theorem loadSlotOf_known (found : s.library.lookup (bodyField body 4 1) = some i) :
    (loadSlotOf b post body s).position = none := by
  simp only [loadSlotOf, found]

/-- A new id takes the lowest empty position (R56). -/
theorem loadSlotOf_new (new : s.library.lookup (bodyField body 4 1) = none) :
    (loadSlotOf b post body s).position = s.library.lowestEmpty := by
  simp only [loadSlotOf, new]

/-- The part with a load in flight, the first burst of its image posted (R56, R57). -/
def withLoad (slot : LoadSlot) (s : State) : State :=
  { s with
    library := { s.library with load := some slot }
    bus :=
      { s.bus with
        loader := .waiting
          { direction := .read, offset := slot.imageOffset + slot.received, data := []
            length := burstLength (slot.imageOffset + slot.received) (slot.imageOffset + 2 * slot.length) } } }

theorem startLoad_known (h : slot.position = none) : startLoad slot s = withLoad slot s := by
  unfold startLoad
  rw [h]
  rfl

theorem startLoad_new (h : slot.position = some i) : startLoad slot s =
    { (withLoad slot s).setEntry i (some (loadingEntry slot s.freeDraws)) with freeDraws := s.freeDraws + 1 } := by
  unfold startLoad
  rw [h]
  rfl

/-- Nothing but the library, the loader's slot and the free values drawn differs (R56, R57). -/
theorem startLoad_alone (slot : LoadSlot) (s : State) : startLoad slot s = { s with
    library := { s.library with load := some slot, entries := (startLoad slot s).library.entries }
    bus := (withLoad slot s).bus
    freeDraws := (startLoad slot s).freeDraws } := by
  cases h : slot.position with
  | none =>
    rw [startLoad_known h]
    rfl
  | some i =>
    rw [startLoad_new h]
    rfl

/-- Settles O45: the owner's checks one by one, and then the load, of an id that an entry carries and of a new one. -/
theorem loadPilotStartsCopy : Obligations.LoadPilotStartsCopy := by
  intro b post body s h
  let v := s.scannerReported
  let slot := loadSlotOf b post body v
  refine ⟨_, rfl, fun busy => takeOrder_skips h (ownLoadPilot_waits (s := v) busy),
    fun free bad => takeOrder_refuses h (ownLoadPilot_misstated (s := v) free bad),
    fun free sound wrong => takeOrder_refuses h (ownLoadPilot_disagrees (s := v) free sound wrong),
    fun free sound agrees unfit => takeOrder_refuses h (ownLoadPilot_misfit (s := v) free sound agrees ?_),
    fun free sound agrees fits used => takeOrder_refuses h (ownLoadPilot_inUse (s := v) free sound agrees fits used),
    fun free sound agrees fits unused full =>
      takeOrder_refuses h (ownLoadPilot_unhoused (s := v) free sound agrees fits unused full),
    fun free sound agrees fits unused room => ⟨startLoad slot v, slot, ?_, ?_, rfl, ?_, ?_, fun known => ?_, fun new => ?_⟩⟩
  · exact Bool.eq_false_iff.mp unfit
  · have starts := ownLoadPilot_starts (b := b) (post := post) (s := v) free sound agrees fits unused room
    refine takeOrder_answers h ?_ (.of_board (by simp [v, State.scannerReported]))
    rw [starts, startLoad_alone]
    rfl
  · rw [startLoad_alone]
    rfl
  · rw [startLoad_alone]
    rfl
  · rw [startLoad_alone]
    rfl
  · obtain ⟨i, found⟩ := Option.ne_none_iff_exists'.mp known
    have position : slot.position = none := loadSlotOf_known found
    rw [startLoad_known position]
    exact ⟨position, rfl, rfl⟩
  · have some_empty : v.library.lowestEmpty ≠ none := fun full => room (.inr ⟨new, lowestEmpty_eq_none.mp full⟩)
    obtain ⟨i, lowest⟩ := Option.ne_none_iff_exists'.mp some_empty
    obtain ⟨empty, below⟩ := lowestEmpty_eq_some.mp lowest
    have position : slot.position = some i := (loadSlotOf_new new).trans lowest
    rw [startLoad_new position]
    exact ⟨i, _, position, empty, below, rfl, rfl⟩

end orders

end Sys2Proof.Machine
end

section
/-! PROOFS. The bursts of a pilot copy: a fault or a timeout ends the load (O34), and the last burst of an
image may find no position for its pilot (O33). -/

namespace Sys2Proof.Machine

section copy
variable {s : State} {slot : LoadSlot} {burst : Burst} {host : BitVec 64} {received : List Byte}

/-! ## The load slot is emptied (R59) -/

theorem clearLoad_alone (slot : LoadSlot) (s : State) :
    clearLoad slot s = { s with library := (clearLoad slot s).library } := by
  unfold clearLoad
  cases slot.position <;> rfl

/-- No load is in flight, and a LOADING position is emptied (R59). -/
theorem clearLoad_library (slot : LoadSlot) (s : State) : (clearLoad slot s).library.load = none ∧
    ∀ i : Fin 16, (clearLoad slot s).library.entries[i] = if slot.position = some i then none else s.library.entries[i] := by
  unfold clearLoad
  cases slot.position with
  | none => exact ⟨rfl, fun i => rfl⟩
  | some k =>
    refine ⟨rfl, fun i => ?_⟩
    simp only [setEntry_frame, set_get, Option.some.injEq]

/-! ## A burst that fails (R57, R59, R160, R161) -/

/-- The part when the failed burst has been counted and FAULT raised (R161). -/
def loaderFaulted (s : State) : State := (s.setSlot .loader .empty).busFault .loader

/-- The part when a load has ended at a failed burst of which `data` had arrived (R57, R59). -/
def loadFaulted (slot : LoadSlot) (offset : Nat) (data : List Byte) (s : State) : State :=
  (clearLoad slot (acceptImage slot data (loaderFaulted s))).setAnswer slot.box
    { outcome := .faulted, reason := .busFault, words := [resultWord offset] }

theorem failLoaderBurst_eq (load : s.library.load = some slot) : failLoaderBurst burst received s =
    loadFaulted slot burst.offset (received.take burst.length) s := by
  unfold failLoaderBurst
  simp only [load]
  rfl

theorem loadFaulted_eq (slot : LoadSlot) (offset : Nat) (data : List Byte) (s : State) : loadFaulted slot offset data s = { s with
    library := (loadFaulted slot offset data s).library
    events := (loadFaulted slot offset data s).events
    dram := (loadFaulted slot offset data s).dram
    bus := { s.bus with loader := .empty, loaderFaults := min (s.bus.loaderFaults + 1) 4294967295 }
    board := { s.board with
      boxes := s.board.boxes.set slot.box { s.board.boxes[slot.box] with
        dirty := true
        answer := some { outcome := .faulted, reason := .busFault, words := [resultWord offset] } } } } := by
  unfold loadFaulted
  rw [clearLoad_alone]
  rfl

theorem loadFaulted_frame (slot : LoadSlot) (offset : Nat) (data : List Byte) (s : State) :
    (loadFaulted slot offset data s).events = (loaderFaulted s).events ∧
      (loadFaulted slot offset data s).library =
        (clearLoad slot (acceptImage slot data (loaderFaulted s))).library ∧
      (loadFaulted slot offset data s).dram = (acceptImage slot data s).dram := by
  unfold loadFaulted
  rw [clearLoad_alone]
  exact ⟨rfl, rfl, rfl⟩

theorem loaderFaulted_events (s : State) : isPending .fault (loaderFaulted s) ∧
    EventsGrow s.regs.intEn s.events (loaderFaulted s).events :=
  ⟨raise_pending .fault _, (busFault_grows (List.mem_singleton_self Cause.fault) .loader (s.setSlot .loader .empty)).events⟩

/-- With its burst gone, the loader leaves the issue port nothing to serve (R159). -/
theorem loadFaulted_served (h : PortServed s) (slot : LoadSlot) (offset : Nat) (data : List Byte) :
    PortServed (loadFaulted slot offset data s) := by
  rw [loadFaulted_eq]
  exact h.imp id fun ⟨scanner, exporter, _⟩ => ⟨scanner, exporter, rfl⟩

/-- A report of a fault, and a timeout of a read of which the whole has not arrived, end the load alike (R160, R161). -/
theorem exec_loaderFault {c : Instr} (served : PortServed s) (issued : s.bus.loader = .issued burst host)
    (load : s.library.load = some slot) (hc : c = .pilotBurstFault received ∨
      c = .readCompletionTimeout .loader received ∧ received.length < burst.length) :
    exec c s = .next (loadFaulted slot burst.offset (received.take burst.length) s) := by
  have on_link : s.bus.loader.issuedBurst = some burst := by rw [issued]; rfl
  rw [← serveIssuePort_of_served (loadFaulted_served served slot burst.offset (received.take burst.length)),
    ← failLoaderBurst_eq load]
  obtain rfl | ⟨rfl, lacks⟩ := hc
  · show execPilotBurstFault received s = _
    simp only [execPilotBurstFault, on_link]
  · show execReadCompletionTimeout .loader received s = _
    simp only [execReadCompletionTimeout, on_link, if_pos lacks]

/-- A read whose data is all there has no timeout (R160). -/
theorem exec_wholeRead (issued : s.bus.loader = .issued burst host) (whole : burst.length ≤ received.length) :
    exec (.readCompletionTimeout .loader received) s = .next s := by
  have on_link : s.bus.loader.issuedBurst = some burst := by rw [issued]; rfl
  show execReadCompletionTimeout .loader received s = _
  simp only [execReadCompletionTimeout, on_link, if_neg (not_lt.mpr whole)]

/-- Writing pilot samples touches the pilot words and their check bits alone (R57). -/
theorem writePilotSamples_alone (pages : List (Fin 256)) (n : Nat) (vs : List (BitVec 16)) (d : Dram) :
    writePilotSamples pages n vs d = { d with
      pilot := (writePilotSamples pages n vs d).pilot, pilotErrors := (writePilotSamples pages n vs d).pilotErrors } := by
  induction vs generalizing n d with
  | nil => rfl
  | cons v rest ih =>
    rw [writePilotSamples, ih]
    rfl

/-- What a stretch of the image leaves is a matter of local DRAM alone. -/
theorem ImageStored.of_dram {data : List Byte} {t t' : State} (h : ImageStored slot data s t) (same : t'.dram = t.dram) :
    ImageStored slot data s t' := by
  obtain ⟨others, words, rest⟩ := h
  rw [← same] at others words rest
  exact ⟨others, words, rest⟩

/-- Settles O34: the end of the load field by field, and the timeouts that have no effect. -/
theorem pilotFaultEndsLoad : Obligations.PilotFaultEndsLoad := by
  refine ⟨fun received s burst host slot served issued load c hc => ?_,
    fun received s burst host issued whole => exec_wholeRead issued whole, fun _ _ => rfl⟩
  obtain ⟨events, library, dram⟩ := loadFaulted_frame slot burst.offset (received.take burst.length) s
  obtain ⟨emptied, entries⟩ := clearLoad_library slot (acceptImage slot (received.take burst.length) (loaderFaulted s))
  obtain ⟨raised, grown⟩ := loaderFaulted_events s
  refine ⟨_, exec_loaderFault served issued load hc, loadFaulted_eq .., ?_, ?_, ?_, ?_, ?_, ?_,
    fun even inside housed nodup canonical => ?_⟩
  · unfold isPending
    rw [events]
    exact raised
  · rw [events]
    exact grown
  · rw [library]
    exact emptied
  · rw [library]
    simp only [clearLoad_frame, acceptImage_frame]
    rfl
  · rw [library]
    exact entries
  · rw [dram]
    exact writePilotSamples_alone ..
  · exact (acceptImage_stores slot _ s (canonical.dram []) nodup even inside housed).of_dram dram

/-! ## A load that finds no position (R60) -/

/-- The load slot when the bytes of a completed burst have entered the CRC (R57, R58). -/
def LoadSlot.advanced (slot : LoadSlot) (data : List Byte) : LoadSlot :=
  { slot with received := slot.received + data.length, crc := crc32Run slot.crc data }

/-- The burst that brings the last byte of the image completes the load (R59). -/
theorem loaderBurstCompleted_ends {data : List Byte} (last : 2 * slot.length ≤ slot.received + data.length) :
    loaderBurstCompleted slot data s =
      completeLoad (slot.advanced data) none (acceptImage slot data (s.setSlot .loader .empty)) := if_pos last

/-- A load whose checks all pass, of an id that no entry carries, without a position of its own and with none empty,
leaves the part as it was. -/
theorem completeLoad_unplaced (good : crc32Final slot.crc = slot.expectedCrc) (new : s.library.lookup slot.id = none)
    (agrees : ¬slot.Disagrees s) (unreserved : slot.position = none) (full : s.library.lowestEmpty = none) :
    completeLoad slot none s = s := by
  have unused : loadTargetInUse slot s.library = false := by simp only [loadTargetInUse, new]
  have unplaced : installPosition slot s.library = none := by simp only [installPosition, new, unreserved, full]
  simp [completeLoad, good, unused, wrongInterval_iff, agrees, installLoad, unplaced]

/-- An entry of a library whose sixteen positions are all taken, each with one page. -/
def seated (i : Fin 16) : PilotEntry :=
  { id := i.val + 2, state := .ready, length := 64, shift := 0, interval := 0, pages := [i.castLE (by decide)]
    useCount := 0, serial := 0 }

/-- A load of pilot 1, which none of those entries is, without a reserved position: 126 bytes of its image have come, and
the CRC it expects is that of two more bytes of zero. -/
def unseatedLoad : LoadSlot :=
  { id := 1, length := 64, shift := 0, interval := 0, expectedCrc := crc32Final (crc32Run crc32Start [0, 0]), box := 5
    post := 1, pages := [16], position := none, imageOffset := 20480, received := 126, crc := crc32Start }

/-- IDLE with that library and that load, the last burst of the image on the link. -/
def fullLibraryLoading : State :=
  { State.reset with
    device := .idle
    library := { entries := Vector.ofFn fun i => some (seated i), load := some unseatedLoad, serial := 16 }
    bus := { State.reset.bus with loader := .issued (readBurst 20606 2) 0 } }

/-- The image's last burst leaves that load in its slot. -/
theorem fullLibraryLoading_stays : loaderBurstCompleted unseatedLoad [0, 0] fullLibraryLoading =
    acceptImage unseatedLoad [0, 0] (fullLibraryLoading.setSlot .loader .empty) := by
  have new : fullLibraryLoading.library.lookup 1 = none := by decide
  have full : fullLibraryLoading.library.lowestEmpty = none := by decide
  rw [loaderBurstCompleted_ends (by decide)]
  have good : crc32Final (unseatedLoad.advanced [0, 0]).crc = (unseatedLoad.advanced [0, 0]).expectedCrc := by
    simp only [LoadSlot.advanced, unseatedLoad]
  exact completeLoad_unplaced good new nofun rfl full

/-- Refutes O33: the statement has every load that comes to the end of its image leave the load slot. A load of an id that
no entry carries, with no position reserved and none empty, is left in it: `installLoad` finds nowhere to install the
pilot. R60 keeps the part out of such states, but no hypothesis of the statement does. -/
theorem not_pilotBurstIsTakenIn : ¬ Obligations.PilotBurstIsTakenIn := by
  intro h
  obtain ⟨t, taken, -, -, -, -, -, -, -, -, -, -, -, ended⟩ :=
    h [0, 0] fullLibraryLoading (readBurst 20606 2) 0 unseatedLoad (.inr ⟨rfl, rfl, rfl⟩) rfl rfl rfl (by decide) (by decide)
      (by decide) (by decide) resetIsLawful.1
  obtain ⟨-, emptied, -⟩ := ended rfl
  have stays : t.library.load ≠ none := by
    rw [← Host.Outcome.next.inj taken]
    simp only [serveIssuePort_frame, fullLibraryLoading_stays]
    exact nofun
  exact stays emptied

end copy

end Sys2Proof.Machine
end

section
/-! PROOFS. The end of a pass, the end of a job, and the export that a DRAINING bin then begins (O30). -/

namespace Sys2Proof.Machine

section passEnd
variable {s : State} {i : Fin 32} {j : Job} {b : Fin 8} {r : BinRecord}

/-! ## The end of a pass (R76, R77) -/

/-- The turn of the list, as a record (R76). -/
theorem turnList_eq (f : Fin 8) (s : State) : turnList f s = { s with
    sched := { s.sched with
      priority := if s.sched.mode = .rotate then s.sched.priority.filter (· != f) ++ [f] else s.sched.priority } } := by
  unfold turnList
  cases s.sched.mode <;> rfl

theorem endPass_settles (active : s.engine.activeJob = some i) (hj : s.sched.jobs[i] = some j) (kind : PassEnd) :
    endPass kind s = settleJob i j kind (turnList j.fleet { s with engine := .noPass }) := by
  simp only [endPass, active, hj]

/-- A job counted and then written again stands in the table as it was last written. -/
theorem setJob_setJob (i : Fin 32) (x y : Option Job) (s : State) : (s.setJob i x).setJob i y = s.setJob i y := by
  simp only [State.setJob, Vector.set_set]

/-! ## The end of a job (R79) -/

/-- The bin's export leaves the Scheduler, the library and the boxes as the end of the job does. -/
theorem endJob_dropJob (hj : s.sched.jobs[i] = some j) (o : OrderOutcome) (x : Reason) :
    (endJob i o x s).sched = (dropJob i j o x s).sched ∧ (endJob i o x s).library = (dropJob i j o x s).library ∧
      (endJob i o x s).board = (dropJob i j o x s).board := by
  rw [endJob_eq hj]
  simp only [drainTest_frame, and_self]

/-- A bin that one job fewer names (R104). -/
theorem releasePending_eq {x : Bin} (hr : x.record = some r) :
    releasePending x = { x with record := some { r with pendingJobs := r.pendingJobs - 1 } } := by
  simp only [releasePending, hr, Option.map_some]

/-- The job's bin once the job no longer counts (R104). -/
theorem dropJob_bin (hr : s.stack.bins[j.bin].record = some r) (o : OrderOutcome) (x : Reason) :
    (dropJob i j o x s).stack.bins[j.bin] =
      { s.stack.bins[j.bin] with record := some { r with pendingJobs := r.pendingJobs - 1 } } := by
  simp only [dropJob_frame, set_get_self, releasePending_eq hr]

theorem drainTest_stays (hr : s.stack.bins[b].record = some r) (h : ¬(r.phase = .draining ∧ r.pendingJobs = 0)) :
    drainTest b s = s := by
  simp only [drainTest, hr, if_neg h]

theorem drainTest_drains (hr : s.stack.bins[b].record = some r) (hd : r.phase = .draining) (hp : r.pendingJobs = 0) :
    drainTest b s = enterExporting b r s := by
  simp only [drainTest, hr, if_pos (And.intro hd hp)]

/-- At an empty queue the bin's export begins as the queue of one bin does (R128, R135). -/
theorem enterExporting_begins (hq : s.stack.exportQueue = []) :
    ExportQueueBegins (atQueueBack b r s) (enterExporting b r s) := by
  have entered : enterExporting b r s = beginExport 1 (atQueueBack b r s) := by
    simp [enterExporting, atQueueBack, State.setBinRecord, State.setBin, hq]
  have queue : (atQueueBack b r s).stack.exportQueue = [b] := by simp [atQueueBack, hq]
  rw [entered]
  refine beginExport_begins 1 _ (by simp [queue]) (by simp [queue]) fun n hn => ?_
  obtain rfl : n = b := by simpa [queue] using hn
  rw [atQueueBack_bin]
  exact nofun

/-- A job that ends while others name its bin, or while the bin is not DRAINING (R104, R127). -/
theorem endJob_binStays (hj : s.sched.jobs[i] = some j) (hr : s.stack.bins[j.bin].record = some r)
    (h : ¬(r.phase = .draining ∧ r.pendingJobs ≤ 1)) (o : OrderOutcome) (x : Reason) :
    endJob i o x s = dropJob i j o x s := by
  rw [endJob_eq hj, drainTest_stays (congrArg Bin.record (dropJob_bin hr o x))]
  exact fun ⟨hd, hp⟩ => h ⟨hd, Nat.sub_eq_zero_iff_le.mp hp⟩

/-- The last job of a DRAINING bin sends it into EXPORTING (R127). -/
theorem endJob_binLeaves (hj : s.sched.jobs[i] = some j) (hr : s.stack.bins[j.bin].record = some r)
    (hd : r.phase = .draining) (hp : r.pendingJobs ≤ 1) (o : OrderOutcome) (x : Reason) :
    endJob i o x s = enterExporting j.bin { r with pendingJobs := 0 } (dropJob i j o x s) := by
  have last : r.pendingJobs - 1 = 0 := Nat.sub_eq_zero_iff_le.mpr hp
  have record := congrArg Bin.record (dropJob_bin (i := i) hr o x)
  rw [last] at record
  rw [endJob_eq hj, drainTest_drains record hd rfl]

/-- The part with the last job of a bin ended and the bin at the back of the export queue (R79, R127). -/
theorem dropJob_atQueueBack (hr : s.stack.bins[j.bin].record = some r) (o : OrderOutcome) (x : Reason) :
    atQueueBack j.bin { r with pendingJobs := 0 } (dropJob i j o x s) = { s with
      sched := (dropJob i j o x s).sched, library := (dropJob i j o x s).library, board := (dropJob i j o x s).board
      stack := { s.stack with
        exportQueue := s.stack.exportQueue ++ [j.bin]
        bins := s.stack.bins.set j.bin
          { s.stack.bins[j.bin] with record := some { r with phase := .exporting, pendingJobs := 0 } } } } := by
  unfold atQueueBack
  rw [dropJob_bin hr]
  simp only [dropJob_frame, Vector.set_set]

/-- Settles O30: the three ends of a pass, and then the end of a job with each place where its bin may go. -/
theorem passEndSettlesJob : Obligations.PassEndSettlesJob := by
  refine ⟨fun i j s active hj => ?_, fun i j o x s hj => ?_⟩
  · refine ⟨?_, ?_, ?_⟩
    · rw [endPass_settles active hj, turnList_eq]
      exact if_congr Iff.rfl rfl (if_congr Iff.rfl (setJob_setJob ..) rfl)
    · rw [endPass_settles active hj, turnList_eq]
      rfl
    · rw [endPass_settles active hj, turnList_eq]
      rfl
  · obtain ⟨sched, library, board⟩ := endJob_dropJob hj o x
    have raised := (endJob_grows (List.mem_singleton_self Cause.bin) i o x s).events
    refine ⟨sched, library, board, by simp, by simp, by simp, by simp, by simp, by simp, by simp, raised,
      fun r hr stays => ?_, fun r hr draining last queued => ?_, fun r hr draining last empty => ?_⟩
    · rw [endJob_binStays hj hr stays, ← releasePending_eq hr]
      exact ⟨rfl, rfl, rfl⟩
    · rw [endJob_binLeaves hj hr draining last, enterExporting_waits (s := dropJob i j o x s) (.inl queued),
        dropJob_atQueueBack hr]
      exact ⟨rfl, rfl, rfl⟩
    · have begins := enterExporting_begins (b := j.bin) (r := { r with pendingJobs := 0 }) (s := dropJob i j o x s) empty
      rw [dropJob_atQueueBack hr, empty, ← sched, ← library, ← board, ← endJob_binLeaves hj hr draining last] at begins
      exact begins

end passEnd

end Sys2Proof.Machine
end

section
/-! PROOFS. Every step keeps the priority list a list of the eight fleets, leaves no request waiting before a free port, and
keeps the boxes left to the first round of the answer stage in order (O56). -/

namespace Sys2Proof.Machine

variable {s t u : State}

/-! ## What an operation keeps -/

/-- The box whose answer the first round of the answer stage is writing (R151). -/
def ScanPhase.firstBox : ScanPhase → Option (Fin 64)
  | .answerFirst .first b _ => some b
  | .answerSecond .first b _ => some b
  | _ => none

/-- The order of the first round, said of the one box that it is writing. -/
theorem answersLawful_iff : AnswersLawful s ↔ s.board.firstRound.Pairwise (· < ·) ∧
    ∀ b, s.board.phase.firstBox = some b → ∀ k ∈ s.board.firstRound, b < k := by
  constructor
  · rintro ⟨ascending, first, second⟩
    refine ⟨ascending, fun b writing => ?_⟩
    cases hp : s.board.phase with
    | answerFirst round x sent =>
      rw [hp] at writing
      cases round <;> cases writing
      exact first b sent hp
    | answerSecond round x sent =>
      rw [hp] at writing
      cases round <;> cases writing
      exact second b sent hp
    | _ =>
      rw [hp] at writing
      cases writing
  · rintro ⟨ascending, writing⟩
    exact ⟨ascending, fun b sent hp => writing b (by rw [hp]; rfl), fun b sent hp => writing b (by rw [hp]; rfl)⟩

/-- An operation leaves the priority list and the first round of the answer stage lawful if it finds them so. -/
structure KeepsOrder (s t : State) : Prop where
  priority : PriorityLawful s → PriorityLawful t
  answers : AnswersLawful s → AnswersLawful t

theorem KeepsOrder.refl (s : State) : KeepsOrder s s := ⟨id, id⟩

theorem KeepsOrder.trans (h : KeepsOrder s t) (k : KeepsOrder t u) : KeepsOrder s u :=
  ⟨k.priority ∘ h.priority, k.answers ∘ h.answers⟩

/-- The first round of the answer stage is as it was. -/
def SameRound (s t : State) : Prop :=
  t.board.phase.firstBox = s.board.phase.firstBox ∧ t.board.firstRound = s.board.firstRound

theorem SameRound.answers (h : SameRound s t) (k : AnswersLawful s) : AnswersLawful t := by
  obtain ⟨box, round⟩ := h
  rw [answersLawful_iff, box, round]
  exact answersLawful_iff.mp k

/-- Neither the priority list nor the first round of the answer stage changes. -/
def SameOrder (s t : State) : Prop := t.sched.priority = s.sched.priority ∧ SameRound s t

theorem PriorityLawful.of_same (h : PriorityLawful s) (e : t.sched.priority = s.sched.priority) : PriorityLawful t := by
  unfold PriorityLawful
  rw [e]
  exact h

theorem KeepsOrder.of_same (h : SameOrder s t) : KeepsOrder s t := ⟨fun k => k.of_same h.1, h.2.answers⟩

/-- What comes before has left both alone. -/
theorem KeepsOrder.start (h : KeepsOrder t u) (k : SameOrder s t) : KeepsOrder s u := (KeepsOrder.of_same k).trans h

/-- What comes after leaves both alone. -/
theorem KeepsOrder.finish (h : KeepsOrder s t) (k : SameOrder t u) : KeepsOrder s u := h.trans (.of_same k)

/-- The issue arbiter takes up the write of the box that the round is at (R151, R159). -/
@[simp] theorem serveIssuePort_firstBox (s : State) :
    (serveIssuePort s).board.phase.firstBox = s.board.phase.firstBox := by
  unfold serveIssuePort
  split
  · rfl
  · split
    · unfold refreshAnswer
      split
      · rename_i round b sent hp
        cases round <;> simp [hp, ScanPhase.firstBox]
      · simp
    · simp
    · simp
    · rfl

theorem serveIssuePort_order (s : State) : KeepsOrder s (serveIssuePort s) := .of_same (by simp [SameOrder, SameRound])

/-- What a command answers keeps the three. -/
def ArbitersKept (s : State) (o : Host.Outcome State Fault Refusal) : Prop :=
  ∀ t, o = .next t → (PortServed s → PortServed t) ∧ KeepsOrder s t

/-- No slot and no port is touched. -/
theorem ArbitersKept.unposted (h : KeepsOrder s t) (bus : t.bus = s.bus) : ArbitersKept s (.next t) := by
  rintro _ ⟨⟩
  refine ⟨fun k => ?_, h⟩
  unfold PortServed
  rw [bus]
  exact k

theorem ArbitersKept.same (h : SameOrder s t) (bus : t.bus = s.bus) : ArbitersKept s (.next t) :=
  .unposted (.of_same h) bus

theorem ArbitersKept.idle (s : State) : ArbitersKept s (.next s) := .unposted (.refl s) rfl

/-- Whatever has been posted, the issue arbiter acts at the end (R159; log 7). -/
theorem ArbitersKept.served (h : KeepsOrder s t) : ArbitersKept s (.next (serveIssuePort t)) := by
  rintro _ ⟨⟩
  exact ⟨fun _ => serveIssuePort_served t, h.trans (serveIssuePort_order t)⟩

theorem ArbitersKept.servedSame (h : SameOrder s t) : ArbitersKept s (.next (serveIssuePort t)) := .served (.of_same h)

/-! ## The resets and the writes to CONTROL -/

/-- Every slot is empty, the list is that of the reset and no scan is in progress. -/
theorem ArbitersKept.reset (slots : t.bus.scanner = .empty ∧ t.bus.exporter = .empty ∧ t.bus.loader = .empty)
    (sched : t.sched = .reset) (round : t.board.firstRound = []) (phase : t.board.phase = .idle) :
    ArbitersKept s (.next t) := by
  rintro _ ⟨⟩
  obtain ⟨scanner, exporter, loader⟩ := slots
  refine ⟨fun _ => .inr ?_, fun _ => ?_, fun _ => answersLawful_iff.mpr ?_⟩
  · rw [scanner, exporter, loader]
    exact ⟨rfl, rfl, rfl⟩
  · unfold PriorityLawful
    rw [sched]
    exact .refl _
  · rw [round, phase]
    exact ⟨.nil, nofun⟩

theorem controlWrite_arbiters (v : Word) (s : State) : ArbitersKept s (.next (controlWrite v s)) := by
  unfold controlWrite
  split
  · exact .reset ⟨rfl, rfl, rfl⟩ rfl rfl rfl
  · split
    · exact .reset ⟨rfl, rfl, rfl⟩ rfl rfl rfl
    · exact .same (by simp [SameOrder, SameRound]) (by simp)

theorem execScrubComplete_arbiters (s : State) : ArbitersKept s (execScrubComplete s) := by
  unfold execScrubComplete
  split
  · exact .same ⟨rfl, rfl, rfl⟩ rfl
  · exact .idle s

theorem execWindowBaseWrite_arbiters (half : WordHalf) (v : Word) (s : State) :
    ArbitersKept s (execWindowBaseWrite half v s) := by
  unfold execWindowBaseWrite
  split
  · exact .same (by simp [SameOrder, SameRound]) (by simp)
  · exact .same (by simp [SameOrder, SameRound]) (by simp)

theorem execWindowSizeWrite_arbiters (v : Word) (us : List Upset) (s : State) :
    ArbitersKept s (execWindowSizeWrite v us s) := by
  unfold execWindowSizeWrite
  dsimp only
  split
  · exact .servedSame (by simp [SameOrder, SameRound])
  · exact .same (by simp [SameOrder, SameRound]) (by simp)

/-! ## The priority list (R72, R76) -/

/-- In ROTATE mode the list turns at the end of a pass, and nothing else of a pass end moves it (R76). -/
theorem endPass_priority (kind : PassEnd) (h : PriorityLawful s) : PriorityLawful (endPass kind s) := by
  have turned (f : Fin 8) (u : State) (hu : PriorityLawful u) : PriorityLawful (turnList f u) := by
    unfold turnList
    split
    · exact moveToBottom_perm f hu
    · exact hu
  unfold endPass
  split
  · exact h
  · dsimp only
    split
    · exact h
    · rename_i j _
      exact (turned j.fleet { s with engine := .noPass } h).of_same (by simp)

theorem endPass_order (kind : PassEnd) (s : State) : KeepsOrder s (endPass kind s) :=
  ⟨endPass_priority kind, SameRound.answers (by simp [SameRound])⟩

theorem arbitrate_order (s : State) : KeepsOrder s (arbitrate s) := .of_same (by simp [SameOrder, SameRound])

/-! ## Frames and carrier -/

/-- A stored frame may break the pin, which ends the pass in flight (R47, R96). -/
theorem storeFrame_order (p : Fin 4) (tag : Nat) (xs : List (BitVec 32)) (s : State) :
    KeepsOrder s (storeFrame p tag xs s) := by
  have pinned (u : State) : KeepsOrder u (pinTest u) := by
    unfold pinTest
    split
    · split
      · exact (endPass_order .pinBroken _).start ⟨rfl, rfl, rfl⟩
      · exact .refl u
    · exact .refl u
  unfold storeFrame
  split
  · exact .of_same (by simp [SameOrder, SameRound])
  · split
    · exact .of_same (by simp [SameOrder, SameRound])
    · rename_i w _ _
      have broken := pinned (setFrontier p tag (writeFrame p tag xs
        { s with store := { clearMarks (w + 1) tag s.store with newest := some (tag : Int) } }))
      exact (broken.start (by simp [SameOrder, SameRound])).finish (by simp [SameOrder, SameRound])

theorem liveArrival_order (p : Fin 4) (bytes : List Byte) (s : State) : KeepsOrder s (liveArrival p bytes s) := by
  cases hc : frameClass s p bytes with
  | some c =>
    rw [liveArrival_bad hc]
    exact .of_same (by simp [SameOrder, SameRound])
  | none =>
    rw [liveArrival_good hc]
    split
    · exact (storeFrame_order p (frameTag bytes) (frameSamples bytes) s).finish
        (by simp [SameOrder, SameRound, goodFrame])
    · unfold gapFrame
      dsimp only
      split
      · exact .of_same (by simp [SameOrder, SameRound])
      · have stored : KeepsOrder s (storeFrame p (frameTag bytes) (frameSamples bytes)
            (s.setPort p (gapCounted s.ports[p]))) := (storeFrame_order ..).start ⟨rfl, rfl, rfl⟩
        exact stored.finish ⟨by simp; rfl, by simp [SameRound]⟩

theorem joinPort_order (p : Fin 4) (tag : Nat) (xs : List (BitVec 32)) (s : State) :
    KeepsOrder s (joinPort p tag xs s) := by
  have stored : KeepsOrder s (storeFrame p tag xs ((s.setPort p (joinedPort s.ports[p])).raise .link)) :=
    (storeFrame_order p tag xs _).start ⟨rfl, rfl, rfl⟩
  rw [joinPort_eq]
  split
  · exact stored
  · exact stored.trans (.of_same (by simp [SameOrder, SameRound]))

/-- The settled index is recomputed, the arbiter acts, and the issue port is served (R39, R73). -/
theorem settleEvent_arbiters (h : KeepsOrder s t) : ArbitersKept s (.next (settleEvent t)) :=
  .served (h.trans ((arbitrate_order _).start (by simp [SameOrder, SameRound])))

theorem arrival_arbiters (p : Fin 4) (bytes : List Byte) (s : State) : ArbitersKept s (.next (arrival p bytes s)) := by
  have sync : ArbitersKept s (.next (syncArrival p bytes s)) := by
    unfold syncArrival
    dsimp only
    split
    · exact .same (by simp [SameOrder, SameRound]) (by simp)
    · split
      · exact .same (by simp [SameOrder, SameRound]) (by simp)
      · split
        · exact .same (by simp [SameOrder, SameRound]) (by simp)
        · split
          · exact .same (by simp [SameOrder, SameRound]) (by simp)
          · exact settleEvent_arbiters (joinPort_order ..)
  unfold arrival
  split
  · exact .idle s
  · exact sync
  · exact settleEvent_arbiters (liveArrival_order ..)
  · exact settleEvent_arbiters (liveArrival_order ..)
  · exact .same (by simp [SameOrder, SameRound]) (by simp)

/-- Errors that arise in local DRAM are no business of the arbiters. -/
theorem ArbitersKept.upset (us : List Upset) {o : Host.Outcome State Fault Refusal}
    (h : ArbitersKept (s.applyUpsets us) o) : ArbitersKept s o := fun t e =>
  have ⟨served, order⟩ := h t e
  ⟨served, order.start ⟨rfl, rfl, rfl⟩⟩

theorem execCarrierLoss_arbiters (p : Fin 4) (us : List Upset) (s : State) : ArbitersKept s (execCarrierLoss p us s) := by
  unfold execCarrierLoss
  dsimp only
  split
  · exact settleEvent_arbiters (.of_same (by simp [SameOrder, SameRound]))
  · exact .same (by simp [SameOrder, SameRound]) (by simp)

/-! ## Passes and traces -/

theorem execPilotSampleRead_arbiters (us : List Upset) (s : State) : ArbitersKept s (execPilotSampleRead us s) := by
  have abandoned (r : PassRecord) (u : State) : KeepsOrder u (abandonDamaged r u) := by
    unfold abandonDamaged
    exact (endPass_order .pilotDamaged _).start (by simp [SameOrder, SameRound])
  have read (r : PassRecord) (pilot : List Int) (finished : List (List (Option Int))) (reading : List (Option Int))
      (u : State) : ArbitersKept u (.next (readPilotSample r pilot finished reading u)) := by
    unfold readPilotSample
    split
    · rename_i v x hv
      obtain rfl : (readPilot (pilotWordAt r.pages pilot.length) u).1 = v := congrArg Prod.fst hv
      exact .same (by simp [SameOrder, SameRound]) (by simp)
    · rename_i v hv
      obtain rfl : (readPilot (pilotWordAt r.pages pilot.length) u).1 = v := congrArg Prod.fst hv
      exact .served (((abandoned r _).trans (arbitrate_order _)).start (by simp [SameOrder, SameRound]))
  refine .upset us ?_
  unfold execPilotSampleRead
  dsimp only
  split
  · split
    · exact read _ _ _ _ _
    · exact .idle _
  · exact .idle _

theorem execRawSampleRead_arbiters (us : List Upset) (s : State) : ArbitersKept s (execRawSampleRead us s) := by
  refine .upset us ?_
  unfold execRawSampleRead
  dsimp only
  split
  · split
    · exact .same (by simp [SameOrder, SameRound]) (by simp)
    · exact .idle _
  · exact .idle _

theorem execComputeEnd_arbiters (s : State) : ArbitersKept s (execComputeEnd s) := by
  unfold execComputeEnd
  split
  · split
    · exact .same ⟨rfl, rfl, rfl⟩ rfl
    · exact .idle s
  · exact .idle s

theorem execTraceApply_arbiters (us : List Upset) (s : State) : ArbitersKept s (execTraceApply us s) := by
  have after (p : PassRecord) (rest : List Trace) (u : State) : KeepsOrder u (afterTrace p rest u) := by
    unfold afterTrace
    split
    · exact (endPass_order .completed u).trans (arbitrate_order _)
    · exact .of_same ⟨rfl, rfl, rfl⟩
  refine .upset us ?_
  unfold execTraceApply
  dsimp only
  split
  · split
    · exact .served ((after _ _ _).start (by simp [SameOrder, SameRound]))
    · exact .served (after _ _ _)
  · exact .idle _

/-! ## The board scan -/

/-- While the first round writes no answer, what is left to it has only to stand in order. -/
theorem elsewhere_answers (h : s.board.firstRound.Pairwise (· < ·)) (round : t.board.firstRound = s.board.firstRound)
    (box : t.board.phase.firstBox = none) : AnswersLawful t := by
  refine answersLawful_iff.mpr ⟨round ▸ h, fun b writing => ?_⟩
  rw [box] at writing
  cases writing

theorem goSecondRound_answers {start : Nat} (h : s.board.firstRound.Pairwise (· < ·)) :
    AnswersLawful (goSecondRound start s) := by
  unfold goSecondRound
  split
  · exact elsewhere_answers h rfl rfl
  · exact elsewhere_answers h rfl rfl

/-- The answer stage begins or goes on in the first round: the box taken is the lowest of those left (R151). -/
theorem goFirstRound_answers (h : s.board.firstRound.Pairwise (· < ·)) : AnswersLawful (goFirstRound s) := by
  have left : (s.board.firstRound.filter fun i => s.board.boxes[i].dirty).Pairwise (· < ·) := h.filter _
  unfold goFirstRound
  split
  · rename_i b rest hl
    rw [hl, List.pairwise_cons] at left
    obtain ⟨below, ascending⟩ := left
    refine answersLawful_iff.mpr ⟨by simpa using ascending, fun k writing => ?_⟩
    obtain rfl : b = k := Option.some.inj writing
    simpa using below
  · exact goSecondRound_answers .nil

/-- What is left to the first round when the read stage ends is what was left to it before (R150, R151). -/
theorem endReadStage_answers (h : s.board.firstRound.Pairwise (· < ·)) : AnswersLawful (endReadStage s) :=
  goFirstRound_answers h

theorem nextAnswer_answers (round : AnswerRound) (b : Fin 64) (h : s.board.firstRound.Pairwise (· < ·)) :
    AnswersLawful (nextAnswer round b s) := by
  cases round with
  | first => exact goFirstRound_answers h
  | second => exact goSecondRound_answers h

theorem nextBox_answers (h : s.board.firstRound.Pairwise (· < ·)) : AnswersLawful (nextBox s) := by
  unfold nextBox
  dsimp only
  split
  · exact endReadStage_answers h
  · exact elsewhere_answers h rfl rfl

theorem countTake_answers (b : Fin 64) (h : s.board.firstRound.Pairwise (· < ·)) : AnswersLawful (countTake b s) := by
  unfold countTake
  dsimp only
  split
  · exact endReadStage_answers h
  · exact nextBox_answers h

/-- The scanner goes on in a part that keeps the order, and the issue port takes up what it posts. -/
theorem ArbitersKept.scanned (priority : t.sched.priority = s.sched.priority)
    (answers : AnswersLawful s → AnswersLawful t) : ArbitersKept s (.next (serveIssuePort t)) :=
  .served ⟨fun k => k.of_same priority, answers⟩

/-- A scan takes the boxes that are dirty as it begins, in ascending order (R151). -/
theorem startScan_answers (s : State) : AnswersLawful (startScan s) := by
  have ascending : (dirtyBoxes s.board).Pairwise (· < ·) := (List.pairwise_lt_finRange 64).filter _
  exact answersLawful_iff.mpr ⟨ascending, nofun⟩

theorem requestScan_order (s : State) : KeepsOrder s (requestScan s) := by
  unfold requestScan
  split
  · exact .refl s
  · split
    · exact .of_same ⟨rfl, rfl, rfl⟩
    · exact ⟨fun k => k.of_same (by simp), fun _ => startScan_answers s⟩

theorem execScanTimerExpiry_arbiters (s : State) : ArbitersKept s (execScanTimerExpiry s) :=
  .served ((requestScan_order _).start ⟨rfl, rfl, rfl⟩)

theorem endScan_order (s : State) : KeepsOrder s (endScan s) := by
  have ended : KeepsOrder s { s with board := { s.board with phase := .idle, followUp := false } } :=
    ⟨id, fun k => elsewhere_answers k.ascending rfl rfl⟩
  unfold endScan
  dsimp only
  split
  · exact ended.trans (requestScan_order _)
  · exact ended

theorem execHostPostReadDone_arbiters (post : Byte) (s : State) : ArbitersKept s (execHostPostReadDone post s) := by
  have judged (b : Fin 64) (k : AnswersLawful s) : AnswersLawful (judgePost b post s.scannerReported) := by
    unfold judgePost
    split
    · split
      · exact nextBox_answers k.ascending
      · exact elsewhere_answers k.ascending rfl rfl
    · split
      · exact elsewhere_answers k.ascending rfl rfl
      · exact nextBox_answers k.ascending
  unfold execHostPostReadDone
  split
  · split
    · exact .scanned (by simp) (judged _)
    · exact .idle s
  · exact .idle s

theorem execBodyReadDone_arbiters (body : List Byte) (s : State) : ArbitersKept s (execBodyReadDone body s) := by
  unfold execBodyReadDone
  split
  · split
    · exact .scanned (by simp) fun k => elsewhere_answers k.ascending rfl rfl
    · exact .idle s
  · exact .idle s

theorem failScannerRead_arbiters (s : State) : ArbitersKept s (.next (failScannerRead s)) :=
  .scanned (by simp) fun k => nextBox_answers (by simpa using k.ascending)

theorem execTornRead_arbiters (cause : TornCause) (s : State) : ArbitersKept s (execTornRead cause s) := by
  unfold execTornRead
  split
  · split
    · exact .scanned (by simp) fun k => nextBox_answers k.ascending
    · exact .idle s
  · split
    · exact failScannerRead_arbiters s
    · exact .idle s

theorem execBaselinePostRecheckDone_arbiters (post : Byte) (s : State) :
    ArbitersKept s (execBaselinePostRecheckDone post s) := by
  unfold execBaselinePostRecheckDone
  split
  · split
    · split
      · exact .scanned (by simp) fun k => nextBox_answers k.ascending
      · exact .scanned (by simp) fun k => nextBox_answers k.ascending
    · exact .idle s
  · exact .idle s

/-- The second write is of the box whose first write is done (R151). -/
theorem execAnswerFirstWriteDone_arbiters (s : State) : ArbitersKept s (execAnswerFirstWriteDone s) := by
  unfold execAnswerFirstWriteDone
  split
  · rename_i round b sent hp
    split
    · refine .servedSame ⟨by simp, ?_, by simp⟩
      rw [hp]
      cases round <;> rfl
    · exact .idle s
  · exact .idle s

theorem execAnswerSecondWriteDone_arbiters (s : State) : ArbitersKept s (execAnswerSecondWriteDone s) := by
  unfold execAnswerSecondWriteDone
  split
  · split
    · exact .scanned (by simp) fun k => nextAnswer_answers _ _ (by simpa using k.ascending)
    · exact .idle s
  · exact .idle s

theorem failAnswerWrite_arbiters (round : AnswerRound) (b : Fin 64) (s : State) :
    ArbitersKept s (.next (failAnswerWrite round b s)) :=
  .scanned (by simp) fun k => nextAnswer_answers round b (by simpa using k.ascending)

theorem execAnswerWriteFault_arbiters (s : State) : ArbitersKept s (execAnswerWriteFault s) := by
  unfold execAnswerWriteFault
  split
  · split
    · exact failAnswerWrite_arbiters _ _ s
    · exact .idle s
  · split
    · exact failAnswerWrite_arbiters _ _ s
    · exact .idle s
  · exact .idle s

theorem execStatusPageWriteDone_arbiters (s : State) : ArbitersKept s (execStatusPageWriteDone s) := by
  unfold execStatusPageWriteDone
  split
  · exact .served ((endScan_order _).start ⟨rfl, rfl, rfl⟩)
  · exact .idle s

theorem execStatusPageWriteFault_arbiters (s : State) : ArbitersKept s (execStatusPageWriteFault s) := by
  unfold execStatusPageWriteFault
  split
  · exact .served ((endScan_order _).start ⟨rfl, rfl, rfl⟩)
  · exact .idle s

/-! ## The mover and the issue port -/

theorem execBurstHandedOver_arbiters (s : State) : ArbitersKept s (execBurstHandedOver s) := by
  unfold execBurstHandedOver
  split
  · exact .servedSame ⟨rfl, rfl, rfl⟩
  · exact .idle s

theorem execExportBurstDone_arbiters (us : List Upset) (s : State) : ArbitersKept s (execExportBurstDone us s) := by
  refine .upset us ?_
  unfold execExportBurstDone
  dsimp only
  split
  · exact .servedSame (by simp [SameOrder, SameRound])
  · exact .idle _

theorem execExportBurstFault_arbiters (us : List Upset) (s : State) : ArbitersKept s (execExportBurstFault us s) := by
  refine .upset us ?_
  unfold execExportBurstFault
  dsimp only
  split
  · exact .servedSame (by simp [SameOrder, SameRound])
  · exact .idle _

theorem execPilotBurstDone_arbiters (data : List Byte) (s : State) : ArbitersKept s (execPilotBurstDone data s) := by
  unfold execPilotBurstDone
  split
  · split
    · exact .servedSame (by simp [SameOrder, SameRound])
    · exact .idle s
  · exact .idle s

theorem execPilotBurstFault_arbiters (data : List Byte) (s : State) : ArbitersKept s (execPilotBurstFault data s) := by
  unfold execPilotBurstFault
  split
  · exact .servedSame (by simp [SameOrder, SameRound])
  · exact .idle s

theorem execReadCompletionTimeout_arbiters (r : Requester) (data : List Byte) (s : State) :
    ArbitersKept s (execReadCompletionTimeout r data s) := by
  unfold execReadCompletionTimeout
  split
  · split
    · exact failScannerRead_arbiters s
    · exact .idle s
  · exact .idle s
  · split
    · split
      · exact .servedSame (by simp [SameOrder, SameRound])
      · exact .idle s
    · exact .idle s

/-! ## The orders -/

/-- The take of an order keeps the three, if its owner and what follows its answer keep the order (R148 to R150). -/
theorem takeOrder_arbiters {kind : Option OrderKind} {owner : Fin 64 → Byte → List Byte → State → Verdict}
    {after : State → State} {post : Byte}
    (own : ∀ b body u t a, owner b post body u = some (t, a) → KeepsOrder u t)
    (following : ∀ u, KeepsOrder u (after u)) (s : State) :
    ArbitersKept s (.next (takeOrder kind owner after post s)) := by
  obtain e | e | ⟨b, body, t, a, -, -, taken, e⟩ := takeOrder_cases kind owner after post s <;> rw [e]
  · exact .idle s
  · exact .scanned (by simp) fun k => nextBox_answers k.ascending
  · have owned : KeepsOrder s t := (own _ _ _ _ _ taken).start ⟨rfl, rfl, rfl⟩
    have recorded : KeepsOrder s (recordTake b post (bodyKindCode body) a t) := owned.finish ⟨rfl, rfl, rfl⟩
    have followed := recorded.trans (following _)
    exact .served ⟨fun k => (followed.priority k).of_same (by simp),
      fun k => countTake_answers b (followed.answers k).ascending⟩

section owners
variable {b : Fin 64} {post : Byte} {body : List Byte} {a : Answer}

/-- A FLEET_ORDER keeps the list, or sets the one with the given fleet at the bottom (R81). -/
theorem ownFleetOrder_order (h : ownFleetOrder b post body s = some (t, a)) : KeepsOrder s t := by
  unfold ownFleetOrder at h
  dsimp only at h
  split at h
  · exact refuse_same h ▸ .refl _
  · split at h
    · exact refuse_same h ▸ .refl _
    · rename_i valid
      cases h
      refine ⟨fun k => ?_, SameRound.answers ⟨rfl, rfl⟩⟩
      unfold PriorityLawful
      dsimp only
      split
      · rename_i given
        exact listWithBottom_perm _ (not_lt.mp fun beyond => valid ⟨given, beyond⟩)
      · exact k

theorem ownConfigure_order (h : ownConfigure b post body s = some (t, a)) : KeepsOrder s t := by
  obtain rfl | ⟨-, i, e, n, c, rfl⟩ := ownConfigure_does h
  · exact .refl _
  · exact .of_same (by simp [SameOrder, SameRound])

theorem ownEndRecording_order (h : ownEndRecording b post body s = some (t, a)) : KeepsOrder s t := by
  obtain rfl | ⟨-, -, rfl⟩ := ownEndRecording_does h
  · exact .refl _
  · exact .of_same (by simp [SameOrder, SameRound])

theorem ownLoadPilot_order (h : ownLoadPilot b post body s = some (t, a)) : KeepsOrder s t := by
  obtain rfl | ⟨_, rfl⟩ := ownLoadPilot_does h
  · exact .refl _
  · exact .of_same (by simp [SameOrder, SameRound])

theorem ownDropPilot_order (h : ownDropPilot b post body s = some (t, a)) : KeepsOrder s t := by
  obtain rfl | ⟨_, rfl⟩ := ownDropPilot_does h
  · exact .refl _
  · exact .of_same ⟨rfl, rfl, rfl⟩

theorem ownSweep_order (h : ownSweep b post body s = some (t, a)) : KeepsOrder s t := by
  obtain rfl | ⟨_, _, _, _, -, -, -, rfl⟩ := ownSweep_does h
  · exact .refl _
  · exact .of_same ⟨rfl, rfl, rfl⟩

theorem ownCancel_order (h : ownCancel b post body s = some (t, a)) : KeepsOrder s t := by
  obtain rfl | ⟨_, rfl⟩ := ownCancel_does h
  · exact .refl _
  · exact .of_same (by simp [SameOrder, SameRound])

theorem ownOpenBin_order (h : ownOpenBin b post body s = some (t, a)) : KeepsOrder s t := by
  obtain rfl | ⟨-, _, _, -, -, rfl⟩ := ownOpenBin_does h
  · exact .refl _
  · exact .of_same ⟨rfl, rfl, rfl⟩

theorem ownCloseBin_order (h : ownCloseBin b post body s = some (t, a)) : KeepsOrder s t := by
  obtain rfl | ⟨_, _, _, -, -, rfl⟩ := ownCloseBin_does h
  · exact .refl _
  · exact .of_same (by simp [SameOrder, SameRound])

theorem ownDiscardBin_order (h : ownDiscardBin b post body s = some (t, a)) : KeepsOrder s t := by
  obtain rfl | ⟨_, _, -, -, rfl⟩ := ownDiscardBin_does h
  · exact .refl _
  · exact .of_same ⟨rfl, rfl, rfl⟩

end owners

/-! ## All commands -/

/-- Every command keeps the priority list, the issue port and the first round of the answer stage lawful. -/
theorem exec_arbiters (c : Instr) (s : State) : ArbitersKept s (exec c s) := by
  cases c with
  | powerOnReset => exact .reset ⟨rfl, rfl, rfl⟩ rfl rfl rfl
  | fullReset v => exact controlWrite_arbiters v s
  | workReset v => exact controlWrite_arbiters v s
  | scanEnIntEnWrite v => exact controlWrite_arbiters v s
  | nudge v => exact .served (requestScan_order s)
  | windowBaseWrite half v => exact execWindowBaseWrite_arbiters half v s
  | windowSizeWrite v us => exact execWindowSizeWrite_arbiters v us s
  | eventPendingWrite v => exact .same ⟨rfl, rfl, rfl⟩ rfl
  | eventMaskWrite v => exact .same ⟨rfl, rfl, rfl⟩ rfl
  | registerWriteIgnored => exact .idle s
  | scrubComplete => exact execScrubComplete_arbiters s
  | scanTimerExpiry => exact execScanTimerExpiry_arbiters s
  | frameArrival p bytes us => exact .upset us (arrival_arbiters p bytes _)
  | carrierLoss p us => exact execCarrierLoss_arbiters p us s
  | carrierPresent p => exact .same ⟨rfl, rfl, rfl⟩ rfl
  | pilotSampleRead us => exact execPilotSampleRead_arbiters us s
  | rawSampleRead us => exact execRawSampleRead_arbiters us s
  | computeEnd => exact execComputeEnd_arbiters s
  | traceApply us => exact execTraceApply_arbiters us s
  | burstHandedOver => exact execBurstHandedOver_arbiters s
  | readCompletionTimeout r data => exact execReadCompletionTimeout_arbiters r data s
  | hostPostReadDone post => exact execHostPostReadDone_arbiters post s
  | bodyReadDone body => exact execBodyReadDone_arbiters body s
  | tornRead cause => exact execTornRead_arbiters cause s
  | baselinePostRecheckDone post => exact execBaselinePostRecheckDone_arbiters post s
  | badKind post =>
    exact takeOrder_arbiters (owner := fun _ _ _ u => refuse .badKind u) (fun _ _ _ _ _ h => refuse_same h ▸ .refl _) .refl s
  | configure post => exact takeOrder_arbiters (fun _ _ _ _ _ => ownConfigure_order) .refl s
  | endRecording post => exact takeOrder_arbiters (fun _ _ _ _ _ => ownEndRecording_order) .refl s
  | loadPilot post => exact takeOrder_arbiters (fun _ _ _ _ _ => ownLoadPilot_order) .refl s
  | dropPilot post => exact takeOrder_arbiters (fun _ _ _ _ _ => ownDropPilot_order) .refl s
  | sweep post us => exact .upset us (takeOrder_arbiters (fun _ _ _ _ _ => ownSweep_order) arbitrate_order _)
  | cancel post us => exact .upset us (takeOrder_arbiters (fun _ _ _ _ _ => ownCancel_order) .refl _)
  | fleetOrder post us => exact .upset us (takeOrder_arbiters (fun _ _ _ _ _ => ownFleetOrder_order) arbitrate_order _)
  | openBin post => exact takeOrder_arbiters (fun _ _ _ _ _ => ownOpenBin_order) .refl s
  | closeBin post us => exact .upset us (takeOrder_arbiters (fun _ _ _ _ _ => ownCloseBin_order) .refl _)
  | discardBin post => exact takeOrder_arbiters (fun _ _ _ _ _ => ownDiscardBin_order) .refl s
  | answerFirstWriteDone => exact execAnswerFirstWriteDone_arbiters s
  | answerSecondWriteDone => exact execAnswerSecondWriteDone_arbiters s
  | answerWriteFault => exact execAnswerWriteFault_arbiters s
  | statusPageWriteDone => exact execStatusPageWriteDone_arbiters s
  | statusPageWriteFault => exact execStatusPageWriteFault_arbiters s
  | exportBurstDone us => exact execExportBurstDone_arbiters us s
  | exportBurstFault us => exact execExportBurstFault_arbiters us s
  | pilotBurstDone data => exact execPilotBurstDone_arbiters data s
  | pilotBurstFault data => exact execPilotBurstFault_arbiters data s

/-- Every step keeps the three: it runs the front command on the part with the queue's rest, or idles. -/
theorem step_arbiters (h : step s = .next t) : (PortServed s → PortServed t) ∧ KeepsOrder s t := by
  unfold step at h
  split at h
  · cases h
    exact ⟨id, .refl s⟩
  · rename_i c rest _
    obtain ⟨served, order⟩ := exec_arbiters c { s with pending := rest } t h
    exact ⟨served, order.start ⟨rfl, rfl, rfl⟩⟩

/-- Settles O56: each of the three parts, of what every step keeps. -/
theorem priorityAndPortStayLawful : Obligations.PriorityAndPortStayLawful :=
  ⟨fun _ _ lawful h => (step_arbiters h).2.priority lawful, fun _ _ served h => (step_arbiters h).1 served,
    fun _ _ lawful h => (step_arbiters h).2.answers lawful⟩

end Sys2Proof.Machine
end

section
/-! PROOFS. FLEET_ORDER (O49): the row lets the arbiter act after a refusal too. -/

namespace Sys2Proof.Machine

/-- A FLEET_ORDER that names mode 2. -/
def modeTwoBody : List Byte := [0x07, 0, 0, 2]

/-- RECORDING with that FLEET_ORDER in box 0 at its second post reading, while the Engine is free and a READY job stands
in its fleet's queue. -/
def misorderedBesideReadyJob : State := refusedBesideReadyJob.setPhase (.secondPost 0 1 modeTwoBody)

theorem misorderedBesideReadyJob_reached :
    OrderReached (some .fleetOrder) 0 1 modeTwoBody misorderedBesideReadyJob := ⟨rfl, rfl, by decide⟩

/-- The refused FLEET_ORDER starts the READY job's pass. -/
theorem misorderedBesideReadyJob_starts :
    (takeOrder (some .fleetOrder) ownFleetOrder arbitrate 1 misorderedBesideReadyJob).engine.isFree = false := by
  decide

/-- Refutes O49: a FLEET_ORDER that is refused is followed by the arbiter all the same, and where a READY job waits while
the Engine is free its pass starts, so that the refusal does not leave the Engine as it was. The statement has no
hypothesis that the arbiter has nothing left to choose, which R73 keeps between steps. -/
theorem not_fleetOrderSetsArbitration : ¬ Obligations.FleetOrderSetsArbitration := by
  intro h
  obtain ⟨t, taken, refused, -⟩ := h 0 1 modeTwoBody [] _ misorderedBesideReadyJob_reached
  have engine : t.engine = .noPass := (refused (.inl (by decide))).only.engine
  have started : t.engine.isFree = false := Host.Outcome.next.inj taken ▸ misorderedBesideReadyJob_starts
  rw [engine] at started
  cases started

end Sys2Proof.Machine
end

section
/-! PROOFS. CANCEL (R82, R83): the box that it names, the entry that it judges, and the job that it ends or marks (O48). -/

namespace Sys2Proof.Machine

section cancel
variable {b g : Fin 64} {post : Byte} {body : List Byte} {s : State} {i : Fin 32} {j : Job}

theorem boxOf_val (g : Fin 64) : boxOf g.val = g := Fin.ext (Nat.mod_eq_of_lt g.isLt)

/-- An answer is final, or missing, exactly if it is not TAKEN (R144). -/
theorem finalOrNone_iff {a : Option Answer} : finalOrNone a = true ↔ ∀ x, a = some x → x.outcome ≠ .taken := by
  cases a with
  | none => simp [finalOrNone]
  | some x => cases hx : x.outcome <;> simp [finalOrNone, OrderOutcome.isFinal, hx]

/-- The scanner's report has been taken off its slot already. -/
theorem scannerReported_of_empty (h : s.bus.scanner = .empty) : s.scannerReported = s := by
  show { s with bus := { s.bus with scanner := .empty } } = s
  rw [← h]

/-! ## The entry that is judged (R82) -/

/-- The order is too late for an entry: it is of another post, or its answer is final (R82). -/
def TooLate (body : List Byte) (e : BoxEntry) : Prop :=
  e.answeredPost.toNat ≠ bodyField body 5 1 ∨ ∀ a, e.answer = some a → a.outcome ≠ .taken

theorem tooLate_iff {e : BoxEntry} :
    TooLate body e ↔ e.answeredPost.toNat ≠ bodyField body 5 1 ∨ finalOrNone e.answer = true :=
  or_congr Iff.rfl finalOrNone_iff.symm

/-- A box number above 63 is refused. -/
theorem ownCancel_beyond (h : 63 < bodyField body 4 1) : ownCancel b post body s = refuse .badValue s := by
  unfold ownCancel
  exact if_pos h

section named
variable (named : bodyField body 4 1 = g.val)
include named

theorem ownCancel_late (late : TooLate body (cancelTarget b g post s)) :
    ownCancel b post body s = some (s, cancelAnswer .tooLate) := by
  unfold ownCancel
  dsimp only
  rw [named, if_neg (by omega), boxOf_val, if_pos (tooLate_iff.mp late)]

theorem ownCancel_notSweep (live : ¬TooLate body (cancelTarget b g post s))
    (other : (cancelTarget b g post s).current ≠ some OrderKind.sweep.code) :
    ownCancel b post body s = refuse .notCancellable s := by
  unfold ownCancel
  dsimp only
  rw [named, if_neg (by omega), boxOf_val, if_neg (tooLate_iff.not.mp live), if_pos other]

theorem ownCancel_sweep (live : ¬TooLate body (cancelTarget b g post s))
    (sweep : (cancelTarget b g post s).current = some OrderKind.sweep.code) :
    ownCancel b post body s = some (cancelJob g s) := by
  unfold ownCancel
  dsimp only
  rw [named, if_neg (by omega), boxOf_val, if_neg (tooLate_iff.not.mp live), if_neg (not_not.mpr sweep)]

end named

/-- An order that names its own box is judged as a CANCEL that is not yet final (R82). -/
theorem cancelTarget_own : cancelTarget b b post s = { s.board.boxes[b] with
    answeredPost := post, current := some OrderKind.cancel.code, answer := some (takenAnswer []) } := if_pos rfl

theorem cancelTarget_other (h : g ≠ b) : cancelTarget b g post s = s.board.boxes[g] := if_neg h

/-! ## The job (R82, R83) -/

/-- The SWEEP of a box is the lowest entry that names it. -/
theorem jobOfBox_eq {sc : Scheduler} (hj : sc.jobs[i] = some j) (box : j.box = g)
    (below : ∀ k : Fin 32, k < i → ∀ x, sc.jobs[k] = some x → x.box ≠ g) : sc.jobOfBox g = some i := by
  rw [Scheduler.jobOfBox, ← Fin.find?_eq_find?_finRange, Fin.find?_eq_some_iff]
  refine ⟨by simp only [hj, box, beq_self_eq_true], fun k hk => ?_⟩
  cases hx : sc.jobs[k] with
  | none => simp
  | some x => simpa using below k hk x hx

theorem cancelJob_marks (found : s.sched.jobOfBox g = some i) (hj : s.sched.jobs[i] = some j) (active : j.state = .active) :
    cancelJob g s = (s.setJob i (some { j with cancelPending := true }), cancelAnswer .cancelPending) := by
  simp only [cancelJob, found, hj, if_pos active]

theorem cancelJob_ends (found : s.sched.jobOfBox g = some i) (hj : s.sched.jobs[i] = some j) (idle : j.state ≠ .active) :
    cancelJob g s = (endJob i .cancelled .none s, cancelAnswer .cancelledNow) := by
  simp only [cancelJob, found, hj, if_neg idle]

/-- Settles O48: the order's own box, and then each thing that another box can hold. -/
theorem cancelJudgesItsTarget : Obligations.CancelJudgesItsTarget := by
  intro b post body us s h
  let w := (s.applyUpsets us).scannerReported
  have late (ho : ownCancel b post body w = some (w, cancelAnswer .tooLate)) :=
    takeOrder_answersUpset us h ho ⟨rfl, rfl, rfl, rfl⟩
  refine ⟨_, rfl, fun beyond => takeOrder_refusesUpset us h (ownCancel_beyond beyond), fun own => ⟨fun differs => ?_,
    fun same => ?_⟩, fun g named other => ?_⟩
  · refine late (ownCancel_late own ?_)
    rw [cancelTarget_own]
    exact .inl differs
  · refine takeOrder_refusesUpset us h (ownCancel_notSweep own ?_ ?_)
    · rw [cancelTarget_own]
      exact not_or.mpr ⟨not_not.mpr same, fun final => final _ rfl rfl⟩
    · rw [cancelTarget_own]
      show some OrderKind.cancel.code ≠ some OrderKind.sweep.code
      decide
  · have target : cancelTarget b g post w = s.board.boxes[g] := cancelTarget_other other
    refine ⟨fun tooLate => late (ownCancel_late named (target ▸ tooLate)),
      fun live kind => takeOrder_refusesUpset us h (ownCancel_notSweep named (target ▸ live) (target ▸ kind)),
      fun i j live kind hj box below => ?_⟩
    have taken : ownCancel b post body w = some (cancelJob g w) := ownCancel_sweep named (target ▸ live) (target ▸ kind)
    have found : w.sched.jobOfBox g = some i := jobOfBox_eq hj box below
    refine ⟨fun active => ?_, fun idle => ⟨endJob i .cancelled .none w, ?_, rfl⟩⟩
    · refine takeOrder_answersUpset us h ?_ ⟨rfl, rfl, rfl, rfl⟩
      rw [taken, cancelJob_marks found hj active]
      rfl
    · have reported : (endJob i .cancelled .none w).scannerReported = endJob i .cancelled .none w :=
        scannerReported_of_empty (by simp; rfl)
      refine takeOrder_answersUpset us h ?_ (by constructor <;> simp [w])
      rw [taken, cancelJob_ends found hj idle, reported]
      rfl

end cancel

end Sys2Proof.Machine
end

section
/-! PROOFS. TRACE_APPLY: what follows a trace (R76, R77, R97, R98), and a trace that the edit drops (O27). -/

namespace Sys2Proof.Machine

variable {us : List Upset} {s x : State} {i : Fin 32} {j k : Job} {b : Fin 8} {p : PassRecord} {r : BinRecord} {t : Trace}
  {rest : List Trace} {c : ChannelRecord}

/-! ## What follows a trace -/

/-- A pass whose last trace has been applied ends completed (R76, R77, R98). -/
theorem endPass_completed (active : s.engine.activeJob = some i) (hj : s.sched.jobs[i] = some j) :
    endPass .completed s = passCompleted i j s := by
  rw [endPass_settles active hj, turnList_eq]
  exact if_congr Iff.rfl rfl (if_congr Iff.rfl (setJob_setJob ..) rfl)

/-- With nothing waiting before a free port, only an export that the pass's end has begun can be served. -/
theorem afterTrace_follows (served : PortServed x) (engine : x.engine = .stack p (t :: rest))
    (job : x.sched.jobs[p.job] = some k) : serveIssuePort (afterTrace p rest x) = traceFollowed p rest k x := by
  cases rest with
  | nil =>
    have active : x.engine.activeJob = some p.job := by rw [engine]; rfl
    show serveIssuePort (arbitrate (endPass .completed x)) = exporterServed (arbitrate (passCompleted p.job k x))
    rw [← endPass_completed active job]
    refine serveIssuePort_exporter ?_
    simp only [arbitrate_frame, endPass_frame]
    exact served.imp id fun ⟨scanner, _, loader⟩ => ⟨scanner, loader⟩
  | cons t' rest => exact serveIssuePort_of_served served

/-- What TRACE_APPLY answers, from what the trace leaves of bins, jobs, accumulators and counts. -/
theorem exec_traceApply (served : PortServed s) (engine : s.engine = .stack p (t :: rest))
    (hr : s.stack.bins[p.bin].record = some r) (applied : applyTrace p.job p.bin r t (s.applyUpsets us) = x)
    (bus : x.bus = s.bus) (kept : x.engine = s.engine) (job : x.sched.jobs[p.job] = some k) :
    exec (.traceApply us) s = .next (traceFollowed p rest k x) := by
  have served' : PortServed x := by
    unfold PortServed
    rw [bus]
    exact served
  have upset : (s.applyUpsets us).engine = .stack p (t :: rest) := engine
  have bin : (s.applyUpsets us).stack.bins[p.bin].record = some r := hr
  rw [← afterTrace_follows served' (kept.trans engine) job, ← applied]
  show execTraceApply us s = _
  simp only [execTraceApply, upset, bin]

/-! ## The edit -/

/-- The part with a bin's record and an entry of the job table replaced. -/
def State.withBinAndJob (b : Fin 8) (r : BinRecord) (i : Fin 32) (k : Job) (s : State) : State :=
  (s.setBinRecord b (some r)).setJob i (some k)

/-- The job of a pass counts the trace (R80). -/
theorem countInJob_eq (hj : s.sched.jobs[i] = some j) (o : EditOutcome) (t : Trace) :
    countInJob i o t s = s.setJob i (some (countJob o { j with totalMissing := j.totalMissing + t.missing })) := by
  simp only [countInJob, hj]

/-- The channel takes no more traces (R112). -/
abbrev Closed (r : BinRecord) (c : ChannelRecord) : Prop := c.fold = r.targetFold ∨ c.poisoned = true

/-- The trace is louder than the ceiling, or than the channel's reference allows (R114, R115). -/
def TooLoud (r : BinRecord) (c : ChannelRecord) (t : Trace) : Prop :=
  (r.ceiling ≠ 0 ∧ r.ceiling < t.measure) ∨
    (c.fold ≠ 0 ∧ (if c.noisy = true then r.ratio8 - r.hyst8 else r.ratio8) * (c.referenceSum / c.fold) < 8 * t.measure)

theorem editTrace_surplus (closed : Closed r c) : editTrace r c t = .surplus := if_pos closed

section opened
variable (opened : ¬Closed r c)
include opened

theorem editTrace_clipped (clipped : 0 < t.saturations) : editTrace r c t = .clipped := by
  rw [editTrace, if_neg opened, if_pos clipped]

variable (clean : t.saturations = 0)
include clean

theorem editTrace_gapped (gapped : r.missLimit < t.missing) : editTrace r c t = .gapped := by
  rw [editTrace, if_neg opened, if_neg (by omega), if_pos gapped]

variable (whole : t.missing ≤ r.missLimit)
include whole

/-- The tests of loudness alone are left. -/
theorem editTrace_whole : editTrace r c t = if r.ceiling ≠ 0 ∧ r.ceiling < t.measure then .noise
    else if c.fold = 0 then .accept else if withinReference r c t then .accept else .noise := by
  rw [editTrace, if_neg opened, if_neg (by omega), if_neg (by omega)]

theorem editTrace_noise (loud : TooLoud r c t) : editTrace r c t = .noise := by
  rw [editTrace_whole opened clean whole]
  split
  · rfl
  · rename_i below
    obtain ⟨folded, above⟩ := loud.resolve_left below
    have beyond : ¬withinReference r c t = true := by simpa [withinReference, ratioInUse] using above
    rw [if_neg folded, if_neg beyond]

theorem editTrace_accept (quiet : ¬TooLoud r c t) : editTrace r c t = .accept := by
  obtain ⟨below, within⟩ := not_or.mp quiet
  rw [editTrace_whole opened clean whole, if_neg below]
  split
  · rfl
  · rename_i folded
    have reference : withinReference r c t = true := by
      simpa [withinReference, ratioInUse] using not_lt.mp fun above => within ⟨folded, above⟩
    rw [if_pos reference]

end opened

/-! ## A trace that is dropped (R112 to R116) -/

/-- The channel with the missing samples of a trace added to its total (R112). -/
def ChannelRecord.missing (t : Trace) (c : ChannelRecord) : ChannelRecord :=
  { c with missTotal := satAdd32 c.missTotal t.missing }

/-- A trace dropped as SURPLUS, CLIPPED or GAPPED is counted in its channel and in its job (R80, R112). -/
theorem applyTrace_drops {o : EditOutcome} (edit : editTrace r (r.channel (t.channel - r.firstChannel)) t = o)
    (hj : s.sched.jobs[i] = some j) (ho : o = .surplus ∨ o = .clipped ∨ o = .gapped) :
    applyTrace i b r t s = s.withBinAndJob b
      (r.withChannel (t.channel - r.firstChannel)
        (countChannel o ((r.channel (t.channel - r.firstChannel)).missing t)))
      i (countJob o { j with totalMissing := j.totalMissing + t.missing }) := by
  unfold applyTrace
  dsimp only
  rw [edit]
  have counted (q : BinRecord) (o : EditOutcome) := countInJob_eq (s := s.setBinRecord b (some q)) hj o t
  obtain rfl | rfl | rfl := ho
  · exact counted _ .surplus
  · exact counted _ .clipped
  · exact counted _ .gapped

/-- The channel after a NOISE trace (R112, R116). -/
def ChannelRecord.louder (r : BinRecord) (t : Trace) (c : ChannelRecord) : ChannelRecord :=
  noiseChannel r (countChannel .noise (c.missing t))

/-- The consecutive count after a NOISE trace (R116). -/
def tripped (r : BinRecord) (c : ChannelRecord) : Nat :=
  if c.consecutive < r.tripCount then c.consecutive + 1 else r.tripCount

/-- A trace dropped as NOISE is counted, and CHANNEL is raised with a new NOISY flag, and only then (R80, R112, R116). -/
theorem applyTrace_noise (hc : r.channel (t.channel - r.firstChannel) = c) (edit : editTrace r c t = .noise)
    (hj : s.sched.jobs[i] = some j) : ∃ e, applyTrace i b r t s =
        { s.withBinAndJob b (r.withChannel (t.channel - r.firstChannel) (c.louder r t)) i
            (countJob .noise { j with totalMissing := j.totalMissing + t.missing }) with events := e } ∧
      EventsGrow s.regs.intEn s.events e ∧ (c.noisy = true ∨ tripped r c < r.tripCount → e = s.events) ∧
      (c.noisy = false → r.tripCount ≤ tripped r c → e.pending = s.events.pending ||| Cause.channel.bit) := by
  have applied : applyTrace i b r t s =
      let counted := s.withBinAndJob b (r.withChannel (t.channel - r.firstChannel) (c.louder r t)) i
        (countJob .noise { j with totalMissing := j.totalMissing + t.missing })
      if ((c.noisy || decide (r.tripCount ≤ tripped r c)) && !c.noisy) = true then counted.raise .channel
      else counted := by
    unfold applyTrace
    dsimp only
    rw [hc, edit]
    dsimp only
    rw [countInJob_eq (s := s.setBinRecord b (some _)) hj]
    rfl
  rw [applied]
  by_cases newly : c.noisy = false ∧ r.tripCount ≤ tripped r c
  · obtain ⟨quiet, trips⟩ := newly
    refine ⟨raiseCause s.regs.intEn .channel s.events, if_pos (by simp [quiet, trips]), ?_, fun known => ?_,
      fun _ _ => by simp⟩
    · exact (raise_grows (List.mem_singleton_self Cause.channel) s).events
    · exact absurd known (by simp [quiet, trips])
  · refine ⟨s.events, if_neg ?_, .refl _ _, fun _ => rfl, fun quiet trips => absurd ⟨quiet, trips⟩ newly⟩
    cases quiet : c.noisy with
    | true => simp
    | false => simpa using not_le.mp fun trips => newly ⟨quiet, trips⟩

/-- Settles O27: the four drops, each from what the edit decides. -/
theorem droppedTraceIsCounted : Obligations.DroppedTraceIsCounted := by
  intro us s p t rest r j served engine hr hj
  have drops {o : EditOutcome} (edit : editTrace r (r.channel (t.channel - r.firstChannel)) t = o)
      (ho : o = .surplus ∨ o = .clipped ∨ o = .gapped) :=
    exec_traceApply (us := us) served engine hr (applyTrace_drops edit hj ho) rfl rfl (set_get_self ..)
  refine ⟨fun closed => drops (editTrace_surplus closed) (.inl rfl),
    fun opened clipped => drops (editTrace_clipped opened clipped) (.inr (.inl rfl)),
    fun opened clean gapped => drops (editTrace_gapped opened clean gapped) (.inr (.inr rfl)),
    fun opened clean whole loud => ?_⟩
  obtain ⟨e, applied, grown⟩ := applyTrace_noise (b := p.bin) (s := s.applyUpsets us) rfl
    (editTrace_noise opened clean whole loud) hj
  exact ⟨e, exec_traceApply served engine hr applied rfl rfl (set_get_self ..), grown⟩

end Sys2Proof.Machine
end

section
/-! PROOFS. TRACE_APPLY of a trace that the edit admits (O28): the accumulators, the channel record and the bin. -/

namespace Sys2Proof.Machine

variable {us : List Upset} {s : State} {i : Fin 32} {j k : Job} {b : Fin 8} {p : PassRecord} {r : BinRecord} {t : Trace}
  {rest : List Trace} {n : Nat} {c : ChannelRecord} {d : Dram}

/-! ## Local DRAM -/

/-- Errors that arise change no value (R166). -/
theorem upsets_acc (us : List Upset) (d : Dram) : (us.foldl upsetWord d).acc = d.acc := by
  induction us generalizing d with
  | nil => rfl
  | cons u rest ih =>
    rw [List.foldl_cons, ih]
    unfold upsetWord
    split <;> rfl

/-- Accumulators that are written in a row leave the samples and the pilots alone (R34, R51, R103). -/
theorem writeAccs_frame (a : Nat) (vs : List (BitVec 64)) (d : Dram) :
    (writeAccs a vs d).raw = d.raw ∧ (writeAccs a vs d).pilot = d.pilot := by
  induction vs generalizing a d with
  | nil => exact ⟨rfl, rfl⟩
  | cons v vs ih => exact ih (a + 1) (writeAcc a v d)

/-- Accumulators that are written in a row change no other one (R103, R166). -/
theorem writeAccs_others (a : Nat) (vs : List (BitVec 64)) (h : DramWf d) {x : Nat} (hx : ∀ m < vs.length, x ≠ a + m) :
    cellRead 0 (writeAccs a vs d).acc x = cellRead 0 d.acc x ∧
      cellRead .clean (writeAccs a vs d).accErrors x = cellRead .clean d.accErrors x := by
  induction vs generalizing a d with
  | nil => exact ⟨rfl, rfl⟩
  | cons v vs ih =>
    have later : ∀ m < vs.length, x ≠ a + 1 + m := fun m hm => by
      have := hx (m + 1) (by simpa using hm)
      omega
    have first : x ≠ a := hx 0 (by simp)
    obtain ⟨value, errors⟩ := ih (a + 1) (writeAcc_wf a v h) later
    obtain ⟨value', errors'⟩ := writeAcc_reads d h a x v
    rw [if_neg first] at value' errors'
    exact ⟨value.trans value', errors.trans errors'⟩

/-- Each accumulator of a row that is written reads as its value, with clean check bits (R103, R166). -/
theorem writeAccs_each (a : Nat) (vs : List (BitVec 64)) (h : DramWf d) {m : Nat} (hm : m < vs.length) :
    cellRead 0 (writeAccs a vs d).acc (a + m) = vs.getD m 0 ∧
      cellRead .clean (writeAccs a vs d).accErrors (a + m) = .clean := by
  induction vs generalizing a d m with
  | nil => exact absurd hm (by simp)
  | cons v vs ih =>
    have wf := writeAcc_wf a v h
    cases m with
    | zero =>
      obtain ⟨value, errors⟩ := writeAccs_others (a + 1) vs wf (x := a) fun m _ => by omega
      obtain ⟨value', errors'⟩ := writeAcc_reads d h a a v
      rw [if_pos rfl] at value' errors'
      exact ⟨value.trans value', errors.trans errors'⟩
    | succ m =>
      rw [show a + (m + 1) = a + 1 + m by omega]
      exact ih (a + 1) wf (by simpa using hm)

theorem anyUncorrectable_iff (errors : List (Nat × Ecc)) (b n lags : Nat) :
    anyUncorrectable errors (accAddress b n 0) lags = true ↔
      ∃ i < lags, cellRead Ecc.clean errors (accAddress b n i) = .uncorrectable := by
  simp [anyUncorrectable, accAddress_add]

theorem singleErrors_eq (errors : List (Nat × Ecc)) (b n lags : Nat) :
    singleErrors errors (accAddress b n 0) lags =
      ((List.range lags).filter fun i => cellRead Ecc.clean errors (accAddress b n i) = .single).length := by
  simp only [singleErrors, accAddress_add]
  rfl

/-- What the accumulators of a channel hold once the trace's values have been added (R117). -/
def stackedValues (acc : List (Nat × BitVec 64)) (a lags : Nat) (t : Trace) : List (BitVec 64) :=
  (List.zipWith (· + ·) ((List.range lags).map fun m => (cellRead 0 acc (a + m)).toInt) t.values).map
    fun x => BitVec.ofInt 64 x

section stacked
variable {lags : Nat} (acc : List (Nat × BitVec 64)) (a : Nat) (full : t.values.length = lags)
include full

theorem stackedValues_length : (stackedValues acc a lags t).length = lags := by
  simp [stackedValues, full]

theorem stackedValues_get {m : Nat} (hm : m < lags) :
    (stackedValues acc a lags t).getD m 0 = cellRead 0 acc (a + m) + BitVec.ofInt 64 (t.values.getD m 0) := by
  subst full
  simp [stackedValues, List.getD_eq_getElem?_getD, hm, BitVec.ofInt_add]

end stacked

/-! ## The bin's record -/

/-- A channel that is replaced by what comes of its replacement. -/
theorem withChannel_twice (r : BinRecord) (n : Nat) (c : ChannelRecord) (f : ChannelRecord → ChannelRecord) :
    (r.withChannel n c).withChannel n (f ((r.withChannel n c).channel n)) = r.withChannel n (f c) := by
  by_cases inside : n < r.channels.length
  · simp [BinRecord.withChannel, BinRecord.channel, inside]
  · simp [BinRecord.withChannel, List.set_eq_of_length_le (not_lt.mp inside)]

/-- A channel that is replaced by one of the same fold. -/
theorem withChannel_fold (same : c.fold = (r.channel n).fold) :
    ((r.withChannel n c).channel n).fold = (r.channel n).fold := by
  by_cases inside : n < r.channels.length
  · simp [BinRecord.withChannel, BinRecord.channel, inside, same]
  · simp [BinRecord.withChannel, List.set_eq_of_length_le (not_lt.mp inside)]

/-- The phase of a bin that jobs name, after the auto-drain (R118). -/
def BinRecord.drained (r : BinRecord) : BinRecord :=
  { r with phase := if r.phase = .opened ∧ r.channelsAtTarget = r.channelCount then .draining else r.phase }

/-- The auto-drain of a bin that jobs name begins no export (R118, R127). -/
theorem autoDrain_named (hr : s.stack.bins[b].record = some r) (named : 0 < r.pendingJobs) :
    autoDrain b s = s.setBinRecord b (some r.drained) := by
  unfold autoDrain BinRecord.drained
  simp only [hr]
  split
  · refine drainTest_stays (r := { r with phase := .draining }) ?_ fun empty => named.ne' empty.2
    simp [State.setBinRecord, State.setBin]
  · show s = { s with stack := { s.stack with bins := _ } }
    rw [bin_self hr]

/-- The auto-drain after a trace has been counted in its job, which names the bin (R80, R118). -/
theorem autoDrain_counted (hj : s.sched.jobs[i] = some j) (named : 0 < r.pendingJobs) (o : EditOutcome) (t : Trace) :
    autoDrain b (countInJob i o t (s.setBinRecord b (some r))) =
      s.withBinAndJob b r.drained i (countJob o { j with totalMissing := j.totalMissing + t.missing }) := by
  have counted : countInJob i o t (s.setBinRecord b (some r)) = s.withBinAndJob b r i
      (countJob o { j with totalMissing := j.totalMissing + t.missing }) := countInJob_eq (s := s.setBinRecord b (some r)) hj o t
  rw [counted, autoDrain_named (congrArg Bin.record (set_get_self ..)) named]
  simp [State.withBinAndJob, State.setBinRecord, State.setBin, State.setJob]

/-- The bin's record with one channel replaced and the channels at target counted anew (R105). -/
def BinRecord.counting (r : BinRecord) (n target : Nat) (c : ChannelRecord) : BinRecord :=
  { r.withChannel n c with channelsAtTarget := target }

/-- One more channel at its target, under a condition (R105). -/
theorem ite_counting (q : Prop) [Decidable q] (r : BinRecord) (n : Nat) (c : ChannelRecord) :
    (if q then { r.withChannel n c with channelsAtTarget := (r.withChannel n c).channelsAtTarget + 1 }
      else r.withChannel n c) = r.counting n (if q then r.channelsAtTarget + 1 else r.channelsAtTarget) c := by
  split <;> rfl

/-- A channel that is POISONED as it is replaced by one of the same fold counts as at its target (R105, R120). -/
theorem poison_withChannel (same : c.fold = (r.channel n).fold) :
    (r.withChannel n c).poison n =
      r.counting n (if (r.channel n).fold < r.targetFold then r.channelsAtTarget + 1 else r.channelsAtTarget)
        { c with poisoned := true } := by
  have fold := withChannel_fold same
  have twice := withChannel_twice r n c fun c => { c with poisoned := true }
  unfold BinRecord.poison
  dsimp only
  rw [twice, fold]
  exact ite_counting ((r.channel n).fold < r.targetFold) r n { c with poisoned := true }

/-! ## An admitted trace (R117 to R121) -/

/-- The errors of the channel's accumulators that are corrected when they are read (R121, R166). -/
def State.readChannel (b : Fin 8) (n lags : Nat) (s : State) : State :=
  s.countCorrected (singleErrors s.dram.accErrors (accAddress b.val n 0) lags)

/-- The accumulators of a channel take the values of a trace (R117). -/
def State.stackTrace (b : Fin 8) (n lags : Nat) (t : Trace) (s : State) : State :=
  { s with
    dram := writeAccs (accAddress b.val n 0) (stackedValues s.dram.acc (accAddress b.val n 0) lags t) s.dram }

section admitted
variable (hj : s.sched.jobs[i] = some j) (named : 0 < r.pendingJobs)
include hj named

/-- Every accumulator of the channel can be read (R117, R118). -/
theorem acceptTrace_stacks (readable : ¬anyUncorrectable s.dram.accErrors (accAddress b.val n 0) r.lags = true) :
    acceptTrace i b (r.withChannel n ((r.channel n).missing t)) n t s =
      ((s.readChannel b n r.lags).stackTrace b n r.lags t).withBinAndJob b
        (r.counting n (if (r.channel n).fold + 1 = r.targetFold then r.channelsAtTarget + 1 else r.channelsAtTarget)
          (acceptChannel t ((r.channel n).missing t))).drained
        i (countJob .accept { j with totalMissing := j.totalMissing + t.missing }) := by
  have lags : (r.withChannel n ((r.channel n).missing t)).lags = r.lags := rfl
  have fold : ((r.withChannel n ((r.channel n).missing t)).channel n).fold = (r.channel n).fold := withChannel_fold rfl
  unfold acceptTrace
  simp only [readAccs, lags, if_neg readable, fold, withChannel_twice, ite_counting]
  exact autoDrain_counted (s := (s.readChannel b n r.lags).stackTrace b n r.lags t) (r := r.counting ..) hj named .accept t

/-- An accumulator of the channel cannot be read (R120, R121). -/
theorem acceptTrace_poisons (spoilt : anyUncorrectable s.dram.accErrors (accAddress b.val n 0) r.lags = true) :
    acceptTrace i b (r.withChannel n ((r.channel n).missing t)) n t s =
      (s.readChannel b n r.lags).countPoison.withBinAndJob b
        (r.counting n (if (r.channel n).fold < r.targetFold then r.channelsAtTarget + 1 else r.channelsAtTarget)
          { countChannel .surplus ((r.channel n).missing t) with poisoned := true }).drained
        i (countJob .surplus { j with totalMissing := j.totalMissing + t.missing }) := by
  have lags : (r.withChannel n ((r.channel n).missing t)).lags = r.lags := rfl
  unfold acceptTrace
  simp only [readAccs, lags, if_pos spoilt, withChannel_twice]
  rw [poison_withChannel (r := r) (c := countChannel .surplus ((r.channel n).missing t)) rfl]
  exact autoDrain_counted (s := (s.readChannel b n r.lags).countPoison) (r := r.counting ..) hj named .surplus t

end admitted

/-- An admitted trace is applied to the record that already counts its missing samples (R112). -/
theorem applyTrace_accept (edit : editTrace r (r.channel (t.channel - r.firstChannel)) t = .accept) :
    applyTrace i b r t s = acceptTrace i b
      (r.withChannel (t.channel - r.firstChannel) ((r.channel (t.channel - r.firstChannel)).missing t))
      (t.channel - r.firstChannel) t s := by
  unfold applyTrace
  dsimp only
  rw [edit]
  rfl

theorem withBinAndJob_bins (b : Fin 8) (r : BinRecord) (i : Fin 32) (k : Job) (s : State) :
    (s.withBinAndJob b r i k).stack.bins[b].record = some r :=
  congrArg Bin.record (set_get_self ..)

theorem withBinAndJob_stack (b : Fin 8) (r : BinRecord) (i : Fin 32) (k : Job) (s : State) :
    (s.withBinAndJob b r i k).stack = { s.stack with
      bins := s.stack.bins.set b { s.stack.bins[b] with record := (s.withBinAndJob b r i k).stack.bins[b].record } } := by
  rw [withBinAndJob_bins]
  rfl

/-- What TRACE_APPLY answers when the trace leaves the bus and the Engine alone (R97). -/
theorem exec_traceApply_withBinAndJob {x : State} (served : PortServed s) (engine : s.engine = .stack p (t :: rest))
    (hr : s.stack.bins[p.bin].record = some r) {q : BinRecord}
    (applied : applyTrace p.job p.bin r t (s.applyUpsets us) = x.withBinAndJob p.bin q p.job k)
    (bus : x.bus = s.bus) (kept : x.engine = s.engine) :
    exec (.traceApply us) s = .next (traceFollowed p rest k (x.withBinAndJob p.bin q p.job k)) :=
  exec_traceApply served engine hr applied bus kept (set_get_self ..)

/-- The accumulators of the channel after the trace, and every other word of local DRAM (R117, R166). -/
theorem stackTrace_dram (wf : DramWf s.dram) (b : Fin 8) (n : Nat) {lags : Nat} (full : t.values.length = lags) :
    (∀ i < lags, cellRead 0 (s.stackTrace b n lags t).dram.acc (accAddress b.val n i) =
        cellRead 0 s.dram.acc (accAddress b.val n i) + BitVec.ofInt 64 (t.values.getD i 0) ∧
      cellRead .clean (s.stackTrace b n lags t).dram.accErrors (accAddress b.val n i) = .clean) ∧
    (∀ a, (∀ i < lags, a ≠ accAddress b.val n i) →
      cellRead 0 (s.stackTrace b n lags t).dram.acc a = cellRead 0 s.dram.acc a ∧
      cellRead .clean (s.stackTrace b n lags t).dram.accErrors a = cellRead .clean s.dram.accErrors a) ∧
    (s.stackTrace b n lags t).dram.raw = s.dram.raw ∧ (s.stackTrace b n lags t).dram.pilot = s.dram.pilot := by
  have size := stackedValues_length s.dram.acc (accAddress b.val n 0) full
  refine ⟨fun i hi => ?_, fun a apart => ?_, writeAccs_frame ..⟩
  · rw [← accAddress_add, ← stackedValues_get s.dram.acc _ full hi]
    exact writeAccs_each _ _ wf (size.symm ▸ hi)
  · exact writeAccs_others _ _ wf fun m hm => by
      rw [accAddress_add]
      exact apart m (size ▸ hm)

/-- Settles O28: an accumulator of the channel that cannot be read, or none. -/
theorem admittedTraceIsStacked : Obligations.AdmittedTraceIsStacked := by
  intro us s p t rest r j served canonical engine hr hj named full n c ratio opened clean whole below within
  have quiet : ¬TooLoud r c t := by
    rintro (⟨ceiling, louder⟩ | ⟨folded, louder⟩)
    · exact below.elim ceiling (not_le.mpr louder)
    · exact within.elim folded (not_le.mpr louder)
  have edit : editTrace r c t = .accept := editTrace_accept opened clean whole quiet
  have spoilt_iff := anyUncorrectable_iff (s.applyUpsets us).dram.accErrors p.bin.val n r.lags
  have singles := singleErrors_eq (s.applyUpsets us).dram.accErrors p.bin.val n r.lags
  by_cases spoilt : anyUncorrectable (s.applyUpsets us).dram.accErrors (accAddress p.bin.val n 0) r.lags = true
  · have applied := (applyTrace_accept edit).trans (acceptTrace_poisons (s := s.applyUpsets us) hj named spoilt)
    refine ⟨_, _, exec_traceApply_withBinAndJob served engine hr applied rfl rfl, rfl, rfl,
      withBinAndJob_stack .., fun readable => ?_, fun _ => ⟨withBinAndJob_bins .., rfl, ?_, rfl⟩⟩
    · obtain ⟨m, hm, bad⟩ := spoilt_iff.mp spoilt
      exact absurd bad (readable m hm)
    · rw [← singles]
      rfl
  · have applied := (applyTrace_accept edit).trans (acceptTrace_stacks (s := s.applyUpsets us) hj named spoilt)
    obtain ⟨each, others, raw, pilot⟩ := stackTrace_dram (s := (s.applyUpsets us).readChannel p.bin n r.lags)
      (canonical.dram us) p.bin n full
    refine ⟨_, _, exec_traceApply_withBinAndJob served engine hr applied rfl rfl, rfl, rfl,
      withBinAndJob_stack .., fun _ => ⟨withBinAndJob_bins .., rfl, ?_, ?_, ?_, ?_, ?_⟩,
      fun bad => absurd (spoilt_iff.mpr bad) spoilt⟩
    · rw [← singles]
      rfl
    · rw [← upsets_acc us s.dram]
      exact each
    · rw [← upsets_acc us s.dram]
      exact others
    · exact raw.trans (upsets_raw us s.dram)
    · exact pilot.trans (upsets_pilot us s.dram)

end Sys2Proof.Machine
end

section
/-! PROOFS. The scaling of a correlation sum and the normalization of an accumulator round to the nearest integer (O26). -/

namespace Sys2Proof.Machine

/-! ## The scaling (R91) -/

@[simp] theorem scaleSum_zero (a : Int) : scaleSum 0 a = a := rfl

theorem scaleSum_succ (k : Nat) (a : Int) : scaleSum (k + 1) a = (a + 2 ^ k) / 2 ^ (k + 1) := rfl

/-- The nearest integer to a quotient, a halfway case toward plus infinity, is the floor of the quotient plus one half. -/
theorem scaleSum_nearest (k : Nat) (a : Int) :
    -(2 ^ (k + 1)) < 2 * (scaleSum (k + 1) a * 2 ^ (k + 1) - a) ∧
      2 * (scaleSum (k + 1) a * 2 ^ (k + 1) - a) ≤ 2 ^ (k + 1) := by
  have positive : (0 : Int) < 2 ^ (k + 1) := by positivity
  have halves : (2 : Int) ^ (k + 1) = 2 * 2 ^ k := pow_succ' 2 k
  have below := Int.ediv_mul_le (a + 2 ^ k) positive.ne'
  have above := Int.lt_ediv_add_one_mul_self (a + 2 ^ k) positive
  rw [add_one_mul] at above
  rw [scaleSum_succ]
  constructor <;> linarith

/-! ## The normalization (R131) -/

/-- The magnitude is rounded without its sign, so that a halfway case goes away from zero on both sides. -/
theorem natAbs_normalize (fold : Nat) (acc : Int) :
    (normalize fold acc).natAbs = (2 * acc.natAbs + fold) / (2 * fold) := by
  unfold normalize
  split
  · exact Int.natAbs_natCast _
  · rw [Int.natAbs_neg, Int.natAbs_natCast]

theorem normalize_nonneg (fold : Nat) {acc : Int} (h : 0 ≤ acc) : 0 ≤ normalize fold acc := by
  rw [normalize, if_pos h]
  exact Int.natCast_nonneg _

/-- The quotient of 0 is below one half, so a 0 stays 0. -/
theorem normalize_zero (fold : Nat) : normalize fold 0 = 0 := by
  rw [← Int.natAbs_eq_zero, natAbs_normalize]
  exact Nat.div_eq_zero_iff.mpr (by rw [Int.natAbs_zero]; omega)

theorem normalize_nonpos (fold : Nat) {acc : Int} (h : acc ≤ 0) : normalize fold acc ≤ 0 := by
  rcases h.lt_or_eq with negative | rfl
  · rw [normalize, if_neg negative.not_ge]
    exact neg_nonpos.mpr (Int.natCast_nonneg _)
  · exact (normalize_zero fold).le

theorem normalize_one (acc : Int) : normalize 1 acc = acc := by
  have whole : (2 * acc.natAbs + 1) / (2 * 1) = acc.natAbs := by omega
  unfold normalize
  rw [whole]
  split <;> omega

/-- The magnitude is the nearest integer to the quotient's, a halfway case away from zero. -/
theorem normalize_nearest {fold : Nat} (acc : Int) (positive : 0 < fold) :
    2 * ((normalize fold acc).natAbs * fold) ≤ 2 * acc.natAbs + fold ∧
      2 * acc.natAbs < 2 * ((normalize fold acc).natAbs * fold) + fold := by
  have below := Nat.div_mul_le_self (2 * acc.natAbs + fold) (2 * fold)
  have above := Nat.lt_div_mul_add (a := 2 * acc.natAbs + fold) (Nat.mul_pos two_pos positive)
  rw [← natAbs_normalize, Nat.mul_left_comm] at below above
  omega

/-- Settles O26, by the bounds that a floor of a quotient has. -/
theorem roundingRules : Obligations.RoundingRules := by
  refine ⟨⟨scaleSum_zero, scaleSum_nearest⟩, normalize_one, fun fold acc positive => ?_⟩
  obtain ⟨below, above⟩ := normalize_nearest acc positive
  exact ⟨mod_cast below, mod_cast above, normalize_nonneg fold, normalize_nonpos fold⟩

end Sys2Proof.Machine
end

section
/-! PROOFS. Every step keeps the key sets of the non-FREE bins disjoint (O58): the Stack Unit adds no key set but at an
OPEN_BIN, which is refused where its set overlaps another's. -/

namespace Sys2Proof.Machine

variable {s t u : State}

/-! ## What a command makes of the Stack Unit -/

/-- What a command answers has made only moves of the Stack Unit, of which none adds a key set. Nothing is said of the
export queue, hence `False`. -/
def MovesStack (s : State) (o : Host.Outcome State Fault Refusal) : Prop :=
  ∀ t, o = .next t → StackMoves False s.stack t.stack

theorem MovesStack.next (h : StackMoves False s.stack t.stack) : MovesStack s (.next t) := by
  rintro _ ⟨⟩
  exact h

theorem MovesStack.same (h : t.stack = s.stack) : MovesStack s (.next t) := .next (h ▸ .refl)

theorem MovesStack.idle (s : State) : MovesStack s (.next s) := .next .refl

/-- What the issue port takes up is no part of the Stack Unit. -/
theorem MovesStack.served (h : StackMoves False s.stack t.stack) : MovesStack s (.next (serveIssuePort t)) :=
  .next (by simpa using h)

/-! ## Registers and resets -/

theorem controlWrite_movesStack (v : Word) (s : State) : MovesStack s (.next (controlWrite v s)) := by
  unfold controlWrite
  split
  · exact .next (.one (.reset s.stack))
  · split
    · exact .next (.one (.reset s.stack))
    · exact .same (by simp)

theorem execScrubComplete_movesStack (s : State) : MovesStack s (execScrubComplete s) := by
  unfold execScrubComplete
  split <;> exact .same rfl

theorem execWindowBaseWrite_movesStack (half : WordHalf) (v : Word) (s : State) :
    MovesStack s (execWindowBaseWrite half v s) := by
  unfold execWindowBaseWrite
  split <;> exact .same (by simp)

/-- With a valid window the export that waits for it may begin (R128). -/
theorem execWindowSizeWrite_movesStack (v : Word) (us : List Upset) (s : State) :
    MovesStack s (execWindowSizeWrite v us s) := by
  unfold execWindowSizeWrite
  dsimp only
  split
  · generalize hu : windowChanged (v != (s.applyUpsets us).regs.size)
      { s.applyUpsets us with regs := { (s.applyUpsets us).regs with size := v } } = u
    have same : u.stack = s.stack := by simp [← hu]
    exact .served (same ▸ beginExport_moves u.stack.exportQueue.length u)
  · exact .same (by simp)

/-! ## Frames, passes and traces -/

theorem execCarrierLoss_movesStack (p : Fin 4) (us : List Upset) (s : State) :
    MovesStack s (execCarrierLoss p us s) := by
  have lost : (loseCarrier p (s.applyUpsets us)).stack = s.stack := by simp
  unfold execCarrierLoss
  dsimp only
  split
  · exact .next (lost ▸ settleEvent_moves _)
  · exact .same lost

theorem execPilotSampleRead_movesStack (us : List Upset) (s : State) : MovesStack s (execPilotSampleRead us s) := by
  unfold execPilotSampleRead
  dsimp only
  split
  · split
    · exact .next (readPilotSample_moves _ _ _ _ (s.applyUpsets us))
    · exact .same rfl
  · exact .same rfl

theorem execRawSampleRead_movesStack (us : List Upset) (s : State) : MovesStack s (execRawSampleRead us s) := by
  unfold execRawSampleRead
  dsimp only
  split
  · split <;> exact .same (by simp)
  · exact .same rfl

theorem execComputeEnd_movesStack (s : State) : MovesStack s (execComputeEnd s) := by
  unfold execComputeEnd
  split
  · split <;> exact .same rfl
  · exact .idle s

theorem execTraceApply_movesStack (us : List Upset) (s : State) : MovesStack s (execTraceApply us s) := by
  unfold execTraceApply
  dsimp only
  split
  · rename_i p t rest _
    split
    · rename_i r hr
      exact .served ((applyTrace_moves (s := s.applyUpsets us) t hr).trans (afterTrace_moves p rest _))
    · exact .served (afterTrace_moves p rest (s.applyUpsets us))
  · exact .same rfl

/-! ## The board scan and the bus -/

theorem execBurstHandedOver_movesStack (s : State) : MovesStack s (execBurstHandedOver s) := by
  unfold execBurstHandedOver
  split <;> exact .same (by simp)

theorem execReadCompletionTimeout_movesStack (r : Requester) (data : List Byte) (s : State) :
    MovesStack s (execReadCompletionTimeout r data s) := by
  unfold execReadCompletionTimeout
  split
  · split <;> exact .same (by simp)
  · exact .idle s
  · split
    · split <;> exact .same (by simp)
    · exact .idle s

theorem execHostPostReadDone_movesStack (post : Byte) (s : State) : MovesStack s (execHostPostReadDone post s) := by
  unfold execHostPostReadDone
  split
  · split <;> exact .same (by simp)
  · exact .idle s

theorem execBodyReadDone_movesStack (body : List Byte) (s : State) : MovesStack s (execBodyReadDone body s) := by
  unfold execBodyReadDone
  split
  · split <;> exact .same (by simp)
  · exact .idle s

theorem execTornRead_movesStack (cause : TornCause) (s : State) : MovesStack s (execTornRead cause s) := by
  unfold execTornRead
  split
  · split <;> exact .same (by simp)
  · split <;> exact .same (by simp)

theorem execBaselinePostRecheckDone_movesStack (post : Byte) (s : State) :
    MovesStack s (execBaselinePostRecheckDone post s) := by
  unfold execBaselinePostRecheckDone
  split
  · split
    · split <;> exact .same (by simp)
    · exact .idle s
  · exact .idle s

theorem execAnswerFirstWriteDone_movesStack (s : State) : MovesStack s (execAnswerFirstWriteDone s) := by
  unfold execAnswerFirstWriteDone
  split
  · split <;> exact .same (by simp)
  · exact .idle s

theorem execAnswerSecondWriteDone_movesStack (s : State) : MovesStack s (execAnswerSecondWriteDone s) := by
  unfold execAnswerSecondWriteDone
  split
  · split <;> exact .same (by simp)
  · exact .idle s

theorem execAnswerWriteFault_movesStack (s : State) : MovesStack s (execAnswerWriteFault s) := by
  unfold execAnswerWriteFault
  split
  · split <;> exact .same (by simp)
  · split <;> exact .same (by simp)
  · exact .idle s

theorem execStatusPageWriteDone_movesStack (s : State) : MovesStack s (execStatusPageWriteDone s) := by
  unfold execStatusPageWriteDone
  split <;> exact .same (by simp)

theorem execStatusPageWriteFault_movesStack (s : State) : MovesStack s (execStatusPageWriteFault s) := by
  unfold execStatusPageWriteFault
  split <;> exact .same (by simp)

theorem execExportBurstDone_movesStack (us : List Upset) (s : State) : MovesStack s (execExportBurstDone us s) := by
  unfold execExportBurstDone
  dsimp only
  split
  · exact .served (exportBurstCompleted_moves _ (s.applyUpsets us) nofun)
  · exact .same rfl

theorem execExportBurstFault_movesStack (us : List Upset) (s : State) : MovesStack s (execExportBurstFault us s) := by
  unfold execExportBurstFault
  dsimp only
  split
  · exact .served (exportBurstFailed_moves _ (s.applyUpsets us) nofun)
  · exact .same rfl

theorem execPilotBurstDone_movesStack (data : List Byte) (s : State) : MovesStack s (execPilotBurstDone data s) := by
  unfold execPilotBurstDone
  split
  · split <;> exact .same (by simp)
  · exact .idle s

theorem execPilotBurstFault_movesStack (data : List Byte) (s : State) : MovesStack s (execPilotBurstFault data s) := by
  unfold execPilotBurstFault
  split <;> exact .same (by simp)

/-! ## The orders other than OPEN_BIN -/

/-- The take of an order leaves the Stack Unit as it is, or as the owner and what follows its answer leave it
(R148 to R150). -/
theorem takeOrder_stack (kind : Option OrderKind) (owner : Fin 64 → Byte → List Byte → State → Verdict)
    (after : State → State) (post : Byte) (s : State) :
    (takeOrder kind owner after post s).stack = s.stack ∨
      ∃ b body t a, owner b post body s.scannerReported = some (t, a) ∧
        (takeOrder kind owner after post s).stack = (after (recordTake b post (bodyKindCode body) a t)).stack := by
  obtain e | e | ⟨b, body, t, a, -, -, taken, e⟩ := takeOrder_cases kind owner after post s <;> rw [e]
  · exact .inl rfl
  · exact .inl (by simp)
  · exact .inr ⟨b, body, t, a, taken, by simp⟩

/-- The take of an order only moves the Stack Unit, if its owner and what follows its answer do. Errors may have arisen
before. -/
theorem takeOrder_movesStack {kind : Option OrderKind} {owner : Fin 64 → Byte → List Byte → State → Verdict}
    {after : State → State} {post : Byte}
    (own : ∀ b body u t a, owner b post body u = some (t, a) → StackMoves False u.stack t.stack)
    (following : ∀ u, StackMoves False u.stack (after u).stack) (before : u.stack = s.stack) :
    MovesStack s (.next (takeOrder kind owner after post u)) := by
  refine .next (before ▸ ?_)
  obtain e | ⟨b, body, t, a, taken, e⟩ := takeOrder_stack kind owner after post u <;> rw [e]
  have owned : StackMoves False u.scannerReported.stack t.stack := own _ _ _ _ _ taken
  exact owned.trans (following (recordTake b post (bodyKindCode body) a t))

section owners
variable {b : Fin 64} {post : Byte} {body : List Byte} {a : Answer}

theorem ownConfigure_movesStack (h : ownConfigure b post body s = some (t, a)) :
    StackMoves False s.stack t.stack := by
  obtain rfl | ⟨-, _, _, _, _, rfl⟩ := ownConfigure_does h
  · exact .refl
  · simpa using .refl

theorem ownEndRecording_movesStack (h : ownEndRecording b post body s = some (t, a)) :
    StackMoves False s.stack t.stack := by
  obtain rfl | ⟨-, -, rfl⟩ := ownEndRecording_does h
  · exact .refl
  · simpa using .refl

theorem ownLoadPilot_movesStack (h : ownLoadPilot b post body s = some (t, a)) :
    StackMoves False s.stack t.stack := by
  obtain rfl | ⟨_, rfl⟩ := ownLoadPilot_does h
  · exact .refl
  · simpa using .refl

theorem ownDropPilot_movesStack (h : ownDropPilot b post body s = some (t, a)) :
    StackMoves False s.stack t.stack := by
  obtain rfl | ⟨_, rfl⟩ := ownDropPilot_does h
  · exact .refl
  · simpa using .refl

theorem ownSweep_movesStack (h : ownSweep b post body s = some (t, a)) :
    StackMoves False s.stack t.stack := by
  obtain rfl | ⟨_, _, _, _, -, -, hr, rfl⟩ := ownSweep_does h
  · exact .refl
  · exact enterJob_moves hr

theorem ownCancel_movesStack (h : ownCancel b post body s = some (t, a)) :
    StackMoves False s.stack t.stack := by
  obtain rfl | ⟨n, rfl⟩ := ownCancel_does h
  · exact .refl
  · exact cancelJob_moves n s

theorem ownFleetOrder_movesStack (h : ownFleetOrder b post body s = some (t, a)) :
    StackMoves False s.stack t.stack := by
  obtain rfl | ⟨_, _, _, rfl⟩ := ownFleetOrder_does h
  · exact .refl
  · exact .refl

theorem ownCloseBin_movesStack (h : ownCloseBin b post body s = some (t, a)) :
    StackMoves False s.stack t.stack := by
  obtain rfl | ⟨_, _, _, hq, same, rfl⟩ := ownCloseBin_does h
  · exact .refl
  · exact closeBinAt_moves hq same.key same.mask same.phase

theorem ownDiscardBin_movesStack (h : ownDiscardBin b post body s = some (t, a)) :
    StackMoves False s.stack t.stack := by
  obtain rfl | ⟨_, _, hr, hp, rfl⟩ := ownDiscardBin_does h
  · exact .refl
  · exact freeBin_moves hr hp

end owners

/-! ## OPEN_BIN (R107, R109, R110) -/

/-- Two key sets overlap in either order: they share a key (R107). -/
theorem keysOverlap_comm (k m k' m' : Word) : keysOverlap k m k' m' = keysOverlap k' m' k m := by
  rw [Bool.eq_iff_iff, keysOverlap_iff_shared, keysOverlap_iff_shared]
  exact exists_congr fun _ => and_comm

/-- A key set that passes the check overlaps no bin's (R109). -/
theorem apart_of_overlaps {st : StackUnit} {key mask : Word} {n : Fin 8} {q : BinRecord}
    (free : st.overlaps key mask = false) (hq : st.bins[n].record = some q) :
    keysOverlap key mask q.key q.mask = false := by
  refine Bool.eq_false_iff.mpr fun shared => Bool.eq_false_iff.mp free (overlaps_iff.mpr ?_)
  exact ⟨n, q, hq, (keysOverlap_iff ..).mp shared⟩

/-- The one key set that is added overlaps none of the others. -/
theorem openBinAt_disjoint {n : Fin 8} {r : BinRecord} (free : s.stack.overlaps r.key r.mask = false)
    (h : BinsDisjoint s) : BinsDisjoint (openBinAt n r s) := by
  have bins (i : Fin 8) (q : BinRecord) (hq : (openBinAt n r s).stack.bins[i].record = some q) :
      n = i ∧ r = q ∨ s.stack.bins[i].record = some q := by
    simp only [openBinAt_frame, set_get] at hq
    split at hq
    · exact .inl ⟨‹n = i›, Option.some.inj hq⟩
    · exact .inr hq
  intro i j q p apart hq hp
  obtain ⟨rfl, rfl⟩ | old := bins i q hq <;> obtain ⟨rfl, rfl⟩ | old' := bins j p hp
  · exact absurd rfl apart
  · exact apart_of_overlaps free old'
  · exact keysOverlap_comm .. ▸ apart_of_overlaps free old
  · exact h i j q p apart old old'

/-- An OPEN_BIN that passes the check of its key set opens a bin with it; any other changes nothing (R109, R110). -/
theorem ownOpenBin_checked {b : Fin 64} {post : Byte} {body : List Byte} {a : Answer}
    (h : ownOpenBin b post body s = some (t, a)) :
    t = s ∨ ∃ n r, s.stack.overlaps r.key r.mask = false ∧ t = openBinAt n r s := by
  unfold ownOpenBin at h
  dsimp only at h
  iterate 3
    split at h
    · exact .inl (refuse_same h)
  split at h
  · exact .inl (refuse_same h)
  · rename_i free
    split at h
    · exact .inl (refuse_same h)
    · cases h
      exact .inr ⟨_, _, Bool.eq_false_iff.mpr free, rfl⟩

theorem BinsDisjoint.congr (h : BinsDisjoint s) (same : t.stack = s.stack) : BinsDisjoint t := by
  unfold BinsDisjoint
  rw [same]
  exact h

theorem execOpenBin_disjoint {post : Byte} (e : execOpenBin post s = .next t) (h : BinsDisjoint s) :
    BinsDisjoint t := by
  cases e
  obtain same | ⟨b, body, u, a, taken, same⟩ := takeOrder_stack (some .openBin) ownOpenBin id post s
  · exact h.congr same
  · refine BinsDisjoint.congr (s := u) ?_ same
    have reported : BinsDisjoint s.scannerReported := h
    obtain rfl | ⟨n, r, free, rfl⟩ := ownOpenBin_checked taken
    · exact reported
    · exact openBinAt_disjoint free reported

/-! ## All commands -/

/-- Every command but OPEN_BIN only moves the Stack Unit. -/
theorem exec_movesStack {c : Instr} (hc : ∀ post, c ≠ .openBin post) (s : State) : MovesStack s (exec c s) := by
  have nothing (u : State) : StackMoves False u.stack (id u).stack := .refl
  cases c with
  | openBin post => exact absurd rfl (hc post)
  | powerOnReset => exact .next (.one (.reset s.stack))
  | fullReset v => exact controlWrite_movesStack v s
  | workReset v => exact controlWrite_movesStack v s
  | scanEnIntEnWrite v => exact controlWrite_movesStack v s
  | nudge v => exact .same (by simp)
  | windowBaseWrite half v => exact execWindowBaseWrite_movesStack half v s
  | windowSizeWrite v us => exact execWindowSizeWrite_movesStack v us s
  | eventPendingWrite v => exact .same rfl
  | eventMaskWrite v => exact .same rfl
  | registerWriteIgnored => exact .idle s
  | scrubComplete => exact execScrubComplete_movesStack s
  | scanTimerExpiry => exact .same (by simp)
  | frameArrival p bytes us => exact .next (arrival_moves p bytes (s.applyUpsets us))
  | carrierLoss p us => exact execCarrierLoss_movesStack p us s
  | carrierPresent p => exact .same rfl
  | pilotSampleRead us => exact execPilotSampleRead_movesStack us s
  | rawSampleRead us => exact execRawSampleRead_movesStack us s
  | computeEnd => exact execComputeEnd_movesStack s
  | traceApply us => exact execTraceApply_movesStack us s
  | burstHandedOver => exact execBurstHandedOver_movesStack s
  | readCompletionTimeout r data => exact execReadCompletionTimeout_movesStack r data s
  | hostPostReadDone post => exact execHostPostReadDone_movesStack post s
  | bodyReadDone body => exact execBodyReadDone_movesStack body s
  | tornRead cause => exact execTornRead_movesStack cause s
  | baselinePostRecheckDone post => exact execBaselinePostRecheckDone_movesStack post s
  | badKind post => exact takeOrder_movesStack (fun _ _ _ _ _ h => refuse_same h ▸ .refl) nothing rfl
  | configure post => exact takeOrder_movesStack (fun _ _ _ _ _ => ownConfigure_movesStack) nothing rfl
  | endRecording post => exact takeOrder_movesStack (fun _ _ _ _ _ => ownEndRecording_movesStack) nothing rfl
  | loadPilot post => exact takeOrder_movesStack (fun _ _ _ _ _ => ownLoadPilot_movesStack) nothing rfl
  | dropPilot post => exact takeOrder_movesStack (fun _ _ _ _ _ => ownDropPilot_movesStack) nothing rfl
  | sweep post us => exact takeOrder_movesStack (fun _ _ _ _ _ => ownSweep_movesStack) arbitrate_moves rfl
  | cancel post us => exact takeOrder_movesStack (fun _ _ _ _ _ => ownCancel_movesStack) nothing rfl
  | fleetOrder post us => exact takeOrder_movesStack (fun _ _ _ _ _ => ownFleetOrder_movesStack) arbitrate_moves rfl
  | closeBin post us => exact takeOrder_movesStack (fun _ _ _ _ _ => ownCloseBin_movesStack) nothing rfl
  | discardBin post => exact takeOrder_movesStack (fun _ _ _ _ _ => ownDiscardBin_movesStack) nothing rfl
  | answerFirstWriteDone => exact execAnswerFirstWriteDone_movesStack s
  | answerSecondWriteDone => exact execAnswerSecondWriteDone_movesStack s
  | answerWriteFault => exact execAnswerWriteFault_movesStack s
  | statusPageWriteDone => exact execStatusPageWriteDone_movesStack s
  | statusPageWriteFault => exact execStatusPageWriteFault_movesStack s
  | exportBurstDone us => exact execExportBurstDone_movesStack us s
  | exportBurstFault us => exact execExportBurstFault_movesStack us s
  | pilotBurstDone data => exact execPilotBurstDone_movesStack data s
  | pilotBurstFault data => exact execPilotBurstFault_movesStack data s

theorem exec_disjoint {c : Instr} (e : exec c s = .next t) (h : BinsDisjoint s) : BinsDisjoint t := by
  by_cases opens : ∃ post, c = .openBin post
  · obtain ⟨post, rfl⟩ := opens
    exact execOpenBin_disjoint e h
  · exact (exec_movesStack (not_exists.mp opens) s t e).disjoint h

/-- Settles O58: moves of the Stack Unit add no key set, and OPEN_BIN adds one that it has checked. -/
theorem keySetsStayDisjoint : Obligations.KeySetsStayDisjoint := by
  intro s t h e
  unfold step at e
  split at e
  · cases e
    exact h
  · rename_i c rest _
    have waiting : BinsDisjoint { s with pending := rest } := h
    exact exec_disjoint e waiting

end Sys2Proof.Machine
end

section
/-! SUPPORT. What the export queue does as its head comes to its turn, and what the issue port then takes up (R128, R135,
R158, R159). -/

namespace Sys2Proof.Machine

variable {s t u : State} {b c : Fin 8} {rest : List (Fin 8)} {r : BinRecord}

/-! ## How the export queue begins (R128, R135) -/

/-- An empty queue has nothing to begin. -/
theorem beginExport_nil (n : Nat) (hq : s.stack.exportQueue = []) : beginExport n s = s := by
  cases n with
  | zero => rfl
  | succ n => simp only [beginExport, hq]

/-- Until the window is valid the queue waits. -/
theorem beginExport_waits (n : Nat) (hv : windowValid s.regs = false) : beginExport n s = s := by
  cases n with
  | zero => rfl
  | succ n =>
    simp only [beginExport, hv, Bool.not_false, if_true]
    split <;> rfl

section head
variable (hq : s.stack.exportQueue = b :: rest) (hv : windowValid s.regs = true) (hr : s.stack.bins[b].record = some r)
include hq hv hr

/-- The head of the queue begins if its extent fits, and else leaves the queue HELD. -/
theorem beginExport_head (n : Nat) : beginExport (n + 1) s =
    if inBuffer s.regs r.exportOffset (extentLength r.channelCount r.lags) = true then
      withExportBurst (Writer.start b) r s
    else beginExport n (holdHead b r r.exportOffset rest s) := by
  simp only [beginExport, hq, hv, hr, Bool.not_true, Bool.false_eq_true, if_false]
  rw [postExportBurst_eq (w := Writer.start b) hr]

theorem beginExport_fits (hf : inBuffer s.regs r.exportOffset (extentLength r.channelCount r.lags) = true) :
    beginExport s.stack.exportQueue.length s = withExportBurst (Writer.start b) r s := by
  rw [congrArg List.length hq, List.length_cons, beginExport_head hq hv hr, if_pos hf]

theorem beginExport_unfit (hf : inBuffer s.regs r.exportOffset (extentLength r.channelCount r.lags) = false) :
    beginExport s.stack.exportQueue.length s = beginExport rest.length (holdHead b r r.exportOffset rest s) := by
  rw [congrArg List.length hq, List.length_cons, beginExport_head hq hv hr, if_neg (Bool.eq_false_iff.mp hf)]

end head

/-- What the turn of each bin keeps holds once the queue has begun: the bin at the head begins, or is HELD. -/
theorem beginExport_keeps {P : State → Prop}
    (begins : ∀ u b rest r, u.stack.exportQueue = b :: rest → u.stack.bins[b].record = some r → P u →
      P (withExportBurst (Writer.start b) r u))
    (held : ∀ u b rest r, u.stack.exportQueue = b :: rest → u.stack.bins[b].record = some r → P u →
      P (holdHead b r r.exportOffset rest u))
    (n : Nat) (h : P s) : P (beginExport n s) := by
  induction n generalizing s with
  | zero => exact h
  | succ n ih =>
    cases hq : s.stack.exportQueue with
    | nil => rwa [beginExport_nil _ hq]
    | cons b rest =>
      cases hv : windowValid s.regs with
      | false => rwa [beginExport_waits _ hv]
      | true =>
        cases hr : s.stack.bins[b].record with
        | none =>
          have stays : beginExport (n + 1) s = s := by simp [beginExport, hq, hv, hr, -Fin.getElem_fin]
          rwa [stays]
        | some r =>
          rw [beginExport_head hq hv hr]
          split
          · exact begins s b rest r hq hr h
          · exact ih (held s b rest r hq hr h)

/-- The queue of `u` is what is left of that of `s`, and a bin that was not in it, or was FREE, is as it was. -/
structure QueueAside (s u : State) : Prop where
  queue : u.stack.exportQueue <:+ s.stack.exportQueue
  bins : ∀ c : Fin 8, c ∉ s.stack.exportQueue ∨ s.stack.bins[c].record = none → u.stack.bins[c] = s.stack.bins[c]

/-- The bin whose turn it is was in the queue and not FREE. -/
theorem QueueAside.head_apart (h : QueueAside s u) (hq : u.stack.exportQueue = b :: rest)
    (hr : u.stack.bins[b].record = some r) (hc : c ∉ s.stack.exportQueue ∨ s.stack.bins[c].record = none) : b ≠ c := by
  rintro rfl
  rcases hc with out | free
  · exact out (h.queue.subset (hq ▸ List.mem_cons_self))
  · exact nomatch hr.symm.trans ((congrArg Bin.record (h.bins b (.inr free))).trans free)

/-- Bins leave the queue at its head alone, and a bin that is not in it, or is FREE, has no turn. -/
theorem beginExport_aside (n : Nat) (s : State) : QueueAside s (beginExport n s) := by
  refine beginExport_keeps (P := QueueAside s) (fun u b rest r hq hr h => ⟨h.queue, fun c hc => ?_⟩)
    (fun u b rest r hq hr h => ⟨(List.suffix_cons b rest).trans (hq ▸ h.queue), fun c hc => ?_⟩) n
    ⟨List.suffix_rfl, fun _ _ => rfl⟩
  · exact ((withExportBurst_bins (Writer.start b) r u).2 c (h.head_apart hq hr hc).symm).trans (h.bins c hc)
  · exact (set_get_other _ _ (h.head_apart hq hr hc)).trans (h.bins c hc)

/-- Where BIN is pending already, the queue raises nothing new. -/
theorem beginExport_pending (n : Nat) (h : isPending .bin s) :
    (beginExport n s).events.pending = s.events.pending := by
  have again : ∀ p : BitVec 5, p &&& Cause.bin.bit = Cause.bin.bit → p ||| Cause.bin.bit = p := by decide
  refine beginExport_keeps (P := fun u => u.events.pending = s.events.pending) (fun _ _ _ _ _ _ same => same)
    (fun u b rest r _ _ same => ?_) n rfl
  simp only [holdHead_frame, raiseCause_keeps, same, again _ h]

/-- With every bin of a lawful queue in EXPORTING, the queue begins as R128 and R135 say. -/
theorem QueueLawful.begins (h : QueueLawful s.stack) :
    ExportQueueBegins s (beginExport s.stack.exportQueue.length s) := by
  refine beginExport_begins _ s le_rfl h.nodup fun b hb => ?_
  obtain ⟨r, hr, -⟩ := (h.exporting b).mp hb
  rw [hr]
  exact nofun

/-- Once the bin of the writer has left the head of a lawful queue, the others of the queue come to it. -/
theorem QueueLawful.nextBegins {w : Writer} (h : QueueLawful s.stack) (hw : s.stack.writer = some w)
    (hq : u.stack.exportQueue = s.stack.exportQueue.drop 1)
    (others : ∀ c : Fin 8, w.bin ≠ c → u.stack.bins[c] = s.stack.bins[c]) :
    ExportQueueBegins u (beginExport u.stack.exportQueue.length u) := by
  have whole := h.nodup
  rw [h.writerHead hw, List.nodup_cons] at whole
  obtain ⟨out, nodup⟩ := whole
  refine beginExport_begins _ u le_rfl (hq ▸ nodup) fun b hb => ?_
  rw [hq] at hb
  obtain ⟨r, hr, -⟩ := (h.exporting b).mp (List.mem_of_mem_drop hb)
  rw [others b (fun e => out (e ▸ hb)), hr]
  exact nofun

/-! ## The issue port after the export writer's turn (R158, R159) -/

/-- Nothing of the issue port or of the other requesters differs. -/
def SameRequesters (s t : State) : Prop :=
  t.bus.portBusy = s.bus.portBusy ∧ t.bus.scanner = s.bus.scanner ∧ t.bus.loader = s.bus.loader

/-- Where no request waited before a free port, only the export writer's new one can be served. -/
theorem PortServed.exporterNext (h : PortServed s) (same : SameRequesters s t) : serveIssuePort t = exporterServed t := by
  obtain ⟨port, scanner, loader⟩ := same
  refine serveIssuePort_exporter ?_
  rw [port, scanner, loader]
  exact h.imp id fun ⟨hs, _, hl⟩ => ⟨hs, hl⟩

/-- What is served touches the exporter's slot and the port alone. -/
@[simp] theorem exporterServed_frame (u : State) :
    (exporterServed u).events = u.events ∧ (exporterServed u).stack = u.stack ∧ (exporterServed u).board = u.board ∧
      (exporterServed u).bus.exporterFaults = u.bus.exporterFaults := by
  unfold exporterServed
  split <;> exact ⟨rfl, rfl, rfl, rfl⟩

theorem exporterServed_empty (h : u.bus.exporter = .empty) : exporterServed u = u := by
  unfold exporterServed
  split
  · rename_i waits
    exact nomatch h.symm.trans waits
  · rfl

/-- The next burst is issued at once before a free port, and else waits. -/
theorem exporterServed_burst (w : Writer) (r : BinRecord) (s : State) (burst : Burst)
    (h : (withExportBurst w r s).bus.exporter = .waiting burst) :
    (exporterServed (withExportBurst w r s)).bus.exporter =
      if s.bus.portBusy = true then .waiting burst
      else .issued burst (BitVec.ofNat 64 (s.regs.base + burst.offset)) := by
  unfold exporterServed
  rw [h]
  have port : (withExportBurst w r s).bus.portBusy = s.bus.portBusy := rfl
  rw [port]
  cases s.bus.portBusy with
  | true => exact h
  | false => rfl

/-- What the issue port takes up after the queue has begun is the export writer's request. -/
theorem PortServed.queueNext (served : PortServed s) (same : SameRequesters s u) (n : Nat) :
    serveIssuePort (beginExport n u) = exporterServed (beginExport n u) :=
  served.exporterNext (by simpa [SameRequesters] using same)

/-- A cause that is pending as the queue begins is pending after. -/
theorem isPending_begun {cause : Cause} (h : isPending cause u) (n : Nat) :
    isPending cause (exporterServed (beginExport n u)) := by
  have kept := (beginExport_grows (List.mem_singleton_self Cause.bin) n u).events.keeps h
  simpa [isPending] using kept

/-- A bin that is not in the queue, or is FREE, is as it was. -/
theorem begun_bin (n : Nat) (h : c ∉ u.stack.exportQueue ∨ u.stack.bins[c].record = none) :
    (exporterServed (beginExport n u)).stack.bins[c] = u.stack.bins[c] := by
  rw [(exporterServed_frame _).2.1]
  exact (beginExport_aside n u).bins c h

end Sys2Proof.Machine
end

section
/-! PROOFS. The reports of export bursts (O53): the export goes on with its next burst, or its bin leaves the queue and the
next bin comes to the head. -/

namespace Sys2Proof.Machine

variable {s u : State} {b c : Fin 8} {rest : List (Fin 8)} {r : BinRecord}

/-! ## The report of a burst (R129, R133, R134, R161) -/

/-- The part with an export burst reported and its slot empty, the errors in local DRAM arisen. -/
def exporterReported (us : List Upset) (s : State) : State :=
  { s.applyUpsets us with bus := { s.bus with exporter := .empty } }

/-- The writer with a burst of `n` bytes completed. -/
def Writer.further (n : Nat) (w : Writer) : Writer := { w with written := w.written + n }

/-- The part with the bin of the writer FREE and its OPEN_BIN answered (R133). -/
def exportFreed (burst : Burst) (w : Writer) (r : BinRecord) (us : List Upset) (s : State) : State :=
  freeExported (w.further burst.length) r (exporterReported us s)

/-- The part with a faulted burst counted and its bin HELD (R134, R161). -/
def exportHeld (burst : Burst) (w : Writer) (r : BinRecord) (us : List Upset) (s : State) : State :=
  holdHead w.bin r burst.offset (s.stack.exportQueue.drop 1) ((exporterReported us s).busFault .exporter)

/-- The bin is FREE and out of the queue, its OPEN_BIN answered with the counts of the records, and BIN is raised. -/
theorem exportFreed_eq (burst : Burst) (w : Writer) (r : BinRecord) (us : List Upset) (s : State) :
    exportFreed burst w r us s =
      { s.applyUpsets us with
        events := raiseCause s.regs.intEn .bin s.events
        bus := { s.bus with exporter := .empty }
        board := { s.board with
          boxes := s.board.boxes.set r.box { s.board.boxes[r.box] with
            dirty := true
            answer := some
              { outcome := .done, reason := .none
                words := [resultWord w.bin.val, resultWord r.channelCount, resultWord w.emptyCount,
                  resultWord w.poisonCount, resultWord w.noisyCount] } } }
        stack :=
          { bins := s.stack.bins.set w.bin { record := none, lastExport := .done, heldFaultOffset := 0 }
            exportQueue := s.stack.exportQueue.drop 1, writer := none } } := rfl

/-- The bin is HELD at the burst and out of the queue, the fault is counted, and FAULT and then BIN are raised. -/
theorem exportHeld_eq (burst : Burst) (w : Writer) (r : BinRecord) (us : List Upset) (s : State) :
    exportHeld burst w r us s =
      { s.applyUpsets us with
        events := raiseCause s.regs.intEn .bin (raiseCause s.regs.intEn .fault s.events)
        bus := { s.bus with exporter := .empty, exporterFaults := min (s.bus.exporterFaults + 1) 4294967295 }
        stack :=
          { bins := s.stack.bins.set w.bin
              { record := some { r with phase := .held }, lastExport := .writeFault, heldFaultOffset := burst.offset }
            exportQueue := s.stack.exportQueue.drop 1, writer := none } } := rfl

section report
variable {us : List Upset} {burst : Burst} {host : BitVec 64} {w : Writer}
variable (hx : s.bus.exporter = .issued burst host)

section
include hx

theorem exec_exportBurstDone :
    exec (.exportBurstDone us) s = .next (serveIssuePort (exportBurstCompleted burst (s.applyUpsets us))) := by
  show execExportBurstDone us s = _
  simp only [execExportBurstDone, applyUpsets_frame, hx, Slot.issuedBurst]

theorem exec_exportBurstFault :
    exec (.exportBurstFault us) s = .next (serveIssuePort (exportBurstFailed burst (s.applyUpsets us))) := by
  show execExportBurstFault us s = _
  simp only [execExportBurstFault, applyUpsets_frame, hx, Slot.issuedBurst]

end

variable (hw : s.stack.writer = some w) (hr : s.stack.bins[w.bin].record = some r)
include hw hr

/-- Before the end of the extent the next burst is posted (R129). -/
theorem exportBurstCompleted_goesOn (h : w.written + burst.length < r.channelCount * (32 + 4 * r.lags)) :
    exportBurstCompleted burst (s.applyUpsets us) =
      withExportBurst (w.further burst.length) r (exporterReported us s) := by
  have before : ¬r.exportStop ≤ r.exportOffset + (w.written + burst.length) := by
    simp only [BinRecord.exportStop, extentLength, recordLength]
    omega
  have writer : (s.applyUpsets us).stack.writer = some w := hw
  have record : ((s.applyUpsets us).setSlot .exporter .empty).stack.bins[w.bin].record = some r := hr
  simp only [exportBurstCompleted, writer, record, if_neg before]
  exact postExportBurst_eq (w := w.further burst.length) (s := exporterReported us s) hr

/-- At the end of the extent the export succeeds (R133). -/
theorem exportBurstCompleted_ends (h : r.channelCount * (32 + 4 * r.lags) ≤ w.written + burst.length) :
    exportBurstCompleted burst (s.applyUpsets us) =
      beginExport (exportFreed burst w r us s).stack.exportQueue.length (exportFreed burst w r us s) := by
  have beyond : r.exportStop ≤ r.exportOffset + (w.written + burst.length) := by
    simp only [BinRecord.exportStop, extentLength, recordLength]
    omega
  have writer : (s.applyUpsets us).stack.writer = some w := hw
  have record : ((s.applyUpsets us).setSlot .exporter .empty).stack.bins[w.bin].record = some r := hr
  simp only [exportBurstCompleted, writer, record, if_pos beyond]
  rfl

/-- A faulted burst ends the export, and the next bin comes to the head (R134). -/
theorem exportBurstFailed_holds :
    exportBurstFailed burst (s.applyUpsets us) =
      beginExport (exportHeld burst w r us s).stack.exportQueue.length (exportHeld burst w r us s) := by
  have writer : (s.applyUpsets us).stack.writer = some w := hw
  have record :
      (((s.applyUpsets us).setSlot .exporter .empty).busFault .exporter).stack.bins[w.bin].record = some r := hr
  simp only [exportBurstFailed, writer, record]
  rfl

end report

/-! ## What the statement says of each report -/

/-- A completed burst before the end of the extent (R129, R158). -/
theorem exportGoesOn {us : List Upset} {burst : Burst} {host : BitVec 64} {w : Writer} (served : PortServed s)
    (hx : s.bus.exporter = .issued burst host) (hw : s.stack.writer = some w)
    (hr : s.stack.bins[w.bin].record = some r)
    (h : w.written + burst.length < r.channelCount * (32 + 4 * r.lags)) :
    let t := serveIssuePort (exportBurstCompleted burst (s.applyUpsets us))
    t = exporterServed (withExportBurst (w.further burst.length) r (exporterReported us s)) ∧
      ∃ next, next.direction = .write ∧ next.offset = r.exportOffset + (w.written + burst.length) ∧
        next.length = next.data.length ∧
        (t.bus.exporter = if s.bus.portBusy = true then .waiting next
          else .issued next (BitVec.ofNat 64 (s.regs.base + next.offset))) ∧
        (WriterLawful s →
          next.length = burstLength next.offset (r.exportOffset + r.channelCount * (32 + 4 * r.lags))) := by
  intro t
  have e : t = exporterServed (withExportBurst (w.further burst.length) r (exporterReported us s)) := by
    unfold t
    rw [exportBurstCompleted_goesOn hw hr h]
    exact served.exporterNext ⟨rfl, rfl, rfl⟩
  refine ⟨e, _, rfl, rfl, rfl, e ▸ exporterServed_burst _ _ _ _ rfl, fun lawful => ?_⟩
  obtain ⟨issued, holds, formed, bytes⟩ := lawful w r hw hr
  obtain rfl : issued = burst := by
    rw [hx] at holds
    obtain waits | ⟨_, same⟩ := holds
    · cases waits
    · cases same
      rfl
  refine exportBurst_length (w := w.further issued.length) _ _ ?_
  simp only [Writer.further, burstLength]
  omega

/-- The next bin of the queue begins once the export before has come to its end (R128, R133). -/
theorem exportFreed_begins {us : List Upset} {burst : Burst} {w : Writer} {q : BinRecord}
    (hq : s.stack.exportQueue.drop 1 = b :: rest) (apart : b ≠ w.bin) (hb : s.stack.bins[b].record = some q)
    (hv : windowValid s.regs = true)
    (hf : inBuffer s.regs q.exportOffset (extentLength q.channelCount q.lags) = true) :
    beginExport (exportFreed burst w r us s).stack.exportQueue.length (exportFreed burst w r us s) =
      withExportBurst (Writer.start b) q (exportFreed burst w r us s) :=
  beginExport_fits hq hv ((congrArg Bin.record (set_get_other _ _ apart.symm)).trans hb) hf

/-- The events of a part with a burst faulted: FAULT and BIN are pending. -/
theorem exportHeld_events (burst : Burst) (w : Writer) (r : BinRecord) (us : List Upset) (s : State) :
    EventsGrow s.regs.intEn s.events (exportHeld burst w r us s).events ∧
      isPending .fault (exportHeld burst w r us s) ∧ isPending .bin (exportHeld burst w r us s) ∧
      (exportHeld burst w r us s).events.pending = s.events.pending ||| Cause.fault.bit ||| Cause.bin.bit := by
  have fault := (raise_grows (List.mem_cons_self : Cause.fault ∈ [.fault, .bin]) s).events
  have bin := (raise_grows (by simp : Cause.bin ∈ [.fault, .bin]) (s.raise .fault)).events
  refine ⟨fault.trans bin, bin.keeps (raise_pending .fault s), raise_pending .bin (s.raise .fault), ?_⟩
  simp only [exportHeld_eq, raiseCause_keeps]

/-- Settles O53: a completed burst before the end of the extent and at it, and a faulted burst. -/
theorem exportBurstReports : Obligations.ExportBurstReports := by
  refine ⟨fun us s burst host w r served hx hw hr => ?_, fun us s burst host w r served hx hw hr out => ?_⟩
  · have grown := (exportBurstCompleted_grows (List.mem_singleton_self Cause.bin) burst (s.applyUpsets us)).events
    refine ⟨_, exec_exportBurstDone hx, by simpa using grown, by simp, by simp, by simp, by simp, by simp, by simp,
      fun before => ?_, fun done => ?_⟩
    · obtain ⟨e, next, write, offset, length, slot, reach⟩ := exportGoesOn (us := us) served hx hw hr before
      rw [e] at slot ⊢
      simp only [exporterServed_frame]
      exact ⟨rfl, rfl, rfl, ⟨_, rfl, rfl, rfl⟩, next, write, offset, length, slot, reach, rfl⟩
    · let f := exportFreed burst w r us s
      have free : f.stack.bins[w.bin] = { record := none, lastExport := .done, heldFaultOffset := 0 } := set_get_self ..
      have board : (exporterServed (beginExport f.stack.exportQueue.length f)).board = f.board := by simp
      have pending : f.events.pending = s.events.pending ||| Cause.bin.bit := by
        simp only [f, exportFreed_eq, raiseCause_keeps]
      rw [exportBurstCompleted_ends hw hr done, served.queueNext (u := f) ⟨rfl, rfl, rfl⟩, board]
      refine ⟨isPending_begun (raise_pending ..) _, ?_, rfl, fun lawful => ?_, fun empty => ?_,
        fun n rest q hq apart hn hv hf => ?_⟩
      · exact (begun_bin _ (.inr (congrArg Bin.record free))).trans free
      · exact ⟨f.events, _, (raise_grows (List.mem_singleton_self Cause.bin) s).events, pending, rfl,
          lawful.nextBegins (u := f) hw rfl fun c hc => set_get_other _ _ hc⟩
      · have last : f.stack.exportQueue = [] := empty
        rw [beginExport_nil _ last, exporterServed_empty rfl, ← empty]
        exact ⟨rfl, rfl⟩
      · rw [exportFreed_begins hq apart hn hv hf, (exporterServed_frame _).2.1]
        exact ⟨hq, _, rfl, rfl, rfl⟩
  · have grown := (exportBurstFailed_grows (cs := [.fault, .bin]) (by simp) (by simp) burst (s.applyUpsets us)).events
    let f := exportHeld burst w r us s
    obtain ⟨raised, fault, bin, pending⟩ := exportHeld_events burst w r us s
    have e : serveIssuePort (exportBurstFailed burst (s.applyUpsets us)) =
        exporterServed (beginExport f.stack.exportQueue.length f) := by
      rw [exportBurstFailed_holds hw hr]
      exact served.queueNext (u := f) ⟨rfl, rfl, rfl⟩ _
    obtain ⟨board, faults⟩ : (exporterServed (beginExport f.stack.exportQueue.length f)).board = s.board ∧
        (exporterServed (beginExport f.stack.exportQueue.length f)).bus.exporterFaults =
          min (s.bus.exporterFaults + 1) 4294967295 := by
      simp only [exporterServed_frame, beginExport_frame]
      exact ⟨rfl, rfl⟩
    refine ⟨_, exec_exportBurstFault hx, by simpa using grown, e ▸ isPending_begun fault _, e ▸ isPending_begun bin _,
      e ▸ board, by simp, by simp, by simp, by simp, by simp, by simp, e ▸ faults, ?_, fun empty => ?_, fun lawful => ?_⟩
    · rw [e]
      exact (begun_bin _ (.inl out)).trans (set_get_self ..)
    · rw [e, beginExport_nil _ (s := f) empty, exporterServed_empty rfl]
      exact ⟨rfl, empty, rfl⟩
    · exact ⟨f.events, _, raised, pending, e, lawful.nextBegins (u := f) hw rfl fun c hc => set_get_other _ _ hc⟩

end Sys2Proof.Machine
end

section
/-! PROOFS. Writes to the window registers (O10), and the export that a new size lets begin. -/

namespace Sys2Proof.Machine

variable {s : State} {v : Word} {us : List Upset} {b : Fin 8} {rest : List (Fin 8)} {r : BinRecord}

/-- A slot with a burst is not EMPTY. -/
theorem Slot.holds.ne_empty {x : Slot} {burst : Burst} (h : x.holds burst) : x ≠ .empty := by
  rintro rfl
  rcases h with waits | ⟨_, issued⟩
  · cases waits
  · cases issued

/-! ## Writes that are taken, and the baseline marks (R153, R176) -/

theorem windowWritable_iff :
    s.windowWritable = true ↔
      s.regs.scanEn = false ∧ s.board.phase = .idle ∧ s.library.load = none ∧ s.stack.writer = none := by
  simp [State.windowWritable, State.scanBusy, State.moverBusy, and_assoc]

theorem windowWritable_eq_false_iff :
    s.windowWritable = false ↔
      s.regs.scanEn = true ∨ s.board.phase ≠ .idle ∨ s.library.load ≠ none ∨ s.stack.writer ≠ none := by
  rw [← Bool.not_eq_true, windowWritable_iff]
  simp only [not_and_or, Bool.not_eq_false, ne_eq]

/-- A change of the window touches the boxes alone. -/
theorem windowChanged_eq (changed : Bool) (s : State) :
    windowChanged changed s =
      { s with board := { s.board with boxes := (windowChanged changed s).board.boxes } } := by
  unfold windowChanged
  split <;> rfl

/-- A word of the window that changes outside INIT sets the mark of each box. -/
theorem windowChanged_box (v word : Word) (s : State) (b : Fin 64) :
    (windowChanged (v != word) s).board.boxes[b] =
      if s.device ≠ .init ∧ v ≠ word then { s.board.boxes[b] with baseline := true } else s.board.boxes[b] := by
  have marks : (v != word) = true ∧ s.device ≠ .init ↔ s.device ≠ .init ∧ v ≠ word := by rw [bne_iff_ne, and_comm]
  unfold windowChanged
  by_cases h : s.device ≠ .init ∧ v ≠ word
  · rw [if_pos h, if_pos (marks.mpr h)]
    simp only [markAllBoxes, Fin.getElem_fin, mapTable_getElem]
  · rw [if_neg h, if_neg (mt marks.mp h)]

theorem exec_windowBaseWrite_taken (half : WordHalf) (v : Word) (h : s.windowWritable = true) :
    exec (.windowBaseWrite half v) s =
      .next (windowChanged (v != s.regs.baseWord half) { s with regs := s.regs.withBaseWord half v }) :=
  if_pos h

/-- The part with a new window size, before anything comes of it. -/
def resized (v : Word) (us : List Upset) (s : State) : State :=
  windowChanged (v != s.regs.size) { s.applyUpsets us with regs := { s.regs with size := v } }

theorem resized_eq (v : Word) (us : List Upset) (s : State) :
    resized v us s =
      { s.applyUpsets us with
        regs := { s.regs with size := v }
        board := { s.board with boxes := (resized v us s).board.boxes } } := windowChanged_eq ..

theorem resized_box (v : Word) (us : List Upset) (s : State) (b : Fin 64) :
    (resized v us s).board.boxes[b] =
      if s.device ≠ .init ∧ v ≠ s.regs.size then { s.board.boxes[b] with baseline := true } else s.board.boxes[b] :=
  windowChanged_box ..

@[simp] theorem resized_frame (v : Word) (us : List Upset) (s : State) :
    (resized v us s).regs = { s.regs with size := v } ∧ (resized v us s).stack = s.stack ∧
      (resized v us s).bus = s.bus ∧ (resized v us s).events = s.events := by
  simp [resized]

/-- After the write of the size the export queue may begin (R128). -/
theorem exec_windowSizeWrite_taken (v : Word) (us : List Upset) (h : s.windowWritable = true) :
    exec (.windowSizeWrite v us) s =
      .next (serveIssuePort (beginExport (resized v us s).stack.exportQueue.length (resized v us s))) :=
  if_pos (by simpa [State.windowWritable, State.scanBusy, State.moverBusy] using h)

/-! ## What a new size lets begin (R128, R135) -/

/-- The head of the queue that fits the new window begins. -/
theorem resized_begins (hq : s.stack.exportQueue = b :: rest) (hr : s.stack.bins[b].record = some r)
    (hv : windowValid { s.regs with size := v } = true)
    (hf : inBuffer { s.regs with size := v } r.exportOffset (extentLength r.channelCount r.lags) = true) :
    beginExport (resized v us s).stack.exportQueue.length (resized v us s) =
      withExportBurst (Writer.start b) r (resized v us s) := by
  obtain ⟨regs, stack, -⟩ := resized_frame v us s
  exact beginExport_fits (by rw [stack, hq]) (by rw [regs, hv]) (by rw [stack, hr]) (by rw [regs, hf])

/-- The head of the queue that does not fit it leaves the queue HELD. -/
theorem resized_holds (hq : s.stack.exportQueue = b :: rest) (hr : s.stack.bins[b].record = some r)
    (hv : windowValid { s.regs with size := v } = true)
    (hf : inBuffer { s.regs with size := v } r.exportOffset (extentLength r.channelCount r.lags) = false) :
    beginExport (resized v us s).stack.exportQueue.length (resized v us s) =
      beginExport rest.length (holdHead b r r.exportOffset rest (resized v us s)) := by
  obtain ⟨regs, stack, -⟩ := resized_frame v us s
  exact beginExport_unfit (by rw [stack, hq]) (by rw [regs, hv]) (by rw [stack, hr]) (by rw [regs, hf])

/-- Settles O10: the writes that are taken, by what comes of the export queue, and the writes that are discarded. -/
theorem windowWrites : Obligations.WindowWrites := by
  refine ⟨fun half v s scanEn phase load writer => ?_, fun v us s served scanEn phase load writer waits => ?_,
    fun v us s b rest r scanEn phase load writer hq hr hv hf => ?_,
    fun v us s served lawful scanEn phase load writer => ?_,
    fun v us s b rest r scanEn phase load writer hq out hr hv hf => ?_, fun half v us s busy => ?_⟩
  · refine ⟨_, exec_windowBaseWrite_taken half v (windowWritable_iff.mpr ⟨scanEn, phase, load, writer⟩), ?_, fun b => ?_⟩
    · cases half <;> exact windowChanged_eq ..
    · cases half <;> exact windowChanged_box ..
  · have stays : beginExport (resized v us s).stack.exportQueue.length (resized v us s) = resized v us s := by
      rcases waits with empty | invalid
      · exact beginExport_nil _ (by simpa using empty)
      · exact beginExport_waits _ (by simpa using invalid)
    have idle : serveIssuePort (resized v us s) = resized v us s :=
      serveIssuePort_of_served (by simpa [PortServed] using served)
    refine ⟨resized v us s, ?_, resized_eq .., resized_box v us s⟩
    rw [exec_windowSizeWrite_taken v us (windowWritable_iff.mpr ⟨scanEn, phase, load, writer⟩), stays, idle]
  · let u := withExportBurst (Writer.start b) r (resized v us s)
    obtain ⟨w, at_work, bin, start⟩ : ∃ w, u.stack.writer = some w ∧ w.bin = b ∧ w.written = 0 := ⟨_, rfl, rfl, rfl⟩
    have requested := (serveIssuePort_holds u _ (.inl rfl)).ne_empty
    obtain ⟨regs, stack, -⟩ := resized_frame v us s
    refine ⟨_, w, exec_windowSizeWrite_taken v us (windowWritable_iff.mpr ⟨scanEn, phase, load, writer⟩), ?_⟩
    rw [resized_begins hq hr hv hf]
    simp only [serveIssuePort_frame]
    exact ⟨at_work, bin, start, requested, (congrArg StackUnit.exportQueue stack).trans hq, regs⟩
  · let u := beginExport (resized v us s).stack.exportQueue.length (resized v us s)
    have begun : ExportQueueBegins (resized v us s) u := QueueLawful.begins (by simpa using lawful)
    have next : serveIssuePort u = exporterServed u := served.queueNext (by simp [SameRequesters]) _
    refine ⟨(resized v us s).board.boxes, u, ?_, resized_eq v us s ▸ begun, resized_box v us s⟩
    rw [exec_windowSizeWrite_taken v us (windowWritable_iff.mpr ⟨scanEn, phase, load, writer⟩), next]
  · refine ⟨_, exec_windowSizeWrite_taken v us (windowWritable_iff.mpr ⟨scanEn, phase, load, writer⟩), ?_⟩
    rw [resized_holds hq hr hv hf]
    let held := holdHead b r r.exportOffset rest (resized v us s)
    have pending : isPending .bin held := raise_pending ..
    have left : QueueAside held (beginExport rest.length held) := beginExport_aside ..
    simp only [serveIssuePort_frame]
    refine ⟨(left.bins b (.inl out)).trans (set_get_self ..), fun back => out (left.queue.subset back),
      (beginExport_pending _ pending).trans ?_, by simp⟩
    simp [held]
  · have discarded := windowWritable_eq_false_iff.mpr busy
    exact ⟨if_neg (Bool.eq_false_iff.mp discarded), if_neg (Bool.eq_false_iff.mp discarded)⟩

end Sys2Proof.Machine
end

section
/-! PROOFS. What the issue port takes up once its burst has been handed over (O31). -/

namespace Sys2Proof.Machine

variable {s : State} {b : Burst}

/-! ## The issue port (R159) -/

/-- The issue arbiter touches the Bus Master Unit and what the scanner holds of an answer alone. -/
theorem serveIssuePort_eq (s : State) :
    serveIssuePort s =
      { s with bus := (serveIssuePort s).bus, board := { s.board with phase := (serveIssuePort s).board.phase } } := by
  unfold serveIssuePort refreshAnswer
  split
  · rfl
  · split
    · split <;> rfl
    · rfl
    · rfl
    · rfl

theorem serveIssuePort_scanner (free : s.bus.portBusy = false) (waits : s.bus.scanner = .waiting b) :
    serveIssuePort s = issueBurst .scanner (refreshAnswer b s).1 (refreshAnswer b s).2 := by
  simp only [serveIssuePort, free, waits, Bool.false_eq_true, if_false]

theorem serveIssuePort_writer (free : s.bus.portBusy = false) (scanner : s.bus.scanner.isWaiting = false)
    (waits : s.bus.exporter = .waiting b) : serveIssuePort s = issueBurst .exporter b s := by
  cases hs : s.bus.scanner with
  | waiting other => rw [hs] at scanner; cases scanner
  | empty => simp only [serveIssuePort, free, hs, waits, Bool.false_eq_true, if_false]
  | issued other host => simp only [serveIssuePort, free, hs, waits, Bool.false_eq_true, if_false]

theorem serveIssuePort_loader (free : s.bus.portBusy = false) (scanner : s.bus.scanner.isWaiting = false)
    (exporter : s.bus.exporter.isWaiting = false) (waits : s.bus.loader = .waiting b) :
    serveIssuePort s = issueBurst .loader b s := by
  unfold serveIssuePort
  rw [if_neg (by simp [free])]
  split
  · rename_i hs
    rw [hs] at scanner
    cases scanner
  · rename_i he _
    rw [he] at exporter
    cases exporter
  · rename_i hl _ _
    obtain rfl : b = _ := Slot.waiting.inj (waits.symm.trans hl)
    rfl
  · rename_i idle
    exact absurd waits (idle b)

/-- The first write of an answer is refreshed at its issue (R151). -/
theorem refreshAnswer_first {round : AnswerRound} {box : Fin 64} {sent : Option Answer} (b : Burst)
    (h : s.board.phase = .answerFirst round box sent) :
    refreshAnswer b s = ({ b with data := outcomeBytes s.board.boxes[box].answer },
      s.setPhase (.answerFirst round box s.board.boxes[box].answer)) := by
  simp only [refreshAnswer, h]

/-- Any other burst of the scanner goes out as it was posted. -/
theorem refreshAnswer_other (b : Burst) (h : ∀ round box sent, s.board.phase ≠ .answerFirst round box sent) :
    refreshAnswer b s = (b, s) := by
  unfold refreshAnswer
  split
  · rename_i hp
    exact absurd hp (h _ _ _)
  · rfl

/-- The part with its issue port free. -/
def portFreed (s : State) : State := { s with bus := { s.bus with portBusy := false } }

theorem exec_burstHandedOver (busy : s.bus.portBusy = true) :
    exec .burstHandedOver s = .next (serveIssuePort (portFreed s)) := if_pos busy

/-- Settles O31: the port, free again, by the requester that it serves. -/
theorem issuePortServesByPriority : Obligations.IssuePortServesByPriority := by
  intro s busy
  have port : s.bus = { s.bus with portBusy := true } := by rw [← busy]
  refine ⟨_, exec_burstHandedOver busy, serveIssuePort_eq (portFreed s),
    fun b waits => ⟨fun round box sent hp => ?_, fun hp => ?_⟩, fun b scanner waits => ?_, fun b scanner exporter waits => ?_, fun scanner exporter loader => ?_⟩
  · rw [serveIssuePort_scanner (s := portFreed s) rfl waits, refreshAnswer_first (s := portFreed s) b hp, port]
    exact ⟨rfl, rfl⟩
  · rw [serveIssuePort_scanner (s := portFreed s) rfl waits, refreshAnswer_other (s := portFreed s) b hp, port]
    exact ⟨rfl, rfl⟩
  · rw [serveIssuePort_writer (s := portFreed s) rfl scanner waits, port]
    exact ⟨rfl, rfl⟩
  · rw [serveIssuePort_loader (s := portFreed s) rfl scanner exporter waits, port]
    exact ⟨rfl, rfl⟩
  · rw [serveIssuePort_of_served (s := portFreed s) (.inr ⟨scanner, exporter, loader⟩)]
    exact ⟨rfl, rfl⟩

end Sys2Proof.Machine
end

section
/-! PROOFS. The read stage of a board scan: the first reading of a box's post (O35), the next burst of a box (O36), the
reads that fail (O37), the baseline treatment (O38), and the order of no kind (O42). -/

namespace Sys2Proof.Machine

variable {s : State} {b : Fin 64} {e : BoxEntry} {post first : Byte} {body received : List Byte}

/-! ## The burst that the scanner posts to go on (R157, R159) -/

/-- The scanner goes on in phase `p` with burst `burst`, which waits while the port is busy and else is issued. -/
structure ScannerAwaits (p : ScanPhase) (burst : Burst) (s t : State) : Prop where
  only : OnlyScanner s t
  board : t.board = { s.board with phase := p }
  slot : t.bus.scanner =
    if s.bus.portBusy = true then .waiting burst else .issued burst (BitVec.ofNat 64 (s.regs.base + burst.offset))

/-- Once its last burst is reported the scanner posts the next, which is not the first write of an answer. -/
theorem scannerPosts_awaits {p : ScanPhase} (burst : Burst) (s : State)
    (hp : ∀ round box sent, p ≠ .answerFirst round box sent) :
    ScannerAwaits p burst s (serveIssuePort (scannerPosts p burst s.scannerReported)) := by
  cases port : s.bus.portBusy with
  | true =>
    have busy : serveIssuePort (scannerPosts p burst s.scannerReported) = scannerPosts p burst s.scannerReported := if_pos port
    rw [busy]
    exact ⟨by constructor <;> rfl, rfl, by rw [port]; rfl⟩
  | false =>
    rw [serveIssuePort_scanner (s := scannerPosts p burst s.scannerReported) port rfl,
      refreshAnswer_other (s := scannerPosts p burst s.scannerReported) burst hp]
    exact ⟨by constructor <;> rfl, rfl, by rw [port]; rfl⟩

/-! ## The first reading of a post (R143, R147, R152) -/

theorem exec_hostPostReadDone (phase : s.board.phase = .hostPost b) (issued : s.scannerIssued = true) :
    exec (.hostPostReadDone post) s = .next (serveIssuePort (judgePost b post s.scannerReported)) := by
  show execHostPostReadDone post s = _
  simp only [execHostPostReadDone, phase, if_pos issued]

theorem baselineWaits_iff :
    baselineWaits e = true ↔ (¬∀ a, e.answer = some a → a.outcome ≠ .taken) ∨ e.dirty = true := by
  rw [← finalOrNone_iff, baselineWaits, Bool.or_eq_true, Bool.not_eq_true', Bool.not_eq_true]

theorem holdsNewOrder_iff :
    holdsNewOrder e post = true ↔
      post ≠ 0 ∧ post ≠ e.answeredPost ∧ (∀ a, e.answer = some a → a.outcome ≠ .taken) ∧ e.dirty = false := by
  simp [holdsNewOrder, finalOrNone_iff, and_assoc]

/-- A box with its mark that waits is passed over. -/
theorem judgePost_waits (mark : s.board.boxes[b].baseline = true) (waits : baselineWaits s.board.boxes[b] = true) :
    judgePost b post s = nextBox s := by simp only [judgePost, mark, waits, if_true]

theorem judgePost_rechecks (mark : s.board.boxes[b].baseline = true) (ready : ¬baselineWaits s.board.boxes[b] = true) :
    judgePost b post s = recheckPost b post s := by simp only [judgePost, mark, if_true, if_neg ready]

theorem judgePost_reads (mark : s.board.boxes[b].baseline = false) (new : holdsNewOrder s.board.boxes[b] post = true) :
    judgePost b post s = readBody b post s := by
  simp only [judgePost, mark, new, Bool.false_eq_true, if_false, if_true]

/-- A box without its mark that holds no new order is passed over. -/
theorem judgePost_passes (mark : s.board.boxes[b].baseline = false) (old : ¬holdsNewOrder s.board.boxes[b] post = true) :
    judgePost b post s = nextBox s := by simp only [judgePost, mark, Bool.false_eq_true, if_false, if_neg old]

/-- Settles O35: the four ways in which a box is judged. -/
theorem hostPostIsJudged : Obligations.HostPostIsJudged := by
  intro post s b phase issued
  refine ⟨_, exec_hostPostReadDone phase issued, fun mark final clean => ?_, fun mark waits => ?_,
    fun mark nonzero new final clean => ?_, fun mark old => ?_⟩
  · have ready : ¬baselineWaits s.board.boxes[b] = true := by
      rw [baselineWaits_iff, clean]
      exact fun waits => waits.elim (· final) nofun
    rw [judgePost_rechecks (s := s.scannerReported) mark ready]
    obtain ⟨only, board, slot⟩ := scannerPosts_awaits (p := .baselineRecheck b post) (readBurst (hostHalf b) 1) s nofun
    exact ⟨only, board, slot⟩
  · rw [judgePost_waits (s := s.scannerReported) mark (baselineWaits_iff.mpr waits)]
    exact nextBox_skips s pageWhole
  · rw [judgePost_reads (s := s.scannerReported) mark (holdsNewOrder_iff.mpr ⟨nonzero, new, final, clean⟩)]
    obtain ⟨only, board, slot⟩ := scannerPosts_awaits (p := .body b post) (readBurst (hostHalf b + 1) 127) s nofun
    exact ⟨only, board, slot⟩
  · have nothing_new : ¬holdsNewOrder s.board.boxes[b] post = true := by
      rw [holdsNewOrder_iff]
      rintro ⟨nonzero, new, final, clean⟩
      rcases old with zero | same | taken | dirty
      · exact nonzero zero
      · exact new same
      · exact taken final
      · rw [clean] at dirty
        cases dirty
    rw [judgePost_passes (s := s.scannerReported) mark nothing_new]
    exact nextBox_skips s pageWhole

/-! ## The next burst of a box (R148, R151) -/

theorem exec_bodyReadDone (phase : s.board.phase = .body b post) (issued : s.scannerIssued = true)
    (whole : body.length = 127) :
    exec (.bodyReadDone body) s = .next (serveIssuePort (rereadPost b post body s.scannerReported)) := by
  show execBodyReadDone body s = _
  simp only [execBodyReadDone, phase, if_pos (And.intro issued whole)]

theorem exec_answerFirstWriteDone {round : AnswerRound} {sent : Option Answer}
    (phase : s.board.phase = .answerFirst round b sent) (issued : s.scannerIssued = true) :
    exec .answerFirstWriteDone s = .next (serveIssuePort (writePost round b sent s.scannerReported)) := by
  show execAnswerFirstWriteDone s = _
  simp only [execAnswerFirstWriteDone, phase, if_pos issued]

/-- Settles O36: the second reading of a post, and the second write of an answer. -/
theorem scannerGoesOnInOrder : Obligations.ScannerGoesOnInOrder := by
  refine ⟨fun body s b post phase issued whole => ⟨_, exec_bodyReadDone phase issued whole, ?_⟩,
    fun s round b sent phase issued => ⟨_, exec_answerFirstWriteDone phase issued, ?_⟩⟩
  · obtain ⟨only, board, slot⟩ := scannerPosts_awaits (p := .secondPost b post body) (readBurst (hostHalf b) 1) s nofun
    exact ⟨only, board, slot⟩
  · obtain ⟨only, board, slot⟩ := scannerPosts_awaits (p := .answerSecond round b sent)
      (writeBurst (partHalf b) (postBytes s.board.boxes[b].answeredPost)) s nofun
    exact ⟨only, board, slot⟩

/-! ## Reads that fail, and second readings that differ (R148, R160 to R162) -/

/-- A counted fault touches the Event Unit and the count alone (R161). -/
theorem busFault_scanner (s : State) : s.busFault .scanner =
    { s with
      events := (s.busFault .scanner).events
      bus := { s.bus with scannerFaults := min (s.bus.scannerFaults + 1) 4294967295 } } := rfl

/-- A counted fault raises FAULT (R161). -/
theorem busFault_raises (r : Requester) (s : State) :
    isPending .fault (s.busFault r) ∧ EventsGrow s.regs.intEn s.events (s.busFault r).events :=
  ⟨raise_pending .fault _, (busFault_grows (List.mem_singleton_self Cause.fault) r s).events⟩

/-- A failed read is counted and its box skipped. -/
theorem failScannerRead_skips (s : State) : BoxSkipped (s.busFault .scanner) (failScannerRead s) :=
  nextBox_skips (s.busFault .scanner) pageWhole

/-- Only a burst on the link can lack some of its data (R160). -/
theorem lacks_iff {x : Slot} :
    x.lacks received = true ↔ ∃ burst host, x = .issued burst host ∧ received.length < burst.length := by
  cases x with
  | empty => simp [Slot.lacks, Slot.issuedBurst]
  | waiting burst => simp [Slot.lacks, Slot.issuedBurst]
  | issued burst host => simp [Slot.lacks, Slot.issuedBurst]

theorem scannerIssued_iff : s.scannerIssued = true ↔ ∃ burst host, s.bus.scanner = .issued burst host := by
  unfold State.scannerIssued
  cases s.bus.scanner with
  | empty => simp [Slot.issuedBurst]
  | waiting burst => simp [Slot.issuedBurst]
  | issued burst host => simp [Slot.issuedBurst]

/-- A report of a fault, and a timeout of a read of which the whole has not arrived, fail the read alike (R160). -/
theorem exec_scannerReadFault {c : Instr} (reads : s.board.phase.reads = true) (issued : s.scannerIssued = true)
    (hc : c = .tornRead .faulted ∨ c = .readCompletionTimeout .scanner received ∧
      ∀ burst host, s.bus.scanner = .issued burst host → received.length < burst.length) :
    exec c s = .next (failScannerRead s) := by
  obtain rfl | ⟨rfl, short⟩ := hc
  · exact if_pos ⟨reads, issued⟩
  · obtain ⟨burst, host, on_link⟩ := scannerIssued_iff.mp issued
    exact if_pos ⟨reads, lacks_iff.mpr ⟨burst, host, on_link, short burst host on_link⟩⟩

/-- Settles O37: the failed read, the read that is all there, and the second reading that differs. -/
theorem tornReadSkipsBox : Obligations.TornReadSkipsBox := by
  refine ⟨fun received s reads issued c hc => ⟨_, exec_scannerReadFault reads issued hc, ?_⟩,
    fun received s burst host on_link whole => if_neg fun ⟨_, lacks⟩ => ?_,
    fun s rereads issued => ⟨_, if_pos ⟨rereads, issued⟩, nextBox_skips s pageWhole⟩⟩
  · have skipped := failScannerRead_skips s
    obtain ⟨raised, grown⟩ := busFault_raises .scanner s
    have events : (failScannerRead s).events = (s.busFault .scanner).events := skipped.only.events
    rw [busFault_scanner, ← events] at skipped
    unfold isPending at raised ⊢
    rw [events]
    exact ⟨raised, grown, events ▸ skipped⟩
  · obtain ⟨burst', host', on_link', short⟩ := lacks_iff.mp lacks
    obtain ⟨rfl, -⟩ := Slot.issued.inj (on_link.symm.trans on_link')
    exact absurd whole (not_le.mpr short)

/-! ## The baseline treatment (R152) -/

theorem holdsFinal_iff {a : Option Answer} : holdsFinal a = true ↔ ∃ x, a = some x ∧ x.outcome ≠ .taken := by
  cases a with
  | none => simp [holdsFinal]
  | some x => cases hx : x.outcome <;> simp [holdsFinal, OrderOutcome.isFinal, hx]

/-- An entry with a final answer to the post stands. -/
theorem adoptPost_kept (kept : ∃ a, e.answer = some a ∧ a.outcome ≠ .taken ∧ post = e.answeredPost) :
    adoptPost post e = { e with baseline := false } := by
  obtain ⟨a, answer, final, same⟩ := kept
  exact if_pos ⟨same, holdsFinal_iff.mpr ⟨a, answer, final⟩⟩

/-- Another entry takes the post, STALE and dirty, or is emptied for the post 0. -/
theorem adoptPost_left (left : ¬∃ a, e.answer = some a ∧ a.outcome ≠ .taken ∧ post = e.answeredPost) :
    adoptPost post e =
      if post ≠ 0 then
        { answeredPost := post, current := none, dirty := true, baseline := false
          answer := some { outcome := .stale, reason := .none, words := [] } }
      else { answeredPost := 0, current := none, answer := none, dirty := e.dirty, baseline := false } := by
  refine if_neg fun ⟨same, final⟩ => left ?_
  obtain ⟨a, answer, final⟩ := holdsFinal_iff.mp final
  exact ⟨a, answer, final, same⟩

theorem exec_baselinePostRecheckDone (phase : s.board.phase = .baselineRecheck b first) (issued : s.scannerIssued = true) :
    exec (.baselinePostRecheckDone post) s =
      .next (serveIssuePort (nextBox
        (if post = first then s.scannerReported.setBox b (adoptPost post s.board.boxes[b]) else s.scannerReported))) := by
  show execBaselinePostRecheckDone post s = _
  simp only [execBaselinePostRecheckDone, phase, if_pos issued]
  split <;> rfl

/-- The box is passed with its entry replaced. -/
theorem setBox_skips (s : State) (b : Fin 64) (e : BoxEntry) :
    BoxSkipped { s with board := { s.board with boxes := s.board.boxes.set b e } }
      (serveIssuePort (nextBox (s.scannerReported.setBox b e))) :=
  nextBox_skips { s with board := { s.board with boxes := s.board.boxes.set b e } } pageWhole

/-- Settles O38: the reading that differs, and the three entries that equal readings may leave. -/
theorem baselineIsAdopted : Obligations.BaselineIsAdopted := by
  intro post first s b phase issued clean
  refine ⟨_, exec_baselinePostRecheckDone phase issued, fun differs => ?_, fun same kept => ?_, fun same left new => ?_,
    fun same left zero => ?_⟩
  · rw [if_neg differs]
    exact nextBox_skips s pageWhole
  · rw [if_pos same, adoptPost_kept kept]
    exact setBox_skips ..
  · rw [if_pos same, adoptPost_left left, if_pos new]
    exact setBox_skips ..
  · rw [if_pos same, adoptPost_left left, if_neg (not_not.mpr zero), clean]
    exact setBox_skips ..

/-! ## Orders of no kind, and second readings of an order's post that differ (R148, R149) -/

/-- Whatever the row, a second reading that differs skips the box (R148). -/
theorem takeOrder_differs {kind : Option OrderKind} {owner : Fin 64 → Byte → List Byte → State → Verdict}
    {after : State → State} (phase : s.board.phase = .secondPost b first body) (issued : s.scannerIssued = true)
    (differs : post ≠ first) : BoxSkipped s (takeOrder kind owner after post s) := by
  have on_link : (s.bus.scanner.issuedBurst).isSome = true := issued
  unfold takeOrder
  rw [phase]
  simp only [on_link, Bool.not_true, Bool.false_eq_true, if_false, if_pos differs]
  exact nextBox_skips s pageWhole

/-- Settles O42: the refusal of BAD_KIND, and every row with a second reading that differs. -/
theorem badKindIsRefused : Obligations.BadKindIsRefused := by
  refine ⟨fun b post body s h => ⟨_, rfl, takeOrder_refuses h rfl⟩,
    fun b first post body us s phase issued differs => ⟨fun c hc => ?_, fun c hc => ?_⟩⟩
  · simp only [List.mem_cons, List.not_mem_nil, or_false] at hc
    obtain rfl | rfl | rfl | rfl | rfl | rfl | rfl := hc <;> exact ⟨_, rfl, takeOrder_differs phase issued differs⟩
  · simp only [List.mem_cons, List.not_mem_nil, or_false] at hc
    obtain rfl | rfl | rfl | rfl := hc <;>
      exact ⟨_, rfl, takeOrder_differs (s := s.applyUpsets us) phase issued differs⟩

end Sys2Proof.Machine
end

section
/-! PROOFS. The answer stage and the status stage of a board scan: the answer that is written (O39), the write that
fails (O40), and the end of the scan (O41). -/

namespace Sys2Proof.Machine

variable {s u t : State} {b x : Fin 64} {round : AnswerRound} {sent : Option Answer}

/-! ## The bytes of an answer (13.3, R178) -/

/-- Bytes 132 to 255 of a box, field by field (13.3). -/
def answerChunks (a : Answer) : List (List Byte) :=
  [leBytes 1 a.outcome.code, leBytes 1 a.reason.code, leBytes 2 0,
    ((List.range 30).map fun i => wordBytes (a.words.getD i 0)).flatten]

theorem outcomeBytes_eq (a : Answer) : outcomeBytes (some a) = (answerChunks a).flatten := by
  simp [outcomeBytes, answerChunks, zeroBytes, leBytes]

theorem answerChunks_lengths (a : Answer) : (answerChunks a).map List.length = [1, 1, 2, 120] := by
  have words : (((List.range 30).map fun i => wordBytes (a.words.getD i 0)).flatten).length = 120 :=
    records_length (fun _ => leBytes_length ..) _
  simp only [answerChunks, List.map_cons, List.map_nil, leBytes_length, words]

theorem outcome_code_lt (o : OrderOutcome) : o.code < 256 := by cases o <;> decide

theorem reason_code_lt (r : Reason) : r.code < 256 := by cases r <;> decide

/-- The bytes of an answer hold its outcome, its reason, two zeros and its thirty result words. -/
theorem outcomeBytes_shows (a : Answer) :
    leNat ((outcomeBytes (some a)).take 1) = a.outcome.code ∧
      leNat (((outcomeBytes (some a)).drop 1).take 1) = a.reason.code ∧
      leNat (((outcomeBytes (some a)).drop 2).take 2) = 0 ∧
      ∀ i < 30, leNat (((outcomeBytes (some a)).drop (4 + 4 * i)).take 4) = (a.words.getD i 0).toNat := by
  have lengths := answerChunks_lengths a
  rw [outcomeBytes_eq]
  refine ⟨?_, ?_, (fieldShows_chunk (k := 2) rfl lengths rfl).trans (Nat.zero_mod _), fun i hi => ?_⟩
  · exact (fieldShows_chunk (k := 0) rfl lengths rfl).trans (Nat.mod_eq_of_lt (outcome_code_lt _))
  · exact (fieldShows_chunk (k := 1) rfl lengths rfl).trans (Nat.mod_eq_of_lt (reason_code_lt _))
  · rw [record_of_chunk (k := 3) (o := 4) (fun _ => leBytes_length ..) rfl lengths rfl (by simpa using hi), List.getElem_range]
    exact (leNat_leBytes 4 _).trans (Nat.mod_eq_of_lt (BitVec.isLt _))

/-! ## Where the answer stage goes (R151, R154) -/

/-- Whether it waits or is issued, what begins is the first write of box `x`'s answer. -/
theorem AnswerWriteBegins.phase (h : AnswerWriteBegins round x u t) : ∃ sent, t.board.phase = .answerFirst round x sent := by
  cases port : u.bus.portBusy with
  | true => exact ⟨_, (h.waits port).1⟩
  | false => exact ⟨_, (h.issued port).1⟩

/-- The answer stage has gone on after box `b` of `round` in whatever state, be the boxes left in order or not: it writes
the answer of a box left to one of the rounds, or the status page, and touches nothing but the scanner. -/
structure AnswerStageMoves (round : AnswerRound) (b : Fin 64) (u t : State) : Prop where
  only : OnlyScanner u t
  board : t.board = { u.board with phase := t.board.phase, firstRound := t.board.firstRound }
  phase : t.board.phase = .statusPage ∨ ∃ round' x sent, t.board.phase = .answerFirst round' x sent ∧
    (round' = .first ∧ leftToFirst round u x ∨ round' = .second ∧ leftToSecond round b u x)

/-- The answer write of a box `x` that is left, with the boxes `left` left to the first round after it. -/
theorem writeOutcome_moves {round' : AnswerRound} (left : List (Fin 64))
    (hx : round' = .first ∧ leftToFirst round u x ∨ round' = .second ∧ leftToSecond round b u x) :
    AnswerStageMoves round b u
      (serveIssuePort (writeOutcome round' x { u with board := { u.board with firstRound := left } })) := by
  obtain ⟨only, board, -, -⟩ := writeOutcome_only round' x { u with board := { u.board with firstRound := left } }
  obtain ⟨sent, phase⟩ := (writeOutcome_begins round' x left u).phase
  exact ⟨only.ofScanner _ u.bus.scanner rfl rfl, by rw [board], .inr ⟨round', x, sent, phase, hx⟩⟩

theorem beginStatusStage_moves (round : AnswerRound) (b : Fin 64) (u : State) (left : List (Fin 64)) :
    AnswerStageMoves round b u
      (serveIssuePort (beginStatusStage { u with board := { u.board with firstRound := left } })) := by
  obtain ⟨only, board, -, -⟩ := beginStatusStage_only { u with board := { u.board with firstRound := left } }
  have begins := beginStatusStage_begins left u (pageWhole u)
  exact ⟨only.ofScanner _ u.bus.scanner rfl rfl, by rw [board], .inl (by rw [begins.board])⟩

/-- The second round takes boxes that are left to it only. -/
theorem goSecondRound_moves {start : Nat} (left : List (Fin 64))
    (hs : ∀ y : Fin 64, start ≤ y.val → round = .second → b < y) :
    AnswerStageMoves round b u
      (serveIssuePort (goSecondRound start { u with board := { u.board with firstRound := left } })) := by
  unfold goSecondRound
  split
  · rename_i x rest hl
    have mem : x ∈ secondRoundBoxes u.board start := hl ▸ List.mem_cons_self
    simp only [secondRoundBoxes, dirtyBoxes, List.mem_filter, List.mem_finRange, true_and, Bool.and_eq_true,
      decide_eq_true_eq, Bool.not_eq_true', List.contains_eq_mem, decide_eq_false_iff_not] at mem
    obtain ⟨dirty, from_start, unfaulted⟩ := mem
    exact writeOutcome_moves left (.inr ⟨rfl, dirty, unfaulted, hs x from_start⟩)
  · exact beginStatusStage_moves round b u left

theorem nextAnswer_moves (round : AnswerRound) (b : Fin 64) (u : State) :
    AnswerStageMoves round b u (serveIssuePort (nextAnswer round b u)) := by
  cases round with
  | second => exact goSecondRound_moves u.board.firstRound fun y h _ => h
  | first =>
    show AnswerStageMoves .first b u (serveIssuePort (goFirstRound u))
    unfold goFirstRound
    split
    · rename_i x rest hl
      have mem : x ∈ u.board.firstRound.filter fun i => u.board.boxes[i].dirty := hl ▸ List.mem_cons_self
      obtain ⟨listed, dirty⟩ := List.mem_filter.mp mem
      exact writeOutcome_moves rest (.inl ⟨rfl, rfl, listed, dirty⟩)
    · exact goSecondRound_moves [] nofun

/-- With the scanner's report taken off its slot the stage moves as if it still stood there. -/
theorem nextAnswer_reported_moves (round : AnswerRound) (b : Fin 64) (u : State) :
    AnswerStageMoves round b u (serveIssuePort (nextAnswer round b u.scannerReported)) := by
  obtain ⟨only, board, phase⟩ := nextAnswer_moves round b u.scannerReported
  exact ⟨only.ofScanner u.board .empty rfl rfl, board, phase⟩

theorem nextAnswer_reported_goesOn (h : u.board.firstRound.Pairwise (· < ·)) :
    AnswerStageGoesOn round b u (serveIssuePort (nextAnswer round b u.scannerReported)) :=
  .ofSlot .empty (pageWhole u) (nextAnswer_goesOn round b u.scannerReported h (pageWhole _))

/-! ## An answer that has been written (R151) -/

/-- The box table after an answer's second write: the mark is cleared unless the answer has changed since. -/
def boxesWritten (b : Fin 64) (sent : Option Answer) (s : State) : Vector BoxEntry 64 :=
  if s.board.boxes[b].answer = sent then s.board.boxes.set b { s.board.boxes[b] with dirty := false } else s.board.boxes

/-- A written answer touches the box table and the Event Unit alone. -/
theorem answerWritten_eq (b : Fin 64) (sent : Option Answer) (s : State) :
    answerWritten b sent s =
      { s with
        events := if holdsFinal sent then raiseCause s.regs.intEn .box s.events else s.events
        board := { s.board with boxes := boxesWritten b sent s } } := by
  unfold answerWritten boxesWritten
  dsimp only
  split <;> split <;> rfl

/-- A box that is dirty afterwards was dirty before. -/
theorem boxesWritten_dirty {y : Fin 64} (h : (boxesWritten b sent s)[y].dirty = true) : s.board.boxes[y].dirty = true := by
  unfold boxesWritten at h
  split at h
  · rw [set_get] at h
    split at h
    · cases h
    · exact h
  · exact h

/-- A final answer raises BOX. -/
theorem answerWritten_pending (h : ∃ a, sent = some a ∧ a.outcome ≠ .taken) : isPending .box (answerWritten b sent s) := by
  unfold isPending
  rw [answerWritten_eq, if_pos (holdsFinal_iff.mpr h)]
  exact raise_pending .box s

/-- An answer that is not final raises nothing. -/
theorem answerWritten_quiet (h : ∀ a, sent = some a → a.outcome = .taken) : (answerWritten b sent s).events = s.events := by
  rw [answerWritten_eq]
  refine if_neg fun final => ?_
  obtain ⟨a, rfl, not_taken⟩ := holdsFinal_iff.mp final
  exact not_taken (h a rfl)

theorem exec_answerSecondWriteDone (phase : s.board.phase = .answerSecond round b sent) (issued : s.scannerIssued = true) :
    exec .answerSecondWriteDone s =
      .next (serveIssuePort (nextAnswer round b (answerWritten b sent s).scannerReported)) := by
  show execAnswerSecondWriteDone s = _
  simp only [execAnswerSecondWriteDone, phase, if_pos issued]
  rw [answerWritten_eq, answerWritten_eq]
  rfl

/-- Settles O39: the answer stage goes on from the part with the answer written, and the bytes of an answer. -/
theorem answerIsWritten : Obligations.AnswerIsWritten := by
  refine ⟨fun s round b sent phase issued => ?_, fun a => ⟨outcomeBytes_length _, outcomeBytes_shows a⟩⟩
  let u := answerWritten b sent s
  have u_eq : u = { s with events := u.events, board := { s.board with boxes := boxesWritten b sent s } } := by
    simp only [u, answerWritten_eq]
  have grown : EventsGrow s.regs.intEn s.events u.events := (answerWritten_grows (List.mem_singleton_self _) b sent s).events
  refine ⟨_, exec_answerSecondWriteDone phase issued, ?_⟩
  obtain ⟨only, board, moves⟩ := nextAnswer_reported_moves round b u
  have goesOn := fun lawful : AnswersLawful s =>
    nextAnswer_reported_goesOn (round := round) (b := b) (u := u) (by simpa [u] using lawful.ascending)
  generalize serveIssuePort (nextAnswer round b u.scannerReported) = t at only board moves goesOn ⊢
  have events : t.events = u.events := only.events
  have boxes : t.board.boxes = boxesWritten b sent s := by rw [board, u_eq]
  refine ⟨?_, boxes, ?_, ?_, events ▸ grown, fun final => ?_, fun taken => ?_, ?_, fun lawful => ?_⟩
  · rw [events]
    rw [u_eq] at only
    exact only.ofScanner _ s.bus.scanner rfl rfl
  · rw [board, u_eq]
  · rw [board, u_eq]
  · unfold isPending
    rw [events]
    exact answerWritten_pending final
  · rw [events]
    exact answerWritten_quiet taken
  · refine moves.imp id fun ⟨round', x, sent', phase, left⟩ => ⟨round', x, sent', phase, ?_⟩
    rw [u_eq] at left
    obtain ⟨rfl, rfl, -, dirty⟩ | ⟨rfl, dirty, -, beyond⟩ := left
    · exact ⟨boxesWritten_dirty dirty, nofun⟩
    · exact ⟨boxesWritten_dirty dirty, fun second => ⟨rfl, beyond second⟩⟩
  · rw [events, boxes, ← u_eq]
    exact goesOn lawful

/-! ## An answer write that fails (R151, R161 to R163) -/

/-- The part with the fault of box `b`'s answer write counted and the box set aside. -/
def answerFaulted (b : Fin 64) (s : State) : State :=
  { s.busFault .scanner with board := { s.board with faulted := b :: s.board.faulted } }

theorem exec_answerWriteFault (phase : s.board.phase = .answerFirst round b sent ∨ s.board.phase = .answerSecond round b sent)
    (issued : s.scannerIssued = true) :
    exec .answerWriteFault s = .next (serveIssuePort (nextAnswer round b (answerFaulted b s).scannerReported)) := by
  show execAnswerWriteFault s = _
  obtain first | second := phase
  · simp only [execAnswerWriteFault, first, if_pos issued]
    rfl
  · simp only [execAnswerWriteFault, second, if_pos issued]
    rfl

/-- Settles O40: the answer stage goes on from the part with the box set aside. -/
theorem answerFaultKeepsDirty : Obligations.AnswerFaultKeepsDirty := by
  intro s round b sent phase issued apart
  obtain ⟨raised, grown⟩ := busFault_raises .scanner s
  refine ⟨_, exec_answerWriteFault phase issued, ?_⟩
  obtain ⟨only, board, moves⟩ := nextAnswer_reported_moves round b (answerFaulted b s)
  have goesOn := fun lawful : AnswersLawful s =>
    nextAnswer_reported_goesOn (round := round) (b := b) (u := answerFaulted b s) lawful.ascending
  generalize serveIssuePort (nextAnswer round b (answerFaulted b s).scannerReported) = t at only board moves goesOn ⊢
  have events : t.events = (s.busFault .scanner).events := only.events
  refine ⟨?_, ?_, events ▸ grown, by rw [board]; rfl, by rw [board]; rfl, by rw [board]; rfl, by rw [board]; rfl, ?_,
    fun lawful => ?_⟩
  · rw [events]
    exact only.ofScanner _ s.bus.scanner rfl rfl
  · unfold isPending
    rw [events]
    exact raised
  · refine moves.imp id fun ⟨round', x, sent', phase, left⟩ => ⟨round', x, sent', phase, ?_⟩
    obtain ⟨-, -, listed, dirty⟩ | ⟨-, dirty, unfaulted, -⟩ := left
    · exact ⟨fun same => apart (same ▸ listed), dirty⟩
    · exact ⟨fun same => unfaulted (same ▸ List.mem_cons_self), dirty⟩
  · rw [events]
    exact goesOn lawful

/-! ## The end of the scan (R145, R146, R154) -/

/-- The part with the scan over and the follow-up, if one was recorded, about to be requested. -/
def scanEnded (u : State) : State :=
  { u with
    bus := { u.bus with scanner := .empty }
    board := { u.board with phase := .idle, followUp := false } }

theorem endScan_eq (u : State) :
    endScan u.scannerReported = if u.board.followUp = true then requestScan (scanEnded u) else scanEnded u := rfl

/-- With the scanner's burst off the link nothing waits that did not wait before. -/
theorem PortServed.scanEnded (h : PortServed u) : PortServed (scanEnded u) :=
  h.imp id fun ⟨_, exporter, loader⟩ => ⟨rfl, exporter, loader⟩

/-- The scan is over, and one more has begun exactly if a follow-up was recorded and a scan can run. -/
structure ScanOver (u t : State) : Prop where
  only : OnlyScanner u t
  counts : t.counts = u.counts
  boxes : t.board.boxes = u.board.boxes
  rotation : t.board.rotation = u.board.rotation
  followUp : t.board.followUp = false
  again : u.board.followUp = true → u.canScan = true →
    t.board.phase = .hostPost u.board.rotation ∧ t.board.examined = 0 ∧ t.board.taken = 0
  rests : ¬(u.board.followUp = true ∧ u.canScan = true) → t.board.phase = .idle ∧ t.bus.scanner = .empty

/-- The follow-up's scan begins. -/
theorem startScan_over (recorded : u.board.followUp = true) (can : u.canScan = true) :
    ScanOver u (serveIssuePort (startScan (scanEnded u))) := by
  obtain ⟨only, board, counts, -⟩ := startScan_served (scanEnded u)
  exact ⟨only.ofScanner _ .empty rfl rfl, counts, by rw [board]; rfl, by rw [board]; rfl, by rw [board]; rfl,
    fun _ _ => by rw [board]; exact ⟨rfl, rfl, rfl⟩, fun rests => absurd ⟨recorded, can⟩ rests⟩

theorem scanEnded_over (rests : ¬(u.board.followUp = true ∧ u.canScan = true)) : ScanOver u (scanEnded u) :=
  ⟨by constructor <;> rfl, rfl, rfl, rfl, rfl, fun recorded can => absurd ⟨recorded, can⟩ rests, fun _ => ⟨rfl, rfl⟩⟩

theorem endScan_over (served : PortServed u) : ScanOver u (serveIssuePort (endScan u.scannerReported)) := by
  rw [endScan_eq]
  by_cases recorded : u.board.followUp = true
  · rw [if_pos recorded]
    by_cases can : u.canScan = true
    · rw [requestScan_starts (s := scanEnded u) can rfl]
      exact startScan_over recorded can
    · rw [requestScan_dropped (s := scanEnded u) (Bool.eq_false_iff.mpr can), serveIssuePort_of_served served.scanEnded]
      exact scanEnded_over fun h => can h.2
  · rw [if_neg recorded, serveIssuePort_of_served served.scanEnded]
    exact scanEnded_over fun h => recorded h.1

/-- Either report ends the scan: in the part as it finds it, or with the fault counted and FAULT raised (R162). -/
theorem exec_statusPageReport {c : Instr} (hc : c ∈ [Instr.statusPageWriteDone, .statusPageWriteFault])
    (phase : s.board.phase = .statusPage) (issued : s.scannerIssued = true) :
    ∃ u, exec c s = .next (serveIssuePort (endScan u.scannerReported)) ∧ (PortServed s → PortServed u) ∧
      u = { s with events := u.events, bus := { s.bus with scannerFaults := u.bus.scannerFaults } } ∧
      (c = .statusPageWriteDone → u.events = s.events ∧ u.bus.scannerFaults = s.bus.scannerFaults) ∧
      (c = .statusPageWriteFault → isPending .fault u ∧ EventsGrow s.regs.intEn s.events u.events ∧
        u.bus.scannerFaults = min (s.bus.scannerFaults + 1) 4294967295) := by
  simp only [List.mem_cons, List.not_mem_nil, or_false] at hc
  obtain rfl | rfl := hc
  · exact ⟨s, if_pos ⟨phase, issued⟩, id, rfl, fun _ => ⟨rfl, rfl⟩, nofun⟩
  · obtain ⟨raised, grown⟩ := busFault_raises .scanner s
    exact ⟨s.busFault .scanner, if_pos ⟨phase, issued⟩, id, rfl, nofun, fun _ => ⟨raised, grown, rfl⟩⟩

/-- Settles O41: what either report makes of the part, and the end of the scan there. -/
theorem statusPageEndsScan : Obligations.StatusPageEndsScan := by
  intro s served phase issued c hc
  obtain ⟨u, executed, served_u, u_eq, done, fault⟩ := exec_statusPageReport hc phase issued
  refine ⟨_, executed, ?_⟩
  obtain ⟨only, counts, boxes, rotation, followUp, again, rests⟩ := endScan_over (served_u served)
  generalize serveIssuePort (endScan u.scannerReported) = t at only counts boxes rotation followUp again rests ⊢
  have events : t.events = u.events := only.events
  have faults : t.bus.scannerFaults = u.bus.scannerFaults := only.scannerFaults
  have pending : isPending .fault t ↔ isPending .fault u := by
    unfold isPending
    rw [events]
  have canScan : u.canScan = s.canScan := by rw [u_eq]; rfl
  have board : u.board = s.board := by rw [u_eq]
  have same : u.counts = s.counts := by rw [u_eq]
  rw [board] at boxes rotation again rests
  rw [canScan, canScan_iff] at again rests
  rw [pending, events, faults, ← u_eq]
  exact ⟨done, fault, only, counts.trans same, boxes, rotation, followUp, fun ⟨recorded, can⟩ => again recorded can, rests⟩

end Sys2Proof.Machine
end

section
/-! PROOFS. Every command completes and leaves the queue of the commands that wait, the endpoint's message-enabled input and
the state of the link alone (O2). -/

namespace Sys2Proof.Machine

variable {s t : State} {o o' : Host.Outcome State Fault Refusal}

/-! ## Completing

Every meaning ends in `next`, and what it answers is a composition of operations that leave the queue alone. -/

/-- A command answers a next state, with the queue as it was. -/
def Completes (s : State) (o : Host.Outcome State Fault Refusal) : Prop := ∃ t, o = .next t ∧ t.pending = s.pending

theorem Completes.next (h : t.pending = s.pending) : Completes s (.next t) := ⟨t, rfl, h⟩

/-- A command that cannot occur in the state is completed without effect (log 1). -/
theorem Completes.idle (s : State) : Completes s (.next s) := .next rfl

/-- A command that acts under a condition completes, if it does so either way. -/
theorem Completes.ite {p : Prop} [Decidable p] (h : Completes s o) (h' : Completes s o') : Completes s (if p then o else o') := by
  split
  · exact h
  · exact h'

/-- A command that acts under a condition, and otherwise is without effect. -/
theorem Completes.guarded {p : Prop} [Decidable p] (h : t.pending = s.pending) :
    Completes s (if p then .next t else .next s) := .ite (.next h) (.idle s)

/-- Errors that arise in local DRAM do not touch the queue. -/
theorem Completes.upset {us : List Upset} (h : Completes (s.applyUpsets us) o) : Completes s o := h

/-! ## Resets and registers -/

theorem controlWrite_pending (v : Word) (s : State) : (controlWrite v s).pending = s.pending := by
  unfold controlWrite
  split
  · rfl
  · split <;> rfl

theorem execScrubComplete_completes (s : State) : Completes s (execScrubComplete s) := .guarded rfl

theorem execWindowBaseWrite_completes (half : WordHalf) (v : Word) (s : State) :
    Completes s (execWindowBaseWrite half v s) := .ite (.next (by simp)) (.next rfl)

theorem execWindowSizeWrite_completes (v : Word) (us : List Upset) (s : State) :
    Completes s (execWindowSizeWrite v us s) := .ite (.next (by simp)) (.next rfl)

/-! ## Ports and passes -/

theorem execCarrierLoss_completes (p : Fin 4) (us : List Upset) (s : State) : Completes s (execCarrierLoss p us s) :=
  .ite (.next (by simp)) (.next (by simp))

theorem readPilotSample_pending (r : PassRecord) (pilot : List Int) (finished : List (List (Option Int)))
    (reading : List (Option Int)) (s : State) : (readPilotSample r pilot finished reading s).pending = s.pending := by
  unfold readPilotSample
  split
  · rename_i u v hu
    obtain rfl : (readPilot (pilotWordAt r.pages pilot.length) s).1 = u := congrArg Prod.fst hu
    simp
  · rename_i u hu
    obtain rfl : (readPilot (pilotWordAt r.pages pilot.length) s).1 = u := congrArg Prod.fst hu
    simp

theorem execPilotSampleRead_completes (us : List Upset) (s : State) : Completes s (execPilotSampleRead us s) := by
  refine .upset (us := us) ?_
  unfold execPilotSampleRead
  dsimp only
  split
  · exact .guarded (readPilotSample_pending ..)
  · exact .idle _

theorem execRawSampleRead_completes (us : List Upset) (s : State) : Completes s (execRawSampleRead us s) := by
  refine .upset (us := us) ?_
  unfold execRawSampleRead
  dsimp only
  split
  · exact .guarded (by simp)
  · exact .idle _

theorem execComputeEnd_completes (s : State) : Completes s (execComputeEnd s) := by
  unfold execComputeEnd
  split
  · exact .guarded rfl
  · exact .idle s

theorem execTraceApply_completes (us : List Upset) (s : State) : Completes s (execTraceApply us s) := by
  refine .upset (us := us) ?_
  unfold execTraceApply
  dsimp only
  split
  · split <;> exact .next (by simp)
  · exact .idle _

/-! ## The board scan -/

theorem execHostPostReadDone_completes (post : Byte) (s : State) : Completes s (execHostPostReadDone post s) := by
  unfold execHostPostReadDone
  split
  · exact .guarded (by simp)
  · exact .idle s

theorem execBodyReadDone_completes (body : List Byte) (s : State) : Completes s (execBodyReadDone body s) := by
  unfold execBodyReadDone
  split
  · exact .guarded (by simp)
  · exact .idle s

theorem execTornRead_completes (cause : TornCause) (s : State) : Completes s (execTornRead cause s) := by
  cases cause <;> exact .guarded (by simp)

theorem execBaselinePostRecheckDone_completes (post : Byte) (s : State) :
    Completes s (execBaselinePostRecheckDone post s) := by
  unfold execBaselinePostRecheckDone
  split
  · exact .ite (.ite (.next (by simp)) (.next (by simp))) (.idle s)
  · exact .idle s

theorem execAnswerFirstWriteDone_completes (s : State) : Completes s (execAnswerFirstWriteDone s) := by
  unfold execAnswerFirstWriteDone
  split
  · exact .guarded (by simp)
  · exact .idle s

theorem execAnswerSecondWriteDone_completes (s : State) : Completes s (execAnswerSecondWriteDone s) := by
  unfold execAnswerSecondWriteDone
  split
  · exact .guarded (by simp)
  · exact .idle s

theorem execAnswerWriteFault_completes (s : State) : Completes s (execAnswerWriteFault s) := by
  unfold execAnswerWriteFault
  split
  · exact .guarded (by simp)
  · exact .guarded (by simp)
  · exact .idle s

theorem execStatusPageWriteDone_completes (s : State) : Completes s (execStatusPageWriteDone s) := .guarded (by simp)

theorem execStatusPageWriteFault_completes (s : State) : Completes s (execStatusPageWriteFault s) := .guarded (by simp)

/-! ## The other bursts -/

theorem execBurstHandedOver_completes (s : State) : Completes s (execBurstHandedOver s) := .guarded (by simp)

theorem execExportBurstDone_completes (us : List Upset) (s : State) : Completes s (execExportBurstDone us s) := by
  refine .upset (us := us) ?_
  unfold execExportBurstDone
  dsimp only
  split
  · exact .next (by simp)
  · exact .idle _

theorem execExportBurstFault_completes (us : List Upset) (s : State) : Completes s (execExportBurstFault us s) := by
  refine .upset (us := us) ?_
  unfold execExportBurstFault
  dsimp only
  split
  · exact .next (by simp)
  · exact .idle _

theorem execPilotBurstDone_completes (data : List Byte) (s : State) : Completes s (execPilotBurstDone data s) := by
  unfold execPilotBurstDone
  split
  · exact .guarded (by simp)
  · exact .idle s

theorem execPilotBurstFault_completes (data : List Byte) (s : State) : Completes s (execPilotBurstFault data s) := by
  unfold execPilotBurstFault
  split
  · exact .next (by simp)
  · exact .idle s

/-- A timeout completes for each of the three requesters, of which the exporter reads nothing (R160). -/
theorem execReadCompletionTimeout_completes (r : Requester) (data : List Byte) (s : State) :
    Completes s (execReadCompletionTimeout r data s) := by
  unfold execReadCompletionTimeout
  split
  · exact .guarded (by simp)
  · exact .idle s
  · split
    · exact .guarded (by simp)
    · exact .idle s

/-! ## The orders -/

/-- The take of an order leaves the queue alone, if its owner and what follows its answer do (R148 to R150). -/
theorem takeOrder_pending {kind : Option OrderKind} {owner : Fin 64 → Byte → List Byte → State → Verdict}
    {after : State → State} {post : Byte} (ho : ∀ b body u t a, owner b post body u = some (t, a) → t.pending = u.pending)
    (ha : ∀ u, (after u).pending = u.pending) : (takeOrder kind owner after post s).pending = s.pending := by
  obtain e | e | ⟨b, body, t, a, -, -, taken, e⟩ := takeOrder_cases kind owner after post s <;> rw [e]
  · simp
  · simp [ha, ho _ _ _ _ _ taken]

section owners
variable {b : Fin 64} {post : Byte} {body : List Byte} {a : Answer}

theorem ownConfigure_pending (h : ownConfigure b post body s = some (t, a)) : t.pending = s.pending := by
  obtain rfl | ⟨-, _, _, _, _, rfl⟩ := ownConfigure_does h <;> simp

theorem ownEndRecording_pending (h : ownEndRecording b post body s = some (t, a)) : t.pending = s.pending := by
  obtain rfl | ⟨-, -, rfl⟩ := ownEndRecording_does h <;> simp

theorem ownLoadPilot_pending (h : ownLoadPilot b post body s = some (t, a)) : t.pending = s.pending := by
  obtain rfl | ⟨_, rfl⟩ := ownLoadPilot_does h <;> simp

theorem ownDropPilot_pending (h : ownDropPilot b post body s = some (t, a)) : t.pending = s.pending := by
  obtain rfl | ⟨_, rfl⟩ := ownDropPilot_does h <;> simp

theorem ownSweep_pending (h : ownSweep b post body s = some (t, a)) : t.pending = s.pending := by
  obtain rfl | ⟨_, _, _, _, -, -, -, rfl⟩ := ownSweep_does h <;> simp

theorem ownCancel_pending (h : ownCancel b post body s = some (t, a)) : t.pending = s.pending := by
  obtain rfl | ⟨_, rfl⟩ := ownCancel_does h <;> simp

theorem ownFleetOrder_pending (h : ownFleetOrder b post body s = some (t, a)) : t.pending = s.pending := by
  obtain rfl | ⟨_, _, _, rfl⟩ := ownFleetOrder_does h <;> rfl

theorem ownOpenBin_pending (h : ownOpenBin b post body s = some (t, a)) : t.pending = s.pending := by
  obtain rfl | ⟨-, _, _, -, -, rfl⟩ := ownOpenBin_does h <;> simp

theorem ownCloseBin_pending (h : ownCloseBin b post body s = some (t, a)) : t.pending = s.pending := by
  obtain rfl | ⟨_, _, _, -, -, rfl⟩ := ownCloseBin_does h <;> simp

theorem ownDiscardBin_pending (h : ownDiscardBin b post body s = some (t, a)) : t.pending = s.pending := by
  obtain rfl | ⟨_, _, -, -, rfl⟩ := ownDiscardBin_does h <;> simp

end owners

/-! ## All commands -/

/-- Every command completes and leaves the queue alone. -/
theorem exec_completes (c : Instr) (s : State) : Completes s (exec c s) := by
  have same (u : State) : (id u).pending = u.pending := rfl
  have arbitrated (u : State) : (arbitrate u).pending = u.pending := by simp
  cases c with
  | powerOnReset => exact .next rfl
  | fullReset v => exact .next (controlWrite_pending v s)
  | workReset v => exact .next (controlWrite_pending v s)
  | scanEnIntEnWrite v => exact .next (controlWrite_pending v s)
  | nudge v => exact .next (by simp)
  | windowBaseWrite half v => exact execWindowBaseWrite_completes half v s
  | windowSizeWrite v us => exact execWindowSizeWrite_completes v us s
  | eventPendingWrite v => exact .next rfl
  | eventMaskWrite v => exact .next rfl
  | registerWriteIgnored => exact .idle s
  | scrubComplete => exact execScrubComplete_completes s
  | scanTimerExpiry => exact .next (by simp)
  | frameArrival p bytes us => exact .next (by simp)
  | carrierLoss p us => exact execCarrierLoss_completes p us s
  | carrierPresent p => exact .next rfl
  | pilotSampleRead us => exact execPilotSampleRead_completes us s
  | rawSampleRead us => exact execRawSampleRead_completes us s
  | computeEnd => exact execComputeEnd_completes s
  | traceApply us => exact execTraceApply_completes us s
  | burstHandedOver => exact execBurstHandedOver_completes s
  | readCompletionTimeout r data => exact execReadCompletionTimeout_completes r data s
  | hostPostReadDone post => exact execHostPostReadDone_completes post s
  | bodyReadDone body => exact execBodyReadDone_completes body s
  | tornRead cause => exact execTornRead_completes cause s
  | baselinePostRecheckDone post => exact execBaselinePostRecheckDone_completes post s
  | badKind post => exact .next (takeOrder_pending (fun _ _ _ _ _ h => refuse_same h ▸ rfl) same)
  | configure post => exact .next (takeOrder_pending (fun _ _ _ _ _ => ownConfigure_pending) same)
  | endRecording post => exact .next (takeOrder_pending (fun _ _ _ _ _ => ownEndRecording_pending) same)
  | loadPilot post => exact .next (takeOrder_pending (fun _ _ _ _ _ => ownLoadPilot_pending) same)
  | dropPilot post => exact .next (takeOrder_pending (fun _ _ _ _ _ => ownDropPilot_pending) same)
  | sweep post us => exact .upset (us := us) (.next (takeOrder_pending (fun _ _ _ _ _ => ownSweep_pending) arbitrated))
  | cancel post us => exact .upset (us := us) (.next (takeOrder_pending (fun _ _ _ _ _ => ownCancel_pending) same))
  | fleetOrder post us =>
    exact .upset (us := us) (.next (takeOrder_pending (fun _ _ _ _ _ => ownFleetOrder_pending) arbitrated))
  | openBin post => exact .next (takeOrder_pending (fun _ _ _ _ _ => ownOpenBin_pending) same)
  | closeBin post us => exact .upset (us := us) (.next (takeOrder_pending (fun _ _ _ _ _ => ownCloseBin_pending) same))
  | discardBin post => exact .next (takeOrder_pending (fun _ _ _ _ _ => ownDiscardBin_pending) same)
  | answerFirstWriteDone => exact execAnswerFirstWriteDone_completes s
  | answerSecondWriteDone => exact execAnswerSecondWriteDone_completes s
  | answerWriteFault => exact execAnswerWriteFault_completes s
  | statusPageWriteDone => exact execStatusPageWriteDone_completes s
  | statusPageWriteFault => exact execStatusPageWriteFault_completes s
  | exportBurstDone us => exact execExportBurstDone_completes us s
  | exportBurstFault us => exact execExportBurstFault_completes us s
  | pilotBurstDone data => exact execPilotBurstDone_completes data s
  | pilotBurstFault data => exact execPilotBurstFault_completes data s

/-! ## The endpoint's input and the link -/

/-- The endpoint's message-enabled input and the state of the link are as they were (log 11). -/
def SameEndpoint (s t : State) : Prop :=
  t.events.messageEnabled = s.events.messageEnabled ∧ t.events.linkUp = s.events.linkUp

/-- No write to CONTROL touches them, the full reset that it may be included (log 28). -/
theorem controlWrite_endpoint (v : Word) (s : State) : SameEndpoint s (controlWrite v s) := by
  unfold controlWrite
  split
  · exact ⟨rfl, rfl⟩
  · split <;> simp [SameEndpoint, setEnables, workReset]

/-- A command that only raises causes leaves them alone (`exec_raises`), and so do the resets and the writes to the event
registers and CONTROL. -/
theorem exec_endpoint {c : Instr} (e : exec c s = .next t) : SameEndpoint s t := by
  cases c with
  | powerOnReset => exact Host.Outcome.next.inj e ▸ ⟨rfl, rfl⟩
  | fullReset v => exact Host.Outcome.next.inj e ▸ controlWrite_endpoint v s
  | workReset v => exact Host.Outcome.next.inj e ▸ controlWrite_endpoint v s
  | scanEnIntEnWrite v => exact Host.Outcome.next.inj e ▸ controlWrite_endpoint v s
  | eventPendingWrite v =>
    cases e
    simp [SameEndpoint, clearCauses]
  | eventMaskWrite v =>
    cases e
    simp [SameEndpoint, replaceMask]
  | _ =>
    have raised := exec_raises (by simp) (by simp) e
    exact ⟨raised.events.enabled, raised.events.link⟩

/-- Settles O2: every command completes with its queue, and by `exec_endpoint` with the input and the link. -/
theorem everyCommandCompletes : Obligations.EveryCommandCompletes := by
  intro c s
  obtain ⟨t, executed, queue⟩ := exec_completes c s
  exact ⟨t, executed, queue, exec_endpoint executed⟩

end Sys2Proof.Machine
end

section
/-! PROOFS. The event registers (O11, O12), and what register reads return and ignored writes do (O13). -/

namespace Sys2Proof.Machine

/-! ## The signalled set and the messages of a write (R171 to R173) -/

/-- Nothing is signalled just when every pending cause is masked (11.2). -/
theorem signalled_eq_zero_iff (e : EventUnit) :
    signalled e = 0 ↔ ∀ i < 5, e.pending.getLsbD i = true → e.mask.getLsbD i = true := by
  have bits : signalled e = 0 ↔ ∀ i < 5, (signalled e).getLsbD i = false :=
    ⟨fun none i _ => by simp [none], fun none => BitVec.eq_of_getLsbD_eq fun i hi => by simp [none i hi]⟩
  rw [bits]
  refine forall₂_congr fun i hi => ?_
  simp [signalled, hi]

theorem signalled_ne_zero_iff (e : EventUnit) :
    signalled e ≠ 0 ↔ ∃ i < 5, e.pending.getLsbD i = true ∧ e.mask.getLsbD i = false := by
  rw [ne_eq, signalled_eq_zero_iff]
  simp

/-- One message goes if the condition holds, and else none, whatever becomes of the pending set and the mask (R171). -/
theorem sendIf_goes (c : Bool) (e : EventUnit) (pending mask : BitVec 5) :
    MessagesGo (if c = true then 1 else 0) e (sendIf c { e with pending := pending, mask := mask }) := by
  cases c with
  | true => exact ⟨rfl, (sendMessage_goes _).lost⟩
  | false => exact ⟨rfl, by simp [sendIf]⟩

/-- The messages of an operation that sends one just if `P`, in the words of O11 and O12. -/
theorem MessagesGo.one_iff {c : Bool} {P : Prop} {e f : EventUnit} (h : MessagesGo (if c = true then 1 else 0) e f)
    (hc : c = true ↔ P) : (∃ n, MessagesGo n e f) ∧ (P → f.messagesSent = e.messagesSent + 1) ∧
      (¬P → f.messagesSent = e.messagesSent) :=
  ⟨⟨_, h⟩, fun sends => h.sent.trans (by rw [if_pos (hc.mpr sends)]),
    fun silent => h.sent.trans (by rw [if_neg (mt hc.mp silent)]; rfl)⟩

/-! ## EVENT_PENDING (R172) -/

theorem clearCauses_pending_getLsbD (intEn : Bool) (v : Word) (e : EventUnit) {i : Nat} (hi : i < 5) :
    (clearCauses intEn v e).pending.getLsbD i = (e.pending.getLsbD i && !v.getLsbD i) := by
  simp [clearCauses, hi]

theorem clearCauses_keeps (intEn : Bool) (v : Word) (e : EventUnit) :
    (clearCauses intEn v e).mask = e.mask ∧ (clearCauses intEn v e).messageEnabled = e.messageEnabled ∧
      (clearCauses intEn v e).linkUp = e.linkUp := by
  simp [clearCauses]

/-- A cause is signalled after the write if it was pending, was not written 1 and is not masked. -/
theorem clearCauses_sends_iff (intEn : Bool) (v : Word) (e : EventUnit) :
    (intEn && signalled { e with pending := e.pending &&& ~~~v.setWidth 5 } != 0) = true ↔ intEn = true ∧
      ∃ i < 5, e.pending.getLsbD i = true ∧ v.getLsbD i = false ∧ e.mask.getLsbD i = false := by
  rw [Bool.and_eq_true, bne_iff_ne, signalled_ne_zero_iff]
  refine and_congr_right fun _ => exists_congr fun i => and_congr_right fun hi => ?_
  simp [hi, and_assoc]

/-- Settles O11: the message is that of the causes that the write leaves signalled. -/
theorem eventPendingWriteClears : Obligations.EventPendingWriteClears := by
  intro v s
  obtain ⟨mask, enabled, link⟩ := clearCauses_keeps s.regs.intEn v s.events
  exact ⟨{ s with events := clearCauses s.regs.intEn v s.events }, rfl, rfl,
    fun _ => clearCauses_pending_getLsbD s.regs.intEn v s.events, mask, enabled, link,
    (sendIf_goes _ s.events _ s.events.mask).one_iff (clearCauses_sends_iff s.regs.intEn v s.events)⟩

/-! ## EVENT_MASK (R173) -/

theorem replaceMask_mask_getLsbD (intEn : Bool) (v : Word) (e : EventUnit) {i : Nat} (hi : i < 5) :
    (replaceMask intEn v e).mask.getLsbD i = v.getLsbD i := by
  simp [replaceMask, hi]

theorem replaceMask_keeps (intEn : Bool) (v : Word) (e : EventUnit) :
    (replaceMask intEn v e).pending = e.pending ∧ (replaceMask intEn v e).messageEnabled = e.messageEnabled ∧
      (replaceMask intEn v e).linkUp = e.linkUp := by
  simp [replaceMask]

/-- The write makes the signalled set non-empty if no cause was signalled and a pending one is written 0. -/
theorem replaceMask_sends_iff (intEn : Bool) (v : Word) (e : EventUnit) :
    (intEn && signalled e == 0 && signalled { e with mask := v.setWidth 5 } != 0) = true ↔ intEn = true ∧
      (∀ i < 5, e.pending.getLsbD i = true → e.mask.getLsbD i = true) ∧
        ∃ i < 5, e.pending.getLsbD i = true ∧ v.getLsbD i = false := by
  rw [Bool.and_eq_true, Bool.and_eq_true, beq_iff_eq, bne_iff_ne, signalled_eq_zero_iff, signalled_ne_zero_iff, and_assoc]
  refine and_congr_right fun _ => and_congr_right fun _ => exists_congr fun i => and_congr_right fun hi => ?_
  simp [hi]

/-- Settles O12: the write by `replaceMask`, the resets by what they make of the Event Unit. -/
theorem eventMaskWriteReplaces : Obligations.EventMaskWriteReplaces := by
  refine ⟨fun v s => ?_, fun _ => rfl, fun s => ⟨powerOn s, rfl, rfl⟩, fun v s full => ?_, fun v s work => ?_⟩
  · obtain ⟨pending, enabled, link⟩ := replaceMask_keeps s.regs.intEn v s.events
    exact ⟨{ s with events := replaceMask s.regs.intEn v s.events }, rfl, rfl,
      fun _ => replaceMask_mask_getLsbD s.regs.intEn v s.events, pending, enabled, link,
      (sendIf_goes _ s.events s.events.pending _).one_iff (replaceMask_sends_iff s.regs.intEn v s.events)⟩
  · exact ⟨fullReset s, congrArg Host.Outcome.next (if_pos full), rfl⟩
  · exact ⟨controlWrite v s, rfl, (controlWrite_causes (by rw [work]; decide) s).1⟩

/-! ## Register reads (R174, 13.6) -/

theorem readRegister_otherWidth {offset width : Nat} (h : width ≠ 32) (s : State) : readRegister offset width s = 0 :=
  if_pos h

theorem readRegister_noRegister {offset : Nat} (h : 0x20 < offset ∨ offset % 4 ≠ 0) (s : State) :
    readRegister offset 32 s = 0 := by
  unfold readRegister
  rw [if_neg (not_not_intro rfl)]
  split
  case h_10 => rfl
  all_goals omega

theorem flag_eq_toNat_mul (b : Bool) (n : Nat) : (if b = true then n else 0) = n * b.toNat := by cases b <;> simp

/-- A flag stands at the position of a word at which the word's number has it as a digit. -/
theorem getLsbD_eq_of_digit {x : Word} {i : Nat} {b : Bool} (h : x.toNat / 2 ^ i % 2 = b.toNat) : x.getLsbD i = b := by
  rw [BitVec.getLsbD, Nat.testBit_eq_decide_div_mod_eq, h]
  cases b <;> rfl

/-- So does a field of several bits. -/
theorem extractLsb'_eq_of_digits {x : Word} {start len : Nat} {field : BitVec len}
    (h : x.toNat / 2 ^ start % 2 ^ len = field.toNat) : x.extractLsb' start len = field := by
  apply BitVec.eq_of_toNat_eq
  rw [BitVec.extractLsb'_toNat, Nat.shiftRight_eq_div_pow, h]

theorem getLsbD_eq_false_of_lt {x : Word} {i k : Nat} (hx : x.toNat < 2 ^ k) (hi : k ≤ i) : x.getLsbD i = false :=
  Nat.testBit_lt_two_pow (hx.trans_le (Nat.pow_le_pow_right Nat.two_pos hi))

/-- CONTROL as a number: the flags with their weights (13.6). -/
theorem controlValue_toNat (s : State) : (controlValue s).toNat = s.regs.scanEn.toNat + 2 * s.regs.intEn.toNat := by
  have scanEn := s.regs.scanEn.toNat_lt
  have intEn := s.regs.intEn.toNat_lt
  rw [controlValue, BitVec.toNat_ofNat, flag_eq_toNat_mul, flag_eq_toNat_mul]
  omega

theorem controlValue_flags (s : State) : (controlValue s).getLsbD 0 = s.regs.scanEn ∧
    (controlValue s).getLsbD 1 = s.regs.intEn ∧ ∀ i, 2 ≤ i → (controlValue s).getLsbD i = false := by
  have number := controlValue_toNat s
  have scanEn := s.regs.scanEn.toNat_lt
  have intEn := s.regs.intEn.toNat_lt
  exact ⟨getLsbD_eq_of_digit (by omega), getLsbD_eq_of_digit (by omega), fun _ => getLsbD_eq_false_of_lt (by omega)⟩

theorem DeviceState.code_lt (d : DeviceState) : d.code < 4 := by cases d <;> decide

/-- STATE as a number: the fields with their weights (13.6). -/
theorem stateValue_toNat (s : State) : (stateValue s).toNat =
    s.device.code + 4 * s.scanBusy.toNat + 8 * (windowValid s.regs).toNat + 16 * s.moverBusy.toNat +
      256 * s.resetEpoch.toNat := by
  have code := s.device.code_lt
  have scanBusy := s.scanBusy.toNat_lt
  have valid := (windowValid s.regs).toNat_lt
  have moverBusy := s.moverBusy.toNat_lt
  have epoch := s.resetEpoch.isLt
  rw [stateValue, BitVec.toNat_ofNat, flag_eq_toNat_mul, flag_eq_toNat_mul, flag_eq_toNat_mul]
  omega

/-- Each field of STATE at its position (13.6). -/
theorem stateValue_fields (s : State) :
    ((stateValue s).extractLsb' 0 2).toNat = s.device.code ∧ (stateValue s).getLsbD 2 = s.scanBusy ∧
      (stateValue s).getLsbD 3 = windowValid s.regs ∧ (stateValue s).getLsbD 4 = s.moverBusy ∧
      (stateValue s).extractLsb' 5 3 = 0 ∧ (stateValue s).extractLsb' 8 8 = s.resetEpoch ∧
      (stateValue s).extractLsb' 16 16 = 0 := by
  have number := stateValue_toNat s
  have code := s.device.code_lt
  have scanBusy := s.scanBusy.toNat_lt
  have valid := (windowValid s.regs).toNat_lt
  have moverBusy := s.moverBusy.toNat_lt
  have epoch := s.resetEpoch.isLt
  have device : (stateValue s).extractLsb' 0 2 = BitVec.ofNat 2 s.device.code :=
    extractLsb'_eq_of_digits (by rw [BitVec.toNat_ofNat]; omega)
  have zeros (start len : Nat) (h : (stateValue s).toNat / 2 ^ start % 2 ^ len = 0) :
      (stateValue s).extractLsb' start len = 0#len := extractLsb'_eq_of_digits h
  exact ⟨by rw [device, BitVec.toNat_ofNat, Nat.mod_eq_of_lt code], getLsbD_eq_of_digit (by omega),
    getLsbD_eq_of_digit (by omega), getLsbD_eq_of_digit (by omega), zeros 5 3 (by omega),
    extractLsb'_eq_of_digits (by omega), zeros 16 16 (by omega)⟩

/-- EVENT_PENDING reads the pending causes at their positions and 0 beyond them (13.6). -/
theorem readRegister_eventPending (s : State) :
    (∀ i < 5, (readRegister 0x1C 32 s).getLsbD i = s.events.pending.getLsbD i) ∧
      ∀ i, 5 ≤ i → (readRegister 0x1C 32 s).getLsbD i = false := by
  have read : readRegister 0x1C 32 s = s.events.pending.setWidth 32 := rfl
  refine ⟨fun i hi => ?_, fun i hi => ?_⟩ <;> rw [read, BitVec.getLsbD_setWidth]
  · rw [decide_eq_true (by omega), Bool.true_and]
  · rw [BitVec.getLsbD_of_ge _ _ hi, Bool.and_false]

theorem scanBusy_eq_decide (s : State) : s.scanBusy = decide (s.board.phase ≠ .idle) := by
  rw [State.scanBusy, bne, decide_not, beq_eq_decide]

/-- Settles O13: each read is a field of the value that 13.6 gives the register. -/
theorem registerAccesses : Obligations.RegisterAccesses := by
  refine ⟨fun _ _ _ _ => rfl, fun s => ?_⟩
  obtain ⟨scanEn, intEn, noReset⟩ := controlValue_flags s
  obtain ⟨device, scanBusy, rest⟩ := stateValue_fields s
  obtain ⟨pending, noCause⟩ := readRegister_eventPending s
  exact ⟨rfl, rfl, fun _ _ h => readRegister_otherWidth h s, fun _ h => readRegister_noRegister h s, rfl, rfl, rfl,
    pending, noCause, scanEn, intEn, noReset, device, scanBusy.trans (scanBusy_eq_decide s), rest⟩

end Sys2Proof.Machine
end

section
/-! PROOFS. The queue of commands: a step at a queue that begins with a command, and at an empty one (O1). -/

namespace Sys2Proof.Machine

theorem step_of_pending_cons {s : State} {c : Instr} {rest : List Instr} (h : s.pending = c :: rest) :
    step s = exec c { s with pending := rest } := by
  rw [step, h]

theorem step_of_pending_nil {s : State} (h : s.pending = []) : step s = .next s := by
  rw [step, h]

/-- Settles O1: the two forms of the queue. -/
theorem stepRunsFrontCommand : Obligations.StepRunsFrontCommand :=
  ⟨fun _ _ _ => step_of_pending_cons, fun _ => step_of_pending_nil⟩

end Sys2Proof.Machine
end
